-- ==== Sys2Proof/Word.lean ====
section
/-! DEFINITION. The words of the block: the widths that spec/00_scope.md (rules R5 to R10, R13) and
spec/10_state.md give its registers, and the one distinguished node id. Everything is unsigned (R14). -/

namespace Sys2Proof

/-- One byte of a stream, of `INBUF`, and of `rbuf`/`wbuf` (R13, R21, R22). -/
abbrev Byte := BitVec 8

/-- A host register as the bus shows it: 32 bits (R35, R38). -/
abbrev HostWord := BitVec 32

/-- A command word: `op` in bits 39:32, `arg` in bits 31:0 (R90). -/
abbrev CmdWord := BitVec 40

/-- A node id: 9 bits, 0 to 510 name a record, 0x1FF names none (R7, R26). -/
abbrev NodeId := BitVec 9

/-- The container of a `CNT_W`-bit count, `CNT_W` being at most 32 (R5). A count of the machine is below
`2 ^ CNT_W`; that it stays so is part of the model's invariant. -/
abbrev Count := BitVec 32

/-- The container of a `W_W`-bit weight, `W_W` = `CNT_W` + 8 being at most 40 (R6). -/
abbrev Weight := BitVec 40

/-- What the table port moves: wide enough for the widest entry, a `CODE` entry of 263 bits (R70, R102). -/
abbrev Entry := BitVec 263

/-- `NONE`, the 9-bit node id that names no node (R7, R105). -/
def NONE : NodeId := 0x1FF#9

end Sys2Proof
end

