-- ==== Sys2Proof/Config.lean ====
section
/-! DEFINITION. What an implementation fixes: the fixed capacities (spec/00_scope.md rule R7), the OPEN
parameters `CNT_W`, `TIE`, `INBUF_CAP` (rules R5, R8, R9; the table that ends spec/92_eei_decisions.md), and
the free values, constants without a body, that stand for what the spec leaves without a value. -/

namespace Sys2Proof.Config

/-- `NODE_CAP`, the number of node records (R7). -/
def nodeCap : Nat := 511

/-- `PQ_CAP`, the number of queue slots (R7). -/
def pqCap : Nat := 256

/-- The number of entries of `FREQ` and of `CODE` (R25, R29). -/
def symbolCount : Nat := 256

/-- The greatest number of edges `BUILDCODES` goes down (R188). -/
def maxDepth : Nat := 255

/-- The tie-break rule `TIE` of one block (R8, R160): the reference instance `TIE_REF`, or another admitted
rule, named by a number. What another rule does is `tieChoice`, of which nothing is known. -/
inductive TieRule where
  | ref
  | other (n : Nat)
deriving DecidableEq, Repr

/-- One queue operation since the last clear, with the key value it met: the history that `TIE` may look at
(R160). The weight of an insert is what the node's record held then, if anything did. -/
inductive PqEvent where
  | inserted (id : NodeId) (weight : Option Weight)
  | deletedMin
deriving DecidableEq, Repr

/-- The parameters of one block (R39): no operation changes them. -/
structure Params where
  cntW     : Nat
  inbufCap : Nat
  tie      : TieRule
deriving DecidableEq, Repr

/-- `W_W` = `CNT_W` + 8 (R6). -/
def Params.wW (p : Params) : Nat := p.cntW + 8

/-- The greatest count, 2^`CNT_W` - 1 (R9, R98). -/
def Params.maxCount (p : Params) : Nat := 2 ^ p.cntW - 1

/-- The constraints of R5 and R9 on the parameters. -/
def Params.wf (p : Params) : Bool :=
  decide (9 ≤ p.cntW) && decide (p.cntW ≤ 32) && decide (1 ≤ p.inbufCap) && decide (p.inbufCap ≤ p.maxCount)

/-- The parameters of the reset state: `CNT_W` = 32 (R5, "Value taken"), `TIE_REF` (R8), and a capacity of
65536 bytes, which the spec leaves open (DESIGN CHOICE, notes/assumptions/4.md). -/
def defaultParams : Params := { cntW := 32, inbufCap := 65536, tie := .ref }

/-- FREE VALUE. Which of the minimum-weight items the tie-break rule number `n` returns after a queue history:
an index, taken modulo the number of such items (R160; notes/assumptions/3.md). -/
opaque tieChoice : Nat → List PqEvent → Nat

/-- FREE VALUE. The read position of `SRC` after a `SrcRead()` that failed (R61, U1; notes/assumptions/6.md). -/
opaque srcPosAfterFailure : Nat → Nat

/-- FREE VALUE. What `SNK` holds beyond the last successful write after a `SnkWrite(b)` that failed (R62, U2;
notes/assumptions/7.md). -/
opaque snkTailAfterFailure : Nat → List Byte

/-- FREE VALUE. How the tie-break rule number `n` leaves the queued ids arranged in `HEAP` after a queue history,
from the arrangement before: the draws `drawOut` makes, each taken modulo the number of ids still to place. Under
a rule other than `TIE_REF` only the multiset of queued ids is architectural (R28; notes/assumptions/9.md). -/
opaque heapOrder : Nat → List PqEvent → List NodeId → Nat → Nat

end Sys2Proof.Config
end

