-- ==== Sys2Proof/Syntax.lean ====
section
/-! DEFINITION. The 28 operations of spec/opcode_table.json (spec/30_encoding.md rule R91), one constructor a
row, in the table's order. Only `WRBIT`, `WRBYTE`, `WRINT` and `PQINS` use the operand `arg` (R90); the others
ignore it (R93). -/

namespace Sys2Proof

/-- An operation of the block, with its operand where it takes one (R91). -/
inductive Instr where
  /-- R250 -/
  | nop
  /-- R251 -/
  | clrerr
  /-- R252 -/
  | sreset
  /-- R130 -/
  | ropen
  /-- R131 -/
  | rclose
  /-- R132 -/
  | rdbit
  /-- R133 -/
  | rdbyte
  /-- R134 -/
  | rdint
  /-- R135 -/
  | wopen
  /-- R136 -/
  | wclose
  /-- R137: the bit to write -/
  | wrbit (arg : HostWord)
  /-- R138: the byte to write -/
  | wrbyte (arg : HostWord)
  /-- R139: the word to write -/
  | wrint (arg : HostWord)
  /-- R140 -/
  | flush
  /-- R162 -/
  | pqclr
  /-- R163: the node id to insert -/
  | pqins (arg : HostWord)
  /-- R164 -/
  | pqdelmin
  /-- R165 -/
  | pqsize
  /-- R166 -/
  | pqempty
  /-- R180 -/
  | buildtree
  /-- R185 -/
  | buildcodes
  /-- R200 -/
  | parsehdr
  /-- R201 -/
  | walk
  /-- R206 -/
  | decompress
  /-- R230 -/
  | countfreq
  /-- R231 -/
  | wrhdr
  /-- R232 -/
  | encode
  /-- R233 -/
  | compress
deriving DecidableEq, Repr

end Sys2Proof
end

