-- ==== Sys2Proof/Machine/State.lean ====
section
/-! DEFINITION. The state of the machine as plain data: the architectural state of spec/10_state.md rule R20,
grouped as that file groups it; the parameters and the environment of its rule R39 (`SRC`, `SNK`, the choice of
which stream access fails, the host's script), which a step function of one argument has to hold; and the
reset values of rule R40. -/

namespace Sys2Proof.Machine

/-- A table: index and entry pairs, indices strictly rising (R60). An index not listed holds no value: nothing
has written it since hard reset (R40, U9). -/
abbrev Memory (α : Type) := List (Nat × α)

/-- The five tables a host can name (R60, R70). -/
inductive Space where
  | freq | node | heap | code | inbuf
deriving DecidableEq, Repr

/-- Field `kind` of a node record (R26). -/
inductive NodeKind where
  | internal | leaf
deriving DecidableEq, Repr

/-- A node record (R26, R103). A host may write any combination of fields. -/
structure Node where
  kind   : NodeKind
  symbol : Byte
  weight : Weight
  left   : NodeId
  right  : NodeId
deriving DecidableEq, Repr

/-- A code: its bits, first bit (nearest the root) first; empty means no code (R29, R102). -/
abbrev Code := List Bool

/-- The errors of R260. -/
inductive ErrCode where
  | ioFailure | malformedHeader | parseError | invalidArgument | illegalCommand | illegalState
deriving DecidableEq, Repr

/-- The bit-reader registers (R21, R23). -/
structure Reader where
  rbuf  : Byte
  rcnt  : BitVec 4
  ropen : Bool
deriving DecidableEq, Repr

/-- The bit-writer registers (R22, R23, R24). -/
structure Writer where
  wbuf   : Byte
  wcnt   : BitVec 3
  wopen  : Bool
  snkCnt : BitVec 64
deriving DecidableEq, Repr

/-- The five tables (R25, R26, R28, R29, R30). -/
structure Tables where
  freq  : Memory Count
  node  : Memory Node
  heap  : Memory NodeId
  code  : Memory Code
  inbuf : Memory Byte
deriving DecidableEq, Repr

/-- Counters and pointers (R26, R27, R28, R30 to R34). -/
structure Counters where
  nnodes  : BitVec 10
  root    : NodeId
  hsize   : BitVec 9
  inlen   : Count
  osize   : Count
  nsym    : Count
  decoded : Count
  cur     : NodeId
deriving DecidableEq, Repr

/-- The host registers (R35 to R37). `STATUS` is `err`, `eos`, `empty` here and `ropen`, `wopen` above, each bit
stored once (R36). -/
structure Regs where
  cmd     : BitVec 8
  arg     : HostWord
  result  : HostWord
  err     : Bool
  eos     : Bool
  empty   : Bool
  errcode : BitVec 4
deriving DecidableEq, Repr

/-- The model's record of the queue's history since the last clear (R160), and whether every queued node still
has the weight it was inserted with, as far as the host's writes go (R161, R303). -/
structure QueueLog where
  hist   : List Config.PqEvent
  intact : Bool
deriving DecidableEq, Repr

/-- What the host does between operations: issue a command word (R90, R254), access a register by index (R38) or
a table entry (R70), present a source at a read position or a sink (R12, R293), reset the block (R290). -/
inductive HostEvent where
  | command (w : CmdWord)
  | regRead (idx : Nat)
  | regWrite (idx : Nat) (v : HostWord)
  | tblRead (sp : Space) (idx : Nat)
  | tblWrite (sp : Space) (idx : Nat) (v : Entry)
  | presentSrc (bytes : List Byte) (pos : Nat)
  | presentSnk (bytes : List Byte)
  | hardReset
deriving DecidableEq, Repr

/-- The environment (R12, R39), none of it state of the block: the source and its read position, the sink, the
draws that say which of the coming stream accesses fail (R76; `true` fails, an exhausted list lets them
succeed), the counter that picks the next free value, the host's script, and what the last host read showed. -/
structure Env where
  src     : List Byte
  srcPos  : Nat
  snk     : List Byte
  draws   : List Bool
  freeCtr : Nat
  script  : List HostEvent
  busData : Entry
deriving DecidableEq, Repr

/-- The state of the machine. -/
structure State where
  rd  : Reader
  wr  : Writer
  tab : Tables
  ctr : Counters
  reg : Regs
  pq  : QueueLog
  par : Config.Params
  env : Env
deriving DecidableEq, Repr

/-- Why the machine stops. Each is safe: the machine stops where the spec gives no result. -/
inductive Fault where
  /-- A read of a table entry that nothing has written since hard reset: "no defined result", `stuck`
  (U9, R40, R190). Raised by every read of a table. Safe. -/
  | unwrittenEntry (sp : Space) (idx : Nat)
  /-- The record of the id 0x1FF, which names none (R7, R104), was asked for. Raised by the queue when a host
  has put that id into a `HEAP` slot. Safe. -/
  | noSuchNode
  /-- A delete-min after the host rewrote the weight of a queued node: the spec defines no order, `stuck`
  (U11, R161, R303). Raised by the queue. Safe. -/
  | queueKeyRewritten
  /-- A loop's bound was met. Never raised (an obligation says so): every operation ends (R302). Safe. -/
  | loopBound
deriving DecidableEq, Repr

/-- Why an instruction has no meaning in the model. -/
inductive Refusal where
  /-- An operation the model does not give a meaning yet. No arm of `exec` answers so. Safe. -/
  | notModelled (mnemonic : String)
deriving DecidableEq, Repr

/-- Column "hard reset" of R40, bit reader. -/
def Reader.reset : Reader := { rbuf := 0#8, rcnt := 0#4, ropen := false }

/-- Column "hard reset" of R40, bit writer. -/
def Writer.reset : Writer := { wbuf := 0#8, wcnt := 0#3, wopen := false, snkCnt := 0#64 }

/-- Column "hard reset" of R40, tables: every entry unspecified. -/
def Tables.reset : Tables := { freq := [], node := [], heap := [], code := [], inbuf := [] }

/-- Column "hard reset" of R40, counters and pointers. -/
def Counters.reset : Counters :=
  { nnodes := 0#10, root := NONE, hsize := 0#9, inlen := 0#32, osize := 0#32, nsym := 0#32, decoded := 0#32
    cur := NONE }

/-- Column "hard reset" of R40, host registers. -/
def Regs.reset : Regs :=
  { cmd := 0#8, arg := 0#32, result := 0#32, err := false, eos := false, empty := false, errcode := 0#4 }

/-- An empty queue has no history, and no node of it was rewritten. -/
def QueueLog.reset : QueueLog := { hist := [], intact := true }

/-- The environment before the host has done anything: no byte presented, no access set to fail, no script
(DESIGN CHOICE, notes/assumptions/2.md). -/
def Env.reset : Env :=
  { src := [], srcPos := 0, snk := [], draws := [], freeCtr := 0, script := [], busData := 0#263 }

/-- The machine right after hard reset (R40, R290), with the default parameters. -/
def State.reset : State :=
  { rd := .reset, wr := .reset, tab := .reset, ctr := .reset, reg := .reset, pq := .reset
    par := Config.defaultParams, env := .reset }

end Sys2Proof.Machine
end

