-- ==== Sys2Proof/Machine/Ops.lean ====
section
/-! DEFINITION. The named operations every meaning is built from: table reads and writes, the one way to change a
group of registers, results that may raise, taking an error and leaving it (spec/60_exceptions.md rules R269,
R271), and the stream primitives `SrcRead()` and `SnkWrite(b)` (spec/20_memory.md rules R61, R62, R76). -/

namespace Sys2Proof.Machine

/-- What a step of the machine answers. -/
abbrev Out := Host.Outcome State Fault Refusal

/-! ### Tables (R60, R70) -/

/-- What an index that no entry lists reads as: no value (R40, U9). -/
def Memory.unlisted {α : Type} : Option α := none

/-- `MemRead(T, i, 1)`: the entry at an index, if something has written it (R13). -/
def Memory.read {α : Type} : Memory α → Nat → Option α
  | [], _ => Memory.unlisted
  | (k, v) :: m, i => if k = i then some v else Memory.read m i

/-- `MemWrite(T, i, 1, v)` (R13), keeping the indices strictly rising. -/
def Memory.write {α : Type} : Memory α → Nat → α → Memory α
  | [], i, v => [(i, v)]
  | (k, w) :: m, i, v =>
    if i < k then (i, v) :: (k, w) :: m
    else if i = k then (i, v) :: m
    else (k, w) :: Memory.write m i v

/-- The table whose entries 0 to `n`-1 all hold `v`: how an operation clears a table (R292). -/
def Memory.fill {α : Type} (n : Nat) (v : α) : Memory α := (List.range n).map fun i => (i, v)

/-- The canonical form: indices strictly rising. (No entry can equal what an unlisted index reads as, which is
no value.) -/
def Memory.wf {α : Type} : Memory α → Bool
  | [] => true
  | [_] => true
  | (k, _) :: (l, w) :: m => decide (k < l) && Memory.wf ((l, w) :: m)

/-- Every listed index is below the table's size (R60). -/
def Memory.within {α : Type} (m : Memory α) (n : Nat) : Bool := m.all fun e => decide (e.1 < n)

/-- A table read inside an operation; an entry nothing has written stops the machine (U9). -/
def readEntry {α : Type} (sp : Space) (m : Memory α) (i : Nat) : Except Fault α :=
  match m.read i with
  | some v => .ok v
  | none => .error (.unwrittenEntry sp i)

/-- The record a node id names (R26). -/
def readNode (node : Memory Node) (id : NodeId) : Except Fault Node :=
  if id = NONE then .error .noSuchNode else readEntry .node node id.toNat

/-- `w(id)`, the key of the queue (R104, R160). -/
def nodeWeight (node : Memory Node) (id : NodeId) : Except Fault Weight := do
  let n ← readNode node id
  return n.weight

/-! ### Writing registers and tables -/

/-- Write the bit-reader registers. -/
def State.setRd (s : State) (x : Reader) : State := { s with rd := x }
/-- Write the bit-writer registers. -/
def State.setWr (s : State) (x : Writer) : State := { s with wr := x }
/-- Write the tables. -/
def State.setTab (s : State) (x : Tables) : State := { s with tab := x }
/-- Write the counters and pointers. -/
def State.setCtr (s : State) (x : Counters) : State := { s with ctr := x }
/-- Write the host registers. -/
def State.setReg (s : State) (x : Regs) : State := { s with reg := x }
/-- Write the queue's record. -/
def State.setPq (s : State) (x : QueueLog) : State := { s with pq := x }
/-- Change the environment. -/
def State.setEnv (s : State) (x : Env) : State := { s with env := x }

/-- `RESULT <- v` (R35). -/
def State.setResult (s : State) (v : HostWord) : State := s.setReg { s.reg with result := v }
/-- `ARG <- v` (R35). -/
def State.setArg (s : State) (v : HostWord) : State := s.setReg { s.reg with arg := v }
/-- `CMD <- v` (R35). -/
def State.setCmd (s : State) (v : BitVec 8) : State := s.setReg { s.reg with cmd := v }

/-! ### Results that may raise -/

/-- How a piece of an operation's pseudocode ends: with a value, or by `raise E` at that point, all effects before
it standing (R269), or stopped because the spec gives no result. -/
inductive Res (α : Type) where
  | ok (a : α) (s : State)
  | raised (e : ErrCode) (s : State)
  | stop (f : Fault)
deriving DecidableEq, Repr

/-- Do one piece and then the next, unless the first raises or stops. -/
def Res.andThen {α β : Type} (r : Res α) (k : α → State → Res β) : Res β :=
  match r with
  | .ok a s => k a s
  | .raised e s => .raised e s
  | .stop f => .stop f

/-- A computation that cannot raise, inside an operation. -/
def Res.lift {α : Type} (r : Except Fault α) (s : State) : Res α :=
  match r with
  | .ok a => .ok a s
  | .error f => .stop f

/-! ### Taking an error and leaving it -/

/-- Column "code" of R260. -/
def ErrCode.code : ErrCode → BitVec 4
  | .ioFailure => 1#4
  | .malformedHeader => 2#4
  | .parseError => 3#4
  | .invalidArgument => 4#4
  | .illegalCommand => 5#4
  | .illegalState => 6#4

/-- TAKING AN ERROR: `ERRCODE` <- the code of `E`, `STATUS.ERR` <- 1, and nothing else (R269). -/
def raiseError (e : ErrCode) (s : State) : State := s.setReg { s.reg with err := true, errcode := e.code }

/-- LEAVING the error state: `STATUS.ERR` <- 0, `ERRCODE` <- 0 (R251, R271). -/
def acknowledge (s : State) : State := s.setReg { s.reg with err := false, errcode := 0#4 }

/-- The end of an operation: an error it raised is recorded (R269). -/
def finish (r : Res Unit) : Out :=
  match r with
  | .ok _ s => .next s
  | .raised e s => .next (raiseError e s)
  | .stop f => .fault f

/-- Apply a change to the next state, if there is one. -/
def mapNext (f : State → State) (o : Out) : Out :=
  match o with
  | .next s => .next (f s)
  | .fault r => .fault r
  | .refused r => .refused r

/-! ### The streams (R61, R62, R76) -/

/-- Whether the coming stream access or acquisition fails: the head of the draws (R76). -/
def State.accessFails (s : State) : Bool := s.env.draws.headD false

/-- Use up one draw. -/
def State.useDraw (s : State) : State := s.setEnv { s.env with draws := s.env.draws.tail }

/-- The bytes of `SRC` not yet taken. -/
def State.srcLeft (s : State) : List Byte := s.env.src.drop s.env.srcPos

/-- `SrcRead()` (R61): the next byte of `SRC`, or `none` for `EOS`. After a failure the read position is free
(U1), within the source. -/
def srcRead (s : State) : Res (Option Byte) :=
  let t := s.useDraw
  if s.accessFails then
    .raised .ioFailure (t.setEnv { t.env with
      srcPos := min (Config.srcPosAfterFailure t.env.freeCtr) t.env.src.length
      freeCtr := t.env.freeCtr + 1 })
  else
    match t.env.src[t.env.srcPos]? with
    | some b => .ok (some b) (t.setEnv { t.env with srcPos := t.env.srcPos + 1 })
    | none => .ok none t

/-- `SnkWrite(b)` (R62): append `b` to `SNK` and count it. After a failure `SNK` has some free tail beyond the
last successful write (U2) and `snk_cnt` has not grown. -/
def snkWrite (b : Byte) (s : State) : Res Unit :=
  let t := s.useDraw
  if s.accessFails then
    .raised .ioFailure (t.setEnv { t.env with
      snk := t.env.snk ++ Config.snkTailAfterFailure t.env.freeCtr
      freeCtr := t.env.freeCtr + 1 })
  else
    .ok () ((t.setEnv { t.env with snk := t.env.snk ++ [b] }).setWr { t.wr with snkCnt := t.wr.snkCnt + 1#64 })

/-- The acquisition of a stream (R130, R135): it may fail at the environment's choice (R76). -/
def acquire (s : State) : Res Unit :=
  if s.accessFails then .raised .ioFailure s.useDraw else .ok () s.useDraw

/-- `emit(bytes)` (R231): each byte in order. -/
def emit : List Byte → State → Res Unit
  | [], s => .ok () s
  | b :: bs, s => (snkWrite b s).andThen fun _ t => emit bs t

/-! ### Bits (R63, R64) -/

/-- Take the next undelivered bit of `rbuf` (second half of `ReadBit()`, R132): "the bit at the new value of
rcnt". -/
def deliverBit (s : State) : Res (Option Bool) :=
  let c := s.rd.rcnt - 1#4
  .ok (some (s.rd.rbuf.getLsbD c.toNat)) (s.setRd { s.rd with rcnt := c })

/-- `ReadBit()` (R132): `none` is `EOS`. -/
def readBit (s : State) : Res (Option Bool) :=
  if s.rd.rcnt = 0#4 then
    (srcRead s).andThen fun r t =>
      match r with
      | none => .ok none t
      | some b => deliverBit (t.setRd { t.rd with rbuf := b, rcnt := 8#4 })
  else deliverBit s

/-- `WriteBit(b)` (R137). The buffer is emptied before the eighth bit's byte is written. -/
def writeBit (b : Bool) (s : State) : Res Unit :=
  let byte := (s.wr.wbuf <<< 1) ||| (BitVec.ofBool b).setWidth 8
  if s.wr.wcnt = 7#3 then
    snkWrite byte (s.setWr { s.wr with wbuf := 0#8, wcnt := 0#3 })
  else
    .ok () (s.setWr { s.wr with wbuf := byte, wcnt := s.wr.wcnt + 1#3 })

/-- The bits of one codeword, first bit first (R232). -/
def writeBits : List Bool → State → Res Unit
  | [], s => .ok () s
  | b :: bs, s => (writeBit b s).andThen fun _ t => writeBits bs t

/-- `Flush()` (R140): a partial byte is written left-aligned, its low bits zero. -/
def flushBits (s : State) : Res Unit :=
  if s.wr.wcnt = 0#3 then .ok () s
  else
    snkWrite (s.wr.wbuf <<< (8 - s.wr.wcnt.toNat)) (s.setWr { s.wr with wbuf := 0#8, wcnt := 0#3 })

/-! ### The host's script -/

/-- Take the next event off the host's script. -/
def State.popScript (s : State) (rest : List HostEvent) : State := s.setEnv { s.env with script := rest }

end Sys2Proof.Machine
end

