-- ==== Sys2Proof/Machine/Flags.lean ====
section
/-! DEFINITION. `STATUS` (spec/10_state.md rule R36) as the host reads it, and the result flags `EOS` and
`EMPTY`: what sets and what clears them. -/

namespace Sys2Proof.Machine

/-- The byte `STATUS` shows: `ERR`, `EOS`, `EMPTY`, `ROPEN`, `WOPEN` in bits 0 to 4, bits 7 to 5 zero (R36). -/
def State.status (s : State) : BitVec 8 :=
  0#3 ++ BitVec.ofBool s.wr.wopen ++ BitVec.ofBool s.rd.ropen ++ BitVec.ofBool s.reg.empty
    ++ BitVec.ofBool s.reg.eos ++ BitVec.ofBool s.reg.err

/-- `STATUS.EOS <- 0; STATUS.EMPTY <- 0`, the prelude's clearing of the result flags (R254). -/
def clearResultFlags (s : State) : State := s.setReg { s.reg with eos := false, empty := false }

/-- `STATUS.EOS <- 1` (R36). -/
def setEos (s : State) : State := s.setReg { s.reg with eos := true }

/-- `RESULT <- 0xFFFFFFFF; STATUS.EOS <- 1`, the end-of-stream sentinel (R105, R132 to R134). -/
def eosSentinel (s : State) : State := (setEos s).setResult 0xFFFFFFFF#32

/-- `RESULT <- 0x000001FF; STATUS.EMPTY <- 1`, the empty-queue sentinel (R105, R164). -/
def emptySentinel (s : State) : State := (s.setReg { s.reg with empty := true }).setResult 0x000001FF#32

end Sys2Proof.Machine
end

