-- ==== Sys2Proof/Machine/System.lean ====
section
/-! DEFINITION. Command issue, the prelude of every operation (spec/45_system.md rule R254), hard reset
(spec/70_reset_and_hazards.md rule R290), and the system operations `NOP`, `CLRERR`, `SRESET`. -/

namespace Sys2Proof.Machine

/-- The prelude, then the operation's own rule (R254): dropped while an error is pending, otherwise the result
flags are cleared first. For every operation but `NOP`, `CLRERR` and `SRESET`. -/
def issue (body : State → Res Unit) (s : State) : Out :=
  if s.reg.err then .next s else finish (body (clearResultFlags s))

/-- The issue of an operation that takes an operand: the host writes `ARG` first, a bus access that is performed
even while an error is pending (R90, R253, R254). -/
def issueArg (arg : HostWord) (body : State → Res Unit) (s : State) : Out := issue body (s.setArg arg)

/-- The issue of an unassigned command code: `raise IllegalCommand` after the prelude (R92, R254). -/
def illegalCommand (s : State) : Out := issue (.raised .illegalCommand ·) s

/-- Hard reset (R290): every register and counter at its reset value, the tables unspecified. The parameters and
the environment are no state of the block (R39). -/
def hardReset (s : State) : State := { State.reset with par := s.par, env := s.env }

/-- Column "SRESET" of R40: hard reset but for the tables (R291). -/
def softReset (s : State) : State := (hardReset s).setTab s.tab

/-- `NOP` (R250): nothing, not even to the result flags. -/
def execNop (s : State) : Out := .next s

/-- `CLRERR` (R251), the prelude having cleared the result flags. -/
def execClrerr (s : State) : Out := .next (acknowledge (clearResultFlags s))

/-- `SRESET` (R252): the streams are released without a flush. -/
def execSreset (s : State) : Out := .next (softReset s)

end Sys2Proof.Machine
end

