-- ==== Sys2Proof/Machine/BitIo.lean ====
section
/-! DEFINITION. Bit-stream I/O (spec/40_bitio.md): the pseudocode of each operation after the prelude, and its
meaning, which is the prelude and then that pseudocode. -/

namespace Sys2Proof.Machine

/-- `ROPEN` (R130). -/
def ropenBody (s : State) : Res Unit :=
  if s.rd.ropen then .raised .illegalState s
  else (acquire s).andThen fun _ t => .ok () (t.setRd { rbuf := 0#8, rcnt := 0#4, ropen := true })

/-- `RCLOSE` (R131): buffered bits are discarded. -/
def rcloseBody (s : State) : Res Unit :=
  if s.rd.ropen then .ok () (s.setRd { rbuf := 0#8, rcnt := 0#4, ropen := false })
  else .raised .illegalState s

/-- `RDBIT` (R132). -/
def rdbitBody (s : State) : Res Unit :=
  if s.rd.ropen then
    (readBit s).andThen fun r t =>
      match r with
      | none => .ok () (eosSentinel t)
      | some b => .ok () (t.setResult ((BitVec.ofBool b).setWidth 32))
  else .raised .illegalState s

/-- The precondition of a byte-granular read: the source held and no bit buffered (R68). -/
def State.canReadBytes (s : State) : Bool := s.rd.ropen && decide (s.rd.rcnt = 0#4)

/-- The precondition of a byte-granular write: the sink held and no bit buffered (R68). -/
def State.canWriteBytes (s : State) : Bool := s.wr.wopen && decide (s.wr.wcnt = 0#3)

/-- `RDBYTE` (R133). -/
def rdbyteBody (s : State) : Res Unit :=
  if s.canReadBytes then
    (srcRead s).andThen fun r t =>
      match r with
      | none => .ok () (eosSentinel t)
      | some b => .ok () (t.setResult (b.setWidth 32))
  else .raised .illegalState s

/-- The loop of `RDINT` (R134): `k` more bytes, each entering at the low end; `none` when the source ended. -/
def readBytes : Nat → HostWord → State → Res (Option HostWord)
  | 0, v, s => .ok (some v) s
  | k + 1, v, s =>
    (srcRead s).andThen fun r t =>
      match r with
      | none => .ok none t
      | some b => readBytes k ((v <<< 8) ||| b.setWidth 32) t

/-- `RDINT` (R134): four bytes, the first read in bits 31 to 24 (R65). -/
def rdintBody (s : State) : Res Unit :=
  if s.canReadBytes then
    (readBytes 4 0#32 s).andThen fun r t =>
      match r with
      | none => .ok () (eosSentinel t)
      | some v => .ok () (t.setResult v)
  else .raised .illegalState s

/-- `WOPEN` (R135). -/
def wopenBody (s : State) : Res Unit :=
  if s.wr.wopen then .raised .illegalState s
  else (acquire s).andThen fun _ t =>
    .ok () (t.setWr { wbuf := 0#8, wcnt := 0#3, wopen := true, snkCnt := 0#64 })

/-- Release the sink (R136). -/
def releaseSink (s : State) : State := s.setWr { s.wr with wopen := false }

/-- `WCLOSE` (R136): the sink is released even when the flush fails. -/
def wcloseBody (s : State) : Res Unit :=
  if s.wr.wopen then
    match flushBits s with
    | .ok _ t => .ok () (releaseSink t)
    | .raised e t => .raised e (releaseSink t)
    | .stop f => .stop f
  else .raised .illegalState s

/-- `WRBIT` (R137): state before operand before action. -/
def wrbitBody (s : State) : Res Unit :=
  if s.wr.wopen then
    if s.reg.arg.toNat ≤ 1 then writeBit (s.reg.arg.getLsbD 0) s else .raised .invalidArgument s
  else .raised .illegalState s

/-- `WRBYTE` (R138). -/
def wrbyteBody (s : State) : Res Unit :=
  if s.canWriteBytes then
    if s.reg.arg.toNat ≤ 255 then snkWrite (s.reg.arg.extractLsb' 0 8) s else .raised .invalidArgument s
  else .raised .illegalState s

/-- The four bytes of a word, most significant first (R65). -/
def wordBytes (v : HostWord) : List Byte :=
  [v.extractLsb' 24 8, v.extractLsb' 16 8, v.extractLsb' 8 8, v.extractLsb' 0 8]

/-- `WRINT` (R139). -/
def wrintBody (s : State) : Res Unit :=
  if s.canWriteBytes then emit (wordBytes s.reg.arg) s else .raised .illegalState s

/-- `FLUSH` (R140). -/
def flushBody (s : State) : Res Unit :=
  if s.wr.wopen then flushBits s else .raised .illegalState s

/-- `ROPEN`. -/
def execRopen (s : State) : Out := issue ropenBody s
/-- `RCLOSE`. -/
def execRclose (s : State) : Out := issue rcloseBody s
/-- `RDBIT`. -/
def execRdbit (s : State) : Out := issue rdbitBody s
/-- `RDBYTE`. -/
def execRdbyte (s : State) : Out := issue rdbyteBody s
/-- `RDINT`. -/
def execRdint (s : State) : Out := issue rdintBody s
/-- `WOPEN`. -/
def execWopen (s : State) : Out := issue wopenBody s
/-- `WCLOSE`. -/
def execWclose (s : State) : Out := issue wcloseBody s
/-- `WRBIT`. -/
def execWrbit (arg : HostWord) (s : State) : Out := issueArg arg wrbitBody s
/-- `WRBYTE`. -/
def execWrbyte (arg : HostWord) (s : State) : Out := issueArg arg wrbyteBody s
/-- `WRINT`. -/
def execWrint (arg : HostWord) (s : State) : Out := issueArg arg wrintBody s
/-- `FLUSH`. -/
def execFlush (s : State) : Out := issue flushBody s

end Sys2Proof.Machine
end

