-- ==== Sys2Proof/Machine/Operands.lean ====
section
/-! DEFINITION. The forms values take outside the registers: header numerals (spec/30_encoding.md rules R95,
R98), header lines (R94, R96, R97, R99), and the packed table entries of the table port (R102, R103, R104). -/

namespace Sys2Proof.Machine

/-! ### Header text -/

/-- `\n` (R94). -/
def newline : Byte := 0x0A#8
/-- The space between symbol and frequency (R94). -/
def space : Byte := 0x20#8
/-- `ORIGINAL_SIZE=` (R94). -/
def kwOriginalSize : List Byte :=
  [0x4F#8, 0x52#8, 0x49#8, 0x47#8, 0x49#8, 0x4E#8, 0x41#8, 0x4C#8, 0x5F#8, 0x53#8, 0x49#8, 0x5A#8, 0x45#8, 0x3D#8]
/-- `SYMBOLS=` (R94). -/
def kwSymbols : List Byte := [0x53#8, 0x59#8, 0x4D#8, 0x42#8, 0x4F#8, 0x4C#8, 0x53#8, 0x3D#8]
/-- `END_HEADER` (R94). -/
def kwEndHeader : List Byte :=
  [0x45#8, 0x4E#8, 0x44#8, 0x5F#8, 0x48#8, 0x45#8, 0x41#8, 0x44#8, 0x45#8, 0x52#8]

/-- The ASCII code of a decimal digit (R94). -/
def digitByte (d : Nat) : Byte := BitVec.ofNat 8 (0x30 + d)

/-- The digits of `n` in front of those already made. The first argument bounds the number of digits. -/
def decDigits : Nat → Nat → List Byte → List Byte
  | 0, _, acc => acc
  | k + 1, n, acc =>
    if n < 10 then digitByte n :: acc else decDigits k (n / 10) (digitByte (n % 10) :: acc)

/-- `dec(v)`: the decimal numeral of `v`, no leading zero, `"0"` for zero (R95). -/
def dec (v : Nat) : List Byte := decDigits (v + 1) v []

/-- The value of a digit byte, 0x30 to 0x39 (R98). -/
def digitValue (b : Byte) : Option Nat :=
  if 0x30 ≤ b.toNat ∧ b.toNat ≤ 0x39 then some (b.toNat - 0x30) else none

/-- The decimal value of a string of digits after the value of those before it; `none` at a byte that is no
digit (R98). -/
def digitsValue : List Byte → Nat → Option Nat
  | [], v => some v
  | b :: bs, v =>
    match digitValue b with
    | some d => digitsValue bs (10 * v + d)
    | none => none

/-- `parseUint(s)` with the greatest value allowed; `none` is `raise ParseError` (R98). -/
def parseUint (max : Nat) (s : List Byte) : Option Nat :=
  match s with
  | [] => none
  | b :: bs =>
    match digitsValue (b :: bs) 0 with
    | some v => if v ≤ max then some v else none
    | none => none

/-- The five classes of header line, with what is left of the line (R97). -/
inductive HeaderLine where
  | blank
  | sentinel
  | originalSize (rest : List Byte)
  | symbols (rest : List Byte)
  | pair (line : List Byte)
deriving DecidableEq, Repr

/-- Line classification: the first class that applies, in the order of R97. -/
def classifyLine (line : List Byte) : HeaderLine :=
  if line = [] then .blank
  else if line = kwEndHeader then .sentinel
  else if kwOriginalSize.isPrefixOf line then .originalSize (line.drop kwOriginalSize.length)
  else if kwSymbols.isPrefixOf line then .symbols (line.drop kwSymbols.length)
  else .pair line

/-- A pair line: split at the first space, symbol at most 255, frequency a count; `none` is `raise ParseError`
(R99). -/
def parsePair (max : Nat) (line : List Byte) : Option (Nat × Nat) :=
  if space ∈ line then
    match parseUint max (line.takeWhile (· != space)), parseUint max ((line.dropWhile (· != space)).drop 1) with
    | some sym, some f => if sym ≤ 255 then some (sym, f) else none
    | _, _ => none
  else none

/-- One pair line as `WRHDR` emits it (R94). -/
def pairLine (e : Nat × Count) : List Byte := dec e.1 ++ [space] ++ dec e.2.toNat ++ [newline]

/-- The header of an original size and the symbols present with their frequencies (R94). -/
def headerText (size : Nat) (pairs : List (Nat × Count)) : List Byte :=
  kwOriginalSize ++ dec size ++ [newline] ++ (kwSymbols ++ dec pairs.length ++ [newline])
    ++ pairs.flatMap pairLine ++ (kwEndHeader ++ [newline])

/-! ### Packed entries of the table port -/

/-- A natural number as the table port shows it, zero-extended (R70). -/
def toEntry (v : Nat) : Entry := BitVec.ofNat 263 v

/-- Bit 26 of a packed node record (R103). -/
def NodeKind.bit : NodeKind → Nat
  | .internal => 0
  | .leaf => 1

/-- A node record packed as R103 lays it out. -/
def Node.pack (n : Node) : Entry :=
  toEntry (n.weight.toNat <<< 27 + n.kind.bit <<< 26 + n.symbol.toNat <<< 18 + n.left.toNat <<< 9 + n.right.toNat)

/-- The node record in a written value, the weight being `W_W` bits wide (R103). -/
def Node.unpack (wW : Nat) (e : Entry) : Node :=
  { kind := if e.getLsbD 26 then .leaf else .internal
    symbol := e.extractLsb' 18 8
    weight := BitVec.ofNat 40 ((e.toNat >>> 27) % 2 ^ wW)
    left := e.extractLsb' 9 9
    right := e.extractLsb' 0 9 }

/-- The code bits in place: the first bit of the list at entry bit `p`-1, each next one a bit lower (R102). -/
def codeBits : Code → Nat → Nat
  | [], _ => 0
  | b :: bs, p => b.toNat <<< (p - 1) + codeBits bs (p - 1)

/-- A code entry packed as R102 lays it out. -/
def packCode (c : Code) : Entry := toEntry (c.length <<< 255 + codeBits c 255)

/-- The code in a written value: `len` in bits 262:255, bit `j` of the code at bit 254-`j` (R102). -/
def unpackCode (e : Entry) : Code :=
  (List.range (e.extractLsb' 255 8).toNat).map fun j => e.getLsbD (254 - j)

/-- The low `CNT_W` bits of a written value (R38, R70). -/
def lowCount (p : Config.Params) (v : Nat) : Count := BitVec.ofNat 32 (v % 2 ^ p.cntW)

end Sys2Proof.Machine
end

