-- ==== Sys2Proof/Machine/PQueue.lean ====
section
/-! DEFINITION. The priority queue (spec/41_pqueue.md): `PqInsert` and `PqDeleteMin` under `TIE_REF` (rules R167,
R168) and under any other admitted tie-break (rule R160), and the operations `PQCLR`, `PQINS`, `PQDELMIN`,
`PQSIZE`, `PQEMPTY`. -/

namespace Sys2Proof.Machine

/-! ### `TIE_REF` on a node table and a heap table -/

/-- `HEAP[i]` (R28). -/
def heapSlot (heap : Memory NodeId) (i : Nat) : Except Fault NodeId := readEntry .heap heap i

/-- `w(HEAP[i])`, read when the comparison is made (R161). -/
def slotWeight (node : Memory Node) (heap : Memory NodeId) (i : Nat) : Except Fault Weight := do
  let id ← heapSlot heap i
  nodeWeight node id

/-- `swap HEAP[p], HEAP[q]`. -/
def swapSlots (heap : Memory NodeId) (p q : Nat) : Except Fault (Memory NodeId) := do
  let a ← heapSlot heap p
  let b ← heapSlot heap q
  return (heap.write p b).write q a

/-- The loop of `PqInsert` (R167): the item at slot `p` rises while strictly lighter than its parent. The first
argument bounds the turns: `p` itself is enough. -/
def siftUp (node : Memory Node) : Nat → Nat → Memory NodeId → Except Fault (Memory NodeId)
  | 0, _, heap => .ok heap
  | k + 1, p, heap =>
    if p = 0 then .ok heap
    else do
      let q := (p - 1) / 2
      let wp ← slotWeight node heap p
      let wq ← slotWeight node heap q
      if wp < wq then
        let heap' ← swapSlots heap p q
        siftUp node k q heap'
      else return heap

/-- The child test of `PqDeleteMin`'s loop (R168): slot `c` replaces slot `t` if it is in the queue and strictly
lighter. -/
def lighterOf (node : Memory Node) (heap : Memory NodeId) (n c t : Nat) : Except Fault Nat :=
  if c < n then do
    let wc ← slotWeight node heap c
    let wt ← slotWeight node heap t
    return if wc < wt then c else t
  else .ok t

/-- The loop of `PqDeleteMin` (R168): the item at slot `p` sinks, left child first. The first argument bounds the
turns: the number of items is enough, a slot at or above it having no child in the queue. -/
def siftDown (node : Memory Node) (n : Nat) : Nat → Nat → Memory NodeId → Except Fault (Memory NodeId)
  | 0, _, heap => .ok heap
  | k + 1, p, heap => do
    let t ← lighterOf node heap n (2 * p + 1) p
    let t' ← lighterOf node heap n (2 * p + 2) t
    if t' = p then return heap
    else
      let heap' ← swapSlots heap p t'
      siftDown node n k t' heap'

/-- `PqDeleteMin()` under `TIE_REF` on a queue of `n` > 0 items (R168). -/
def refDeleteMin (node : Memory Node) (heap : Memory NodeId) (n : Nat) :
    Except Fault (NodeId × Memory NodeId) := do
  let m ← heapSlot heap 0
  if n = 1 then return (m, heap)
  else
    let last ← heapSlot heap (n - 1)
    let heap' ← siftDown node (n - 1) (n - 1) 0 (heap.write 0 last)
    return (m, heap')

/-! ### Another admitted tie-break -/

/-- The slots below `n` with the weights of their items, lowest slot first. All are read, so that an item without a
written record stops a delete under another tie-break wherever it stands and even when it is the only one (DESIGN
CHOICE, notes/assumptions/22.md). -/
def queuedWeights (node : Memory Node) (heap : Memory NodeId) : Nat → Except Fault (List (Nat × Weight))
  | 0 => .ok []
  | n + 1 => do
    let below ← queuedWeights node heap n
    let w ← slotWeight node heap n
    return below ++ [(n, w)]

/-- The slots whose item no other outweighs: the candidates among which `TIE` chooses (R160). -/
def lightest (ws : List (Nat × Weight)) : List Nat :=
  (ws.filter fun e => ws.all fun e' => decide (e.2 ≤ e'.2)).map (·.1)

/-- The ids in the slots below `n`, lowest slot first. -/
def slotIds (heap : Memory NodeId) : Nat → Except Fault (List NodeId)
  | 0 => .ok []
  | n + 1 => do
    let below ← slotIds heap n
    let id ← heapSlot heap n
    return below ++ [id]

/-- The first `k` ids drawn out of a list, the draws saying which of those still there comes next. -/
def drawOut (draw : Nat → Nat) : Nat → List NodeId → List NodeId
  | 0, _ => []
  | k + 1, ids =>
    match ids[draw k % ids.length]? with
    | some id => id :: drawOut draw k (ids.eraseIdx (draw k % ids.length))
    | none => []

/-- Write ids into the slots from `i` on. -/
def placeFrom (heap : Memory NodeId) : Nat → List NodeId → Memory NodeId
  | _, [] => heap
  | i, id :: ids => placeFrom (heap.write i id) (i + 1) ids

/-- Put the ids of the slots below `n` into the order tie-break rule number `k` gives them after a history. The
multiset stays, and it alone is architectural (R28); the order is free (notes/assumptions/9.md). -/
def rearrange (k : Nat) (hist : List Config.PqEvent) (heap : Memory NodeId) (n : Nat) :
    Except Fault (Memory NodeId) := do
  let ids ← slotIds heap n
  return placeFrom heap 0 (drawOut (Config.heapOrder k hist ids) ids.length ids)

/-- `PqInsert(i)` under tie-break rule number `k` on a heap table whose slot `n` holds the new item: the queued ids
in some order. `hist` ends with this insert. No weight is read (DESIGN CHOICE, notes/assumptions/22.md). -/
def otherInsert (k : Nat) (hist : List Config.PqEvent) (heap : Memory NodeId) (n : Nat) :
    Except Fault (Memory NodeId) := rearrange k hist heap (n + 1)

/-- `PqDeleteMin()` under tie-break rule number `k` on a queue of `n` > 0 items: one of the minimum-weight items,
which one being a function of the history `hist` before it (R160). The last item takes the free slot, and the ids
that stay are left in some order (R28). The weight of every queued item is read (DESIGN CHOICE,
notes/assumptions/22.md). -/
def otherDeleteMin (k : Nat) (hist : List Config.PqEvent) (node : Memory Node) (heap : Memory NodeId) (n : Nat) :
    Except Fault (NodeId × Memory NodeId) := do
  let ws ← queuedWeights node heap n
  let cands := lightest ws
  let slot := cands.getD (Config.tieChoice k hist % cands.length) 0
  let m ← heapSlot heap slot
  let last ← heapSlot heap (n - 1)
  let heap' ← rearrange k (hist ++ [.deletedMin]) (heap.write slot last) (n - 1)
  return (m, heap')

/-! ### The queue of the block -/

/-- `hsize <- 0` (R162): the queue is empty and has no history. -/
def pqClear (s : State) : State := (s.setCtr { s.ctr with hsize := 0#9 }).setPq .reset

/-- `PqInsert(i)` (R160, R167): the new item goes to the first free slot. -/
def pqInsert (id : NodeId) (s : State) : Except Fault State := do
  let p := s.ctr.hsize.toNat
  let heap := s.tab.heap.write p id
  let hist := s.pq.hist ++ [.inserted id ((s.tab.node.read id.toNat).map (·.weight))]
  let heap' ← match s.par.tie with
    | .ref => siftUp s.tab.node p p heap
    | .other k => otherInsert k hist heap p
  return ((s.setTab { s.tab with heap := heap' }).setCtr { s.ctr with hsize := s.ctr.hsize + 1#9 }).setPq
    { s.pq with hist := hist }

/-- `PqDeleteMin()` on a queue that is not empty (R160, R168). After a host has rewritten the weight of a queued
node the spec gives no result (U11). -/
def pqPop (s : State) : Except Fault (NodeId × State) :=
  if s.pq.intact then do
    let n := s.ctr.hsize.toNat
    let (m, heap') ← match s.par.tie with
      | .ref => refDeleteMin s.tab.node s.tab.heap n
      | .other k => otherDeleteMin k s.pq.hist s.tab.node s.tab.heap n
    return (m, ((s.setTab { s.tab with heap := heap' }).setCtr { s.ctr with hsize := s.ctr.hsize - 1#9 }).setPq
      { s.pq with hist := s.pq.hist ++ [.deletedMin] })
  else .error .queueKeyRewritten

/-- `PQCLR` (R162). -/
def pqclrBody (s : State) : Res Unit := .ok () (pqClear s)

/-- `PQINS` (R163): queue full before operand range (R268). -/
def pqinsBody (s : State) : Res Unit :=
  if s.ctr.hsize.toNat = Config.pqCap then .raised .illegalState s
  else if s.reg.arg.toNat ≤ 510 then
    (Res.lift (pqInsert (s.reg.arg.extractLsb' 0 9) s) s).andThen fun t _ => .ok () t
  else .raised .invalidArgument s

/-- `PQDELMIN` (R164): an empty queue is no error. -/
def pqdelminBody (s : State) : Res Unit :=
  if s.ctr.hsize = 0#9 then .ok () (emptySentinel s)
  else (Res.lift (pqPop s) s).andThen fun r _ => .ok () (r.2.setResult (r.1.setWidth 32))

/-- `PQSIZE` (R165). -/
def pqsizeBody (s : State) : Res Unit := .ok () (s.setResult (s.ctr.hsize.setWidth 32))

/-- `PQEMPTY` (R166): `STATUS.EMPTY` is not its. -/
def pqemptyBody (s : State) : Res Unit := .ok () (s.setResult (if s.ctr.hsize = 0#9 then 1#32 else 0#32))

/-- `PQCLR`. -/
def execPqclr (s : State) : Out := issue pqclrBody s
/-- `PQINS`. -/
def execPqins (arg : HostWord) (s : State) : Out := issueArg arg pqinsBody s
/-- `PQDELMIN`. -/
def execPqdelmin (s : State) : Out := issue pqdelminBody s
/-- `PQSIZE`. -/
def execPqsize (s : State) : Out := issue pqsizeBody s
/-- `PQEMPTY`. -/
def execPqempty (s : State) : Out := issue pqemptyBody s

end Sys2Proof.Machine
end

