-- ==== Sys2Proof/Machine/TreeBuild.lean ====
section
/-! DEFINITION. The tree builder (spec/42_treebuild.md): `BUILDTREE` and `BUILDCODES`. -/

namespace Sys2Proof.Machine

/-- The symbols of a list whose count is above zero, with their counts, in the list's order. -/
def presentAmong (freq : Memory Count) : List Nat → Except Fault (List (Nat × Count))
  | [] => .ok []
  | sym :: syms => do
    let f ← readEntry .freq freq sym
    let rest ← presentAmong freq syms
    return if f = 0#32 then rest else (sym, f) :: rest

/-- The symbols of the alphabet with a count above zero, ascending (R180, R181, R231). All 256 entries are read
(R190). -/
def symbolsPresent (freq : Memory Count) : Except Fault (List (Nat × Count)) :=
  presentAmong freq (List.range Config.symbolCount)

/-- The leaf `BUILDTREE` makes of a symbol and its count (R180). -/
def leafOf (e : Nat × Count) : Node :=
  { kind := .leaf, symbol := BitVec.ofNat 8 e.1, weight := e.2.setWidth 40, left := NONE, right := NONE }

/-- The internal node `BUILDTREE` makes of two popped nodes, the first popped on the left (R183). -/
def internalOf (wa wb : Weight) (a b : NodeId) : Node :=
  { kind := .internal, symbol := 0#8, weight := wa + wb, left := a, right := b }

/-- Allocate the next record, write it and queue it: `NODE[nnodes] <- n; PqInsert(nnodes); nnodes <- nnodes + 1`
(R180). -/
def allocNode (n : Node) (s : State) : Except Fault State := do
  let id := s.ctr.nnodes
  let t ← pqInsert (id.setWidth 9) (s.setTab { s.tab with node := s.tab.node.write id.toNat n })
  return t.setCtr { t.ctr with nnodes := id + 1#10 }

/-- The leaf loop (R180, R181). -/
def addLeaves : List (Nat × Count) → State → Except Fault State
  | [], s => .ok s
  | e :: es, s => do
    let t ← allocNode (leafOf e) s
    addLeaves es t

/-- One merge (R182). -/
def mergeOnce (s : State) : Except Fault State := do
  let (a, t) ← pqPop s
  let (b, u) ← pqPop t
  let wa ← nodeWeight u.tab.node a
  let wb ← nodeWeight u.tab.node b
  allocNode (internalOf wa wb a b) u

/-- The merge loop, `while hsize > 1` (R180). The first argument bounds the turns: the number of queued items is
enough, each merge lowering it by one. -/
def mergeAll : Nat → State → Except Fault State
  | 0, s => .ok s
  | k + 1, s =>
    if s.ctr.hsize.toNat ≤ 1 then .ok s
    else do
      let t ← mergeOnce s
      mergeAll k t

/-- "built fresh": the first line of `BUILDTREE` (R180, R292). -/
def clearTree (s : State) : State :=
  (s.setCtr { s.ctr with nnodes := 0#10, hsize := 0#9, root := NONE }).setPq .reset

/-- The pseudocode of `BUILDTREE` (R180), which raises nothing. -/
def buildTree (s : State) : Except Fault State := do
  let pairs ← symbolsPresent s.tab.freq
  let t ← addLeaves pairs (clearTree s)
  if pairs.length = 0 then return t.setResult 0x000001FF#32
  else
    let u ← mergeAll pairs.length t
    let (r, v) ← pqPop u
    return (v.setCtr { v.ctr with root := r }).setResult (r.setWidth 32)

/-- `BUILDTREE` (R180). -/
def buildtreeBody (s : State) : Res Unit := (Res.lift (buildTree s) s).andThen fun t _ => .ok () t

/-- `CODE[symbol] <- c`. -/
def State.setCode (s : State) (sym : Byte) (c : Code) : State :=
  s.setTab { s.tab with code := s.tab.code.write sym.toNat c }

/-- `Visit(n, path)` (R185), with the number of edges still allowed below `n` (R188): the left subtree, then the
right one. -/
def visit : Nat → NodeId → Code → State → Res Unit
  | edges, id, path, s =>
    (Res.lift (readNode s.tab.node id) s).andThen fun n s =>
      match n.kind with
      | .leaf => .ok () (s.setCode n.symbol path)
      | .internal =>
        match edges with
        | 0 => .raised .illegalState s
        | k + 1 =>
          if n.left = NONE then .raised .illegalState s
          else
            (visit k n.left (path ++ [false]) s).andThen fun _ t =>
              if n.right = NONE then .raised .illegalState t
              else visit k n.right (path ++ [true]) t

/-- `BUILDCODES` (R185): a root that is a leaf gets the one-bit code "0" (R187). -/
def buildcodesBody (s : State) : Res Unit :=
  let t := s.setTab { s.tab with code := Memory.fill Config.symbolCount [] }
  if t.ctr.root = NONE then .ok () t
  else
    (Res.lift (readNode t.tab.node t.ctr.root) t).andThen fun n t =>
      match n.kind with
      | .leaf => .ok () (t.setCode n.symbol [false])
      | .internal => visit Config.maxDepth t.ctr.root [] t

/-- `BUILDTREE`. -/
def execBuildtree (s : State) : Out := issue buildtreeBody s
/-- `BUILDCODES`. -/
def execBuildcodes (s : State) : Out := issue buildcodesBody s

end Sys2Proof.Machine
end

