-- ==== Sys2Proof/Machine/Decompress.lean ====
section
/-! DEFINITION. The decode operations (spec/43_decode.md): `PARSEHDR`, `WALK`, and the composite `DECOMPRESS`
with the sequencing and the releases that both composites share (rule R206). -/

namespace Sys2Proof.Machine

/-! ### `PARSEHDR` -/

/-- Process one header line (R97 to R99, R200); `true` when it is the sentinel. Of a pair line both fields are
parsed before `FREQ` is written. -/
def processLine (line : List Byte) (s : State) : Res Bool :=
  match classifyLine line with
  | .blank => .ok false s
  | .sentinel => .ok true s
  | .originalSize rest =>
    match parseUint s.par.maxCount rest with
    | some v => .ok false (s.setCtr { s.ctr with osize := BitVec.ofNat 32 v })
    | none => .raised .parseError s
  | .symbols rest =>
    match parseUint s.par.maxCount rest with
    | some v => .ok false (s.setCtr { s.ctr with nsym := BitVec.ofNat 32 v })
    | none => .raised .parseError s
  | .pair l =>
    match parsePair s.par.maxCount l with
    | some (sym, f) => .ok false (s.setTab { s.tab with freq := s.tab.freq.write sym (BitVec.ofNat 32 f) })
    | none => .raised .parseError s

/-- The loops of `PARSEHDR` (R200), one `SrcRead()` a turn, `line` being the bytes of the line so far. A line
ended by the end of the stream is processed before `MalformedHeader` is raised. The first argument bounds the
turns. -/
def headerLoop : Nat → List Byte → State → Res Unit
  | 0, _, _ => .stop .loopBound
  | k + 1, line, s =>
    (srcRead s).andThen fun r t =>
      match r with
      | none =>
        (processLine line (setEos t)).andThen fun done u =>
          if done then .ok () u else .raised .malformedHeader u
      | some b =>
        if b = newline then
          (processLine line t).andThen fun done u => if done then .ok () u else headerLoop k [] u
        else headerLoop k (line ++ [b]) t

/-- "built fresh": what `PARSEHDR` clears first (R200, R292). -/
def clearHeader (s : State) : State :=
  (s.setCtr { s.ctr with osize := 0#32, nsym := 0#32 }).setTab
    { s.tab with freq := Memory.fill Config.symbolCount 0#32 }

/-- `PARSEHDR` (R200): at most one `SrcRead()` a byte of `SRC`, plus one (R302). -/
def parsehdrBody (s : State) : Res Unit :=
  if s.canReadBytes then headerLoop (s.srcLeft.length + 1) [] (clearHeader s)
  else .raised .illegalState s

/-! ### `WALK` -/

/-- The single-leaf loop of `WALK` (R204): the symbol, as many times as the first argument says. -/
def emitRepeat : Nat → Byte → State → Res Unit
  | 0, _, s => .ok () s
  | k + 1, b, s =>
    (snkWrite b s).andThen fun _ t => emitRepeat k b (t.setCtr { t.ctr with decoded := t.ctr.decoded + 1#32 })

/-- The walk step (R202): one bit moves the walk from `cur` along a link; at a leaf the symbol is emitted and the
walk returns to the root. -/
def walkStep (b : Bool) (s : State) : Res Unit :=
  (Res.lift (readNode s.tab.node s.ctr.cur) s).andThen fun n s =>
    let next := if b then n.right else n.left
    let t := s.setCtr { s.ctr with cur := next }
    if next = NONE then .raised .illegalState t
    else
      (Res.lift (readNode t.tab.node next) t).andThen fun m t =>
        match m.kind with
        | .internal => .ok () t
        | .leaf =>
          (snkWrite m.symbol t).andThen fun _ u =>
            .ok () (u.setCtr { u.ctr with cur := u.ctr.root, decoded := u.ctr.decoded + 1#32 })

/-- The loop of `WALK` (R201), one turn a bit. The first argument bounds the turns. -/
def walkLoop : Nat → State → Res Unit
  | 0, _ => .stop .loopBound
  | k + 1, s =>
    if s.ctr.decoded < s.ctr.osize then
      (readBit s).andThen fun r t =>
        match r with
        | none => .ok () (setEos t)
        | some b => (walkStep b t).andThen fun _ u => walkLoop k u
    else .ok () s

/-- The number of bits the reader can still deliver. -/
def State.bitsLeft (s : State) : Nat := s.rd.rcnt.toNat + 8 * s.srcLeft.length

/-- `RESULT <- zext_32(decoded)`, the last line of `WALK` (R201). -/
def reportDecoded (s : State) : State := s.setResult s.ctr.decoded

/-- The precondition of `WALK` (R201). -/
def State.canWalk (s : State) : Bool := s.rd.ropen && s.canWriteBytes

/-- `WALK` (R201): no tree (R203), a single leaf (R204), or the walk (R202). -/
def walkBody (s : State) : Res Unit :=
  if s.canWalk then
    let t := s.setCtr { s.ctr with decoded := 0#32, cur := s.ctr.root }
    if t.ctr.root = NONE then .ok () (t.setResult 0#32)
    else
      (Res.lift (readNode t.tab.node t.ctr.root) t).andThen fun n t =>
        let r := match n.kind with
          | .leaf => emitRepeat t.ctr.osize.toNat n.symbol t
          | .internal => walkLoop (t.bitsLeft + 1) t
        r.andThen fun _ u => .ok () (reportDecoded u)
  else .raised .illegalState s

/-! ### Composites -/

/-- The parts of a composite, in order (R206). -/
def runParts : List (State → Res Unit) → State → Res Unit
  | [], s => .ok () s
  | p :: ps, s => (p s).andThen fun _ t => runParts ps t

/-- The state a piece leaves, whether it raised or not. -/
def settled (r : Res Unit) : Except Fault State :=
  match r with
  | .ok _ t => .ok t
  | .raised _ t => .ok t
  | .stop f => .error f

/-- Release what is held, the sink by `WCLOSE` and then the source by `RCLOSE`; an error of the closing flush is
not recorded (R206). -/
def releaseHeld (s : State) : Except Fault State := do
  let t ← if s.wr.wopen then settled (wcloseBody s) else .ok s
  if t.rd.ropen then settled (rcloseBody t) else return t

/-- A composite (R206, R233): with both streams free, the parts in order; if one raises, the rest are skipped,
what is held is released, and the error recorded is the first. -/
def composite (parts : List (State → Res Unit)) (s : State) : Res Unit :=
  if s.rd.ropen || s.wr.wopen then .raised .illegalState s
  else
    match runParts parts s with
    | .ok _ t => .ok () t
    | .raised e t =>
      match releaseHeld t with
      | .ok u => .raised e u
      | .error f => .stop f
    | .stop f => .stop f

/-- The parts of `DECOMPRESS` (R206). -/
def decompressParts : List (State → Res Unit) :=
  [ropenBody, wopenBody, parsehdrBody, buildtreeBody, walkBody, wcloseBody, rcloseBody]

/-- `DECOMPRESS` (R206). -/
def decompressBody (s : State) : Res Unit := composite decompressParts s

/-- `PARSEHDR`. -/
def execParsehdr (s : State) : Out := issue parsehdrBody s
/-- `WALK`. -/
def execWalk (s : State) : Out := issue walkBody s
/-- `DECOMPRESS`. -/
def execDecompress (s : State) : Out := issue decompressBody s

end Sys2Proof.Machine
end

