-- ==== Sys2Proof/Machine/Compress.lean ====
section
/-! DEFINITION. The compress operations (spec/44_compress.md): `COUNTFREQ`, `WRHDR`, `ENCODE`, and the composite
`COMPRESS`. -/

namespace Sys2Proof.Machine

/-- `nsym` <- the number of symbols with a count above zero (R230, R231). -/
def State.setNsym (s : State) (k : Nat) : State := s.setCtr { s.ctr with nsym := BitVec.ofNat 32 k }

/-- Keep and count one input byte (R230). -/
def countByte (b : Byte) (s : State) : Res Unit :=
  if s.ctr.inlen.toNat = s.par.inbufCap then .raised .illegalState s
  else
    (Res.lift (readEntry .freq s.tab.freq b.toNat) s).andThen fun f s =>
      .ok () ((s.setTab { s.tab with
        inbuf := s.tab.inbuf.write s.ctr.inlen.toNat b
        freq := s.tab.freq.write b.toNat (f + 1#32) }).setCtr { s.ctr with inlen := s.ctr.inlen + 1#32 })

/-- The loop of `COUNTFREQ` (R230), one `SrcRead()` a turn. The first argument bounds the turns. -/
def countLoop : Nat → State → Res Unit
  | 0, _ => .stop .loopBound
  | k + 1, s =>
    (srcRead s).andThen fun r t =>
      match r with
      | none => .ok () (setEos t)
      | some b => (countByte b t).andThen fun _ u => countLoop k u

/-- "built fresh": what `COUNTFREQ` clears first (R230, R292). -/
def clearCounts (s : State) : State :=
  (s.setCtr { s.ctr with inlen := 0#32 }).setTab { s.tab with freq := Memory.fill Config.symbolCount 0#32 }

/-- `COUNTFREQ` (R230). -/
def countfreqBody (s : State) : Res Unit :=
  if s.canReadBytes then
    (countLoop (s.srcLeft.length + 1) (clearCounts s)).andThen fun _ t =>
      (Res.lift (symbolsPresent t.tab.freq) t).andThen fun pairs t =>
        .ok () ((t.setCtr { t.ctr with osize := t.ctr.inlen }).setNsym pairs.length)
  else .raised .illegalState s

/-- `WRHDR` (R231): the header of `osize` as it stands and of the symbols present in `FREQ` (R94). -/
def wrhdrBody (s : State) : Res Unit :=
  if s.canWriteBytes then
    (Res.lift (symbolsPresent s.tab.freq) s).andThen fun pairs s =>
      emit (headerText s.ctr.osize.toNat pairs) (s.setNsym pairs.length)
  else .raised .illegalState s

/-- The code of one input byte, refused when it has none (R232). -/
def encodeByte (b : Byte) (s : State) : Res Unit :=
  (Res.lift (readEntry .code s.tab.code b.toNat) s).andThen fun c s =>
    if c = [] then .raised .illegalState s else writeBits c s

/-- The loop of `ENCODE` (R232): `k` more input bytes, from position `i` on. -/
def encodeLoop : Nat → Nat → State → Res Unit
  | 0, _, s => .ok () s
  | k + 1, i, s =>
    (Res.lift (readEntry .inbuf s.tab.inbuf i) s).andThen fun b s =>
      (encodeByte b s).andThen fun _ t => encodeLoop k (i + 1) t

/-- `ENCODE` (R232). -/
def encodeBody (s : State) : Res Unit :=
  if s.wr.wopen then (encodeLoop s.ctr.inlen.toNat 0 s).andThen fun _ t => flushBits t
  else .raised .illegalState s

/-- The parts of `COMPRESS` (R233). -/
def compressParts : List (State → Res Unit) :=
  [ropenBody, countfreqBody, rcloseBody, buildtreeBody, buildcodesBody, wopenBody, wrhdrBody, encodeBody, wcloseBody]

/-- `COMPRESS` (R233). -/
def compressBody (s : State) : Res Unit := composite compressParts s

/-- `COUNTFREQ`. -/
def execCountfreq (s : State) : Out := issue countfreqBody s
/-- `WRHDR`. -/
def execWrhdr (s : State) : Out := issue wrhdrBody s
/-- `ENCODE`. -/
def execEncode (s : State) : Out := issue encodeBody s
/-- `COMPRESS`. -/
def execCompress (s : State) : Out := issue compressBody s

end Sys2Proof.Machine
end

