-- ==== Sys2Proof/Machine/Dispatch.lean ====
section
/-! DEFINITION. The meaning of every operation (spec/30_encoding.md rule R91), one arm a constructor. Each meaning
includes the command's issue (spec/45_system.md rule R254). -/

namespace Sys2Proof.Machine

def exec (i : Instr) (s : State) : Host.Outcome State Fault Refusal :=
  match i with
  | .nop => Sys2Proof.Machine.execNop s
  | .clrerr => Sys2Proof.Machine.execClrerr s
  | .sreset => Sys2Proof.Machine.execSreset s
  | .ropen => Sys2Proof.Machine.execRopen s
  | .rclose => Sys2Proof.Machine.execRclose s
  | .rdbit => Sys2Proof.Machine.execRdbit s
  | .rdbyte => Sys2Proof.Machine.execRdbyte s
  | .rdint => Sys2Proof.Machine.execRdint s
  | .wopen => Sys2Proof.Machine.execWopen s
  | .wclose => Sys2Proof.Machine.execWclose s
  | .wrbit arg => Sys2Proof.Machine.execWrbit arg s
  | .wrbyte arg => Sys2Proof.Machine.execWrbyte arg s
  | .wrint arg => Sys2Proof.Machine.execWrint arg s
  | .flush => Sys2Proof.Machine.execFlush s
  | .pqclr => Sys2Proof.Machine.execPqclr s
  | .pqins arg => Sys2Proof.Machine.execPqins arg s
  | .pqdelmin => Sys2Proof.Machine.execPqdelmin s
  | .pqsize => Sys2Proof.Machine.execPqsize s
  | .pqempty => Sys2Proof.Machine.execPqempty s
  | .buildtree => Sys2Proof.Machine.execBuildtree s
  | .buildcodes => Sys2Proof.Machine.execBuildcodes s
  | .parsehdr => Sys2Proof.Machine.execParsehdr s
  | .walk => Sys2Proof.Machine.execWalk s
  | .decompress => Sys2Proof.Machine.execDecompress s
  | .countfreq => Sys2Proof.Machine.execCountfreq s
  | .wrhdr => Sys2Proof.Machine.execWrhdr s
  | .encode => Sys2Proof.Machine.execEncode s
  | .compress => Sys2Proof.Machine.execCompress s

end Sys2Proof.Machine
end

