-- ==== Sys2Proof/Decode.lean ====
section
/-! DEFINITION. The command word (spec/30_encoding.md rules R90 to R93): decoding, total on every 40-bit word,
which rejects an unassigned `op` by name, and after it the encoder. -/

namespace Sys2Proof

/-- Why a command word decodes to no operation: its `op` is unassigned (R92). -/
inductive DecodeError where
  | unassigned (op : BitVec 8)
deriving DecidableEq, Repr

/-- Field `op`, bits 39:32 of the command word (R90). -/
def cmdOp (w : CmdWord) : BitVec 8 := w.extractLsb' 32 8

/-- Field `arg`, bits 31:0 of the command word (R90). -/
def cmdArg (w : CmdWord) : HostWord := w.extractLsb' 0 32

/-- The operation a command code names, `arg` being ignored where the table's row has no operand (R91 to R93). -/
def decodeFields (op : BitVec 8) (arg : HostWord) : Except DecodeError Instr :=
  match op.toNat with
  | 0x00 => .ok .nop
  | 0x01 => .ok .clrerr
  | 0x0F => .ok .sreset
  | 0x10 => .ok .ropen
  | 0x11 => .ok .rclose
  | 0x12 => .ok .rdbit
  | 0x13 => .ok .rdbyte
  | 0x14 => .ok .rdint
  | 0x18 => .ok .wopen
  | 0x19 => .ok .wclose
  | 0x1A => .ok (.wrbit arg)
  | 0x1B => .ok (.wrbyte arg)
  | 0x1C => .ok (.wrint arg)
  | 0x1D => .ok .flush
  | 0x20 => .ok .pqclr
  | 0x21 => .ok (.pqins arg)
  | 0x22 => .ok .pqdelmin
  | 0x23 => .ok .pqsize
  | 0x24 => .ok .pqempty
  | 0x30 => .ok .buildtree
  | 0x31 => .ok .buildcodes
  | 0x40 => .ok .parsehdr
  | 0x41 => .ok .walk
  | 0x42 => .ok .decompress
  | 0x50 => .ok .countfreq
  | 0x51 => .ok .wrhdr
  | 0x52 => .ok .encode
  | 0x53 => .ok .compress
  | _ => .error (.unassigned op)

/-- Decoding a command word. -/
def decode (w : CmdWord) : Except DecodeError Instr := decodeFields (cmdOp w) (cmdArg w)

/-- Decoding a row of spec/opcode_table.json given as a number of `nbits` bits: the command word is that number,
the bits above `nbits` being zero (R90). A number that does not fit the 40-bit word is no command. -/
def decodeTableWord (nbits w : Nat) : Option Instr :=
  if w % 2 ^ nbits < 2 ^ 40 then
    match decode (BitVec.ofNat 40 (w % 2 ^ nbits)) with
    | .ok i => some i
    | .error _ => none
  else none

/-- The command code of an operation, column `op` of R91. -/
def opOf : Instr → BitVec 8
  | .nop => 0x00#8
  | .clrerr => 0x01#8
  | .sreset => 0x0F#8
  | .ropen => 0x10#8
  | .rclose => 0x11#8
  | .rdbit => 0x12#8
  | .rdbyte => 0x13#8
  | .rdint => 0x14#8
  | .wopen => 0x18#8
  | .wclose => 0x19#8
  | .wrbit _ => 0x1A#8
  | .wrbyte _ => 0x1B#8
  | .wrint _ => 0x1C#8
  | .flush => 0x1D#8
  | .pqclr => 0x20#8
  | .pqins _ => 0x21#8
  | .pqdelmin => 0x22#8
  | .pqsize => 0x23#8
  | .pqempty => 0x24#8
  | .buildtree => 0x30#8
  | .buildcodes => 0x31#8
  | .parsehdr => 0x40#8
  | .walk => 0x41#8
  | .decompress => 0x42#8
  | .countfreq => 0x50#8
  | .wrhdr => 0x51#8
  | .encode => 0x52#8
  | .compress => 0x53#8

/-- The operand of an operation that takes one (R90, R91). -/
def operand? : Instr → Option HostWord
  | .wrbit arg => some arg
  | .wrbyte arg => some arg
  | .wrint arg => some arg
  | .pqins arg => some arg
  | .nop | .clrerr | .sreset | .ropen | .rclose | .rdbit | .rdbyte | .rdint | .wopen | .wclose
  | .flush | .pqclr | .pqdelmin | .pqsize | .pqempty | .buildtree | .buildcodes
  | .parsehdr | .walk | .decompress | .countfreq | .wrhdr | .encode | .compress => none

/-- The command word of an operation: `op` above `arg`, a missing operand written as zero (R90, R93). -/
def encode (i : Instr) : CmdWord := opOf i ++ (operand? i).getD 0#32

end Sys2Proof
end

