-- ==== Sys2Proof/Machine/HostPort.lean ====
section
/-! DEFINITION. The host's side of the block between operations: registers by index (spec/10_state.md rule R38),
the table port (spec/20_memory.md rule R70), what an access may raise (spec/45_system.md rule R253), the
presenting of streams (spec/70_reset_and_hazards.md rule R293), hard reset (R290), and which accesses issue a
command (R254). -/

namespace Sys2Proof.Machine

/-- An error of a host access: recorded as R269 says, unless an error is pending, which stays (R253). -/
def accessError (e : ErrCode) (s : State) : State := if s.reg.err then s else raiseError e s

/-- The value `BITSTATE` shows: `wbuf` in 31:24, `wcnt` in 18:16, `rbuf` in 15:8, `rcnt` in 3:0 (R38). -/
def State.bitstate (s : State) : HostWord :=
  s.wr.wbuf ++ 0#5 ++ s.wr.wcnt ++ s.rd.rbuf ++ 0#4 ++ s.rd.rcnt

/-- What a read of a register by index shows, zero-extended to 32 bits; no register above index 15 (R38). -/
def State.regValue (s : State) (idx : Nat) : Option HostWord :=
  match idx with
  | 0 => some 0#32
  | 1 => some s.reg.arg
  | 2 => some s.reg.result
  | 3 => some (s.status.setWidth 32)
  | 4 => some (s.reg.errcode.setWidth 32)
  | 5 => some s.ctr.osize
  | 6 => some s.ctr.nsym
  | 7 => some s.ctr.decoded
  | 8 => some (s.ctr.root.setWidth 32)
  | 9 => some (s.ctr.nnodes.setWidth 32)
  | 10 => some (s.ctr.hsize.setWidth 32)
  | 11 => some s.ctr.inlen
  | 12 => some (s.wr.snkCnt.extractLsb' 0 32)
  | 13 => some (s.wr.snkCnt.extractLsb' 32 32)
  | 14 => some (s.ctr.cur.setWidth 32)
  | 15 => some s.bitstate
  | _ => none

/-- What the host sees of a read. -/
def State.showHost (s : State) (v : Entry) : State := s.setEnv { s.env with busData := v }

/-- A host read of a register (R38). -/
def readReg (idx : Nat) (s : State) : State :=
  match s.regValue idx with
  | some v => s.showHost (v.setWidth 263)
  | none => accessError .illegalCommand s

/-- A host write of a register other than `CMD` (R38): `ROOT` and `INLEN` are range-checked, the counts keep their
low `CNT_W` bits, and the rest is read-only or does not exist. -/
def writeReg (idx : Nat) (v : HostWord) (s : State) : State :=
  match idx with
  | 1 => s.setArg v
  | 5 => s.setCtr { s.ctr with osize := lowCount s.par v.toNat }
  | 6 => s.setCtr { s.ctr with nsym := lowCount s.par v.toNat }
  | 8 => if v.toNat ≤ 511 then s.setCtr { s.ctr with root := v.setWidth 9 } else accessError .invalidArgument s
  | 11 => if v.toNat ≤ s.par.inbufCap then s.setCtr { s.ctr with inlen := v } else accessError .invalidArgument s
  | _ => accessError .illegalCommand s

/-- The size of a table (R60). -/
def Space.size (p : Config.Params) : Space → Nat
  | .freq => Config.symbolCount
  | .node => Config.nodeCap
  | .heap => Config.pqCap
  | .code => Config.symbolCount
  | .inbuf => p.inbufCap

/-- The packed entry at an index of a table (R70, R102, R103). -/
def State.entry (s : State) (sp : Space) (idx : Nat) : Except Fault Entry :=
  match sp with
  | .freq => (readEntry .freq s.tab.freq idx).map fun v => v.setWidth 263
  | .node => (readEntry .node s.tab.node idx).map Node.pack
  | .heap => (readEntry .heap s.tab.heap idx).map fun v => v.setWidth 263
  | .code => (readEntry .code s.tab.code idx).map packCode
  | .inbuf => (readEntry .inbuf s.tab.inbuf idx).map fun v => v.setWidth 263

/-- A host read of a table entry (R70). One that nothing has written has no result (U9). -/
def readTable (sp : Space) (idx : Nat) (s : State) : Out :=
  if idx < sp.size s.par then
    match s.entry sp idx with
    | .ok v => .next (s.showHost v)
    | .error f => .fault f
  else .next (accessError .illegalCommand s)

/-- Whether an id is queued: in `HEAP[0..hsize-1]` (R28). -/
def State.queued (s : State) (id : Nat) : Bool :=
  (List.range s.ctr.hsize.toNat).any fun i => (s.tab.heap.read i).any fun h => h.toNat == id

/-- Record whether a host write leaves the queue's contract standing (R161, R303): writing a queued node's weight
to another value breaks it. -/
def State.guardQueue (s : State) (breaks : Bool) : State :=
  if breaks then s.setPq { s.pq with intact := false } else s

/-- The state with a table entry written by the host: of `FREQ` and `HEAP` the low bits of the entry's width are kept,
of `NODE` and `CODE` their layouts (R70). Of `INBUF`, which R70 does not name there, the low 8 bits are kept
(DESIGN CHOICE, notes/assumptions/21.md). -/
def State.writeEntry (s : State) (sp : Space) (idx : Nat) (v : Entry) : State :=
  match sp with
  | .freq => s.setTab { s.tab with freq := s.tab.freq.write idx (lowCount s.par v.toNat) }
  | .node =>
    let n := Node.unpack s.par.wW v
    (s.guardQueue (s.queued idx && decide ((s.tab.node.read idx).map (·.weight) ≠ some n.weight))).setTab
      { s.tab with node := s.tab.node.write idx n }
  | .heap => s.setTab { s.tab with heap := s.tab.heap.write idx (v.setWidth 9) }
  | .code => s.setTab { s.tab with code := s.tab.code.write idx (unpackCode v) }
  | .inbuf => s.setTab { s.tab with inbuf := s.tab.inbuf.write idx (v.setWidth 8) }

/-- A host write of a table entry (R70). -/
def writeTable (sp : Space) (idx : Nat) (v : Entry) (s : State) : State :=
  if idx < sp.size s.par then s.writeEntry sp idx v else accessError .illegalCommand s

/-- What a host event does when it issues no command. -/
def hostAccess (ev : HostEvent) (s : State) : Out :=
  match ev with
  | .command _ => .next s
  | .regRead idx => .next (readReg idx s)
  | .regWrite idx v => .next (writeReg idx v s)
  | .tblRead sp idx => readTable sp idx s
  | .tblWrite sp idx v => .next (writeTable sp idx v s)
  | .presentSrc bytes pos => .next (s.setEnv { s.env with src := bytes, srcPos := min pos bytes.length })
  | .presentSnk bytes => .next (s.setEnv { s.env with snk := bytes })
  | .hardReset => .next (hardReset s)

/-- The command word an event issues, if it issues one: a whole word, or a write of `CMD` (index 0, low 8 bits)
with `ARG` as it stands (R90, R254). -/
def commandOf (ev : HostEvent) (s : State) : Option CmdWord :=
  match ev with
  | .command w => some w
  | .regWrite 0 v => some ((v.extractLsb' 0 8 : BitVec 8) ++ s.reg.arg)
  | _ => none

end Sys2Proof.Machine
end

