-- ==== Sys2Proof/Machine/Step.lean ====
section
/-! DEFINITION. The step: the next event of the host's script (spec/00_scope.md rules R11, R12), which is a command
to issue (spec/45_system.md rule R254) or an access that issues none. With no event left the block waits
(spec/70_reset_and_hazards.md rule R290). -/

namespace Sys2Proof.Machine

/-- Issue one command word: decode it and perform the operation, or raise `IllegalCommand` (R92, R254). `CMD`
receives the code and shows nothing of it afterwards (R35, R38; notes/assumptions/10.md). -/
def runCommand (w : CmdWord) (s : State) : Out :=
  mapNext (·.setCmd 0#8)
    (match decode w with
     | .ok i => exec i (s.setCmd (cmdOp w))
     | .error _ => illegalCommand (s.setCmd (cmdOp w)))

/-- One step of the machine. -/
def step (s : State) : Host.Outcome State Fault Refusal :=
  match s.env.script with
  | [] => .next s
  | ev :: rest =>
    let t := s.popScript rest
    match commandOf ev t with
    | some w => runCommand w t
    | none => hostAccess ev t

/-- The state whose next event issues the command word given as a number of `nbits` bits (R90): the host's script
is where the step fetches. -/
def State.withFetchWord (s : State) (nbits w : Nat) : State :=
  s.setEnv { s.env with script := .command (BitVec.ofNat 40 (w % 2 ^ nbits)) :: s.env.script }

end Sys2Proof.Machine
end

