-- ==== Sys2Proof/Safety.lean ====
section
/-! DEFINITION. The terms claims are stated in: premises about the environment, the invariant of the machine, and
the specification-side meaning of bit strings, trees, header tables and queues, written from the spec and
independently of the operations' code. -/

namespace Sys2Proof.Machine

/-! ### Premises -/

/-- "no `IOFailure` occurred": the environment lets every coming stream access succeed (R76). -/
def State.noFailure (s : State) : Bool := s.env.draws.all fun d => !d

/-- No error pending and no stream held, the state a composite starts from (R206, R293). -/
def State.idle (s : State) : Bool := !s.reg.err && !s.rd.ropen && !s.wr.wopen

/-- Every entry below `n` has been written. -/
def Memory.filled {α : Type} (m : Memory α) (n : Nat) : Bool := (List.range n).all fun i => (m.read i).isSome

/-! ### Bit strings (R21, R22, R63, R64) -/

/-- The bits of a byte, most significant first (R63). -/
def byteBits (b : Byte) : List Bool := (List.range 8).map fun i => b.getLsbD (7 - i)

/-- The bits of `rbuf` not yet delivered, next one first (R21). -/
def State.pendingRead (s : State) : List Bool :=
  (List.range s.rd.rcnt.toNat).map fun i => s.rd.rbuf.getLsbD (s.rd.rcnt.toNat - 1 - i)

/-- Every bit the reader can still deliver, in order (R63). -/
def State.readableBits (s : State) : List Bool := s.pendingRead ++ s.srcLeft.flatMap byteBits

/-- The bits accumulated in `wbuf`, earliest first (R22). -/
def State.pendingWrite (s : State) : List Bool :=
  (List.range s.wr.wcnt.toNat).map fun i => s.wr.wbuf.getLsbD (s.wr.wcnt.toNat - 1 - i)

/-- The number whose binary digits from position `p`-1 down are the bits of a list. -/
def bitsValue : List Bool → Nat → Nat
  | [], _ => 0
  | _ :: _, 0 => 0
  | b :: bs, p + 1 => b.toNat * 2 ^ p + bitsValue bs p

/-- A byte made of at most eight bits, the first in bit 7, zeros below the last (R64). -/
def byteOfBits (bs : List Bool) : Byte := BitVec.ofNat 8 (bitsValue bs 8)

/-- The bytes a bit string becomes: eight bits a byte, the last one zero-padded (R64, R100). -/
def packBits : List Bool → List Byte
  | a :: b :: c :: d :: e :: f :: g :: h :: rest => byteOfBits [a, b, c, d, e, f, g, h] :: packBits rest
  | [] => []
  | part => [byteOfBits part]

/-! ### Trees (R26, R101, R184, R202) -/

/-- A Huffman tree: a leaf with its symbol, or an internal node with its left and right subtree. -/
inductive HTree where
  | leaf (symbol : Byte)
  | node (left right : HTree)
deriving DecidableEq, Repr

/-- Whether the records reachable from an id are the given tree. -/
def treeAt (node : Memory Node) : HTree → NodeId → Bool
  | .leaf sym, id =>
    decide (id ≠ NONE) && (node.read id.toNat).any fun n => decide (n.kind = .leaf) && decide (n.symbol = sym)
  | .node l r, id =>
    decide (id ≠ NONE) && (node.read id.toNat).any fun n =>
      decide (n.kind = .internal) && treeAt node l n.left && treeAt node r n.right

/-- The number of edges on the longest path of a tree. -/
def HTree.depth : HTree → Nat
  | .leaf _ => 0
  | .node l r => 1 + max l.depth r.depth

/-- The leaves with their paths, "0" for left edges and "1" for right edges, left subtree first (R101, R186). -/
def HTree.paths : HTree → Code → List (Byte × Code)
  | .leaf sym, path => [(sym, path)]
  | .node l r, path => l.paths (path ++ [false]) ++ r.paths (path ++ [true])

/-- The codes of a tree: its paths, but "0" for the one leaf of a one-node tree (R101, R187). -/
def HTree.codes : HTree → List (Byte × Code)
  | .leaf sym => [(sym, [false])]
  | .node l r => (HTree.node l r).paths []

/-- What a decode of a bit string emits, from a position in the tree and for at most so many symbols: the symbols,
the bits left over, and whether the bits ran out first (R201, R202, R205). -/
def HTree.decode (root : HTree) : List Bool → HTree → Nat → List Byte × List Bool × Bool
  | bits, _, 0 => ([], bits, false)
  | [], _, _ + 1 => ([], [], true)
  | b :: bits, cur, n + 1 =>
    match cur with
    | .leaf _ => ([], b :: bits, false)
    | .node l r =>
      match (if b then r else l) with
      | .leaf sym =>
        let rest := HTree.decode root bits root n
        (sym :: rest.1, rest.2)
      | .node l' r' => HTree.decode root bits (.node l' r') (n + 1)

/-! ### Records that need not be a tree (R188) -/

/-- What is found by following links from an id: a leaf, an internal node, a link that is `NONE`, or a part nothing
is said about. -/
inductive LinkTree where
  | leaf (symbol : Byte)
  | node (left right : LinkTree)
  | missing
  | unexplored
deriving DecidableEq, Repr

/-- Whether the links from an id lead where the given tree says. -/
def linksAt (node : Memory Node) : LinkTree → NodeId → Bool
  | .leaf sym, id =>
    decide (id ≠ NONE) && (node.read id.toNat).any fun n => decide (n.kind = .leaf) && decide (n.symbol = sym)
  | .node l r, id =>
    decide (id ≠ NONE) && (node.read id.toNat).any fun n =>
      decide (n.kind = .internal) && linksAt node l n.left && linksAt node r n.right
  | .missing, id => decide (id = NONE)
  | .unexplored, _ => true

/-- How following links ended: as it should, at a link that is `NONE` or beyond the depth bound, with the bits at an
end, or in a part nothing is said about. -/
inductive Ending where
  | good
  | badLink
  | bitsOut
  | unknown
deriving DecidableEq, Repr

/-- The codes a traversal gives, left subtree first, until a link is `NONE` or a node with links has 255 edges above
it, and how it ended (R185, R188). -/
def LinkTree.assign : LinkTree → Code → List (Byte × Code) × Ending
  | .leaf sym, path => ([(sym, path)], .good)
  | .node l r, path =>
    if path.length < 255 then
      match l.assign (path ++ [false]) with
      | (es, .good) => let rest := r.assign (path ++ [true]); (es ++ rest.1, rest.2)
      | stopped => stopped
    else ([], .badLink)
  | .missing, _ => ([], .badLink)
  | .unexplored, _ => ([], .unknown)

/-- What a walk over the bits emits, from a position below the root and for at most so many symbols: the symbols, the
bits left over, and how it ended (R201, R202, R188). -/
def LinkTree.walk (root : LinkTree) : List Bool → LinkTree → Nat → List Byte × List Bool × Ending
  | bits, _, 0 => ([], bits, .good)
  | [], _, _ + 1 => ([], [], .bitsOut)
  | b :: bits, .node l r, n + 1 =>
    match (if b then r else l) with
    | .leaf sym =>
      let rest := LinkTree.walk root bits root n
      (sym :: rest.1, rest.2)
    | .node l' r' => LinkTree.walk root bits (.node l' r') (n + 1)
    | .missing => ([], bits, .badLink)
    | .unexplored => ([], bits, .unknown)
  | bits, .leaf _, _ + 1 => ([], bits, .unknown)
  | bits, .missing, _ + 1 => ([], bits, .unknown)
  | bits, .unexplored, _ + 1 => ([], bits, .unknown)

/-! ### Header lines (R96 to R99) -/

/-- What a header line says, or that it is bad. -/
inductive LineMeaning where
  | nothing
  | sentinel
  | size (v : Nat)
  | symbols (v : Nat)
  | count (sym f : Nat)
  | bad
deriving DecidableEq, Repr

/-- The decimal value of a string of digits, by the place each stands at. -/
def decimalValue : List Byte → Nat
  | [] => 0
  | b :: bs => (b.toNat - 48) * 10 ^ bs.length + decimalValue bs

/-- The value of a numeric field: one or more bytes 0x30 to 0x39, of a value of at most `max` (R98). -/
def fieldValue (max : Nat) (field : List Byte) : Option Nat :=
  if field ≠ [] ∧ (∀ b ∈ field, 48 ≤ b.toNat ∧ b.toNat ≤ 57) ∧ decimalValue field ≤ max then
    some (decimalValue field)
  else none

/-- The meaning of a line, `max` being the greatest count (R97, R99): blank, the sentinel, a keyword with a field, or
a symbol and a count around the first space. -/
def lineMeaning (max : Nat) (line : List Byte) : LineMeaning :=
  if line = [] then .nothing
  else if line = kwEndHeader then .sentinel
  else if line.take 14 = kwOriginalSize then ((fieldValue max (line.drop 14)).map .size).getD .bad
  else if line.take 8 = kwSymbols then ((fieldValue max (line.drop 8)).map .symbols).getD .bad
  else
    let i := line.idxOf space
    match fieldValue max (line.take i), fieldValue max (line.drop (i + 1)) with
    | some sym, some f => if i < line.length ∧ sym ≤ 255 then .count sym f else .bad
    | _, _ => .bad

/-- The state after a line that is not bad: what it says has replaced what stood (R97). -/
def LineMeaning.applyTo (m : LineMeaning) (s : State) : State :=
  match m with
  | .size v => { s with ctr := { s.ctr with osize := BitVec.ofNat 32 v } }
  | .symbols v => { s with ctr := { s.ctr with nsym := BitVec.ofNat 32 v } }
  | .count sym f => { s with tab := { s.tab with freq := s.tab.freq.write sym (BitVec.ofNat 32 f) } }
  | .nothing | .sentinel | .bad => s

/-- The state after `PARSEHDR` has cleared what it builds and then processed some lines (R200). -/
def afterLines (lines : List (List Byte)) (s : State) : State :=
  lines.foldl (fun t line => (lineMeaning s.par.maxCount line).applyTo t)
    { s with
      ctr := { s.ctr with osize := 0#32, nsym := 0#32 }
      tab := { s.tab with freq := Memory.fill 256 0#32 } }

/-- Lines as they stand in `SRC`, each with its `\n` (R96). -/
def joinLines (lines : List (List Byte)) : List Byte := lines.flatMap fun line => line ++ [newline]

/-- Lines that a parse goes past: no `\n` inside, neither the sentinel nor bad. -/
def passedOver (max : Nat) (lines : List (List Byte)) : Prop :=
  ∀ line ∈ lines, newline ∉ line ∧ lineMeaning max line ≠ .sentinel ∧ lineMeaning max line ≠ .bad

/-! ### Tables -/

/-- The size of a table (R60). -/
def tableSize (p : Config.Params) : Space → Nat
  | .freq => 256
  | .node => 511
  | .heap => 256
  | .code => 256
  | .inbuf => p.inbufCap

/-- What a written value reads back as: the low bits of the entry's width; of a `CODE` entry the length field and as
many code bits as it says, the bits below them zero (R70, R102, R103; of `INBUF` and of the low `CODE` bits the model's
choice, notes/assumptions/21.md and 14.md). -/
def keptBits (p : Config.Params) (sp : Space) (v : Nat) : Nat :=
  match sp with
  | .freq => v % 2 ^ p.cntW
  | .node => v % 2 ^ (27 + p.wW)
  | .heap => v % 2 ^ 9
  | .code => v / 2 ^ (255 - v / 2 ^ 255) * 2 ^ (255 - v / 2 ^ 255)
  | .inbuf => v % 2 ^ 8

/-- The symbols with a count above zero, ascending, with their counts (R94, R180). -/
def presentPairs (freq : Memory Count) : List (Nat × Count) :=
  (List.range Config.symbolCount).filterMap fun sym =>
    match freq.read sym with
    | some f => if f = 0#32 then none else some (sym, f)
    | none => none

/-- A table with the given entries written over it in order. -/
def writeAll {α : Type} (m : Memory α) (es : List (Nat × α)) : Memory α :=
  es.foldl (fun m e => m.write e.1 e.2) m

/-- The frequency table of a byte string (R230). -/
def countsOf (bytes : List Byte) : Memory Count :=
  (List.range Config.symbolCount).map fun sym =>
    (sym, BitVec.ofNat 32 (bytes.countP fun b => decide (b.toNat = sym)))

/-- A byte string as the contents of `INBUF` from position 0 (R30). -/
def bufferHolds (inbuf : Memory Byte) (bytes : List Byte) : Prop :=
  ∀ i, i < bytes.length → inbuf.read i = bytes[i]?

/-! ### The queue (R28, R160, R169) -/

/-- The queued ids, slot 0 first (R28). -/
def queuedIds (s : State) : List NodeId := (List.range s.ctr.hsize.toNat).filterMap fun i => s.tab.heap.read i

/-- The weight of a node id, if its record has been written (R104). -/
def weightOf (node : Memory Node) (id : NodeId) : Option Weight :=
  if id = NONE then none else (node.read id.toNat).map (·.weight)

/-- Every queued slot holds an id whose record has been written. -/
def queueReadable (s : State) : Bool :=
  (List.range s.ctr.hsize.toNat).all fun i =>
    (s.tab.heap.read i).any fun id => (weightOf s.tab.node id).isSome

/-- The heap property: no item is lighter than its parent (R169). -/
def heapOrdered (s : State) : Bool :=
  (List.range s.ctr.hsize.toNat).all fun i =>
    decide (i = 0) ||
      match s.tab.heap.read ((i - 1) / 2), s.tab.heap.read i with
      | some p, some c =>
        match weightOf s.tab.node p, weightOf s.tab.node c with
        | some wp, some wc => decide (wp ≤ wc)
        | _, _ => false
      | _, _ => false

/-- The weight of the item in a slot, if there is one with a written record. -/
def weightInSlot (s : State) (i : Nat) : Option Weight := (s.tab.heap.read i).bind (weightOf s.tab.node)

/-- "strictly lighter", of two weights that are both there. -/
def lighter : Option Weight → Option Weight → Bool
  | some a, some b => decide (a < b)
  | _, _ => false

/-- The slot `i` levels above a slot (R167). -/
def ancestor : Nat → Nat → Nat
  | 0, p => p
  | i + 1, p => (ancestor i p - 1) / 2

/-- The rise of `TIE_REF` (R167): the new item `id`, put into the first free slot, has passed exactly the items above
it that are strictly heavier, one after another, each of which moved down to where it stood; no other slot changed. -/
def RoseFrom (s t : State) (id : NodeId) : Prop :=
  let free := s.ctr.hsize.toNat
  let w := weightOf s.tab.node id
  ∃ d,
    (∀ i < d, ancestor i free ≠ 0 ∧ lighter w (weightInSlot s (ancestor (i + 1) free)) = true ∧
      t.tab.heap.read (ancestor i free) = s.tab.heap.read (ancestor (i + 1) free)) ∧
    t.tab.heap.read (ancestor d free) = some id ∧
    (ancestor d free = 0 ∨ lighter w (weightInSlot s (ancestor (d + 1) free)) = false) ∧
    ∀ j, (∀ i ≤ d, j ≠ ancestor i free) → t.tab.heap.read j = s.tab.heap.read j

/-- The child a sinking item would change places with, in a queue of `n` items: the left one, unless the right one is
strictly lighter (R168). -/
def lighterChild (s : State) (n p : Nat) : Nat :=
  if 2 * p + 2 < n ∧ lighter (weightInSlot s (2 * p + 2)) (weightInSlot s (2 * p + 1)) = true then 2 * p + 2
  else 2 * p + 1

/-- The slot `i` levels down the way an item sinks from slot 0 (R168). -/
def descent (s : State) (n : Nat) : Nat → Nat
  | 0 => 0
  | i + 1 => lighterChild s n (descent s n i)

/-- The sink of `TIE_REF` (R168): with slot 0 taken, the last item has sunk past exactly the items on its way down
that are strictly lighter, each of which moved up one level; no other slot changed. -/
def SankFrom (s t : State) : Prop :=
  let n := s.ctr.hsize.toNat - 1
  ∃ last d, s.tab.heap.read n = some last ∧
    (∀ i < d, descent s n (i + 1) < n ∧
      lighter (weightInSlot s (descent s n (i + 1))) (weightOf s.tab.node last) = true ∧
      t.tab.heap.read (descent s n i) = s.tab.heap.read (descent s n (i + 1))) ∧
    t.tab.heap.read (descent s n d) = some last ∧
    (descent s n (d + 1) < n → lighter (weightInSlot s (descent s n (d + 1))) (weightOf s.tab.node last) = false) ∧
    ∀ j, (∀ i ≤ d, j ≠ descent s n i) → t.tab.heap.read j = s.tab.heap.read j

/-- A queue within its contract: at most `PQ_CAP` items, each with a written record, no key rewritten by the host
(R161, R303), and, under `TIE_REF`, in heap order (R169). -/
def QueueOk (s : State) : Prop :=
  s.ctr.hsize.toNat ≤ Config.pqCap ∧ queueReadable s = true ∧ s.pq.intact = true ∧
    (s.par.tie = .ref → heapOrdered s = true)

/-! ### The invariant -/

/-- What holds of the machine between operations: the parameters are legal (R5, R9), every table is in canonical
form and within its size (R60), counts, weights and codes fit their widths (R5, R6, R14, R26, R29), the registers keep to the ranges
spec/10_state.md gives them, and the error state is consistent (R37). -/
structure Inv (s : State) : Prop where
  params : s.par.wf = true
  freqForm : s.tab.freq.wf = true ∧ s.tab.freq.within Config.symbolCount = true
  nodeForm : s.tab.node.wf = true ∧ s.tab.node.within Config.nodeCap = true
  heapForm : s.tab.heap.wf = true ∧ s.tab.heap.within Config.pqCap = true
  codeForm : s.tab.code.wf = true ∧ s.tab.code.within Config.symbolCount = true
  inbufForm : s.tab.inbuf.wf = true ∧ s.tab.inbuf.within s.par.inbufCap = true
  freqFits : ∀ e ∈ s.tab.freq, e.2.toNat ≤ s.par.maxCount
  weightFits : ∀ e ∈ s.tab.node, e.2.weight.toNat < 2 ^ s.par.wW
  codeFits : ∀ e ∈ s.tab.code, e.2.length ≤ 255
  osizeFits : s.ctr.osize.toNat ≤ s.par.maxCount
  nsymFits : s.ctr.nsym.toNat ≤ s.par.maxCount
  decodedFits : s.ctr.decoded.toNat ≤ s.par.maxCount
  inlenFits : s.ctr.inlen.toNat ≤ s.par.inbufCap
  rcntRange : s.rd.rcnt.toNat ≤ 8
  readerClosed : s.rd.ropen = false → s.rd.rcnt = 0#4 ∧ s.rd.rbuf = 0#8
  wbufRange : s.wr.wbuf.toNat < 2 ^ s.wr.wcnt.toNat
  writerClosed : s.wr.wopen = false → s.wr.wcnt = 0#3
  hsizeRange : s.ctr.hsize.toNat ≤ Config.pqCap
  nnodesRange : s.ctr.nnodes.toNat ≤ Config.nodeCap
  heapFilled : s.tab.heap.filled s.ctr.hsize.toNat = true
  errorShown : s.reg.err = false ↔ s.reg.errcode = 0#4
  errcodeRange : s.reg.errcode.toNat ≤ 6
  cmdClear : s.reg.cmd = 0#8
  srcInside : s.env.srcPos ≤ s.env.src.length

/-! ### Runs of operations -/

/-- Perform operations one after another, each issued by the host when the one before is over. -/
def execAll : List Instr → State → Out
  | [], s => .next s
  | i :: is, s =>
    match exec i s with
    | .next t => execAll is t
    | .fault r => .fault r
    | .refused r => .refused r

/-- The same operation so many times, collecting what `RESULT` holds after each. -/
def collectResults (i : Instr) : Nat → State → Option (List HostWord × State)
  | 0, s => some ([], s)
  | n + 1, s =>
    match exec i s with
    | .next t => (collectResults i n t).map fun r => (t.reg.result :: r.1, r.2)
    | .fault _ => none
    | .refused _ => none

/-- The errors an operation may raise, column "raised by" of R260. -/
def raisable : Instr → List ErrCode
  | .nop | .clrerr | .sreset | .pqclr | .pqdelmin | .pqsize | .pqempty | .buildtree => []
  | .rclose | .buildcodes => [.illegalState]
  | .ropen | .rdbit | .rdbyte | .rdint | .wopen | .wclose | .wrint _ | .flush | .walk | .countfreq | .wrhdr
  | .encode | .compress => [.ioFailure, .illegalState]
  | .wrbit _ | .wrbyte _ => [.ioFailure, .invalidArgument, .illegalState]
  | .pqins _ => [.invalidArgument, .illegalState]
  | .parsehdr | .decompress => [.ioFailure, .malformedHeader, .parseError, .illegalState]

end Sys2Proof.Machine
end

