-- ==== Sys2Proof/Certificates/Slice0/Obligations.lean ====
section
/-! DEFINITION. The statements about the machine. Each docstring names the rule of spec/ it formalises. -/

open Sys2Proof Sys2Proof.Machine

/-! ### Encoding, issue and the step -/

/-- R90 to R93: decoding and encoding agree, both ways: decoding the command word of an operation gives the operation
back, whatever its operand; and a word decodes to an operation exactly when its `op` is the operation's code and, where
the operation takes an operand, its `arg` is that operand, every other bit being ignored. -/
def Obligations.DecodeAndEncodeAgree : Prop :=
  (∀ i : Instr, decode (encode i) = .ok i) ∧
  ∀ (w : CmdWord) (i : Instr),
    decode w = .ok i ↔ cmdOp w = opOf i ∧ (∀ a, operand? i = some a → cmdArg w = a)

/-- Words of spec/95_test_vectors.md section 3 (P1 to P5) decode to the operations written beside them. -/
def Obligations.WordsOfTheScriptsDecode : Prop :=
  decode 0x4000000000#40 = .ok .parsehdr ∧ decode 0x1A00000001#40 = .ok (.wrbit 1#32) ∧
    decode 0x1B00000041#40 = .ok (.wrbyte 0x41#32) ∧ decode 0x1C01020304#40 = .ok (.wrint 0x01020304#32) ∧
    decode 0x2100000005#40 = .ok (.pqins 5#32) ∧ decode 0x5300000000#40 = .ok .compress ∧
    decode 0x0F00000000#40 = .ok .sreset ∧ decode 0x00DEADBEEF#40 = .ok .nop ∧
    decode 0x0200000000#40 = .error (.unassigned 0x02#8)

/-- R254, R11, R290: when the host's next event issues a word that decodes to `i`, the step is `exec i` on the state
with that event taken and `CMD` holding the code; afterwards `CMD` shows nothing (the model's choice,
notes/assumptions/10.md). The word is either whole or put together from a write of `CMD` and `ARG` as it stands.
With no event the block waits. -/
def Obligations.StepRunsTheDecodedCommand : Prop :=
  (∀ (s : State) (w : CmdWord) (v : HostWord) (rest : List HostEvent) (i : Instr), decode w = .ok i →
    (s.env.script = .command w :: rest →
      step s = mapNext (·.setCmd 0#8) (exec i ((s.popScript rest).setCmd (cmdOp w)))) ∧
    (s.env.script = .regWrite 0 v :: rest → w = (v.extractLsb' 0 8 : BitVec 8) ++ s.reg.arg →
      step s = mapNext (·.setCmd 0#8) (exec i ((s.popScript rest).setCmd (cmdOp w))))) ∧
  ∀ s : State, s.env.script = [] → step s = .next s

/-- R92: issuing a code that is no operation's, as a whole word or by a write of `CMD` with `ARG` as it stands, changes
nothing but the error state: `IllegalCommand` is raised, the result flags having been cleared by the prelude; with an
error pending it is dropped (R254). (`CMD` shows nothing afterwards: the model's choice, notes/assumptions/10.md.) -/
def Obligations.UnassignedCodeRaisesIllegalCommand : Prop :=
  ∀ (s : State) (w : CmdWord) (v : HostWord) (rest : List HostEvent),
    s.env.script = .command w :: rest ∨
      s.env.script = .regWrite 0 v :: rest ∧ w = (v.extractLsb' 0 8 : BitVec 8) ++ s.reg.arg →
    (∀ i, cmdOp w ≠ opOf i) → s.reg.cmd = 0#8 →
    step s = .next (if s.reg.err then s.popScript rest
      else raiseError .illegalCommand (clearResultFlags (s.popScript rest)))

/-- R254, R272: while an error is pending no operation but `NOP`, `CLRERR` and `SRESET` runs: nothing changes but
`ARG`, which the host writes before `CMD` when the operation takes an operand (R253). -/
def Obligations.PendingErrorDropsOperations : Prop :=
  ∀ (i : Instr) (s : State), s.reg.err = true → i ≠ .nop → i ≠ .clrerr → i ≠ .sreset →
    exec i s = .next { s with reg := { s.reg with arg := (operand? i).getD s.reg.arg } }

/-! ### System operations and reset -/

/-- R250, R251, R252: `NOP` does nothing; `CLRERR` clears `STATUS.ERR` and `ERRCODE` (and, by the prelude, the
result flags) and nothing else; `SRESET` puts every register and counter at its reset value and leaves the tables
and the streams, so that nothing is appended to `SNK` (and clears the model's record of the queue). All three in every
state, an error pending or not. -/
def Obligations.SystemOperationsDoAsRuled : Prop :=
  opOf .nop = 0x00#8 ∧ opOf .clrerr = 0x01#8 ∧ opOf .sreset = 0x0F#8 ∧
  ∀ s : State, exec .nop s = .next s ∧
    exec .clrerr s =
      .next { s with reg := { s.reg with err := false, errcode := 0#4, eos := false, empty := false } } ∧
    exec .sreset s = .next
      { rd := { rbuf := 0#8, rcnt := 0#4, ropen := false }
        wr := { wbuf := 0#8, wcnt := 0#3, wopen := false, snkCnt := 0#64 }
        tab := s.tab
        ctr := { nnodes := 0#10, root := 0x1FF#9, hsize := 0#9, inlen := 0#32, osize := 0#32, nsym := 0#32
                 decoded := 0#32, cur := 0x1FF#9 }
        reg := { cmd := 0#8, arg := 0#32, result := 0#32, err := false, eos := false, empty := false
                 errcode := 0#4 }
        pq := { hist := [], intact := true }
        par := s.par
        env := s.env }

/-- R290, R40: hard reset, an input of the block, has the same effect on the registers and leaves every table entry
unspecified: no entry of any table holds a value. -/
def Obligations.HardResetLeavesTablesUnspecified : Prop :=
  ∀ (s : State) (rest : List HostEvent), s.env.script = .hardReset :: rest →
    ∃ t, step s = .next t ∧ exec .sreset { s with tab := t.tab, env := t.env } = .next t ∧
      t.env = { s.env with script := rest } ∧
      ∀ i, t.tab.freq.read i = none ∧ t.tab.node.read i = none ∧ t.tab.heap.read i = none ∧
        t.tab.code.read i = none ∧ t.tab.inbuf.read i = none

/-! ### Bit-stream I/O: what each operation does -/

/-- R130, R131: `ROPEN`, the source held already: `IllegalState`; the acquisition failing: `IOFailure`, still not
held; otherwise the source is held with nothing buffered. `RCLOSE` releases it and discards buffered bits; not held:
`IllegalState`. Nothing else changes. -/
def Obligations.RopenAcquiresRcloseReleases : Prop :=
  opOf .ropen = 0x10#8 ∧ opOf .rclose = 0x11#8 ∧
  ∀ s : State, s.reg.err = false →
    (s.rd.ropen = true → exec .ropen s = .next (raiseError .illegalState (clearResultFlags s))) ∧
    (s.rd.ropen = false → s.env.draws.head? = some true →
      exec .ropen s = .next (raiseError .ioFailure (clearResultFlags s).useDraw)) ∧
    (s.rd.ropen = false → s.env.draws.head? ≠ some true →
      exec .ropen s = .next { (clearResultFlags s).useDraw with
        rd := { rbuf := 0#8, rcnt := 0#4, ropen := true } }) ∧
    (s.rd.ropen = false → exec .rclose s = .next (raiseError .illegalState (clearResultFlags s))) ∧
    (s.rd.ropen = true →
      exec .rclose s = .next { clearResultFlags s with rd := { rbuf := 0#8, rcnt := 0#4, ropen := false } })

/-- R132: `RDBIT`. Not held: `IllegalState`. A bit buffered: it is delivered. None buffered: the next byte is
taken and its bit 7 delivered; or, at the end, the sentinel and `EOS`, nothing else changed; or, the environment
failing the access, `IOFailure` with only the read position of `SRC` open (U1). -/
def Obligations.RdbitDeliversNextBit : Prop :=
  opOf .rdbit = 0x12#8 ∧
  ∀ s : State, s.reg.err = false →
    (s.rd.ropen = false → exec .rdbit s = .next (raiseError .illegalState (clearResultFlags s))) ∧
    (s.rd.ropen = true → s.rd.rcnt ≠ 0#4 →
      exec .rdbit s = .next { s with
        rd := { s.rd with rcnt := s.rd.rcnt - 1#4 }
        reg := { s.reg with eos := false, empty := false
                            result := if s.rd.rbuf.getLsbD (s.rd.rcnt - 1#4).toNat then 1#32 else 0#32 } }) ∧
    (s.rd.ropen = true → s.rd.rcnt = 0#4 → s.env.draws.head? ≠ some true →
      (∀ b rest, s.srcLeft = b :: rest →
        exec .rdbit s = .next { s with
          rd := { s.rd with rbuf := b, rcnt := 7#4 }
          reg := { s.reg with eos := false, empty := false, result := if b.getLsbD 7 then 1#32 else 0#32 }
          env := { s.env with srcPos := s.env.srcPos + 1, draws := s.env.draws.tail } }) ∧
      (s.srcLeft = [] →
        exec .rdbit s = .next { s with
          reg := { s.reg with eos := true, empty := false, result := 0xFFFFFFFF#32 }
          env := { s.env with draws := s.env.draws.tail } })) ∧
    (s.rd.ropen = true → s.rd.rcnt = 0#4 → s.env.draws.head? = some true →
      ∃ pos ctr, exec .rdbit s = .next (raiseError .ioFailure { clearResultFlags s with
        env := { s.env with srcPos := pos, freeCtr := ctr, draws := s.env.draws.tail } }))

/-- R133: `RDBYTE` moves one byte when the source is held and no bit is buffered, and is refused otherwise; at
the end of the source the sentinel and `EOS`; a failing access is `IOFailure`. The bit buffer is untouched. -/
def Obligations.RdbyteReadsOneByte : Prop :=
  opOf .rdbyte = 0x13#8 ∧
  ∀ s : State, s.reg.err = false →
    (s.rd.ropen = false ∨ s.rd.rcnt ≠ 0#4 →
      exec .rdbyte s = .next (raiseError .illegalState (clearResultFlags s))) ∧
    (s.rd.ropen = true → s.rd.rcnt = 0#4 → s.env.draws.head? ≠ some true →
      (∀ b rest, s.srcLeft = b :: rest →
        exec .rdbyte s = .next { s with
          reg := { s.reg with eos := false, empty := false, result := b.setWidth 32 }
          env := { s.env with srcPos := s.env.srcPos + 1, draws := s.env.draws.tail } }) ∧
      (s.srcLeft = [] →
        exec .rdbyte s = .next { s with
          reg := { s.reg with eos := true, empty := false, result := 0xFFFFFFFF#32 }
          env := { s.env with draws := s.env.draws.tail } })) ∧
    (s.rd.ropen = true → s.rd.rcnt = 0#4 → s.env.draws.head? = some true →
      ∃ pos ctr, exec .rdbyte s = .next (raiseError .ioFailure { clearResultFlags s with
        env := { s.env with srcPos := pos, freeCtr := ctr, draws := s.env.draws.tail } }))

/-- R134: `RDINT` takes four bytes, the first as bits 31 to 24; with fewer left they are consumed and the
sentinel is returned with `EOS`; an access that fails is `IOFailure`, the bytes before it consumed (R69); refused
unless the source is held and no bit is buffered (R68). -/
def Obligations.RdintReadsBigEndianWord : Prop :=
  opOf .rdint = 0x14#8 ∧
  ∀ s : State, s.reg.err = false →
    (s.rd.ropen = false ∨ s.rd.rcnt ≠ 0#4 →
      exec .rdint s = .next (raiseError .illegalState (clearResultFlags s))) ∧
    (s.rd.ropen = true → s.rd.rcnt = 0#4 →
      (∀ a b c d rest, s.srcLeft = a :: b :: c :: d :: rest → true ∉ s.env.draws.take 4 →
        exec .rdint s = .next { s with
          reg := { s.reg with eos := false, empty := false, result := a ++ b ++ c ++ d }
          env := { s.env with srcPos := s.env.srcPos + 4, draws := s.env.draws.drop 4 } }) ∧
      (s.srcLeft.length < 4 → true ∉ s.env.draws.take (s.srcLeft.length + 1) →
        exec .rdint s = .next { s with
          reg := { s.reg with eos := true, empty := false, result := 0xFFFFFFFF#32 }
          env := { s.env with srcPos := s.env.srcPos + s.srcLeft.length
                              draws := s.env.draws.drop (s.srcLeft.length + 1) } }) ∧
      (∀ k, k < 4 → k ≤ s.srcLeft.length → s.env.draws.take (k + 1) = List.replicate k false ++ [true] →
        ∃ pos ctr, exec .rdint s = .next (raiseError .ioFailure { clearResultFlags s with
          env := { s.env with srcPos := pos, freeCtr := ctr, draws := s.env.draws.drop (k + 1) } })))

/-- R135: `WOPEN`. Held already: `IllegalState`; the acquisition fails: `IOFailure`, still not held; otherwise the
sink is held, nothing is buffered and the byte count starts at zero. -/
def Obligations.WopenAcquiresSink : Prop :=
  opOf .wopen = 0x18#8 ∧
  ∀ s : State, s.reg.err = false →
    (s.wr.wopen = true → exec .wopen s = .next (raiseError .illegalState (clearResultFlags s))) ∧
    (s.wr.wopen = false → s.env.draws.head? = some true →
      exec .wopen s = .next (raiseError .ioFailure (clearResultFlags s).useDraw)) ∧
    (s.wr.wopen = false → s.env.draws.head? ≠ some true →
      exec .wopen s = .next { (clearResultFlags s).useDraw with
        wr := { wbuf := 0#8, wcnt := 0#3, wopen := true, snkCnt := 0#64 } })

/-- R136: `WCLOSE` writes a partial byte left-aligned with zero padding and releases the sink, also when the write
fails, which is then raised; not held: `IllegalState`. -/
def Obligations.WcloseFlushesAndReleases : Prop :=
  opOf .wclose = 0x19#8 ∧
  ∀ s : State, s.reg.err = false →
    (s.wr.wopen = false → exec .wclose s = .next (raiseError .illegalState (clearResultFlags s))) ∧
    (s.wr.wopen = true → s.wr.wcnt = 0#3 →
      exec .wclose s = .next { clearResultFlags s with wr := { s.wr with wopen := false } }) ∧
    (s.wr.wopen = true → s.wr.wcnt ≠ 0#3 → s.env.draws.head? ≠ some true →
      exec .wclose s = .next { clearResultFlags s with
        wr := { wbuf := 0#8, wcnt := 0#3, wopen := false, snkCnt := s.wr.snkCnt + 1#64 }
        env := { s.env with snk := s.env.snk ++ [byteOfBits s.pendingWrite], draws := s.env.draws.tail } }) ∧
    (s.wr.wopen = true → s.wr.wcnt ≠ 0#3 → s.env.draws.head? = some true →
      ∃ tail ctr, exec .wclose s = .next (raiseError .ioFailure { clearResultFlags s with
        wr := { wbuf := 0#8, wcnt := 0#3, wopen := false, snkCnt := s.wr.snkCnt }
        env := { s.env with snk := s.env.snk ++ tail, freeCtr := ctr, draws := s.env.draws.tail } }))

/-- R137: `WRBIT`. State before operand: not held is `IllegalState`, then an operand above 1 is
`InvalidArgument` with nothing moved; otherwise the bit is buffered, and the eighth bit writes the byte, the buffer
being emptied whether or not that write fails. That `ARG` holds the operand after a refusal too is the model's reading
(DEDUCED, notes/assumptions/11.md). -/
def Obligations.WrbitAccumulatesAndWritesEighth : Prop :=
  ∀ (s : State) (arg : HostWord), opOf (.wrbit arg) = 0x1A#8 ∧ (s.reg.err = false →
    let p := clearResultFlags (s.setArg arg)
    let bits := s.pendingWrite ++ [arg.getLsbD 0]
    (s.wr.wopen = false → exec (.wrbit arg) s = .next (raiseError .illegalState p)) ∧
    (s.wr.wopen = true → 1 < arg.toNat → exec (.wrbit arg) s = .next (raiseError .invalidArgument p)) ∧
    (s.wr.wopen = true → arg.toNat ≤ 1 → s.wr.wcnt ≠ 7#3 →
      ∃ t, exec (.wrbit arg) s = .next t ∧ t.pendingWrite = bits ∧
        t = { p with wr := { s.wr with
          wbuf := (s.wr.wbuf <<< 1) ||| arg.setWidth 8, wcnt := s.wr.wcnt + 1#3 } }) ∧
    (s.wr.wopen = true → arg.toNat ≤ 1 → s.wr.wcnt = 7#3 → s.env.draws.head? ≠ some true →
      exec (.wrbit arg) s = .next { p with
        wr := { wbuf := 0#8, wcnt := 0#3, wopen := true, snkCnt := s.wr.snkCnt + 1#64 }
        env := { s.env with snk := s.env.snk ++ [byteOfBits bits], draws := s.env.draws.tail } }) ∧
    (s.wr.wopen = true → arg.toNat ≤ 1 → s.wr.wcnt = 7#3 → s.env.draws.head? = some true →
      ∃ tail ctr, exec (.wrbit arg) s = .next (raiseError .ioFailure { p with
        wr := { wbuf := 0#8, wcnt := 0#3, wopen := true, snkCnt := s.wr.snkCnt }
        env := { s.env with snk := s.env.snk ++ tail, freeCtr := ctr, draws := s.env.draws.tail } })))

/-- R138: `WRBYTE` appends its operand to the sink; state before operand before action. That `ARG` holds the operand
after a refusal too is the model's reading (DEDUCED, notes/assumptions/11.md). -/
def Obligations.WrbyteAppendsItsOperand : Prop :=
  ∀ (s : State) (arg : HostWord), opOf (.wrbyte arg) = 0x1B#8 ∧ (s.reg.err = false →
    let p := clearResultFlags (s.setArg arg)
    (s.wr.wopen = false ∨ s.wr.wcnt ≠ 0#3 → exec (.wrbyte arg) s = .next (raiseError .illegalState p)) ∧
    (s.wr.wopen = true → s.wr.wcnt = 0#3 → 255 < arg.toNat →
      exec (.wrbyte arg) s = .next (raiseError .invalidArgument p)) ∧
    (s.wr.wopen = true → s.wr.wcnt = 0#3 → arg.toNat ≤ 255 → s.env.draws.head? ≠ some true →
      exec (.wrbyte arg) s = .next { p with
        wr := { s.wr with snkCnt := s.wr.snkCnt + 1#64 }
        env := { s.env with snk := s.env.snk ++ [arg.setWidth 8], draws := s.env.draws.tail } }) ∧
    (s.wr.wopen = true → s.wr.wcnt = 0#3 → arg.toNat ≤ 255 → s.env.draws.head? = some true →
      ∃ tail ctr, exec (.wrbyte arg) s = .next (raiseError .ioFailure { p with
        env := { s.env with snk := s.env.snk ++ tail, freeCtr := ctr, draws := s.env.draws.tail } })))

/-- R139: `WRINT` appends the four bytes of its operand, bits 31 to 24 first; refused unless the sink is held and no bit
is buffered. Of the bytes before a failing one each stays written. `RDINT` on the same bytes returns the word. That `ARG` holds the
operand after a refusal too is the model's reading (DEDUCED, notes/assumptions/11.md). -/
def Obligations.WrintAppendsBigEndianWord : Prop :=
  ∀ (s : State) (a b c d : Byte), opOf (.wrint (a ++ b ++ c ++ d)) = 0x1C#8 ∧ (s.reg.err = false →
    let p := clearResultFlags (s.setArg (a ++ b ++ c ++ d))
    (s.wr.wopen = false ∨ s.wr.wcnt ≠ 0#3 →
      exec (.wrint (a ++ b ++ c ++ d)) s = .next (raiseError .illegalState p)) ∧
    (s.wr.wopen = true → s.wr.wcnt = 0#3 → true ∉ s.env.draws.take 4 →
      exec (.wrint (a ++ b ++ c ++ d)) s = .next { p with
        wr := { s.wr with snkCnt := s.wr.snkCnt + 4#64 }
        env := { s.env with snk := s.env.snk ++ [a, b, c, d], draws := s.env.draws.drop 4 } }) ∧
    (s.wr.wopen = true → s.wr.wcnt = 0#3 → ∀ k < 4, s.env.draws.take (k + 1) = List.replicate k false ++ [true] →
      ∃ tail ctr, exec (.wrint (a ++ b ++ c ++ d)) s = .next (raiseError .ioFailure { p with
        wr := { s.wr with snkCnt := s.wr.snkCnt + BitVec.ofNat 64 k }
        env := { s.env with snk := s.env.snk ++ [a, b, c, d].take k ++ tail, freeCtr := ctr
                            draws := s.env.draws.drop (k + 1) } }))) ∧
    (s.reg.err = false → s.rd.ropen = true → s.rd.rcnt = 0#4 → true ∉ s.env.draws.take 4 → s.srcLeft = [a, b, c, d] →
      ∃ t, exec .rdint s = .next t ∧ t.reg.result = a ++ b ++ c ++ d)

/-- R140: `FLUSH` writes a partial byte left-aligned with zero padding, and does nothing on a byte boundary; the
buffer is empty afterwards whether or not the write fails. -/
def Obligations.FlushWritesPartialByte : Prop :=
  opOf .flush = 0x1D#8 ∧
  ∀ s : State, s.reg.err = false →
    (s.wr.wopen = false → exec .flush s = .next (raiseError .illegalState (clearResultFlags s))) ∧
    (s.wr.wopen = true → s.wr.wcnt = 0#3 → exec .flush s = .next (clearResultFlags s)) ∧
    (s.wr.wopen = true → s.wr.wcnt ≠ 0#3 → s.env.draws.head? ≠ some true →
      exec .flush s = .next { clearResultFlags s with
        wr := { wbuf := 0#8, wcnt := 0#3, wopen := true, snkCnt := s.wr.snkCnt + 1#64 }
        env := { s.env with snk := s.env.snk ++ [byteOfBits s.pendingWrite], draws := s.env.draws.tail } }) ∧
    (s.wr.wopen = true → s.wr.wcnt ≠ 0#3 → s.env.draws.head? = some true →
      ∃ tail ctr, exec .flush s = .next (raiseError .ioFailure { clearResultFlags s with
        wr := { wbuf := 0#8, wcnt := 0#3, wopen := true, snkCnt := s.wr.snkCnt }
        env := { s.env with snk := s.env.snk ++ tail, freeCtr := ctr, draws := s.env.draws.tail } }))

/-- R141: any bit string written by `WRBIT` from an empty buffer and followed by one `FLUSH` becomes ceil(L/8) bytes
of `SNK`; read back by `RDBIT` they deliver the bits in order, then zeros up to the byte boundary, then the
sentinel with `EOS`. -/
def Obligations.BitsWrittenAreReadBack : Prop :=
  ∀ (bits : List Bool) (s : State), s.reg.err = false → s.wr.wopen = true → s.wr.wcnt = 0#3 →
    s.noFailure = true →
    ∃ t, execAll (bits.map (fun b => .wrbit (if b then 1#32 else 0#32)) ++ [.flush]) s = .next t ∧
      t.env.snk = s.env.snk ++ packBits bits ∧ (packBits bits).length = (bits.length + 7) / 8 ∧
      ∀ u : State, u.reg.err = false → u.rd.ropen = true → u.rd.rcnt = 0#4 → u.noFailure = true →
        u.srcLeft = packBits bits →
        ∃ v, collectResults .rdbit (8 * ((bits.length + 7) / 8)) u =
            some ((bits ++ List.replicate (8 * ((bits.length + 7) / 8) - bits.length) false).map
              (fun b => if b then 1#32 else 0#32), v) ∧
          ∃ x, exec .rdbit v = .next x ∧ x.reg.result = 0xFFFFFFFF#32 ∧ x.reg.eos = true

/-! ### Priority queue -/

/-- R162, R165, R166, and R164 on an empty queue: `PQCLR` empties the queue and keeps `HEAP`; `PQSIZE` and `PQEMPTY`
report the number of queued items and whether there are none, writing no flag; `PQDELMIN` on an empty queue is no
error: the sentinel and `EMPTY`, nothing else. -/
def Obligations.QueueClearedAndReported : Prop :=
  opOf .pqclr = 0x20#8 ∧ opOf .pqdelmin = 0x22#8 ∧ opOf .pqsize = 0x23#8 ∧ opOf .pqempty = 0x24#8 ∧
  ∀ s : State, s.reg.err = false →
    exec .pqclr s = .next { clearResultFlags s with
      ctr := { s.ctr with hsize := 0#9 }, pq := { hist := [], intact := true } } ∧
    exec .pqsize s = .next ((clearResultFlags s).setResult (s.ctr.hsize.setWidth 32)) ∧
    exec .pqempty s = .next ((clearResultFlags s).setResult (if s.ctr.hsize.toNat = 0 then 1#32 else 0#32)) ∧
    (s.ctr.hsize = 0#9 →
      exec .pqdelmin s = .next { s with
        reg := { s.reg with result := 0x000001FF#32, eos := false, empty := true } })

/-- R163, R268: `PQINS` refuses a full queue before it looks at the operand, then an operand above 510, each with
nothing else done. That `ARG` holds the operand after a refusal, R264 being read of what follows the write of `ARG`, is
the model's reading (DEDUCED, notes/assumptions/11.md). -/
def Obligations.PqinsRefusesFullQueueThenOperand : Prop :=
  ∀ (s : State) (arg : HostWord), s.reg.err = false →
    let p := clearResultFlags (s.setArg arg)
    (s.ctr.hsize.toNat = 256 → exec (.pqins arg) s = .next (raiseError .illegalState p)) ∧
    (s.ctr.hsize.toNat ≠ 256 → 510 < arg.toNat → exec (.pqins arg) s = .next (raiseError .invalidArgument p))

/-- R160, R163, R167, R169: on a queue within its contract and not full, under every tie-break, `PQINS` of a node
whose record has been written adds one occurrence of it to the multiset of queued ids, counts it, keeps the queue
within its contract (under `TIE_REF` in heap order), and changes nothing else. Under `TIE_REF` the new item rises from
the first free slot past exactly the items above it that are strictly heavier, slot by slot. -/
def Obligations.PqinsAddsOneOccurrence : Prop :=
  ∀ (s : State) (arg : HostWord), s.reg.err = false → QueueOk s → s.ctr.hsize.toNat < 256 → arg.toNat ≤ 510 →
    (s.tab.node.read arg.toNat).isSome = true →
    ∃ t, exec (.pqins arg) s = .next t ∧
      (queuedIds t).Perm (arg.setWidth 9 :: queuedIds s) ∧ t.ctr.hsize = s.ctr.hsize + 1#9 ∧ QueueOk t ∧
      (s.par.tie = .ref → RoseFrom s t (arg.setWidth 9)) ∧
      t = { clearResultFlags (s.setArg arg) with
            tab := { s.tab with heap := t.tab.heap }, ctr := { s.ctr with hsize := t.ctr.hsize }, pq := t.pq }

/-- R160, R164, R168, R169: on a queue within its contract that is not empty, under every tie-break, `PQDELMIN`
removes and returns one occurrence of an id no queued id is lighter than, keeps the queue within its contract, and
changes nothing else. Under `TIE_REF` that id is the one in slot 0, and the last item sinks from there past exactly the
strictly lighter items on its way, going right only where the right child is strictly lighter than the left. -/
def Obligations.PqdelminReturnsALightest : Prop :=
  ∀ s : State, s.reg.err = false → QueueOk s → s.ctr.hsize.toNat ≠ 0 →
    ∃ t m w, exec .pqdelmin s = .next t ∧ t.reg.result = m.setWidth 32 ∧
      (queuedIds s).Perm (m :: queuedIds t) ∧ weightOf s.tab.node m = some w ∧
      (∀ j ∈ queuedIds s, ∀ v, weightOf s.tab.node j = some v → w ≤ v) ∧
      (s.par.tie = .ref → s.tab.heap.read 0 = some m ∧ SankFrom s t) ∧
      t.ctr.hsize = s.ctr.hsize - 1#9 ∧ QueueOk t ∧
      t = { clearResultFlags s with
            tab := { s.tab with heap := t.tab.heap }, ctr := { s.ctr with hsize := t.ctr.hsize }, pq := t.pq
            reg := { s.reg with eos := false, empty := false, result := t.reg.result } }

/-! ### Tree builder -/

/-- R180 to R184: `BUILDTREE` on a written `FREQ`, under every tie-break. The leaves take ids 0 to k-1 in ascending
symbol order; with none there is no tree; with one it is the root; with more, 2k-1 records are made, the root being
the last, the records from the root form a tree whose leaves are exactly the symbols present, each once, every
internal node weighs what its children weigh together, with no overflow (R6), and its children have lower ids, the
lighter on the left. The queue is empty afterwards, `RESULT` shows the root, and the rest of the state is unchanged. -/
def Obligations.BuildtreeMakesTheTree : Prop :=
  ∀ s : State, s.reg.err = false → s.tab.freq.filled 256 = true →
    let pairs := presentPairs s.tab.freq
    ∃ t, exec .buildtree s = .next t ∧ t.ctr.hsize = 0#9 ∧ t.reg.result = t.ctr.root.setWidth 32 ∧
      (∀ i, i < pairs.length → ∃ e ∈ pairs[i]?, t.tab.node.read i = some
        { kind := .leaf, symbol := BitVec.ofNat 8 e.1, weight := e.2.setWidth 40, left := NONE, right := NONE }) ∧
      (pairs.length = 0 → t.ctr.root = NONE ∧ t.ctr.nnodes = 0#10) ∧
      (pairs.length = 1 → t.ctr.root = 0#9 ∧ t.ctr.nnodes = 1#10) ∧
      (2 ≤ pairs.length → t.ctr.root.toNat = 2 * pairs.length - 2 ∧ t.ctr.nnodes.toNat = 2 * pairs.length - 1) ∧
      (∀ i, pairs.length ≤ i → i < t.ctr.nnodes.toNat → ∃ n a b, t.tab.node.read i = some n ∧
        n.kind = .internal ∧ n.symbol = 0#8 ∧ n.left.toNat < i ∧ n.right.toNat < i ∧
        t.tab.node.read n.left.toNat = some a ∧ t.tab.node.read n.right.toNat = some b ∧
        a.weight ≤ b.weight ∧ n.weight.toNat = a.weight.toNat + b.weight.toNat) ∧
      (pairs.length ≠ 0 → ∃ tree : HTree, treeAt t.tab.node tree t.ctr.root = true ∧
        ((tree.paths []).map (fun e => e.1.toNat)).Perm (pairs.map (·.1))) ∧
      t = { clearResultFlags s with
            tab := { s.tab with node := t.tab.node, heap := t.tab.heap }
            ctr := { s.ctr with nnodes := t.ctr.nnodes, root := t.ctr.root, hsize := 0#9 }
            reg := { s.reg with eos := false, empty := false, result := t.reg.result }, pq := t.pq }

/-- R189: two `BUILDTREE` on equal `FREQ` tables give equal `NODE[0..nnodes-1]`, `nnodes` and `root`, on the same
block or on two with the same `TIE`, whatever else their states hold. -/
def Obligations.BuildtreeIsDeterministic : Prop :=
  ∀ s₁ s₂ t₁ t₂ : State, s₁.reg.err = false → s₂.reg.err = false → s₁.par.tie = s₂.par.tie →
    (∀ i, i < 256 → s₁.tab.freq.read i = s₂.tab.freq.read i) →
    exec .buildtree s₁ = .next t₁ → exec .buildtree s₂ = .next t₂ →
    t₁.ctr.nnodes = t₂.ctr.nnodes ∧ t₁.ctr.root = t₂.ctr.root ∧
      ∀ i, i < t₁.ctr.nnodes.toNat → t₁.tab.node.read i = t₂.tab.node.read i

/-- R190, R161, R303 (U9, U11): where the spec gives no result the machine stops: `BUILDTREE` over a `FREQ` with an
entry that nothing has written, and `PQDELMIN` after the host has rewritten the weight of a queued node. -/
def Obligations.UndefinedTableContentsStop : Prop :=
  (∀ s : State, s.reg.err = false → s.tab.freq.filled 256 = false →
    ∃ i, i < 256 ∧ s.tab.freq.read i = none ∧ exec .buildtree s = .fault (.unwrittenEntry .freq i)) ∧
  ∀ (s : State) (idx : Nat) (v : Entry) (rest : List HostEvent) (n : Node),
    s.env.script = .tblWrite .node idx v :: rest → s.reg.err = false → s.ctr.hsize ≠ 0#9 → s.queued idx = true →
    idx < 511 → s.tab.node.read idx = some n → (Node.unpack s.par.wW v).weight ≠ n.weight →
    ∃ t, step s = .next t ∧ exec .pqdelmin t = .fault .queueKeyRewritten

/-- R185 to R187: `BUILDCODES` on no tree, and on any tree at most 255 deep, fills `CODE` with the paths of the
leaves (the one-bit code "0" for a root that is a leaf) and no code for every other symbol; `RESULT` and all else
unchanged. The records may be host-written: that a shared record, or a child with a higher id than its parent, raises
nothing, the traversal completing as its pseudocode runs, is the model's reading (DEDUCED, notes/assumptions/13.md). -/
def Obligations.BuildcodesAssignsPaths : Prop :=
  ∀ s : State, s.reg.err = false →
    (s.ctr.root = NONE →
      exec .buildcodes s = .next { clearResultFlags s with
        tab := { s.tab with code := Memory.fill 256 [] } }) ∧
    (∀ tree : HTree, treeAt s.tab.node tree s.ctr.root = true → tree.depth ≤ 255 →
      exec .buildcodes s = .next { clearResultFlags s with
        tab := { s.tab with
          code := writeAll (Memory.fill 256 []) (tree.codes.map fun e => (e.1.toNat, e.2)) } })

/-- R188, R185, R201, R202: with an internal root, over records that lead where `l` and `r` say, parts not reached
left open. A traversal of `BUILDCODES` that follows a `NONE` link, left or right, at any depth, or reaches a depth of
more than 255 edges, raises `IllegalState` there, the codes assigned before it standing. A `WALK` whose bits take it
along a `NONE` link, at any depth and after any number of symbols, raises `IllegalState` there, the symbols before it
emitted and `RESULT` as it was. That `WALK` has no depth bound is the model's reading (DEDUCED,
notes/assumptions/13.md). -/
def Obligations.BadLinkRaisesIllegalState : Prop :=
  ∀ (s : State) (l r : LinkTree), s.reg.err = false → linksAt s.tab.node (.node l r) s.ctr.root = true →
    (let codes := (LinkTree.node l r).assign []
     codes.2 = .badLink →
      exec .buildcodes s = .next (raiseError .illegalState { clearResultFlags s with
        tab := { s.tab with
          code := writeAll (Memory.fill 256 []) (codes.1.map fun e => (e.1.toNat, e.2)) } })) ∧
    (s.rd.ropen = true → s.wr.wopen = true → s.wr.wcnt = 0#3 → s.noFailure = true →
      let d := (LinkTree.node l r).walk s.readableBits (.node l r) s.ctr.osize.toNat
      d.2.2 = .badLink →
      ∃ t, exec .walk s = .next t ∧ t.reg.err = true ∧ t.reg.errcode = 6#4 ∧ t.ctr.cur = NONE ∧
        t.ctr.decoded = BitVec.ofNat 32 d.1.length ∧ t.env.snk = s.env.snk ++ d.1 ∧ t.readableBits = d.2.1 ∧
        t.wr.snkCnt = s.wr.snkCnt + BitVec.ofNat 64 d.1.length ∧ t.reg.result = s.reg.result ∧ t.reg.eos = false)

/-- R191: after `BUILDTREE` and `BUILDCODES`, both of which complete on a written `FREQ`, no code is a prefix of
another, a symbol has a code exactly when its count is above zero, and with k >= 2 symbols every code has 1 to k-1
bits. -/
def Obligations.BuiltCodesArePrefixFree : Prop :=
  ∀ s : State, s.reg.err = false → s.tab.freq.filled 256 = true →
    ∃ t u, exec .buildtree s = .next t ∧ exec .buildcodes t = .next u ∧
      (∀ i j c d, i ≠ j → u.tab.code.read i = some c → u.tab.code.read j = some d → c ≠ [] →
        c.isPrefixOf d = false) ∧
      (∀ i, i < 256 → ∃ c, u.tab.code.read i = some c ∧
        (c ≠ [] ↔ ∃ f, s.tab.freq.read i = some f ∧ f ≠ 0#32) ∧
        (2 ≤ (presentPairs s.tab.freq).length → c.length ≤ (presentPairs s.tab.freq).length - 1))

/-- R191, optimality: with at least two symbols present, the codes `BUILDTREE` and `BUILDCODES` give make the payload
at most as long as any assignment of codes to the symbols present in which none is a prefix of another. -/
def Obligations.BuiltCodesAreOptimal : Prop :=
  ∀ s : State, s.reg.err = false → s.tab.freq.filled 256 = true →
    let pairs := presentPairs s.tab.freq
    2 ≤ pairs.length →
    ∃ t u, exec .buildtree s = .next t ∧ exec .buildcodes t = .next u ∧
      ∀ c : Nat → Code,
        (∀ d ∈ pairs, ∀ e ∈ pairs, d.1 ≠ e.1 → (c d.1).isPrefixOf (c e.1) = false) →
        (pairs.map fun e => e.2.toNat * ((u.tab.code.read e.1).getD []).length).sum ≤
          (pairs.map fun e => e.2.toNat * (c e.1).length).sum

/-! ### Decode -/

/-- R200, R94 to R99: `PARSEHDR` on a source that continues with a header as `WRHDR` emits it, for any size and any
list of symbols and counts, takes exactly the header's bytes and leaves the size, the number of pairs, and a `FREQ`
that the pairs have been written into; nothing else changes and `EOS` stays clear. -/
def Obligations.ParsehdrReadsAnEmittedHeader : Prop :=
  ∀ (s : State) (size : Nat) (pairs : List (Nat × Count)) (rest : List Byte),
    s.reg.err = false → s.rd.ropen = true → s.rd.rcnt = 0#4 → s.noFailure = true → s.par.wf = true →
    size ≤ s.par.maxCount → pairs.length ≤ s.par.maxCount →
    (∀ e ∈ pairs, e.1 ≤ 255 ∧ e.2.toNat ≤ s.par.maxCount) →
    s.srcLeft = headerText size pairs ++ rest →
    exec .parsehdr s = .next { clearResultFlags s with
      ctr := { s.ctr with osize := BitVec.ofNat 32 size, nsym := BitVec.ofNat 32 pairs.length }
      tab := { s.tab with freq := writeAll (Memory.fill 256 0#32) pairs }
      env := { s.env with srcPos := s.env.srcPos + (headerText size pairs).length
                          draws := s.env.draws.drop (headerText size pairs).length } }

/-- R200, R267, R68: `PARSEHDR` is refused unless the source is held with no bit buffered, and at the very end of a
source that has not failed it raises `MalformedHeader` with `EOS` set, having cleared `osize`, `nsym` and
`FREQ`. -/
def Obligations.ParsehdrRefusedOrAtEndOfSource : Prop :=
  ∀ s : State, s.reg.err = false →
    (s.rd.ropen = false ∨ s.rd.rcnt ≠ 0#4 →
      exec .parsehdr s = .next (raiseError .illegalState (clearResultFlags s))) ∧
    (s.rd.ropen = true → s.rd.rcnt = 0#4 → s.env.draws.head? ≠ some true → s.srcLeft = [] →
      exec .parsehdr s = .next (raiseError .malformedHeader { s with
        ctr := { s.ctr with osize := 0#32, nsym := 0#32 }
        tab := { s.tab with freq := Memory.fill 256 0#32 }
        reg := { s.reg with eos := true, empty := false }
        env := { s.env with draws := s.env.draws.tail } }))

/-- R200, R96 to R99, R267, R268: what `PARSEHDR` does with any source. Lines that are neither the sentinel nor bad are
gone past in any order and number, blank ones skipped, later ones overwriting earlier ones. After them, `last` being the
next line, ended by `\n` or by the end of the source (which sets `EOS`): the sentinel ends the parse; a bad line, a
field empty, not all digits or above 2^`CNT_W` - 1, a symbol above 255 or no space, raises `ParseError`; any other last
line without `\n` is processed and `MalformedHeader` raised. A failing access before that raises `IOFailure`. What the
lines before set stands, and no byte after the `\n` is taken. -/
def Obligations.ParsehdrFollowsTheLines : Prop :=
  ∀ (s : State) (lines : List (List Byte)) (last rest : List Byte), s.reg.err = false → s.rd.ropen = true →
    s.rd.rcnt = 0#4 → passedOver s.par.maxCount lines → newline ∉ last →
    let n := (joinLines lines ++ last).length
    let done := afterLines lines (clearResultFlags s)
    let meaning := lineMeaning s.par.maxCount last
    (s.srcLeft = joinLines (lines ++ [last]) ++ rest → true ∉ s.env.draws.take (n + 1) →
      let t := done.setEnv { s.env with srcPos := s.env.srcPos + (n + 1), draws := s.env.draws.drop (n + 1) }
      (meaning = .sentinel → exec .parsehdr s = .next t) ∧
      (meaning = .bad → exec .parsehdr s = .next (raiseError .parseError t))) ∧
    (s.srcLeft = joinLines lines ++ last → true ∉ s.env.draws.take (n + 1) →
      let t := (done.setReg { s.reg with eos := true, empty := false }).setEnv
        { s.env with srcPos := s.env.srcPos + n, draws := s.env.draws.drop (n + 1) }
      (meaning = .sentinel → exec .parsehdr s = .next t) ∧
      (meaning = .bad → exec .parsehdr s = .next (raiseError .parseError t)) ∧
      (meaning ≠ .sentinel → meaning ≠ .bad →
        exec .parsehdr s = .next (raiseError .malformedHeader (meaning.applyTo t)))) ∧
    (s.srcLeft = joinLines lines ++ last ++ rest →
      s.env.draws.take (n + 1) = List.replicate n false ++ [true] →
      ∃ pos ctr, exec .parsehdr s = .next (raiseError .ioFailure (done.setEnv
        { s.env with srcPos := pos, freeCtr := ctr, draws := s.env.draws.drop (n + 1) })))

/-- R203, R204, R201: `WALK` without a tree emits nothing, whatever `osize` says; with a single leaf it emits the
leaf's symbol `osize` times without reading a bit; refused unless both streams are held with no bit to write
buffered. -/
def Obligations.WalkWithoutTreeOrWithOneLeaf : Prop :=
  ∀ s : State, s.reg.err = false →
    (s.rd.ropen = false ∨ s.wr.wopen = false ∨ s.wr.wcnt ≠ 0#3 →
      exec .walk s = .next (raiseError .illegalState (clearResultFlags s))) ∧
    (s.rd.ropen = true → s.wr.wopen = true → s.wr.wcnt = 0#3 →
      (s.ctr.root = NONE →
        exec .walk s = .next { s with
          ctr := { s.ctr with decoded := 0#32, cur := NONE }
          reg := { s.reg with eos := false, empty := false, result := 0#32 } }) ∧
      (∀ sym, treeAt s.tab.node (.leaf sym) s.ctr.root = true → s.noFailure = true →
        exec .walk s = .next { s with
          ctr := { s.ctr with decoded := s.ctr.osize, cur := s.ctr.root }
          wr := { s.wr with snkCnt := s.wr.snkCnt + s.ctr.osize.setWidth 64 }
          reg := { s.reg with eos := false, empty := false, result := s.ctr.osize }
          env := { s.env with snk := s.env.snk ++ List.replicate s.ctr.osize.toNat sym
                              draws := s.env.draws.drop s.ctr.osize.toNat } }))

/-- R201, R202, R205, R207: `WALK` over any tree with an internal root decodes the reader's bits, from the root and
for at most `osize` symbols: the emitted symbols go to `SNK`, their number to `decoded` and `RESULT`, the bits not
needed stay to be read, and when the bits run out first only `EOS` says so: no error is raised. The tree may be of any
depth: that `WALK`, unlike `BUILDCODES`, has no depth bound is the model's reading (DEDUCED, notes/assumptions/13.md). -/
def Obligations.WalkDecodesTheBits : Prop :=
  ∀ (s : State) (l r : HTree), s.reg.err = false → s.rd.ropen = true → s.wr.wopen = true → s.wr.wcnt = 0#3 →
    s.noFailure = true → treeAt s.tab.node (.node l r) s.ctr.root = true →
    let d := (HTree.node l r).decode s.readableBits (.node l r) s.ctr.osize.toNat
    ∃ t, exec .walk s = .next t ∧ t.env.snk = s.env.snk ++ d.1 ∧ t.ctr.decoded = BitVec.ofNat 32 d.1.length ∧
      t.reg.result = t.ctr.decoded ∧ t.readableBits = d.2.1 ∧ t.reg.eos = d.2.2 ∧ t.reg.err = false ∧
      t.reg.errcode = s.reg.errcode ∧ t.wr.snkCnt = s.wr.snkCnt + BitVec.ofNat 64 d.1.length ∧
      (d.2.2 = false → t.ctr.cur = s.ctr.root ∧ t.ctr.decoded = s.ctr.osize)

/-- R33, R201, R62: whatever ends a `WALK` that was not refused, a failing stream access or a bad link included,
`decoded` is at most `osize` and is exactly the number of bytes counted in `snk_cnt`, and the bytes emitted are in
`SNK` in front of anything a failed write may have left there. They are the first bytes of what the bits decode to over
the records the links lead to (every tree among them); with a single leaf they are copies of its symbol; without a tree
there are none. -/
def Obligations.WalkCountsWhatItWrites : Prop :=
  ∀ s t : State, s.reg.err = false → s.canWalk = true → exec .walk s = .next t →
    t.ctr.decoded.toNat ≤ s.ctr.osize.toNat ∧ t.wr.snkCnt = s.wr.snkCnt + t.ctr.decoded.setWidth 64 ∧
      ∃ out tail, t.env.snk = s.env.snk ++ out ++ tail ∧ out.length = t.ctr.decoded.toNat ∧
        (t.reg.err = false → tail = []) ∧ (s.ctr.root = NONE → out = []) ∧
        (∀ sym, treeAt s.tab.node (.leaf sym) s.ctr.root = true →
          out = List.replicate t.ctr.decoded.toNat sym) ∧
        (∀ l r : HTree, treeAt s.tab.node (.node l r) s.ctr.root = true →
          out <+: ((HTree.node l r).decode s.readableBits (.node l r) s.ctr.osize.toNat).1) ∧
        ∀ l r : LinkTree, linksAt s.tab.node (.node l r) s.ctr.root = true →
          let d := (LinkTree.node l r).walk s.readableBits (.node l r) s.ctr.osize.toNat
          d.2.2 ≠ .unknown → out <+: d.1

/-- R206, R233 (scripts P1, P4): a composite is its parts in order: if the operations issued one after another end
without an error, the composite ends in the same state, but for `EOS`, which is set if any part met the end of
`SRC`. -/
def Obligations.CompositesAreTheirParts : Prop :=
  (∀ s t₁ t₂ t₃ t₄ t₅ t₆ t₇ : State, s.idle = true →
    exec .ropen s = .next t₁ → exec .wopen t₁ = .next t₂ → exec .parsehdr t₂ = .next t₃ →
    exec .buildtree t₃ = .next t₄ → exec .walk t₄ = .next t₅ → exec .wclose t₅ = .next t₆ →
    exec .rclose t₆ = .next t₇ → t₇.reg.err = false →
    exec .decompress s = .next { t₇ with reg := { t₇.reg with eos := t₃.reg.eos || t₅.reg.eos } }) ∧
  ∀ s t₁ t₂ t₃ t₄ t₅ t₆ t₇ t₈ t₉ : State, s.idle = true →
    exec .ropen s = .next t₁ → exec .countfreq t₁ = .next t₂ → exec .rclose t₂ = .next t₃ →
    exec .buildtree t₃ = .next t₄ → exec .buildcodes t₄ = .next t₅ → exec .wopen t₅ = .next t₆ →
    exec .wrhdr t₆ = .next t₇ → exec .encode t₇ = .next t₈ → exec .wclose t₈ = .next t₉ → t₉.reg.err = false →
    exec .compress s = .next { t₉ with reg := { t₉.reg with eos := t₂.reg.eos } }

/-- R262, R206: when `DECOMPRESS` ends with `MalformedHeader` or `ParseError` nothing has been written to `SNK`, the
decoded count is as before, and both streams are released. -/
def Obligations.HeaderErrorsAbortBeforePayload : Prop :=
  ∀ s t : State, s.idle = true → exec .decompress s = .next t →
    t.reg.errcode = 2#4 ∨ t.reg.errcode = 3#4 → t.reg.err = true →
    t.env.snk = s.env.snk ∧ t.ctr.decoded = s.ctr.decoded ∧ t.reg.result = s.reg.result ∧
      t.rd.ropen = false ∧ t.wr.wopen = false

/-! ### Compress -/

/-- R230: `COUNTFREQ` is refused unless the source is held with no bit buffered. With at most `INBUF_CAP` bytes left
in an unfailing source it keeps and counts all of them: `INBUF` holds them, `inlen` and `osize` their number, `FREQ`
their counts, `nsym` the number of different ones, and `EOS` is set; nothing else changes. A longer input raises
`IllegalState` after `INBUF_CAP` bytes have been stored and counted and the extra byte consumed. -/
def Obligations.CountfreqKeepsAndCountsTheInput : Prop :=
  ∀ s : State, s.reg.err = false →
    (s.rd.ropen = false ∨ s.rd.rcnt ≠ 0#4 →
      exec .countfreq s = .next (raiseError .illegalState (clearResultFlags s))) ∧
    (s.rd.ropen = true → s.rd.rcnt = 0#4 → s.noFailure = true → s.par.wf = true →
      (s.srcLeft.length ≤ s.par.inbufCap →
        ∃ t, exec .countfreq s = .next t ∧ bufferHolds t.tab.inbuf s.srcLeft ∧
          t = { s with
                ctr := { s.ctr with
                  inlen := BitVec.ofNat 32 s.srcLeft.length, osize := BitVec.ofNat 32 s.srcLeft.length
                  nsym := BitVec.ofNat 32 (presentPairs (countsOf s.srcLeft)).length }
                tab := { s.tab with freq := countsOf s.srcLeft, inbuf := t.tab.inbuf }
                reg := { s.reg with eos := true, empty := false }
                env := { s.env with srcPos := s.env.srcPos + s.srcLeft.length
                                    draws := s.env.draws.drop (s.srcLeft.length + 1) } }) ∧
      (s.par.inbufCap < s.srcLeft.length →
        ∃ t, exec .countfreq s = .next t ∧ bufferHolds t.tab.inbuf (s.srcLeft.take s.par.inbufCap) ∧
          t = raiseError .illegalState { clearResultFlags s with
                ctr := { s.ctr with inlen := BitVec.ofNat 32 s.par.inbufCap }
                tab := { s.tab with freq := countsOf (s.srcLeft.take s.par.inbufCap), inbuf := t.tab.inbuf }
                env := { s.env with srcPos := s.env.srcPos + s.par.inbufCap + 1
                                    draws := s.env.draws.drop (s.par.inbufCap + 1) } }))

/-- R231, R94, R95: `WRHDR` on a byte boundary of a held, unfailing sink appends the header of `osize` and of the
symbols with a non-zero count, and records their number; nothing else changes. Refused off a byte boundary (R68). -/
def Obligations.WrhdrEmitsTheHeader : Prop :=
  ∀ s : State, s.reg.err = false →
    (s.wr.wopen = false ∨ s.wr.wcnt ≠ 0#3 →
      exec .wrhdr s = .next (raiseError .illegalState (clearResultFlags s))) ∧
    (s.wr.wopen = true → s.wr.wcnt = 0#3 → s.noFailure = true → s.tab.freq.filled 256 = true →
      let header := headerText s.ctr.osize.toNat (presentPairs s.tab.freq)
      exec .wrhdr s = .next { clearResultFlags s with
        ctr := { s.ctr with nsym := BitVec.ofNat 32 (presentPairs s.tab.freq).length }
        wr := { s.wr with snkCnt := s.wr.snkCnt + BitVec.ofNat 64 header.length }
        env := { s.env with snk := s.env.snk ++ header, draws := s.env.draws.drop header.length } })

/-- R232, R100, R269: `ENCODE` is refused when the sink is not held. Where every byte of the input has a code it appends
to the bits already buffered the codes of the input bytes in order, and flushes. A byte without a code is refused, the
first one with nothing done, a later one with the codes before it written: their whole bytes to `SNK`, the bits left
over still buffered, and no flush. -/
def Obligations.EncodeEmitsThePayload : Prop :=
  (∀ s : State, s.reg.err = false → s.wr.wopen = false →
    exec .encode s = .next (raiseError .illegalState (clearResultFlags s))) ∧
  ∀ (s : State) (bytes : List Byte), s.reg.err = false → s.wr.wopen = true → s.noFailure = true →
    bytes.length = s.ctr.inlen.toNat → bufferHolds s.tab.inbuf bytes →
    (∀ codeOf : Byte → Code, (∀ b ∈ bytes, s.tab.code.read b.toNat = some (codeOf b) ∧ codeOf b ≠ []) →
      let payload := packBits (s.pendingWrite ++ bytes.flatMap codeOf)
      ∃ t, exec .encode s = .next t ∧ t.env.snk = s.env.snk ++ payload ∧ t.wr.wcnt = 0#3 ∧
        t.wr.snkCnt = s.wr.snkCnt + BitVec.ofNat 64 payload.length ∧ t.wr.wopen = true ∧
        t = { clearResultFlags s with wr := t.wr, env := { s.env with snk := t.env.snk, draws := t.env.draws } }) ∧
    (∀ b rest, bytes = b :: rest → s.tab.code.read b.toNat = some [] →
      exec .encode s = .next (raiseError .illegalState (clearResultFlags s))) ∧
    (∀ (codeOf : Byte → Code) (before rest : List Byte) (b : Byte), bytes = before ++ b :: rest →
      (∀ c ∈ before, s.tab.code.read c.toNat = some (codeOf c) ∧ codeOf c ≠ []) → s.tab.code.read b.toNat = some [] →
      let bits := s.pendingWrite ++ before.flatMap codeOf
      let whole := bits.length / 8
      ∃ wr, wr.wopen = true ∧ wr.snkCnt = s.wr.snkCnt + BitVec.ofNat 64 whole ∧
        ({ s with wr := wr } : State).pendingWrite = bits.drop (8 * whole) ∧
        exec .encode s = .next (raiseError .illegalState { clearResultFlags s with
          wr := wr
          env := { s.env with snk := s.env.snk ++ packBits (bits.take (8 * whole))
                              draws := s.env.draws.drop whole } }))

/-- R235: `COMPRESS` of an empty source writes the 37 bytes of the empty header and nothing after them, leaves no
tree and no code; `DECOMPRESS` of those 37 bytes gives zero output bytes with `decoded` = `osize` = 0. -/
def Obligations.EmptyInputRoundTrips : Prop :=
  ∀ s : State, s.idle = true → s.noFailure = true → s.par.wf = true →
    (s.srcLeft = [] →
      ∃ t, exec .compress s = .next t ∧ t.env.snk = s.env.snk ++ headerText 0 [] ∧ t.ctr.root = NONE ∧
        t.tab.freq = Memory.fill 256 0#32 ∧ t.tab.code = Memory.fill 256 [] ∧ t.ctr.osize = 0#32 ∧
        t.wr.snkCnt = 37#64 ∧ t.reg.err = false ∧ t.reg.result = 0x000001FF#32) ∧
    (s.srcLeft = headerText 0 [] →
      ∃ t, exec .decompress s = .next t ∧ t.env.snk = s.env.snk ∧ t.ctr.decoded = 0#32 ∧ t.ctr.osize = 0#32 ∧
        t.reg.err = false ∧ t.reg.result = 0#32)

/-- R208: the round trip, under every admitted tie-break: for every byte string that fits the input buffer,
`COMPRESS` completes, and `DECOMPRESS` of what it wrote, on any block with the same tie-break whose counts are wide
enough for the string, completes and writes the byte string, with `decoded` = `osize` = its length and no error. -/
def Obligations.DecompressUndoesCompress : Prop :=
  ∀ (s u : State) (bytes : List Byte), s.idle = true → s.noFailure = true → s.par.wf = true → s.srcLeft = bytes →
    bytes.length ≤ s.par.inbufCap → u.idle = true → u.noFailure = true → u.par.wf = true → u.par.tie = s.par.tie →
    bytes.length ≤ u.par.maxCount →
    ∃ t artifact, exec .compress s = .next t ∧ t.reg.err = false ∧ t.env.snk = s.env.snk ++ artifact ∧
      (u.srcLeft = artifact →
        ∃ v, exec .decompress u = .next v ∧ v.env.snk = u.env.snk ++ bytes ∧
          v.ctr.decoded.toNat = bytes.length ∧ v.ctr.osize.toNat = bytes.length ∧ v.reg.err = false)

/-! ### Rules about the whole machine -/

/-- R206, R233, R268: whatever happens in a composite that started with both streams free, both are free at the end;
one that did not is refused with nothing done. The error recorded is that of the first part that raises, whether or not
the closing flush fails: with the parts before `i` done without an error and `i` raising, the composite ends with the
error of `i` and with what the parts left in the tables, the counters and `RESULT`. -/
def Obligations.CompositesReleaseTheStreams : Prop :=
  (∀ (s t : State), s.reg.err = false → ∀ i ∈ [Instr.decompress, .compress], exec i s = .next t →
    (s.idle = true → t.rd.ropen = false ∧ t.wr.wopen = false) ∧
    (s.idle = false → t = raiseError .illegalState (clearResultFlags s))) ∧
  ∀ (s u v : State) (whole i : Instr) (before after : List Instr), s.idle = true →
    (whole = .decompress ∧ before ++ i :: after = [.ropen, .wopen, .parsehdr, .buildtree, .walk, .wclose, .rclose] ∨
      whole = .compress ∧ before ++ i :: after =
        [.ropen, .countfreq, .rclose, .buildtree, .buildcodes, .wopen, .wrhdr, .encode, .wclose]) →
    execAll before s = .next u → u.reg.err = false → exec i u = .next v → v.reg.err = true →
    ∃ t, exec whole s = .next t ∧ t.reg.err = true ∧ t.reg.errcode = v.reg.errcode ∧ t.reg.result = v.reg.result ∧
      t.tab = v.tab ∧ t.ctr = v.ctr ∧ t.rd.ropen = false ∧ t.wr.wopen = false ∧
      v.env.snk.isPrefixOf t.env.snk = true

/-- R292: the result of `DECOMPRESS` depends on nothing but `SRC`, the parameters and the environment's choices: two
idle states that agree on those both complete, with the same error, the same bytes appended and the same `EOS`; and,
when there is no error, the same `osize`, `nsym` and `FREQ`, the same tree (`root`, `nnodes` and every record below
`nnodes`), the same `cur`, `decoded`, `RESULT` and byte count. -/
def Obligations.DecompressIgnoresEarlierState : Prop :=
  ∀ s₁ s₂ : State, s₁.idle = true → s₂.idle = true → s₁.par = s₂.par → s₁.env.src = s₂.env.src →
    s₁.env.srcPos = s₂.env.srcPos → s₁.env.draws = s₂.env.draws → s₁.env.freeCtr = s₂.env.freeCtr →
    s₁.reg.errcode = s₂.reg.errcode →
    ∃ t₁ t₂ out, exec .decompress s₁ = .next t₁ ∧ exec .decompress s₂ = .next t₂ ∧
      t₁.env.snk = s₁.env.snk ++ out ∧ t₂.env.snk = s₂.env.snk ++ out ∧ t₁.reg.err = t₂.reg.err ∧
      t₁.reg.errcode = t₂.reg.errcode ∧ t₁.reg.eos = t₂.reg.eos ∧
      (t₁.reg.err = false →
        t₁.ctr.osize = t₂.ctr.osize ∧ t₁.ctr.nsym = t₂.ctr.nsym ∧ t₁.tab.freq = t₂.tab.freq ∧
        t₁.ctr.nnodes = t₂.ctr.nnodes ∧ t₁.ctr.root = t₂.ctr.root ∧
        (∀ i, i < t₁.ctr.nnodes.toNat → t₁.tab.node.read i = t₂.tab.node.read i) ∧
        t₁.ctr.cur = t₂.ctr.cur ∧ t₁.ctr.decoded = t₂.ctr.decoded ∧
        t₁.reg.result = t₂.reg.result ∧ t₁.wr.snkCnt = t₂.wr.snkCnt)

/-- R292, R233: `COMPRESS` started with both streams free never stops the machine, whatever the tables held: every
entry it reads it has written. -/
def Obligations.CompressAlwaysCompletes : Prop :=
  ∀ s : State, s.idle = true → s.par.wf = true → ∃ t, exec .compress s = .next t

/-- R302: every operation ends: none meets the bound of its loop, in any state. -/
def Obligations.EveryOperationEnds : Prop :=
  ∀ (i : Instr) (s : State), exec i s ≠ .fault .loopBound

/-- R260, column "raised by", with R268: an operation issued with no error pending either leaves none or records one
of the errors its row allows, with that error's code. -/
def Obligations.OperationsRaiseOnlyTheirErrors : Prop :=
  ∀ (i : Instr) (s t : State), s.reg.err = false → exec i s = .next t → t.reg.err = true →
    ∃ e ∈ raisable i, t.reg.errcode = e.code

/-- R61, R62, R71, R75: no operation takes back a byte of `SNK` or changes a byte of `SRC`; none changes the host's
script or the parameters (R39). -/
def Obligations.OperationsOnlyAppendToSink : Prop :=
  ∀ (i : Instr) (s t : State), exec i s = .next t →
    s.env.snk.isPrefixOf t.env.snk = true ∧ t.env.src = s.env.src ∧ t.env.script = s.env.script ∧
      t.env.busData = s.env.busData ∧ t.par = s.par

/-- R35, R36, D36: only `RDBIT`, `RDBYTE`, `RDINT`, `PQDELMIN`, `PQSIZE`, `PQEMPTY`, `BUILDTREE`, `WALK`, the
composites and `SRESET` ever change `RESULT`; only the four operations with an operand, and `SRESET`, change `ARG`;
an operation issued with no error pending ends with `EOS` set only if it is one of the eight that read `SRC` to its
end, and with `EMPTY` set only if it is `PQDELMIN` (`NOP` leaves both as they were). That an operation with an operand
that is dropped or refused has still put it into `ARG` is the model's reading (DEDUCED, notes/assumptions/11.md). -/
def Obligations.OnlyListedOperationsWriteResultAndFlags : Prop :=
  ∀ (i : Instr) (s t : State), exec i s = .next t → i ≠ .sreset →
    t.reg.cmd = s.reg.cmd ∧ t.reg.arg = (operand? i).getD s.reg.arg ∧
    (i ∉ [Instr.rdbit, .rdbyte, .rdint, .pqdelmin, .pqsize, .pqempty, .buildtree, .walk, .decompress, .compress] →
      t.reg.result = s.reg.result) ∧
    (s.reg.err = false → i ≠ .nop →
      (t.reg.eos = true →
        i ∈ [Instr.rdbit, .rdbyte, .rdint, .parsehdr, .walk, .decompress, .countfreq, .compress]) ∧
      (t.reg.empty = true → i = .pqdelmin))

/-- Frame of the reader family (R130 to R134): the writer, the tables, the counters, the queue and `SNK` are
unchanged, and `RESULT` too for `ROPEN` and `RCLOSE`. -/
def Obligations.ReaderOperationsFrame : Prop :=
  ∀ (s t : State), ∀ i ∈ [Instr.ropen, .rclose, .rdbit, .rdbyte, .rdint], exec i s = .next t →
    t.wr = s.wr ∧ t.tab = s.tab ∧ t.ctr = s.ctr ∧ t.pq = s.pq ∧ t.par = s.par ∧ t.env.snk = s.env.snk ∧
      t.env.src = s.env.src ∧ t.reg.arg = s.reg.arg ∧ t.reg.cmd = s.reg.cmd ∧
      (i = .rdbyte ∨ i = .rdint → t.rd = s.rd) ∧ (i = .ropen ∨ i = .rclose → t.reg.result = s.reg.result)

/-- Frame of the writer family (R135 to R140): the reader, the tables, the counters, the queue, `SRC` and its read
position, `RESULT` and `CMD` are unchanged; the byte-granular writes leave the bit buffer alone. -/
def Obligations.WriterOperationsFrame : Prop :=
  ∀ (s t : State) (arg : HostWord),
    ∀ i ∈ [Instr.wopen, .wclose, .wrbit arg, .wrbyte arg, .wrint arg, .flush], exec i s = .next t →
    t.rd = s.rd ∧ t.tab = s.tab ∧ t.ctr = s.ctr ∧ t.pq = s.pq ∧ t.par = s.par ∧ t.env.src = s.env.src ∧
      t.env.srcPos = s.env.srcPos ∧ t.reg.result = s.reg.result ∧ t.reg.cmd = s.reg.cmd ∧
      (i ≠ .wopen → i ≠ .wclose → t.wr.wopen = s.wr.wopen) ∧
      (i = .wrbyte arg ∨ i = .wrint arg → t.wr.wbuf = s.wr.wbuf ∧ t.wr.wcnt = s.wr.wcnt)

/-- Frame of the queue family (R162 to R166): the streams, the bit buffers, every table but `HEAP`, and every
counter but `hsize` are unchanged; `PQSIZE`, `PQEMPTY` and `PQCLR` leave `HEAP` too, `PQINS` its slots above the new
item's, `PQDELMIN` its slots from the last item's on (under a tie-break other than `TIE_REF` that these slots stay is the
model's choice, notes/assumptions/9.md). -/
def Obligations.QueueOperationsFrame : Prop :=
  ∀ (s t : State) (arg : HostWord),
    ∀ i ∈ [Instr.pqclr, .pqins arg, .pqdelmin, .pqsize, .pqempty], exec i s = .next t →
    t.rd = s.rd ∧ t.wr = s.wr ∧ t.env = s.env ∧ t.par = s.par ∧ t.tab = { s.tab with heap := t.tab.heap } ∧
      t.ctr = { s.ctr with hsize := t.ctr.hsize } ∧
      (i = .pqclr ∨ i = .pqsize ∨ i = .pqempty → t.tab.heap = s.tab.heap) ∧
      (i = .pqins arg → ∀ j, s.ctr.hsize.toNat < j → t.tab.heap.read j = s.tab.heap.read j) ∧
      (i = .pqdelmin → ∀ j, s.ctr.hsize.toNat ≤ j + 1 → t.tab.heap.read j = s.tab.heap.read j) ∧
      (i = .pqsize ∨ i = .pqempty → t.ctr.hsize = s.ctr.hsize)

/-- Frame of the codec's parts (R180, R185, R200, R201, R206, R230 to R233), whether they complete or raise: each
table and each counter is changed only by the operations whose rule writes it, `BUILDTREE` and `BUILDCODES` touch no
stream, `PARSEHDR` and `COUNTFREQ` write no sink and no reader register, `WRHDR` and `ENCODE` read no source, the decode
path leaves `CODE` and `INBUF` and the compress path the walker's registers. Of `NODE` only the records below `nnodes`
are written, of `HEAP` only as many slots as there are symbols present (the model's choice under a tie-break other than
`TIE_REF`, notes/assumptions/9.md), of `INBUF` only the bytes below `inlen`. -/
def Obligations.CodecPartsFrame : Prop :=
  ∀ (s t : State),
    (exec .buildtree s = .next t → t.rd = s.rd ∧ t.wr = s.wr ∧ t.env = s.env ∧
      t.tab = { s.tab with node := t.tab.node, heap := t.tab.heap } ∧
      t.ctr = { s.ctr with nnodes := t.ctr.nnodes, root := t.ctr.root, hsize := t.ctr.hsize } ∧
      (∀ j, t.ctr.nnodes.toNat ≤ j → t.tab.node.read j = s.tab.node.read j) ∧
      ∀ j, (presentPairs s.tab.freq).length ≤ j → t.tab.heap.read j = s.tab.heap.read j) ∧
    (exec .buildcodes s = .next t → t.rd = s.rd ∧ t.wr = s.wr ∧ t.env = s.env ∧ t.ctr = s.ctr ∧ t.pq = s.pq ∧
      t.tab = { s.tab with code := t.tab.code }) ∧
    (exec .parsehdr s = .next t → t.rd = s.rd ∧ t.wr = s.wr ∧ t.pq = s.pq ∧ t.env.snk = s.env.snk ∧
      t.tab = { s.tab with freq := t.tab.freq } ∧ t.ctr = { s.ctr with osize := t.ctr.osize, nsym := t.ctr.nsym }) ∧
    (exec .walk s = .next t → t.tab = s.tab ∧ t.pq = s.pq ∧ t.rd.ropen = s.rd.ropen ∧
      t.wr = { s.wr with snkCnt := t.wr.snkCnt } ∧
      t.ctr = { s.ctr with decoded := t.ctr.decoded, cur := t.ctr.cur }) ∧
    (exec .countfreq s = .next t → t.rd = s.rd ∧ t.wr = s.wr ∧ t.pq = s.pq ∧ t.env.snk = s.env.snk ∧
      t.tab = { s.tab with freq := t.tab.freq, inbuf := t.tab.inbuf } ∧
      t.ctr = { s.ctr with inlen := t.ctr.inlen, osize := t.ctr.osize, nsym := t.ctr.nsym } ∧
      (s.par.wf = true → ∀ j, t.ctr.inlen.toNat ≤ j → t.tab.inbuf.read j = s.tab.inbuf.read j)) ∧
    (exec .wrhdr s = .next t → t.rd = s.rd ∧ t.tab = s.tab ∧ t.pq = s.pq ∧ t.env.srcPos = s.env.srcPos ∧
      t.wr = { s.wr with snkCnt := t.wr.snkCnt } ∧ t.ctr = { s.ctr with nsym := t.ctr.nsym }) ∧
    (exec .encode s = .next t → t.rd = s.rd ∧ t.tab = s.tab ∧ t.pq = s.pq ∧ t.ctr = s.ctr ∧
      t.env.srcPos = s.env.srcPos ∧ t.wr.wopen = s.wr.wopen) ∧
    (exec .decompress s = .next t →
      t.tab = { s.tab with freq := t.tab.freq, node := t.tab.node, heap := t.tab.heap } ∧ t.ctr.inlen = s.ctr.inlen ∧
      ∀ j, t.ctr.nnodes.toNat ≤ j → t.tab.node.read j = s.tab.node.read j) ∧
    (exec .compress s = .next t → t.ctr.decoded = s.ctr.decoded ∧ t.ctr.cur = s.ctr.cur ∧
      (∀ j, t.ctr.nnodes.toNat ≤ j → t.tab.node.read j = s.tab.node.read j) ∧
      (s.par.wf = true → ∀ j, t.ctr.inlen.toNat ≤ j → t.tab.inbuf.read j = s.tab.inbuf.read j))

/-! ### The host's side -/

/-- R36, R38: what a host read of each register shows, zero-extended, with nothing else changed; an index above 15 is
not read and raises `IllegalCommand` unless an error is pending (R253). -/
def Obligations.HostReadsRegisters : Prop :=
  ∀ (s : State) (idx : Nat) (rest : List HostEvent), s.env.script = .regRead idx :: rest →
    (∀ v : HostWord,
      [0#32, s.reg.arg, s.reg.result,
        BitVec.ofNat 32 (s.reg.err.toNat + 2 * s.reg.eos.toNat + 4 * s.reg.empty.toNat + 8 * s.rd.ropen.toNat
          + 16 * s.wr.wopen.toNat),
        s.reg.errcode.setWidth 32, s.ctr.osize, s.ctr.nsym, s.ctr.decoded, s.ctr.root.setWidth 32,
        s.ctr.nnodes.setWidth 32, s.ctr.hsize.setWidth 32, s.ctr.inlen, s.wr.snkCnt.extractLsb' 0 32,
        s.wr.snkCnt.extractLsb' 32 32, s.ctr.cur.setWidth 32,
        BitVec.ofNat 32 (s.wr.wbuf.toNat * 2 ^ 24 + s.wr.wcnt.toNat * 2 ^ 16 + s.rd.rbuf.toNat * 2 ^ 8
          + s.rd.rcnt.toNat)][idx]? = some v →
      step s = .next { s with env := { s.env with script := rest, busData := v.setWidth 263 } }) ∧
    (15 < idx → step s = .next (if s.reg.err then s.popScript rest
      else raiseError .illegalCommand (s.popScript rest)))

/-- R38, R253, R264: host writes of registers: `ARG` whole, `ORIGINAL_SIZE` and `SYMBOLS` the low `CNT_W` bits,
`ROOT` and `INLEN` range-checked, the read-only and absent ones refused. A write in range is performed whether or not an
error is pending; one that is refused raises its error when none is pending, and otherwise leaves the pending one. The
result flags are never cleared. -/
def Obligations.HostWritesRegisters : Prop :=
  ∀ (s : State) (idx : Nat) (v : HostWord) (rest : List HostEvent), s.env.script = .regWrite idx v :: rest →
    let p := s.popScript rest
    let refused := fun e => if s.reg.err then p else raiseError e p
    (idx = 1 → step s = .next { p with reg := { s.reg with arg := v } }) ∧
    (idx = 5 → step s = .next { p with ctr := { s.ctr with osize := BitVec.ofNat 32 (v.toNat % 2 ^ s.par.cntW) } }) ∧
    (idx = 6 → step s = .next { p with ctr := { s.ctr with nsym := BitVec.ofNat 32 (v.toNat % 2 ^ s.par.cntW) } }) ∧
    (idx = 8 → step s = .next (if v.toNat ≤ 511 then { p with ctr := { s.ctr with root := v.setWidth 9 } }
      else refused .invalidArgument)) ∧
    (idx = 11 → step s = .next (if v.toNat ≤ s.par.inbufCap then { p with ctr := { s.ctr with inlen := v } }
      else refused .invalidArgument)) ∧
    (idx ∉ [0, 1, 5, 6, 8, 11] → step s = .next (refused .illegalCommand))

/-- R102, R103: packing a node record whose weight fits `W_W` bits, or a code of at most 255 bits, and unpacking it
gives it back: the table port drops no bit. -/
def Obligations.PackedEntriesRoundTrip : Prop :=
  (∀ (n : Node) (wW : Nat), wW ≤ 40 → n.weight.toNat < 2 ^ wW → Node.unpack wW n.pack = n) ∧
    (∀ c : Code, c.length ≤ 255 → unpackCode (packCode c) = c)

/-- R70, R71, R73: the table port, for every table, under every tie-break, an error pending or not. What the host
writes to an entry within the size it reads back, in the bits the entry has; every other entry of every table is
unchanged, and so is the rest of the state, but that rewriting a queued node's weight is recorded (the model's record,
notes/assumptions/12.md). That the bits of a `CODE` entry below its code read back as zero whatever was written (DEDUCED,
notes/assumptions/14.md) and that an `INBUF` entry keeps the low 8 bits (DESIGN CHOICE, notes/assumptions/21.md) are the
model's choices. A read shows the entry as it stands and changes nothing; one of an entry nothing has written
stops (U9; the model's form, notes/assumptions/8.md). An access outside the size is not performed and raises
`IllegalCommand`, unless an error is pending. -/
def Obligations.HostReadsBackTableWrites : Prop :=
  (∀ (s : State) (sp : Space) (idx : Nat) (v : Entry) (rest : List HostEvent),
    s.env.script = .tblWrite sp idx v :: .tblRead sp idx :: rest → s.par.wf = true → idx < tableSize s.par sp →
    ∃ t u, step s = .next t ∧ step t = .next u ∧ u.env.busData = BitVec.ofNat 263 (keptBits s.par sp v.toNat) ∧
      u = { s with tab := u.tab, pq := u.pq, env := { s.env with script := rest, busData := u.env.busData } } ∧
      (∀ j, sp ≠ .freq ∨ j ≠ idx → u.tab.freq.read j = s.tab.freq.read j) ∧
      (∀ j, sp ≠ .node ∨ j ≠ idx → u.tab.node.read j = s.tab.node.read j) ∧
      (∀ j, sp ≠ .heap ∨ j ≠ idx → u.tab.heap.read j = s.tab.heap.read j) ∧
      (∀ j, sp ≠ .code ∨ j ≠ idx → u.tab.code.read j = s.tab.code.read j) ∧
      (∀ j, sp ≠ .inbuf ∨ j ≠ idx → u.tab.inbuf.read j = s.tab.inbuf.read j) ∧
      u.pq.hist = s.pq.hist ∧ (sp ≠ .node ∨ (∀ id ∈ queuedIds s, id.toNat ≠ idx) → u.pq = s.pq)) ∧
  (∀ (s : State) (sp : Space) (idx : Nat) (rest : List HostEvent), s.env.script = .tblRead sp idx :: rest →
    idx < tableSize s.par sp →
    let shows := fun v : Nat =>
      step s = .next { s with env := { s.env with script := rest, busData := BitVec.ofNat 263 v } }
    (∀ c, sp = .freq → s.tab.freq.read idx = some c → shows c.toNat) ∧
    (∀ n, sp = .node → s.tab.node.read idx = some n →
      shows (n.weight.toNat * 2 ^ 27 + (if n.kind = .leaf then 2 ^ 26 else 0) + n.symbol.toNat * 2 ^ 18
        + n.left.toNat * 2 ^ 9 + n.right.toNat)) ∧
    (∀ id, sp = .heap → s.tab.heap.read idx = some id → shows id.toNat) ∧
    (∀ c, sp = .code → s.tab.code.read idx = some c → c.length ≤ 255 →
      shows (c.length * 2 ^ 255 + bitsValue c 255)) ∧
    (∀ b, sp = .inbuf → s.tab.inbuf.read idx = some b → shows b.toNat) ∧
    ((match sp with
      | .freq => (s.tab.freq.read idx).isNone
      | .node => (s.tab.node.read idx).isNone
      | .heap => (s.tab.heap.read idx).isNone
      | .code => (s.tab.code.read idx).isNone
      | .inbuf => (s.tab.inbuf.read idx).isNone) = true → step s = .fault (.unwrittenEntry sp idx))) ∧
  ∀ (s : State) (sp : Space) (idx : Nat) (v : Entry) (rest : List HostEvent),
    s.env.script = .tblWrite sp idx v :: rest ∨ s.env.script = .tblRead sp idx :: rest → tableSize s.par sp ≤ idx →
    step s = .next (if s.reg.err then s.popScript rest else raiseError .illegalCommand (s.popScript rest))

/-! ### Invariants -/

/-- R40, R290: the machine right after reset meets the invariant. -/
def Obligations.ResetMeetsTheInvariant : Prop := Inv State.reset

/-- The invariant of the machine (R5, R6, R9, R14, R21, R22, R26, R28, R29, R30, R37, R60) is kept by every step, from
every state that meets it. -/
def Obligations.EveryStepKeepsTheInvariant : Prop :=
  ∀ s t : State, Inv s → step s = .next t → Inv t

/-- R60: every step keeps every table in canonical form, so that equal tables are equal data. -/
def Obligations.EveryStepKeepsTablesCanonical : Prop :=
  ∀ s t : State, s.tab.freq.wf = true → s.tab.node.wf = true → s.tab.heap.wf = true → s.tab.code.wf = true →
    s.tab.inbuf.wf = true → step s = .next t →
    t.tab.freq.wf = true ∧ t.tab.node.wf = true ∧ t.tab.heap.wf = true ∧ t.tab.code.wf = true ∧
      t.tab.inbuf.wf = true
end

