-- ==== Sys2Proof/Laws/PerInstr.lean ====
section
/-! SUPPORT. Facts about every operation as syntax, one lemma a constructor: the command word an operation encodes
to carries its code in `op`, its operand in `arg` and zero where it has none (R90, R93). -/

namespace Sys2Proof.Laws.Opcode

/-- The fields of an operation's command word (R90, R91, R93). -/
def Statement (i : Instr) : Prop := cmdOp (encode i) = opOf i ∧ cmdArg (encode i) = (operand? i).getD 0#32

/-- The high field of a word put together from `op` and `arg`. -/
theorem cmdOp_append (op : BitVec 8) (arg : HostWord) : cmdOp (op ++ arg) = op := by
  unfold cmdOp
  exact BitVec.extractLsb'_append_eq_left

/-- The low field of a word put together from `op` and `arg`. -/
theorem cmdArg_append (op : BitVec 8) (arg : HostWord) : cmdArg (op ++ arg) = arg := by
  unfold cmdArg
  exact BitVec.extractLsb'_append_eq_right

/-- Whatever the operation, its word carries its two fields. -/
theorem fields (i : Instr) : Statement i := ⟨cmdOp_append _ _, cmdArg_append _ _⟩

theorem nop : Statement .nop := fields _
theorem clrerr : Statement .clrerr := fields _
theorem sreset : Statement .sreset := fields _
theorem ropen : Statement .ropen := fields _
theorem rclose : Statement .rclose := fields _
theorem rdbit : Statement .rdbit := fields _
theorem rdbyte : Statement .rdbyte := fields _
theorem rdint : Statement .rdint := fields _
theorem wopen : Statement .wopen := fields _
theorem wclose : Statement .wclose := fields _
theorem wrbit (arg : HostWord) : Statement (.wrbit arg) := fields _
theorem wrbyte (arg : HostWord) : Statement (.wrbyte arg) := fields _
theorem wrint (arg : HostWord) : Statement (.wrint arg) := fields _
theorem flush : Statement .flush := fields _
theorem pqclr : Statement .pqclr := fields _
theorem pqins (arg : HostWord) : Statement (.pqins arg) := fields _
theorem pqdelmin : Statement .pqdelmin := fields _
theorem pqsize : Statement .pqsize := fields _
theorem pqempty : Statement .pqempty := fields _
theorem buildtree : Statement .buildtree := fields _
theorem buildcodes : Statement .buildcodes := fields _
theorem parsehdr : Statement .parsehdr := fields _
theorem walk : Statement .walk := fields _
theorem decompress : Statement .decompress := fields _
theorem countfreq : Statement .countfreq := fields _
theorem wrhdr : Statement .wrhdr := fields _
theorem encode : Statement .encode := fields _
theorem compress : Statement .compress := fields _

end Sys2Proof.Laws.Opcode
end

