-- ==== Sys2Proof/Laws/State.lean ====
section
/-! SUPPORT. What each update of the state leaves in each group of registers: one lemma a group and update, true by
`rfl`. No later proof unfolds an update. -/

namespace Sys2Proof.Machine

/-! ### `State.setRd` -/

@[simp] theorem State.setRd_rd (s : State) (x : Reader) : (s.setRd x).rd = x := rfl
@[simp] theorem State.setRd_wr (s : State) (x : Reader) : (s.setRd x).wr = s.wr := rfl
@[simp] theorem State.setRd_tab (s : State) (x : Reader) : (s.setRd x).tab = s.tab := rfl
@[simp] theorem State.setRd_ctr (s : State) (x : Reader) : (s.setRd x).ctr = s.ctr := rfl
@[simp] theorem State.setRd_reg (s : State) (x : Reader) : (s.setRd x).reg = s.reg := rfl
@[simp] theorem State.setRd_pq (s : State) (x : Reader) : (s.setRd x).pq = s.pq := rfl
@[simp] theorem State.setRd_par (s : State) (x : Reader) : (s.setRd x).par = s.par := rfl
@[simp] theorem State.setRd_env (s : State) (x : Reader) : (s.setRd x).env = s.env := rfl

/-! ### `State.setWr` -/

@[simp] theorem State.setWr_rd (s : State) (x : Writer) : (s.setWr x).rd = s.rd := rfl
@[simp] theorem State.setWr_wr (s : State) (x : Writer) : (s.setWr x).wr = x := rfl
@[simp] theorem State.setWr_tab (s : State) (x : Writer) : (s.setWr x).tab = s.tab := rfl
@[simp] theorem State.setWr_ctr (s : State) (x : Writer) : (s.setWr x).ctr = s.ctr := rfl
@[simp] theorem State.setWr_reg (s : State) (x : Writer) : (s.setWr x).reg = s.reg := rfl
@[simp] theorem State.setWr_pq (s : State) (x : Writer) : (s.setWr x).pq = s.pq := rfl
@[simp] theorem State.setWr_par (s : State) (x : Writer) : (s.setWr x).par = s.par := rfl
@[simp] theorem State.setWr_env (s : State) (x : Writer) : (s.setWr x).env = s.env := rfl

/-! ### `State.setTab` -/

@[simp] theorem State.setTab_rd (s : State) (x : Tables) : (s.setTab x).rd = s.rd := rfl
@[simp] theorem State.setTab_wr (s : State) (x : Tables) : (s.setTab x).wr = s.wr := rfl
@[simp] theorem State.setTab_tab (s : State) (x : Tables) : (s.setTab x).tab = x := rfl
@[simp] theorem State.setTab_ctr (s : State) (x : Tables) : (s.setTab x).ctr = s.ctr := rfl
@[simp] theorem State.setTab_reg (s : State) (x : Tables) : (s.setTab x).reg = s.reg := rfl
@[simp] theorem State.setTab_pq (s : State) (x : Tables) : (s.setTab x).pq = s.pq := rfl
@[simp] theorem State.setTab_par (s : State) (x : Tables) : (s.setTab x).par = s.par := rfl
@[simp] theorem State.setTab_env (s : State) (x : Tables) : (s.setTab x).env = s.env := rfl

/-! ### `State.setCtr` -/

@[simp] theorem State.setCtr_rd (s : State) (x : Counters) : (s.setCtr x).rd = s.rd := rfl
@[simp] theorem State.setCtr_wr (s : State) (x : Counters) : (s.setCtr x).wr = s.wr := rfl
@[simp] theorem State.setCtr_tab (s : State) (x : Counters) : (s.setCtr x).tab = s.tab := rfl
@[simp] theorem State.setCtr_ctr (s : State) (x : Counters) : (s.setCtr x).ctr = x := rfl
@[simp] theorem State.setCtr_reg (s : State) (x : Counters) : (s.setCtr x).reg = s.reg := rfl
@[simp] theorem State.setCtr_pq (s : State) (x : Counters) : (s.setCtr x).pq = s.pq := rfl
@[simp] theorem State.setCtr_par (s : State) (x : Counters) : (s.setCtr x).par = s.par := rfl
@[simp] theorem State.setCtr_env (s : State) (x : Counters) : (s.setCtr x).env = s.env := rfl

/-! ### `State.setReg` -/

@[simp] theorem State.setReg_rd (s : State) (x : Regs) : (s.setReg x).rd = s.rd := rfl
@[simp] theorem State.setReg_wr (s : State) (x : Regs) : (s.setReg x).wr = s.wr := rfl
@[simp] theorem State.setReg_tab (s : State) (x : Regs) : (s.setReg x).tab = s.tab := rfl
@[simp] theorem State.setReg_ctr (s : State) (x : Regs) : (s.setReg x).ctr = s.ctr := rfl
@[simp] theorem State.setReg_reg (s : State) (x : Regs) : (s.setReg x).reg = x := rfl
@[simp] theorem State.setReg_pq (s : State) (x : Regs) : (s.setReg x).pq = s.pq := rfl
@[simp] theorem State.setReg_par (s : State) (x : Regs) : (s.setReg x).par = s.par := rfl
@[simp] theorem State.setReg_env (s : State) (x : Regs) : (s.setReg x).env = s.env := rfl

/-! ### `State.setPq` -/

@[simp] theorem State.setPq_rd (s : State) (x : QueueLog) : (s.setPq x).rd = s.rd := rfl
@[simp] theorem State.setPq_wr (s : State) (x : QueueLog) : (s.setPq x).wr = s.wr := rfl
@[simp] theorem State.setPq_tab (s : State) (x : QueueLog) : (s.setPq x).tab = s.tab := rfl
@[simp] theorem State.setPq_ctr (s : State) (x : QueueLog) : (s.setPq x).ctr = s.ctr := rfl
@[simp] theorem State.setPq_reg (s : State) (x : QueueLog) : (s.setPq x).reg = s.reg := rfl
@[simp] theorem State.setPq_pq (s : State) (x : QueueLog) : (s.setPq x).pq = x := rfl
@[simp] theorem State.setPq_par (s : State) (x : QueueLog) : (s.setPq x).par = s.par := rfl
@[simp] theorem State.setPq_env (s : State) (x : QueueLog) : (s.setPq x).env = s.env := rfl

/-! ### `State.setEnv` -/

@[simp] theorem State.setEnv_rd (s : State) (x : Env) : (s.setEnv x).rd = s.rd := rfl
@[simp] theorem State.setEnv_wr (s : State) (x : Env) : (s.setEnv x).wr = s.wr := rfl
@[simp] theorem State.setEnv_tab (s : State) (x : Env) : (s.setEnv x).tab = s.tab := rfl
@[simp] theorem State.setEnv_ctr (s : State) (x : Env) : (s.setEnv x).ctr = s.ctr := rfl
@[simp] theorem State.setEnv_reg (s : State) (x : Env) : (s.setEnv x).reg = s.reg := rfl
@[simp] theorem State.setEnv_pq (s : State) (x : Env) : (s.setEnv x).pq = s.pq := rfl
@[simp] theorem State.setEnv_par (s : State) (x : Env) : (s.setEnv x).par = s.par := rfl
@[simp] theorem State.setEnv_env (s : State) (x : Env) : (s.setEnv x).env = x := rfl

/-! ### `State.setResult` -/

@[simp] theorem State.setResult_rd (s : State) (v : HostWord) : (s.setResult v).rd = s.rd := rfl
@[simp] theorem State.setResult_wr (s : State) (v : HostWord) : (s.setResult v).wr = s.wr := rfl
@[simp] theorem State.setResult_tab (s : State) (v : HostWord) : (s.setResult v).tab = s.tab := rfl
@[simp] theorem State.setResult_ctr (s : State) (v : HostWord) : (s.setResult v).ctr = s.ctr := rfl
@[simp] theorem State.setResult_reg (s : State) (v : HostWord) : (s.setResult v).reg = { s.reg with result := v } := rfl
@[simp] theorem State.setResult_pq (s : State) (v : HostWord) : (s.setResult v).pq = s.pq := rfl
@[simp] theorem State.setResult_par (s : State) (v : HostWord) : (s.setResult v).par = s.par := rfl
@[simp] theorem State.setResult_env (s : State) (v : HostWord) : (s.setResult v).env = s.env := rfl

/-! ### `State.setArg` -/

@[simp] theorem State.setArg_rd (s : State) (v : HostWord) : (s.setArg v).rd = s.rd := rfl
@[simp] theorem State.setArg_wr (s : State) (v : HostWord) : (s.setArg v).wr = s.wr := rfl
@[simp] theorem State.setArg_tab (s : State) (v : HostWord) : (s.setArg v).tab = s.tab := rfl
@[simp] theorem State.setArg_ctr (s : State) (v : HostWord) : (s.setArg v).ctr = s.ctr := rfl
@[simp] theorem State.setArg_reg (s : State) (v : HostWord) : (s.setArg v).reg = { s.reg with arg := v } := rfl
@[simp] theorem State.setArg_pq (s : State) (v : HostWord) : (s.setArg v).pq = s.pq := rfl
@[simp] theorem State.setArg_par (s : State) (v : HostWord) : (s.setArg v).par = s.par := rfl
@[simp] theorem State.setArg_env (s : State) (v : HostWord) : (s.setArg v).env = s.env := rfl

/-! ### `State.setCmd` -/

@[simp] theorem State.setCmd_rd (s : State) (v : BitVec 8) : (s.setCmd v).rd = s.rd := rfl
@[simp] theorem State.setCmd_wr (s : State) (v : BitVec 8) : (s.setCmd v).wr = s.wr := rfl
@[simp] theorem State.setCmd_tab (s : State) (v : BitVec 8) : (s.setCmd v).tab = s.tab := rfl
@[simp] theorem State.setCmd_ctr (s : State) (v : BitVec 8) : (s.setCmd v).ctr = s.ctr := rfl
@[simp] theorem State.setCmd_reg (s : State) (v : BitVec 8) : (s.setCmd v).reg = { s.reg with cmd := v } := rfl
@[simp] theorem State.setCmd_pq (s : State) (v : BitVec 8) : (s.setCmd v).pq = s.pq := rfl
@[simp] theorem State.setCmd_par (s : State) (v : BitVec 8) : (s.setCmd v).par = s.par := rfl
@[simp] theorem State.setCmd_env (s : State) (v : BitVec 8) : (s.setCmd v).env = s.env := rfl

/-! ### `raiseError` -/

@[simp] theorem raiseError_rd (s : State) (e : ErrCode) : (raiseError e s).rd = s.rd := rfl
@[simp] theorem raiseError_wr (s : State) (e : ErrCode) : (raiseError e s).wr = s.wr := rfl
@[simp] theorem raiseError_tab (s : State) (e : ErrCode) : (raiseError e s).tab = s.tab := rfl
@[simp] theorem raiseError_ctr (s : State) (e : ErrCode) : (raiseError e s).ctr = s.ctr := rfl
@[simp] theorem raiseError_reg (s : State) (e : ErrCode) : (raiseError e s).reg = { s.reg with err := true, errcode := e.code } := rfl
@[simp] theorem raiseError_pq (s : State) (e : ErrCode) : (raiseError e s).pq = s.pq := rfl
@[simp] theorem raiseError_par (s : State) (e : ErrCode) : (raiseError e s).par = s.par := rfl
@[simp] theorem raiseError_env (s : State) (e : ErrCode) : (raiseError e s).env = s.env := rfl

/-! ### `acknowledge` -/

@[simp] theorem acknowledge_rd (s : State) : (acknowledge s).rd = s.rd := rfl
@[simp] theorem acknowledge_wr (s : State) : (acknowledge s).wr = s.wr := rfl
@[simp] theorem acknowledge_tab (s : State) : (acknowledge s).tab = s.tab := rfl
@[simp] theorem acknowledge_ctr (s : State) : (acknowledge s).ctr = s.ctr := rfl
@[simp] theorem acknowledge_reg (s : State) : (acknowledge s).reg = { s.reg with err := false, errcode := 0#4 } := rfl
@[simp] theorem acknowledge_pq (s : State) : (acknowledge s).pq = s.pq := rfl
@[simp] theorem acknowledge_par (s : State) : (acknowledge s).par = s.par := rfl
@[simp] theorem acknowledge_env (s : State) : (acknowledge s).env = s.env := rfl

/-! ### `clearResultFlags` -/

@[simp] theorem clearResultFlags_rd (s : State) : (clearResultFlags s).rd = s.rd := rfl
@[simp] theorem clearResultFlags_wr (s : State) : (clearResultFlags s).wr = s.wr := rfl
@[simp] theorem clearResultFlags_tab (s : State) : (clearResultFlags s).tab = s.tab := rfl
@[simp] theorem clearResultFlags_ctr (s : State) : (clearResultFlags s).ctr = s.ctr := rfl
@[simp] theorem clearResultFlags_reg (s : State) : (clearResultFlags s).reg = { s.reg with eos := false, empty := false } := rfl
@[simp] theorem clearResultFlags_pq (s : State) : (clearResultFlags s).pq = s.pq := rfl
@[simp] theorem clearResultFlags_par (s : State) : (clearResultFlags s).par = s.par := rfl
@[simp] theorem clearResultFlags_env (s : State) : (clearResultFlags s).env = s.env := rfl

/-! ### `setEos` -/

@[simp] theorem setEos_rd (s : State) : (setEos s).rd = s.rd := rfl
@[simp] theorem setEos_wr (s : State) : (setEos s).wr = s.wr := rfl
@[simp] theorem setEos_tab (s : State) : (setEos s).tab = s.tab := rfl
@[simp] theorem setEos_ctr (s : State) : (setEos s).ctr = s.ctr := rfl
@[simp] theorem setEos_reg (s : State) : (setEos s).reg = { s.reg with eos := true } := rfl
@[simp] theorem setEos_pq (s : State) : (setEos s).pq = s.pq := rfl
@[simp] theorem setEos_par (s : State) : (setEos s).par = s.par := rfl
@[simp] theorem setEos_env (s : State) : (setEos s).env = s.env := rfl

/-! ### `eosSentinel` -/

@[simp] theorem eosSentinel_rd (s : State) : (eosSentinel s).rd = s.rd := rfl
@[simp] theorem eosSentinel_wr (s : State) : (eosSentinel s).wr = s.wr := rfl
@[simp] theorem eosSentinel_tab (s : State) : (eosSentinel s).tab = s.tab := rfl
@[simp] theorem eosSentinel_ctr (s : State) : (eosSentinel s).ctr = s.ctr := rfl
@[simp] theorem eosSentinel_reg (s : State) : (eosSentinel s).reg = { s.reg with eos := true, result := 0xFFFFFFFF#32 } := rfl
@[simp] theorem eosSentinel_pq (s : State) : (eosSentinel s).pq = s.pq := rfl
@[simp] theorem eosSentinel_par (s : State) : (eosSentinel s).par = s.par := rfl
@[simp] theorem eosSentinel_env (s : State) : (eosSentinel s).env = s.env := rfl

/-! ### `emptySentinel` -/

@[simp] theorem emptySentinel_rd (s : State) : (emptySentinel s).rd = s.rd := rfl
@[simp] theorem emptySentinel_wr (s : State) : (emptySentinel s).wr = s.wr := rfl
@[simp] theorem emptySentinel_tab (s : State) : (emptySentinel s).tab = s.tab := rfl
@[simp] theorem emptySentinel_ctr (s : State) : (emptySentinel s).ctr = s.ctr := rfl
@[simp] theorem emptySentinel_reg (s : State) : (emptySentinel s).reg = { s.reg with empty := true, result := 0x000001FF#32 } := rfl
@[simp] theorem emptySentinel_pq (s : State) : (emptySentinel s).pq = s.pq := rfl
@[simp] theorem emptySentinel_par (s : State) : (emptySentinel s).par = s.par := rfl
@[simp] theorem emptySentinel_env (s : State) : (emptySentinel s).env = s.env := rfl

/-! ### `State.useDraw` -/

@[simp] theorem State.useDraw_rd (s : State) : (s.useDraw).rd = s.rd := rfl
@[simp] theorem State.useDraw_wr (s : State) : (s.useDraw).wr = s.wr := rfl
@[simp] theorem State.useDraw_tab (s : State) : (s.useDraw).tab = s.tab := rfl
@[simp] theorem State.useDraw_ctr (s : State) : (s.useDraw).ctr = s.ctr := rfl
@[simp] theorem State.useDraw_reg (s : State) : (s.useDraw).reg = s.reg := rfl
@[simp] theorem State.useDraw_pq (s : State) : (s.useDraw).pq = s.pq := rfl
@[simp] theorem State.useDraw_par (s : State) : (s.useDraw).par = s.par := rfl
@[simp] theorem State.useDraw_env (s : State) : (s.useDraw).env = { s.env with draws := s.env.draws.tail } := rfl

/-! ### `State.popScript` -/

@[simp] theorem State.popScript_rd (s : State) (rest : List HostEvent) : (s.popScript rest).rd = s.rd := rfl
@[simp] theorem State.popScript_wr (s : State) (rest : List HostEvent) : (s.popScript rest).wr = s.wr := rfl
@[simp] theorem State.popScript_tab (s : State) (rest : List HostEvent) : (s.popScript rest).tab = s.tab := rfl
@[simp] theorem State.popScript_ctr (s : State) (rest : List HostEvent) : (s.popScript rest).ctr = s.ctr := rfl
@[simp] theorem State.popScript_reg (s : State) (rest : List HostEvent) : (s.popScript rest).reg = s.reg := rfl
@[simp] theorem State.popScript_pq (s : State) (rest : List HostEvent) : (s.popScript rest).pq = s.pq := rfl
@[simp] theorem State.popScript_par (s : State) (rest : List HostEvent) : (s.popScript rest).par = s.par := rfl
@[simp] theorem State.popScript_env (s : State) (rest : List HostEvent) : (s.popScript rest).env = { s.env with script := rest } := rfl

/-! ### `State.showHost` -/

@[simp] theorem State.showHost_rd (s : State) (v : Entry) : (s.showHost v).rd = s.rd := rfl
@[simp] theorem State.showHost_wr (s : State) (v : Entry) : (s.showHost v).wr = s.wr := rfl
@[simp] theorem State.showHost_tab (s : State) (v : Entry) : (s.showHost v).tab = s.tab := rfl
@[simp] theorem State.showHost_ctr (s : State) (v : Entry) : (s.showHost v).ctr = s.ctr := rfl
@[simp] theorem State.showHost_reg (s : State) (v : Entry) : (s.showHost v).reg = s.reg := rfl
@[simp] theorem State.showHost_pq (s : State) (v : Entry) : (s.showHost v).pq = s.pq := rfl
@[simp] theorem State.showHost_par (s : State) (v : Entry) : (s.showHost v).par = s.par := rfl
@[simp] theorem State.showHost_env (s : State) (v : Entry) : (s.showHost v).env = { s.env with busData := v } := rfl

/-! ### `releaseSink` -/

@[simp] theorem releaseSink_rd (s : State) : (releaseSink s).rd = s.rd := rfl
@[simp] theorem releaseSink_wr (s : State) : (releaseSink s).wr = { s.wr with wopen := false } := rfl
@[simp] theorem releaseSink_tab (s : State) : (releaseSink s).tab = s.tab := rfl
@[simp] theorem releaseSink_ctr (s : State) : (releaseSink s).ctr = s.ctr := rfl
@[simp] theorem releaseSink_reg (s : State) : (releaseSink s).reg = s.reg := rfl
@[simp] theorem releaseSink_pq (s : State) : (releaseSink s).pq = s.pq := rfl
@[simp] theorem releaseSink_par (s : State) : (releaseSink s).par = s.par := rfl
@[simp] theorem releaseSink_env (s : State) : (releaseSink s).env = s.env := rfl

/-! ### `pqClear` -/

@[simp] theorem pqClear_rd (s : State) : (pqClear s).rd = s.rd := rfl
@[simp] theorem pqClear_wr (s : State) : (pqClear s).wr = s.wr := rfl
@[simp] theorem pqClear_tab (s : State) : (pqClear s).tab = s.tab := rfl
@[simp] theorem pqClear_ctr (s : State) : (pqClear s).ctr = { s.ctr with hsize := 0#9 } := rfl
@[simp] theorem pqClear_reg (s : State) : (pqClear s).reg = s.reg := rfl
@[simp] theorem pqClear_pq (s : State) : (pqClear s).pq = .reset := rfl
@[simp] theorem pqClear_par (s : State) : (pqClear s).par = s.par := rfl
@[simp] theorem pqClear_env (s : State) : (pqClear s).env = s.env := rfl

/-! ### `clearTree` -/

@[simp] theorem clearTree_rd (s : State) : (clearTree s).rd = s.rd := rfl
@[simp] theorem clearTree_wr (s : State) : (clearTree s).wr = s.wr := rfl
@[simp] theorem clearTree_tab (s : State) : (clearTree s).tab = s.tab := rfl
@[simp] theorem clearTree_ctr (s : State) : (clearTree s).ctr = { s.ctr with nnodes := 0#10, hsize := 0#9, root := NONE } := rfl
@[simp] theorem clearTree_reg (s : State) : (clearTree s).reg = s.reg := rfl
@[simp] theorem clearTree_pq (s : State) : (clearTree s).pq = .reset := rfl
@[simp] theorem clearTree_par (s : State) : (clearTree s).par = s.par := rfl
@[simp] theorem clearTree_env (s : State) : (clearTree s).env = s.env := rfl

/-! ### `clearHeader` -/

@[simp] theorem clearHeader_rd (s : State) : (clearHeader s).rd = s.rd := rfl
@[simp] theorem clearHeader_wr (s : State) : (clearHeader s).wr = s.wr := rfl
@[simp] theorem clearHeader_tab (s : State) : (clearHeader s).tab = { s.tab with freq := Memory.fill Config.symbolCount 0#32 } := rfl
@[simp] theorem clearHeader_ctr (s : State) : (clearHeader s).ctr = { s.ctr with osize := 0#32, nsym := 0#32 } := rfl
@[simp] theorem clearHeader_reg (s : State) : (clearHeader s).reg = s.reg := rfl
@[simp] theorem clearHeader_pq (s : State) : (clearHeader s).pq = s.pq := rfl
@[simp] theorem clearHeader_par (s : State) : (clearHeader s).par = s.par := rfl
@[simp] theorem clearHeader_env (s : State) : (clearHeader s).env = s.env := rfl

/-! ### `clearCounts` -/

@[simp] theorem clearCounts_rd (s : State) : (clearCounts s).rd = s.rd := rfl
@[simp] theorem clearCounts_wr (s : State) : (clearCounts s).wr = s.wr := rfl
@[simp] theorem clearCounts_tab (s : State) : (clearCounts s).tab = { s.tab with freq := Memory.fill Config.symbolCount 0#32 } := rfl
@[simp] theorem clearCounts_ctr (s : State) : (clearCounts s).ctr = { s.ctr with inlen := 0#32 } := rfl
@[simp] theorem clearCounts_reg (s : State) : (clearCounts s).reg = s.reg := rfl
@[simp] theorem clearCounts_pq (s : State) : (clearCounts s).pq = s.pq := rfl
@[simp] theorem clearCounts_par (s : State) : (clearCounts s).par = s.par := rfl
@[simp] theorem clearCounts_env (s : State) : (clearCounts s).env = s.env := rfl

/-! ### `State.setCode` -/

@[simp] theorem State.setCode_rd (s : State) (sym : Byte) (c : Code) : (s.setCode sym c).rd = s.rd := rfl
@[simp] theorem State.setCode_wr (s : State) (sym : Byte) (c : Code) : (s.setCode sym c).wr = s.wr := rfl
@[simp] theorem State.setCode_tab (s : State) (sym : Byte) (c : Code) : (s.setCode sym c).tab = { s.tab with code := s.tab.code.write sym.toNat c } := rfl
@[simp] theorem State.setCode_ctr (s : State) (sym : Byte) (c : Code) : (s.setCode sym c).ctr = s.ctr := rfl
@[simp] theorem State.setCode_reg (s : State) (sym : Byte) (c : Code) : (s.setCode sym c).reg = s.reg := rfl
@[simp] theorem State.setCode_pq (s : State) (sym : Byte) (c : Code) : (s.setCode sym c).pq = s.pq := rfl
@[simp] theorem State.setCode_par (s : State) (sym : Byte) (c : Code) : (s.setCode sym c).par = s.par := rfl
@[simp] theorem State.setCode_env (s : State) (sym : Byte) (c : Code) : (s.setCode sym c).env = s.env := rfl

/-! ### `State.setNsym` -/

@[simp] theorem State.setNsym_rd (s : State) (k : Nat) : (s.setNsym k).rd = s.rd := rfl
@[simp] theorem State.setNsym_wr (s : State) (k : Nat) : (s.setNsym k).wr = s.wr := rfl
@[simp] theorem State.setNsym_tab (s : State) (k : Nat) : (s.setNsym k).tab = s.tab := rfl
@[simp] theorem State.setNsym_ctr (s : State) (k : Nat) : (s.setNsym k).ctr = { s.ctr with nsym := BitVec.ofNat 32 k } := rfl
@[simp] theorem State.setNsym_reg (s : State) (k : Nat) : (s.setNsym k).reg = s.reg := rfl
@[simp] theorem State.setNsym_pq (s : State) (k : Nat) : (s.setNsym k).pq = s.pq := rfl
@[simp] theorem State.setNsym_par (s : State) (k : Nat) : (s.setNsym k).par = s.par := rfl
@[simp] theorem State.setNsym_env (s : State) (k : Nat) : (s.setNsym k).env = s.env := rfl

/-! ### `reportDecoded` -/

@[simp] theorem reportDecoded_rd (s : State) : (reportDecoded s).rd = s.rd := rfl
@[simp] theorem reportDecoded_wr (s : State) : (reportDecoded s).wr = s.wr := rfl
@[simp] theorem reportDecoded_tab (s : State) : (reportDecoded s).tab = s.tab := rfl
@[simp] theorem reportDecoded_ctr (s : State) : (reportDecoded s).ctr = s.ctr := rfl
@[simp] theorem reportDecoded_reg (s : State) : (reportDecoded s).reg = { s.reg with result := s.ctr.decoded } := rfl
@[simp] theorem reportDecoded_pq (s : State) : (reportDecoded s).pq = s.pq := rfl
@[simp] theorem reportDecoded_par (s : State) : (reportDecoded s).par = s.par := rfl
@[simp] theorem reportDecoded_env (s : State) : (reportDecoded s).env = s.env := rfl

/-! ### `hardReset` -/

@[simp] theorem hardReset_rd (s : State) : (hardReset s).rd = .reset := rfl
@[simp] theorem hardReset_wr (s : State) : (hardReset s).wr = .reset := rfl
@[simp] theorem hardReset_tab (s : State) : (hardReset s).tab = .reset := rfl
@[simp] theorem hardReset_ctr (s : State) : (hardReset s).ctr = .reset := rfl
@[simp] theorem hardReset_reg (s : State) : (hardReset s).reg = .reset := rfl
@[simp] theorem hardReset_pq (s : State) : (hardReset s).pq = .reset := rfl
@[simp] theorem hardReset_par (s : State) : (hardReset s).par = s.par := rfl
@[simp] theorem hardReset_env (s : State) : (hardReset s).env = s.env := rfl

/-! ### `softReset` -/

@[simp] theorem softReset_rd (s : State) : (softReset s).rd = .reset := rfl
@[simp] theorem softReset_wr (s : State) : (softReset s).wr = .reset := rfl
@[simp] theorem softReset_tab (s : State) : (softReset s).tab = s.tab := rfl
@[simp] theorem softReset_ctr (s : State) : (softReset s).ctr = .reset := rfl
@[simp] theorem softReset_reg (s : State) : (softReset s).reg = .reset := rfl
@[simp] theorem softReset_pq (s : State) : (softReset s).pq = .reset := rfl
@[simp] theorem softReset_par (s : State) : (softReset s).par = s.par := rfl
@[simp] theorem softReset_env (s : State) : (softReset s).env = s.env := rfl

/-! ### Two updates of one group -/

@[simp] theorem State.setRd_setRd (s : State) (x y : Reader) : (s.setRd x).setRd y = s.setRd y := rfl
@[simp] theorem State.setRd_self (s : State) : s.setRd s.rd = s := rfl
@[simp] theorem State.setWr_setWr (s : State) (x y : Writer) : (s.setWr x).setWr y = s.setWr y := rfl
@[simp] theorem State.setWr_self (s : State) : s.setWr s.wr = s := rfl
@[simp] theorem State.setTab_setTab (s : State) (x y : Tables) : (s.setTab x).setTab y = s.setTab y := rfl
@[simp] theorem State.setTab_self (s : State) : s.setTab s.tab = s := rfl
@[simp] theorem State.setCtr_setCtr (s : State) (x y : Counters) : (s.setCtr x).setCtr y = s.setCtr y := rfl
@[simp] theorem State.setCtr_self (s : State) : s.setCtr s.ctr = s := rfl
@[simp] theorem State.setReg_setReg (s : State) (x y : Regs) : (s.setReg x).setReg y = s.setReg y := rfl
@[simp] theorem State.setReg_self (s : State) : s.setReg s.reg = s := rfl
@[simp] theorem State.setPq_setPq (s : State) (x y : QueueLog) : (s.setPq x).setPq y = s.setPq y := rfl
@[simp] theorem State.setPq_self (s : State) : s.setPq s.pq = s := rfl
@[simp] theorem State.setEnv_setEnv (s : State) (x y : Env) : (s.setEnv x).setEnv y = s.setEnv y := rfl
@[simp] theorem State.setEnv_self (s : State) : s.setEnv s.env = s := rfl

end Sys2Proof.Machine
end

