-- ==== Sys2Proof/Laws/Tables.lean ====
section
/-! SUPPORT. The laws of the tables: a read after a write, the canonical form, sizes, and the cleared table. -/

namespace Sys2Proof.Machine

variable {α : Type}

@[simp] theorem Memory.read_nil (i : Nat) : Memory.read ([] : Memory α) i = none := rfl

theorem Memory.read_cons (k : Nat) (v : α) (m : Memory α) (i : Nat) :
    Memory.read ((k, v) :: m) i = if k = i then some v else Memory.read m i := rfl

/-- A read of the index just written gives the value written. -/
@[simp] theorem Memory.read_write_same (m : Memory α) (i : Nat) (v : α) : (m.write i v).read i = some v := by
  induction m with
  | nil => simp [Memory.write, Memory.read]
  | cons e m ih =>
    obtain ⟨k, w⟩ := e
    unfold Memory.write
    split
    · simp [Memory.read]
    · split
      · simp [Memory.read]
      · next h => rw [Memory.read_cons, if_neg (fun h' => h h'.symm), ih]

/-- A write leaves every other index alone. -/
theorem Memory.read_write_other (m : Memory α) {i j : Nat} (v : α) (h : j ≠ i) :
    (m.write i v).read j = m.read j := by
  induction m with
  | nil => simp [Memory.write, Memory.read, Ne.symm h]
  | cons e m ih =>
    obtain ⟨k, w⟩ := e
    unfold Memory.write
    split
    · rw [Memory.read_cons, if_neg (Ne.symm h)]
    · split
      · next hk => subst hk; simp [Memory.read_cons, Ne.symm h]
      · simp [Memory.read_cons, ih]

/-- Both cases of a read after a write. -/
theorem Memory.read_write (m : Memory α) (i j : Nat) (v : α) :
    (m.write i v).read j = if j = i then some v else m.read j := by
  split
  · next h => subst h; exact m.read_write_same _ v
  · next h => exact m.read_write_other v h

/-- The head of a written table: what was there, or the new entry. -/
theorem Memory.write_head (m : Memory α) (i : Nat) (v : α) :
    ∃ k w m', m.write i v = (k, w) :: m' ∧ (k = i ∨ ∃ w' m₀, m = (k, w') :: m₀) := by
  cases m with
  | nil => exact ⟨i, v, [], rfl, .inl rfl⟩
  | cons e m =>
    obtain ⟨k, w⟩ := e
    unfold Memory.write
    split
    · exact ⟨i, v, _, rfl, .inl rfl⟩
    · split
      · exact ⟨i, v, _, rfl, .inl rfl⟩
      · exact ⟨k, w, _, rfl, .inr ⟨w, m, rfl⟩⟩

/-- A table headed by an index is canonical when the rest is and the rest's head lies higher. -/
theorem Memory.wf_cons (k : Nat) (v : α) (m : Memory α) :
    Memory.wf ((k, v) :: m) = true ↔ Memory.wf m = true ∧ ∀ l w m', m = (l, w) :: m' → k < l := by
  cases m with
  | nil => simp [Memory.wf]
  | cons e m =>
    obtain ⟨l, w⟩ := e
    simp only [Memory.wf, Bool.and_eq_true, decide_eq_true_eq, List.cons.injEq, Prod.mk.injEq]
    constructor
    · rintro ⟨h1, h2⟩; exact ⟨h2, fun l' w' m' h => by omega⟩
    · rintro ⟨h1, h2⟩; exact ⟨h2 l w m ⟨⟨rfl, rfl⟩, rfl⟩, h1⟩

/-- A write keeps the canonical form. -/
theorem Memory.wf_write (m : Memory α) (i : Nat) (v : α) (h : m.wf = true) : (m.write i v).wf = true := by
  induction m with
  | nil => rfl
  | cons e m ih =>
    obtain ⟨k, w⟩ := e
    have hk := (Memory.wf_cons k w m).1 h
    unfold Memory.write
    split
    · next hi => exact (Memory.wf_cons i v _).2 ⟨h, fun l w' m' e => by simp at e; omega⟩
    · split
      · next hi => subst hi; exact (Memory.wf_cons i v m).2 hk
      · next h1 h2 =>
        refine (Memory.wf_cons k w _).2 ⟨ih hk.1, fun l w' m' e => ?_⟩
        obtain ⟨k', w'', m'', hw, hor⟩ := Memory.write_head m i v
        rw [hw] at e
        simp only [List.cons.injEq, Prod.mk.injEq] at e
        rcases hor with rfl | ⟨w₀, m₀, hm⟩
        · omega
        · have := hk.2 _ _ _ hm; omega

/-- An entry of a written table is the new one or an old one. -/
theorem Memory.mem_write {m : Memory α} {i : Nat} {v : α} {e : Nat × α} (h : e ∈ m.write i v) :
    e = (i, v) ∨ e ∈ m := by
  induction m with
  | nil => simpa [Memory.write] using h
  | cons a m ih =>
    obtain ⟨k, w⟩ := a
    unfold Memory.write at h
    split at h
    · simpa using h
    · split at h
      · simp only [List.mem_cons] at h ⊢
        rcases h with h | h
        · exact .inl h
        · exact .inr (.inr h)
      · simp only [List.mem_cons] at h ⊢
        rcases h with h | h
        · exact .inr (.inl h)
        · rcases ih h with h | h
          · exact .inl h
          · exact .inr (.inr h)

/-- A write below the size keeps a table within it. -/
theorem Memory.within_write (m : Memory α) {i n : Nat} (v : α) (h : m.within n = true) (hi : i < n) :
    (m.write i v).within n = true := by
  simp only [Memory.within, List.all_eq_true, decide_eq_true_eq] at h ⊢
  intro e he
  rcases Memory.mem_write he with rfl | he
  · exact hi
  · exact h e he

/-- A read that gives a value gives one of the entries. -/
theorem Memory.mem_of_read {m : Memory α} {i : Nat} {v : α} (h : m.read i = some v) : (i, v) ∈ m := by
  induction m with
  | nil => simp at h
  | cons e m ih =>
    obtain ⟨k, w⟩ := e
    rw [Memory.read_cons] at h
    split at h
    · next hk => subst hk; simp_all
    · exact List.mem_cons_of_mem _ (ih h)

/-- What a table made by a function of the index holds. -/
theorem Memory.read_map_range (n : Nat) (f : Nat → α) (i : Nat) :
    Memory.read ((List.range n).map fun k => (k, f k)) i = if i < n then some (f i) else none := by
  have gen : ∀ (l : List Nat), Memory.read (l.map fun k => (k, f k)) i = if i ∈ l then some (f i) else none := by
    intro l
    induction l with
    | nil => rfl
    | cons k l ih =>
      rw [List.map_cons, Memory.read_cons, ih]
      by_cases h : k = i
      · subst h; simp
      · simp [h, Ne.symm h]
  rw [gen]
  simp

/-- A cleared table holds the value everywhere below its size. -/
theorem Memory.read_fill (n : Nat) (v : α) (i : Nat) :
    (Memory.fill n v).read i = if i < n then some v else none :=
  Memory.read_map_range n (fun _ => v) i

/-- A table made by a function of the index is canonical. -/
theorem Memory.wf_map_range (n : Nat) (f : Nat → α) : Memory.wf ((List.range n).map fun k => (k, f k)) = true := by
  have gen : ∀ (m a : Nat), Memory.wf ((List.range' a m).map fun k => (k, f k)) = true := by
    intro m
    induction m with
    | zero => intro a; rfl
    | succ m ih =>
      intro a
      rw [List.range'_succ, List.map_cons, Memory.wf_cons]
      refine ⟨ih (a + 1), fun l w m' h => ?_⟩
      cases m with
      | zero => simp at h
      | succ m => rw [List.range'_succ] at h; simp at h; omega
  rw [List.range_eq_range']
  exact gen n 0

/-- A cleared table is canonical. -/
theorem Memory.wf_fill (n : Nat) (v : α) : (Memory.fill n v).wf = true := Memory.wf_map_range n fun _ => v

/-- A cleared table is within its size. -/
theorem Memory.within_fill (n : Nat) (v : α) : (Memory.fill n v).within n = true := by
  simp [Memory.within, Memory.fill]

/-- A table whose every entry below `n` is written gives a value for each of them. -/
theorem Memory.filled_iff (m : Memory α) (n : Nat) :
    m.filled n = true ↔ ∀ i, i < n → ∃ v, m.read i = some v := by
  simp [Memory.filled, Option.isSome_iff_exists]

/-- A write leaves no written entry unwritten. -/
theorem Memory.isSome_read_write (m : Memory α) (i j : Nat) (v : α) (h : (m.read j).isSome = true) :
    ((m.write i v).read j).isSome = true := by
  rw [Memory.read_write]
  split
  · rfl
  · exact h

/-! ### Reads inside an operation -/

/-- A table read succeeds exactly with the entry's value. -/
theorem readEntry_ok {sp : Space} {m : Memory α} {i : Nat} {v : α} :
    readEntry sp m i = .ok v ↔ m.read i = some v := by
  unfold readEntry
  cases m.read i <;> simp

/-- A table read stops the machine exactly at an entry that nothing has written. -/
theorem readEntry_error {sp : Space} {m : Memory α} {i : Nat} {f : Fault} :
    readEntry sp m i = .error f ↔ m.read i = none ∧ f = .unwrittenEntry sp i := by
  unfold readEntry
  cases m.read i <;> simp [eq_comm]

/-- A record read succeeds exactly with the record of an id other than `NONE`. -/
theorem readNode_ok {node : Memory Node} {id : NodeId} {n : Node} :
    readNode node id = .ok n ↔ id ≠ NONE ∧ node.read id.toNat = some n := by
  unfold readNode
  split
  · simp_all
  · simp_all [readEntry_ok]

/-- The queue's key is the weight of the record. -/
theorem nodeWeight_ok {node : Memory Node} {id : NodeId} {w : Weight} :
    nodeWeight node id = .ok w ↔ weightOf node id = some w := by
  unfold nodeWeight weightOf readNode readEntry
  split
  · simp [bind, Except.bind]
  · cases node.read id.toNat <;> simp [bind, Except.bind, pure, Except.pure]

end Sys2Proof.Machine
end

