-- ==== Sys2Proof/Laws/Streams.lean ====
section
/-! SUPPORT. What the shared operations can do: results that may raise, the stream primitives, and the bit
primitives, each said once. -/

namespace Sys2Proof.Machine

variable {α β : Type}

/-! ### Results -/

@[simp] theorem Res.andThen_ok (a : α) (s : State) (k : α → State → Res β) : (Res.ok a s).andThen k = k a s := rfl
@[simp] theorem Res.andThen_raised (e : ErrCode) (s : State) (k : α → State → Res β) :
    (Res.raised e s : Res α).andThen k = .raised e s := rfl
@[simp] theorem Res.andThen_stop (f : Fault) (k : α → State → Res β) :
    (Res.stop f : Res α).andThen k = .stop f := rfl
@[simp] theorem Res.lift_ok (a : α) (s : State) : Res.lift (.ok a) s = .ok a s := rfl
@[simp] theorem Res.lift_error (f : Fault) (s : State) : (Res.lift (.error f) s : Res α) = .stop f := rfl
@[simp] theorem finish_ok (u : Unit) (s : State) : finish (.ok u s) = .next s := rfl
@[simp] theorem finish_raised (e : ErrCode) (s : State) : finish (.raised e s) = .next (raiseError e s) := rfl
@[simp] theorem finish_stop (f : Fault) : finish (.stop f) = .fault f := rfl
@[simp] theorem mapNext_next (f : State → State) (s : State) : mapNext f (.next s) = .next (f s) := rfl
@[simp] theorem mapNext_fault (f : State → State) (r : Fault) : mapNext f (.fault r) = .fault r := rfl

/-- A property of the state a result leaves, with a value or raised. -/
def Res.Leaves (P : State → Prop) : Res α → Prop
  | .ok _ s => P s
  | .raised _ s => P s
  | .stop _ => True

/-- A property kept by both halves of a sequence is left by the sequence. -/
theorem Res.Leaves.andThen {P : State → Prop} {r : Res α} {k : α → State → Res β} (hr : r.Leaves P)
    (hk : ∀ a t, r = .ok a t → P t → (k a t).Leaves P) : (r.andThen k).Leaves P := by
  cases r with
  | ok a s => exact hk a s rfl hr
  | raised e s => exact hr
  | stop f => trivial

/-- A lifted computation leaves the state it was given. -/
theorem Res.Leaves.lift {P : State → Prop} {r : Except Fault α} {s : State} (h : P s) : (Res.lift r s).Leaves P := by
  cases r with
  | ok a => exact h
  | error f => trivial

/-- A weaker property is left too. -/
theorem Res.Leaves.mono {P Q : State → Prop} {r : Res α} (h : r.Leaves P) (hpq : ∀ s, P s → Q s) : r.Leaves Q := by
  cases r with
  | ok a s => exact hpq s h
  | raised e s => exact hpq s h
  | stop f => trivial

/-- What an issued operation leaves: it was dropped, or it ran to the end of its pseudocode, or it raised. -/
theorem issue_next {body : State → Res Unit} {s t : State} (h : issue body s = .next t) :
    (s.reg.err = true ∧ t = s) ∨
    (s.reg.err = false ∧ ∃ u, body (clearResultFlags s) = .ok () u ∧ t = u) ∨
    (s.reg.err = false ∧ ∃ e u, body (clearResultFlags s) = .raised e u ∧ t = raiseError e u) := by
  unfold issue at h
  split at h
  · next he => simp only [Host.Outcome.next.injEq] at h; exact .inl ⟨he, h.symm⟩
  · next he =>
    have he : s.reg.err = false := by simpa using he
    cases hb : body (clearResultFlags s) with
    | ok u v => simp only [hb, finish_ok, Host.Outcome.next.injEq] at h; exact .inr (.inl ⟨he, v, rfl, h.symm⟩)
    | raised e v =>
      simp only [hb, finish_raised, Host.Outcome.next.injEq] at h; exact .inr (.inr ⟨he, e, v, rfl, h.symm⟩)
    | stop f => simp [hb] at h

/-- An operation issued with no error pending is its pseudocode on the state with the result flags cleared. -/
theorem issue_run {body : State → Res Unit} {s : State} (h : s.reg.err = false) :
    issue body s = finish (body (clearResultFlags s)) := by simp [issue, h]

/-- An operation issued while an error is pending is dropped. -/
theorem issue_dropped {body : State → Res Unit} {s : State} (h : s.reg.err = true) : issue body s = .next s := by
  simp [issue, h]

/-! ### The environment's draws -/

theorem accessFails_iff (s : State) : s.accessFails = true ↔ s.env.draws.head? = some true := by
  unfold State.accessFails
  cases s.env.draws <;> simp

theorem accessFails_false_iff (s : State) : s.accessFails = false ↔ s.env.draws.head? ≠ some true := by
  rw [← Bool.not_eq_true, accessFails_iff]

/-- With no failure ahead, none now. -/
theorem noFailure_access {s : State} (h : s.noFailure = true) : s.accessFails = false := by
  unfold State.noFailure at h
  unfold State.accessFails
  cases hd : s.env.draws with
  | nil => rfl
  | cons d ds => simp_all

/-- With no failure ahead, none after any number of draws. -/
theorem noFailure_drop {s t : State} (h : s.noFailure = true) (n : Nat) (ht : t.env.draws = s.env.draws.drop n) :
    t.noFailure = true := by
  unfold State.noFailure at h ⊢
  rw [ht]
  simp only [List.all_eq_true] at h ⊢
  exact fun d hd => h d (List.mem_of_mem_drop hd)

/-! ### `SrcRead()` and `SnkWrite(b)` -/

theorem srcRead_byte {s : State} {b : Byte} (hf : s.accessFails = false) (h : s.env.src[s.env.srcPos]? = some b) :
    srcRead s = .ok (some b)
      (s.setEnv { s.env with srcPos := s.env.srcPos + 1, draws := s.env.draws.tail }) := by
  simp [srcRead, hf, h, State.useDraw]

theorem srcRead_eos {s : State} (hf : s.accessFails = false) (h : s.env.src[s.env.srcPos]? = none) :
    srcRead s = .ok none s.useDraw := by
  simp [srcRead, hf, h]

theorem srcRead_fails {s : State} (hf : s.accessFails = true) :
    srcRead s = .raised .ioFailure (s.setEnv { s.env with
      srcPos := min (Config.srcPosAfterFailure s.env.freeCtr) s.env.src.length
      freeCtr := s.env.freeCtr + 1, draws := s.env.draws.tail }) := by
  simp [srcRead, hf, State.useDraw]

/-- Everything `SrcRead()` can do. -/
theorem srcRead_cases (s : State) :
    (∃ b, s.env.src[s.env.srcPos]? = some b ∧ s.accessFails = false ∧ srcRead s = .ok (some b)
      (s.setEnv { s.env with srcPos := s.env.srcPos + 1, draws := s.env.draws.tail })) ∨
    (s.env.src[s.env.srcPos]? = none ∧ s.accessFails = false ∧ srcRead s = .ok none s.useDraw) ∨
    (s.accessFails = true ∧ srcRead s = .raised .ioFailure (s.setEnv { s.env with
      srcPos := min (Config.srcPosAfterFailure s.env.freeCtr) s.env.src.length
      freeCtr := s.env.freeCtr + 1, draws := s.env.draws.tail })) := by
  cases hf : s.accessFails with
  | true => exact .inr (.inr ⟨rfl, srcRead_fails hf⟩)
  | false =>
    cases h : s.env.src[s.env.srcPos]? with
    | some b => exact .inl ⟨b, rfl, rfl, srcRead_byte hf h⟩
    | none => exact .inr (.inl ⟨rfl, rfl, srcRead_eos hf h⟩)

theorem snkWrite_ok {s : State} (b : Byte) (hf : s.accessFails = false) :
    snkWrite b s = .ok () ((s.setEnv { s.env with snk := s.env.snk ++ [b], draws := s.env.draws.tail }).setWr
      { s.wr with snkCnt := s.wr.snkCnt + 1#64 }) := by
  simp [snkWrite, hf, State.useDraw]

theorem snkWrite_fails {s : State} (b : Byte) (hf : s.accessFails = true) :
    snkWrite b s = .raised .ioFailure (s.setEnv { s.env with
      snk := s.env.snk ++ Config.snkTailAfterFailure s.env.freeCtr
      freeCtr := s.env.freeCtr + 1, draws := s.env.draws.tail }) := by
  simp [snkWrite, hf, State.useDraw]

/-- Everything `SnkWrite(b)` can do. -/
theorem snkWrite_cases (b : Byte) (s : State) :
    (s.accessFails = false ∧ snkWrite b s =
      .ok () ((s.setEnv { s.env with snk := s.env.snk ++ [b], draws := s.env.draws.tail }).setWr
        { s.wr with snkCnt := s.wr.snkCnt + 1#64 })) ∨
    (s.accessFails = true ∧ snkWrite b s = .raised .ioFailure (s.setEnv { s.env with
      snk := s.env.snk ++ Config.snkTailAfterFailure s.env.freeCtr
      freeCtr := s.env.freeCtr + 1, draws := s.env.draws.tail })) := by
  cases hf : s.accessFails with
  | true => exact .inr ⟨rfl, snkWrite_fails b hf⟩
  | false => exact .inl ⟨rfl, snkWrite_ok b hf⟩

/-- Everything an acquisition can do. -/
theorem acquire_cases (s : State) :
    (s.accessFails = false ∧ acquire s = .ok () s.useDraw) ∨
    (s.accessFails = true ∧ acquire s = .raised .ioFailure s.useDraw) := by
  cases hf : s.accessFails <;> simp [acquire, hf]

/-- The number of source bytes left is what lies beyond the read position. -/
theorem srcLeft_length (s : State) : s.srcLeft.length = s.env.src.length - s.env.srcPos := by
  simp [State.srcLeft]

/-- `EOS` is met exactly when no byte is left. -/
theorem srcLeft_nil_iff (s : State) : s.srcLeft = [] ↔ s.env.src[s.env.srcPos]? = none := by
  simp [State.srcLeft]

/-- The next byte is the first of those left. -/
theorem srcLeft_cons {s : State} {b : Byte} {rest : List Byte} (h : s.srcLeft = b :: rest) :
    s.env.src[s.env.srcPos]? = some b ∧ s.env.src.drop (s.env.srcPos + 1) = rest := by
  unfold State.srcLeft at h
  have hlt : s.env.srcPos < s.env.src.length := by
    rcases Nat.lt_or_ge s.env.srcPos s.env.src.length with h' | h'
    · exact h'
    · simp [List.drop_eq_nil_of_le h'] at h
  rw [List.drop_eq_getElem_cons hlt] at h
  simp only [List.cons.injEq] at h
  exact ⟨by rw [List.getElem?_eq_getElem hlt, h.1], h.2⟩

/-! ### Bits -/

/-- Everything `ReadBit()` can do. -/
theorem readBit_cases (s : State) :
    (s.rd.rcnt ≠ 0#4 ∧ readBit s = deliverBit s) ∨
    (s.rd.rcnt = 0#4 ∧ s.accessFails = false ∧ ∃ b, s.env.src[s.env.srcPos]? = some b ∧
      readBit s = .ok (some (b.getLsbD 7))
        ((s.setEnv { s.env with srcPos := s.env.srcPos + 1, draws := s.env.draws.tail }).setRd
          { s.rd with rbuf := b, rcnt := 7#4 })) ∨
    (s.rd.rcnt = 0#4 ∧ s.accessFails = false ∧ s.env.src[s.env.srcPos]? = none ∧
      readBit s = .ok none s.useDraw) ∨
    (s.rd.rcnt = 0#4 ∧ s.accessFails = true ∧ readBit s = .raised .ioFailure (s.setEnv { s.env with
      srcPos := min (Config.srcPosAfterFailure s.env.freeCtr) s.env.src.length
      freeCtr := s.env.freeCtr + 1, draws := s.env.draws.tail })) := by
  by_cases hr : s.rd.rcnt = 0#4
  · right
    rcases srcRead_cases s with ⟨b, hb, hf, h⟩ | ⟨hn, hf, h⟩ | ⟨hf, h⟩
    · exact .inl ⟨hr, hf, b, hb, by simp [readBit, hr, h, deliverBit]⟩
    · exact .inr (.inl ⟨hr, hf, hn, by simp [readBit, hr, h]⟩)
    · exact .inr (.inr ⟨hr, hf, by simp [readBit, hr, h]⟩)
  · exact .inl ⟨hr, by simp [readBit, hr]⟩

/-- A bit that is read is one of the bits left: their number goes down by one. -/
theorem readBit_bitsLeft {s t : State} {b : Bool} (h : readBit s = .ok (some b) t) : t.bitsLeft + 1 = s.bitsLeft := by
  have hl : ∀ u : State, u.bitsLeft = u.rd.rcnt.toNat + 8 * (u.env.src.length - u.env.srcPos) := fun u => by
    rw [State.bitsLeft, srcLeft_length]
  rcases readBit_cases s with ⟨hr, hb⟩ | ⟨hr, -, c, hc, hb⟩ | ⟨-, -, -, hb⟩ | ⟨-, -, hb⟩
  · rw [hb, deliverBit] at h
    simp only [Res.ok.injEq] at h
    have h0 : s.rd.rcnt.toNat ≠ 0 := fun h0 => hr (BitVec.eq_of_toNat_eq (by simpa using h0))
    have hs := s.rd.rcnt.isLt
    rw [← h.2, hl, hl]
    simp only [State.setRd_rd, State.setRd_env, BitVec.toNat_sub]
    simp only [BitVec.toNat_ofNat]
    omega
  · rw [hb] at h
    simp only [Res.ok.injEq] at h
    have hlt := (List.getElem?_eq_some_iff.1 hc).1
    rw [← h.2, hl, hl, hr]
    simp only [State.setRd_rd, State.setRd_env, State.setEnv_env]
    simp
    omega
  · rw [hb] at h; simp at h
  · rw [hb] at h; simp at h

end Sys2Proof.Machine
end

