-- ==== Sys2Proof/Laws/Shared.lean ====
section
/-! SUPPORT. What the larger shared operations can do: the bit writer, `emit`, the queue's procedures, and the
releases of a composite, each said once. -/

namespace Sys2Proof.Machine

/-! ### The bit writer -/

/-- Everything `WriteBit(b)` can do: buffer the bit, or write the byte it completes. -/
theorem writeBit_cases (b : Bool) (s : State) :
    (s.wr.wcnt ≠ 7#3 ∧ writeBit b s = .ok () (s.setWr { s.wr with
      wbuf := (s.wr.wbuf <<< 1) ||| (BitVec.ofBool b).setWidth 8, wcnt := s.wr.wcnt + 1#3 })) ∨
    (s.wr.wcnt = 7#3 ∧ writeBit b s = snkWrite ((s.wr.wbuf <<< 1) ||| (BitVec.ofBool b).setWidth 8)
      (s.setWr { s.wr with wbuf := 0#8, wcnt := 0#3 })) := by
  by_cases h : s.wr.wcnt = 7#3
  · exact .inr ⟨h, by simp [writeBit, h]⟩
  · exact .inl ⟨h, by simp [writeBit, h]⟩

/-- Everything `Flush()` can do: nothing, or write the partial byte. -/
theorem flushBits_cases (s : State) :
    (s.wr.wcnt = 0#3 ∧ flushBits s = .ok () s) ∨
    (s.wr.wcnt ≠ 0#3 ∧ flushBits s = snkWrite (s.wr.wbuf <<< (8 - s.wr.wcnt.toNat))
      (s.setWr { s.wr with wbuf := 0#8, wcnt := 0#3 })) := by
  by_cases h : s.wr.wcnt = 0#3
  · exact .inl ⟨h, by simp [flushBits, h]⟩
  · exact .inr ⟨h, by simp [flushBits, h]⟩

/-- Writing one bit string after another is writing them joined. -/
theorem writeBits_append (as bs : List Bool) (s : State) :
    writeBits (as ++ bs) s = (writeBits as s).andThen fun _ t => writeBits bs t := by
  induction as generalizing s with
  | nil => rfl
  | cons a as ih =>
    simp only [List.cons_append, writeBits]
    cases writeBit a s with
    | ok u t => simp [ih]
    | raised e t => rfl
    | stop f => rfl

/-! ### `emit(bytes)` -/

/-- Emitting one byte string after another is emitting them joined. -/
theorem emit_append (as bs : List Byte) (s : State) :
    emit (as ++ bs) s = (emit as s).andThen fun _ t => emit bs t := by
  induction as generalizing s with
  | nil => rfl
  | cons a as ih =>
    simp only [List.cons_append, emit]
    cases snkWrite a s with
    | ok u t => simp [ih]
    | raised e t => rfl
    | stop f => rfl

/-- With no failure ahead, `emit` appends its bytes, counts them and uses one draw a byte. -/
theorem emit_ok (bs : List Byte) {s : State} (h : s.noFailure = true) :
    emit bs s = .ok () ((s.setEnv { s.env with snk := s.env.snk ++ bs, draws := s.env.draws.drop bs.length }).setWr
      { s.wr with snkCnt := s.wr.snkCnt + BitVec.ofNat 64 bs.length }) := by
  induction bs generalizing s with
  | nil => simp [emit, State.setEnv, State.setWr]
  | cons b bs ih =>
    rw [emit, snkWrite_ok b (noFailure_access h), Res.andThen_ok, ih (noFailure_drop h 1 (by simp))]
    simp [State.setEnv, State.setWr, BitVec.add_assoc, ← BitVec.ofNat_add, Nat.add_comm]

/-! ### The queue -/

/-- A swap of two slots writes both and nothing else. -/
theorem swapSlots_ok {heap heap' : Memory NodeId} {p q : Nat} (h : swapSlots heap p q = .ok heap') :
    ∃ a b, heap.read p = some a ∧ heap.read q = some b ∧ heap' = (heap.write p b).write q a := by
  unfold swapSlots heapSlot at h
  cases hp : readEntry .heap heap p with
  | error f => simp [hp, bind, Except.bind] at h
  | ok a =>
    cases hq : readEntry .heap heap q with
    | error f => simp [hp, hq, bind, Except.bind] at h
    | ok b =>
      simp only [hp, hq, bind, Except.bind, pure, Except.pure, Except.ok.injEq] at h
      exact ⟨a, b, readEntry_ok.1 hp, readEntry_ok.1 hq, h.symm⟩

/-- A property that every write of a slot below a bound keeps is kept by the rise of an inserted item. -/
theorem siftUp_keeps {P : Memory NodeId → Prop} {n : Nat}
    (hw : ∀ m i v, i < n → P m → P (Memory.write m i v)) {node : Memory Node} :
    ∀ {k p : Nat} {heap heap' : Memory NodeId}, siftUp node k p heap = .ok heap' → p < n → P heap → P heap' := by
  intro k
  induction k with
  | zero => intro p heap heap' h _ hp; simp only [siftUp, Except.ok.injEq] at h; exact h ▸ hp
  | succ k ih =>
    intro p heap heap' h hpn hp
    simp only [siftUp, bind, Except.bind, pure, Except.pure] at h
    split at h
    · simp only [Except.ok.injEq] at h; exact h ▸ hp
    · next hp0 =>
      split at h
      · simp at h
      · split at h
        · simp at h
        · split at h
          · split at h
            · simp at h
            · next hs =>
              obtain ⟨a, b, -, -, rfl⟩ := swapSlots_ok hs
              have hq : (p - 1) / 2 < n := by omega
              exact ih h hq (hw _ _ _ hq (hw _ _ _ hpn hp))
          · simp only [Except.ok.injEq] at h; exact h ▸ hp

/-- Drawing every id out of a list gives the same multiset, whatever the draws. -/
theorem drawOut_perm (draw : Nat → Nat) : ∀ {k : Nat} {ids : List NodeId}, ids.length = k →
    (drawOut draw k ids).Perm ids := by
  intro k
  induction k with
  | zero => intro ids h; simp [drawOut, List.length_eq_zero_iff.1 h]
  | succ k ih =>
    intro ids h
    have hlt : draw k % ids.length < ids.length := Nat.mod_lt _ (by omega)
    rw [drawOut, List.getElem?_eq_getElem hlt]
    exact ((ih (by rw [List.length_eraseIdx_of_lt hlt]; omega)).cons _).trans (List.getElem_cons_eraseIdx_perm hlt)

/-- Reading after ids were placed: a slot that received one shows it, every other slot is as it was. -/
theorem placeFrom_read (ids : List NodeId) (heap : Memory NodeId) (i j : Nat) :
    (placeFrom heap i ids).read j = if i ≤ j ∧ j < i + ids.length then ids[j - i]? else heap.read j := by
  induction ids generalizing heap i with
  | nil => simp only [placeFrom, List.length_nil, Nat.add_zero]; rw [if_neg (by omega)]
  | cons id ids ih =>
    rw [placeFrom, ih, Memory.read_write, List.length_cons]
    rcases Nat.lt_trichotomy j i with h | h | h
    · rw [if_neg (by omega), if_neg (by omega), if_neg (by omega)]
    · subst h; rw [if_neg (by omega), if_pos rfl, if_pos (by omega)]; simp
    · rw [show j - i = (j - (i + 1)) + 1 by omega, List.getElem?_cons_succ]
      by_cases hj : j < i + 1 + ids.length
      · rw [if_pos (by omega), if_pos (by omega)]
      · rw [if_neg (by omega), if_neg (by omega), if_neg (by omega)]

/-- A property that every write of a slot below a bound keeps is kept by placing ids below it. -/
theorem placeFrom_keeps {P : Memory NodeId → Prop} {n : Nat}
    (hw : ∀ m i v, i < n → P m → P (Memory.write m i v)) :
    ∀ {ids : List NodeId} {heap : Memory NodeId} {i : Nat}, i + ids.length ≤ n → P heap →
      P (placeFrom heap i ids) := by
  intro ids
  induction ids with
  | nil => intro heap i _ h; exact h
  | cons id ids ih =>
    intro heap i hi h
    rw [List.length_cons] at hi
    exact ih (by omega) (hw _ _ _ (by omega) h)

/-- The ids of the slots below `n`, when each has been written, are those the slots hold. -/
theorem slotIds_ok {heap : Memory NodeId} : ∀ {n : Nat} {ids : List NodeId}, slotIds heap n = .ok ids →
    ids.length = n ∧ ∀ i, i < n → heap.read i = ids[i]? := by
  intro n
  induction n with
  | zero => intro ids h; simp only [slotIds, Except.ok.injEq] at h; subst h; simp
  | succ n ih =>
    intro ids h
    cases hb : slotIds heap n with
    | error f => simp [slotIds, hb, bind, Except.bind] at h
    | ok below =>
      cases hl : heapSlot heap n with
      | error f => simp [slotIds, hb, hl, bind, Except.bind] at h
      | ok id =>
        simp only [slotIds, hb, hl, bind, Except.bind, pure, Except.pure, Except.ok.injEq] at h
        subst h
        obtain ⟨hlen, hread⟩ := ih hb
        refine ⟨by simp [hlen], fun i hi => ?_⟩
        rcases Nat.lt_succ_iff_lt_or_eq.1 hi with h | rfl
        · rw [hread i h, List.getElem?_append_left (by omega)]
        · rw [readEntry_ok.1 hl, ← hlen, List.getElem?_concat_length]

/-- Everything a rearrangement can do: below `n` the slots hold the ids they held, in some order, and every other
slot is as it was. -/
theorem rearrange_ok {k : Nat} {hist : List Config.PqEvent} {heap heap' : Memory NodeId} {n : Nat}
    (h : rearrange k hist heap n = .ok heap') :
    ∃ ids ids' : List NodeId, ids'.Perm ids ∧ ids.length = n ∧ heap' = placeFrom heap 0 ids' ∧
      (∀ i, i < n → heap.read i = ids[i]?) ∧ (∀ i, i < n → heap'.read i = ids'[i]?) ∧
      ∀ j, n ≤ j → heap'.read j = heap.read j := by
  cases hs : slotIds heap n with
  | error f => simp [rearrange, hs, bind, Except.bind] at h
  | ok ids =>
    simp only [rearrange, hs, bind, Except.bind, pure, Except.pure, Except.ok.injEq] at h
    obtain ⟨hlen, hread⟩ := slotIds_ok hs
    have hperm := drawOut_perm (Config.heapOrder k hist ids) (ids := ids) rfl
    have hlen' := hperm.length_eq
    refine ⟨ids, _, hperm, hlen, h.symm, hread, fun i hi => ?_, fun j hj => ?_⟩
    · rw [← h, placeFrom_read, if_pos (by omega), Nat.sub_zero]
    · rw [← h, placeFrom_read, if_neg (by omega)]

/-- What the block holds after `PqInsert(i)`: another `HEAP`, one more item, and one more event in the history. -/
theorem pqInsert_ok {id : NodeId} {s t : State} (h : pqInsert id s = .ok t) :
    ∃ heap ev, t = ((s.setTab { s.tab with heap := heap }).setCtr { s.ctr with hsize := s.ctr.hsize + 1#9 }).setPq
      { s.pq with hist := s.pq.hist ++ [ev] } := by
  unfold pqInsert at h
  cases ht : s.par.tie with
  | ref =>
    cases hs : siftUp s.tab.node s.ctr.hsize.toNat s.ctr.hsize.toNat (s.tab.heap.write s.ctr.hsize.toNat id) with
    | error f => simp [ht, hs, bind, Except.bind] at h
    | ok heap => exact ⟨heap, _, by simpa [ht, hs, bind, Except.bind, pure, Except.pure] using h.symm⟩
  | other k =>
    cases hs : otherInsert k (s.pq.hist ++ [.inserted id ((s.tab.node.read id.toNat).map (·.weight))])
        (s.tab.heap.write s.ctr.hsize.toNat id) s.ctr.hsize.toNat with
    | error f => simp [ht, hs, bind, Except.bind] at h
    | ok heap => exact ⟨heap, _, by simpa [ht, hs, bind, Except.bind, pure, Except.pure] using h.symm⟩

/-- What the block holds after `PqDeleteMin()`: another `HEAP`, one item fewer, and one more event in the history. -/
theorem pqPop_ok {m : NodeId} {s t : State} (h : pqPop s = .ok (m, t)) :
    s.pq.intact = true ∧
    ∃ heap, t = ((s.setTab { s.tab with heap := heap }).setCtr { s.ctr with hsize := s.ctr.hsize - 1#9 }).setPq
      { s.pq with hist := s.pq.hist ++ [.deletedMin] } := by
  unfold pqPop at h
  cases hi : s.pq.intact with
  | false => simp [hi] at h
  | true =>
    cases ht : s.par.tie with
    | ref =>
      cases hs : refDeleteMin s.tab.node s.tab.heap s.ctr.hsize.toNat with
      | error f => simp [hi, ht, hs, bind, Except.bind] at h
      | ok r =>
        simp only [hi, ht, hs, bind, Except.bind, pure, Except.pure, if_true, Except.ok.injEq, Prod.mk.injEq] at h
        exact ⟨rfl, r.2, by rw [← h.2, ← hi]⟩
    | other k =>
      cases hs : otherDeleteMin k s.pq.hist s.tab.node s.tab.heap s.ctr.hsize.toNat with
      | error f => simp [hi, ht, hs, bind, Except.bind] at h
      | ok r =>
        simp only [hi, ht, hs, bind, Except.bind, pure, Except.pure, if_true, Except.ok.injEq, Prod.mk.injEq] at h
        exact ⟨rfl, r.2, by rw [← h.2, ← hi]⟩

/-! ### Packed records -/

/-- The weight of an unpacked record fits the width it was unpacked for (R103). -/
theorem Node.unpack_weight_lt {wW : Nat} (h : wW ≤ 40) (e : Entry) : (Node.unpack wW e).weight.toNat < 2 ^ wW := by
  have hlt : (e.toNat >>> 27) % 2 ^ wW < 2 ^ wW := Nat.mod_lt _ (by positivity)
  have hle : 2 ^ wW ≤ 2 ^ 40 := Nat.pow_le_pow_right (by decide) h
  simp only [Node.unpack, BitVec.toNat_ofNat]
  rwa [Nat.mod_eq_of_lt (by omega)]

/-! ### Composites -/

/-- One composite after its parts: with a first part, the rest run on what it leaves. -/
theorem runParts_cons (p : State → Res Unit) (ps : List (State → Res Unit)) (s : State) :
    runParts (p :: ps) s = (p s).andThen fun _ t => runParts ps t := rfl

/-- `WCLOSE` never stops the machine, and where the sink was held it is not afterwards. -/
theorem wcloseBody_cases (s : State) :
    (s.wr.wopen = false ∧ wcloseBody s = .raised .illegalState s) ∨
    (s.wr.wopen = true ∧ ∃ t, t.wr.wopen = false ∧ t.rd = s.rd ∧ t.tab = s.tab ∧ t.ctr = s.ctr ∧ t.reg = s.reg ∧
      t.pq = s.pq ∧ t.par = s.par ∧ (wcloseBody s = .ok () t ∨ wcloseBody s = .raised .ioFailure t)) := by
  cases hw : s.wr.wopen with
  | false => exact .inl ⟨rfl, by simp [wcloseBody, hw]⟩
  | true =>
    refine .inr ⟨rfl, ?_⟩
    rcases flushBits_cases s with ⟨-, hf⟩ | ⟨-, hf⟩
    · exact ⟨releaseSink s, rfl, rfl, rfl, rfl, rfl, rfl, rfl, .inl (by simp [wcloseBody, hw, hf])⟩
    · rcases snkWrite_cases (s.wr.wbuf <<< (8 - s.wr.wcnt.toNat)) (s.setWr { s.wr with wbuf := 0#8, wcnt := 0#3 })
        with ⟨-, h⟩ | ⟨-, h⟩ <;> rw [h] at hf <;> simp only [wcloseBody, hw, if_true, hf]
      · exact ⟨_, by rfl, by rfl, by rfl, by rfl, by rfl, by rfl, by rfl, .inl rfl⟩
      · exact ⟨_, by rfl, by rfl, by rfl, by rfl, by rfl, by rfl, by rfl, .inr rfl⟩

/-- The releases of a composite always end, with both streams free and the tables, counters and host registers as
they were. -/
theorem releaseHeld_ok (s : State) :
    ∃ t, releaseHeld s = .ok t ∧ t.rd.ropen = false ∧ t.wr.wopen = false ∧ t.tab = s.tab ∧ t.ctr = s.ctr ∧
      t.reg = s.reg ∧ t.pq = s.pq ∧ t.par = s.par := by
  have last : ∀ t : State, t.wr.wopen = false → ∃ u, (if t.rd.ropen then settled (rcloseBody t) else .ok t) = .ok u ∧
      u.rd.ropen = false ∧ u.wr.wopen = false ∧ u.tab = t.tab ∧ u.ctr = t.ctr ∧ u.reg = t.reg ∧ u.pq = t.pq ∧
      u.par = t.par := by
    intro t hw
    cases hr : t.rd.ropen with
    | false => exact ⟨t, by simp, hr, hw, rfl, rfl, rfl, rfl, rfl⟩
    | true =>
      exact ⟨t.setRd { rbuf := 0#8, rcnt := 0#4, ropen := false }, by simp [rcloseBody, hr, settled], rfl, hw, rfl,
        rfl, rfl, rfl, rfl⟩
  rcases wcloseBody_cases s with ⟨hw, -⟩ | ⟨hw, t, h1, -, h3, h4, h5, h6, h7, h | h⟩
  · obtain ⟨u, hu, rest⟩ := last s hw
    exact ⟨u, by simpa [releaseHeld, hw, bind, Except.bind, pure, Except.pure] using hu, rest⟩
  all_goals
    obtain ⟨u, hu, r1, r2, r3, r4, r5, r6, r7⟩ := last t h1
    exact ⟨u, by simpa [releaseHeld, hw, h, settled, bind, Except.bind, pure, Except.pure] using hu, r1, r2,
      r3.trans h3, r4.trans h4, r5.trans h5, r6.trans h6, r7.trans h7⟩

/-- Everything a composite can do. -/
theorem composite_cases (parts : List (State → Res Unit)) (s : State) :
    ((s.rd.ropen = true ∨ s.wr.wopen = true) ∧ composite parts s = .raised .illegalState s) ∨
    (s.rd.ropen = false ∧ s.wr.wopen = false ∧
      ((∃ t, runParts parts s = .ok () t ∧ composite parts s = .ok () t) ∨
       (∃ e t u, runParts parts s = .raised e t ∧ releaseHeld t = .ok u ∧ composite parts s = .raised e u) ∨
       (∃ f, runParts parts s = .stop f ∧ composite parts s = .stop f))) := by
  cases hr : s.rd.ropen <;> cases hw : s.wr.wopen <;> try (left; simp [composite, hr, hw]; done)
  refine .inr ⟨rfl, rfl, ?_⟩
  cases hp : runParts parts s with
  | ok u t => exact .inl ⟨t, rfl, by simp [composite, hr, hw, hp]⟩
  | raised e t =>
    obtain ⟨u, hu, -⟩ := releaseHeld_ok t
    exact .inr (.inl ⟨e, t, u, rfl, hu, by simp [composite, hr, hw, hp, hu]⟩)
  | stop f => exact .inr (.inr ⟨f, rfl, by simp [composite, hr, hw, hp]⟩)

end Sys2Proof.Machine
end

