-- ==== Sys2Proof/WellFormed.lean ====
section
/-! DEFINITION. Well-formed operations: the operand is in the range the operation's own rule gives it
(spec/40_bitio.md rules R137, R138, spec/41_pqueue.md rule R163). An operation that is not well-formed still has
an encoding and a meaning: it raises `InvalidArgument` (spec/60_exceptions.md rules R260, R264). -/

namespace Sys2Proof

/-- The operand's range: a bit, a byte, a node id; every 32-bit value for `WRINT`; no operand, no range. -/
def Instr.wf : Instr → Bool
  | .wrbit arg => decide (arg.toNat ≤ 1)
  | .wrbyte arg => decide (arg.toNat ≤ 255)
  | .pqins arg => decide (arg.toNat ≤ 510)
  | .nop | .clrerr | .sreset | .ropen | .rclose | .rdbit | .rdbyte | .rdint | .wopen | .wclose
  | .wrint _ | .flush | .pqclr | .pqdelmin | .pqsize | .pqempty | .buildtree | .buildcodes
  | .parsehdr | .walk | .decompress | .countfreq | .wrhdr | .encode | .compress => true

end Sys2Proof
end

