-- ==== Sys2Proof/Tests/Slice0.lean ====
section
/-! SUPPORT. Tests of the model: ill-formed operations, every command word of spec/30_encoding.md rule R91 written
out, single steps on small states with results taken from spec/95_test_vectors.md and from the examples of the
rules, and, for every obligation with hypotheses, a concrete state that meets them. -/

namespace Sys2Proof.Tests

set_option Elab.async false

open Sys2Proof.Machine

/-! ### Helpers -/

/-- The state an answer carries, if it carries one. -/
def next? (o : Out) : Option State :=
  match o with
  | .next t => some t
  | .fault _ => none
  | .refused _ => none

/-- The state an answer carries, or the reset state. -/
def nextOr (o : Out) : State := (next? o).getD State.reset

/-- An answer that carries a state is that state. -/
theorem next_of_isSome {o : Out} (h : (next? o).isSome = true) : o = .next (nextOr o) := by
  cases o with
  | next t => rfl
  | fault r => simp [next?] at h
  | refused r => simp [next?] at h

/-- An answer that carries a state is some state. -/
theorem exists_next {o : Out} (h : (next? o).isSome = true) : ∃ t, o = .next t := ⟨_, next_of_isSome h⟩

/-- What an answer shows through a view of its state. -/
def view {α : Type} (f : State → α) (o : Out) : Option α := (next? o).map f

/-- The source held, nothing buffered, these bytes left, these draws to come. -/
def reading (bytes : List Byte) (draws : List Bool) : State :=
  { State.reset with
    rd := { rbuf := 0#8, rcnt := 0#4, ropen := true }
    env := { Env.reset with src := bytes, draws := draws } }

/-- The sink held with the last `n` bits of `w` buffered, these draws to come. -/
def writing (w : Byte) (n : BitVec 3) (draws : List Bool) : State :=
  { State.reset with
    wr := { wbuf := w, wcnt := n, wopen := true, snkCnt := 0#64 }
    env := { Env.reset with draws := draws } }

/-- The state with this host script. -/
def scripted (s : State) (es : List HostEvent) : State := { s with env := { s.env with script := es } }

/-- A leaf record. -/
def leaf (sym : Byte) (w : Weight) : Node := { kind := .leaf, symbol := sym, weight := w, left := NONE, right := NONE }

/-- An internal record. -/
def inner (w : Weight) (l r : NodeId) : Node := { kind := .internal, symbol := 0#8, weight := w, left := l, right := r }

/-- V1's records. -/
def v1Nodes : Memory Node :=
  [(0, leaf 65#8 5#40), (1, leaf 66#8 3#40), (2, leaf 67#8 1#40), (3, leaf 68#8 1#40), (4, inner 2#40 2#9 3#9),
    (5, inner 5#40 4#9 1#9), (6, inner 10#40 0#9 5#9)]

/-- V1's tree, built and standing. -/
def v1Tree (s : State) : State :=
  { s with tab := { s.tab with node := v1Nodes }, ctr := { s.ctr with root := 6#9, nnodes := 7#10 } }

/-- A written `FREQ` with these counts, zero elsewhere. -/
def counted (es : List (Nat × Count)) (s : State) : State :=
  { s with tab := { s.tab with freq := writeAll (Memory.fill 256 0#32) es } }

/-- V1's counts. -/
def v1Counts : List (Nat × Count) := [(65, 5#32), (66, 3#32), (67, 1#32), (68, 1#32)]

/-- Nodes 0 and 1 of R163's example, of weights 5 and 3, with `n` of them queued in this order. -/
def queueOf (ids : List NodeId) : State :=
  { State.reset with
    tab := { Tables.reset with
      node := [(0, leaf 0#8 5#40), (1, leaf 1#8 3#40)]
      heap := (List.range ids.length).zip ids }
    ctr := { Counters.reset with hsize := BitVec.ofNat 9 ids.length } }

/-- `"ORIGINAL_SIZE=2\nSYMBOLS=2\n65 1\n66 1\nEND_HEADER\n"`, V4's header. -/
def v4Header : List Byte :=
  [0x4F#8, 0x52#8, 0x49#8, 0x47#8, 0x49#8, 0x4E#8, 0x41#8, 0x4C#8, 0x5F#8, 0x53#8, 0x49#8, 0x5A#8, 0x45#8, 0x3D#8,
    0x32#8, 0x0A#8] ++
  [0x53#8, 0x59#8, 0x4D#8, 0x42#8, 0x4F#8, 0x4C#8, 0x53#8, 0x3D#8, 0x32#8, 0x0A#8] ++
  [0x36#8, 0x35#8, 0x20#8, 0x31#8, 0x0A#8, 0x36#8, 0x36#8, 0x20#8, 0x31#8, 0x0A#8] ++
  [0x45#8, 0x4E#8, 0x44#8, 0x5F#8, 0x48#8, 0x45#8, 0x41#8, 0x44#8, 0x45#8, 0x52#8, 0x0A#8]

/-- A block whose streams are free, with this source. -/
def presented (bytes : List Byte) : State := { State.reset with env := { Env.reset with src := bytes } }

/-! ### Well-formed operations: each check refuses an ill-formed term -/

theorem test_wf_wrbit : Instr.wf (.wrbit 1#32) = true ∧ Instr.wf (.wrbit 2#32) = false := by decide
theorem test_wf_wrbyte : Instr.wf (.wrbyte 255#32) = true ∧ Instr.wf (.wrbyte 256#32) = false := by decide
theorem test_wf_pqins : Instr.wf (.pqins 510#32) = true ∧ Instr.wf (.pqins 511#32) = false := by decide
theorem test_wf_wrint : Instr.wf (.wrint 0xFFFFFFFF#32) = true := by decide

/-! ### Command words, `op` and `arg` written out from R90 and R91 -/

theorem test_words_system :
    decode 0x0000000000#40 = .ok .nop ∧ decode 0x0100000000#40 = .ok .clrerr ∧
      decode 0x0F00000000#40 = .ok .sreset := by decide
theorem test_words_reader :
    decode 0x1000000000#40 = .ok .ropen ∧ decode 0x1100000000#40 = .ok .rclose ∧
      decode 0x1200000000#40 = .ok .rdbit ∧ decode 0x1300000000#40 = .ok .rdbyte ∧
      decode 0x1400000000#40 = .ok .rdint := by decide
theorem test_words_writer :
    decode 0x1800000000#40 = .ok .wopen ∧ decode 0x1900000000#40 = .ok .wclose ∧
      decode 0x1A00000001#40 = .ok (.wrbit 1#32) ∧ decode 0x1B00000041#40 = .ok (.wrbyte 0x41#32) ∧
      decode 0x1C01020304#40 = .ok (.wrint 0x01020304#32) ∧ decode 0x1D00000000#40 = .ok .flush := by decide
theorem test_words_queue :
    decode 0x2000000000#40 = .ok .pqclr ∧ decode 0x2100000005#40 = .ok (.pqins 5#32) ∧
      decode 0x2200000000#40 = .ok .pqdelmin ∧ decode 0x2300000000#40 = .ok .pqsize ∧
      decode 0x2400000000#40 = .ok .pqempty := by decide
theorem test_words_tree : decode 0x3000000000#40 = .ok .buildtree ∧ decode 0x3100000000#40 = .ok .buildcodes := by
  decide
theorem test_words_decode :
    decode 0x4000000000#40 = .ok .parsehdr ∧ decode 0x4100000000#40 = .ok .walk ∧
      decode 0x4200000000#40 = .ok .decompress := by decide
theorem test_words_compress :
    decode 0x5000000000#40 = .ok .countfreq ∧ decode 0x5100000000#40 = .ok .wrhdr ∧
      decode 0x5200000000#40 = .ok .encode ∧ decode 0x5300000000#40 = .ok .compress := by decide
/-- R92: the ends of the unassigned ranges. -/
theorem test_words_unassigned :
    ([0x02, 0x0E, 0x15, 0x17, 0x1E, 0x1F, 0x25, 0x2F, 0x32, 0x3F, 0x43, 0x4F, 0x54, 0xFF].all fun op =>
      decodeTableWord 40 (op * 2 ^ 32) == none) = true := by decide
/-- The operand in the word is the operand encoded (R90). -/
theorem test_encode_words :
    encode .compress = 0x5300000000#40 ∧ encode (.wrint 0x01020304#32) = 0x1C01020304#40 := by decide
theorem test_table_word : decodeTableWord 40 0x1A00000001 = some (.wrbit 1#32) := by decide
/-- The host's first word after reset is the one the step runs: `ROPEN` gives `STATUS` = 0x08 (R130). -/
theorem test_first_word :
    view State.status (step (State.reset.withFetchWord 40 0x1000000000)) = some 0x08#8 := by decide

/-! ### System operations -/

/-- V32: `NOP` with an error pending changes nothing. -/
theorem test_nop :
    view (fun t => (t.reg.err, t.reg.errcode)) (exec .nop (raiseError .parseError State.reset)) =
      some (true, 3#4) := by decide
/-- R251: `STATUS` 0x09, `ERRCODE` 3 becomes 0x08, 0. -/
theorem test_clrerr :
    view (fun t => (t.status, t.reg.errcode)) (exec .clrerr (raiseError .parseError (reading [] []))) =
      some (0x08#8, 0#4) := by decide
/-- V36: nothing is appended to `SNK`, the buffered bits are lost, `NODE` stays. -/
theorem test_sreset :
    view (fun t => (t.status, t.bitstate, t.ctr.root, t.env.snk, t.tab.node == v1Nodes))
      (exec .sreset (v1Tree (writing 5#8 3#3 []))) = some (0#8, 0#32, 0x1FF#9, [], true) := by decide
/-- V32: `op` 0x02 is unassigned. -/
theorem test_illegal_command :
    view (fun t => (t.status, t.reg.errcode)) (step (State.reset.withFetchWord 40 0x0200000000)) =
      some (0x01#8, 5#4) := by decide
/-- V32: host accesses: `DECODED` is read-only, `ROOT` 0x200 is out of range, `ROOT` 510 is not. -/
theorem test_host_writes :
    view (fun t => t.reg.errcode) (step (scripted State.reset [.regWrite 7 1#32])) = some 5#4 ∧
      view (fun t => (t.reg.errcode, t.ctr.root)) (step (scripted State.reset [.regWrite 8 0x200#32])) =
        some (4#4, 0x1FF#9) ∧
      view (fun t => (t.reg.errcode, t.ctr.root)) (step (scripted State.reset [.regWrite 8 510#32])) =
        some (0#4, 0x1FE#9) := by decide
/-- V1: the packed records 0 and 4, as the table port shows them (R103). -/
theorem test_host_reads_node :
    view (·.env.busData) (step (scripted (v1Tree State.reset) [.tblRead .node 0])) = some 0x2D07FFFF#263 ∧
      view (·.env.busData) (step (scripted (v1Tree State.reset) [.tblRead .node 4])) = some 0x10000403#263 := by
  decide +kernel
/-- V8: `BITSTATE` after the thirteenth bit. -/
theorem test_host_reads_bitstate :
    view (·.env.busData) (step (scripted (writing 0x11#8 5#3 []) [.regRead 15])) = some 0x11050000#263 := by
  decide +kernel

/-! ### Bit-stream I/O -/

theorem test_ropen_twice : view (·.reg.errcode) (exec .ropen (reading [] [])) = some 6#4 := by decide
/-- R131: buffered bits are discarded. -/
theorem test_rclose :
    view (fun t => (t.rd.rcnt, t.status))
      (exec .rclose { reading [] [] with rd := { rbuf := 0xB3#8, rcnt := 5#4, ropen := true } }) =
      some (0#4, 0#8) := by decide
/-- V9: the first bit of B3 88, and the fourth when five are buffered. -/
theorem test_rdbit :
    view (fun t => (t.reg.result, t.rd.rcnt)) (exec .rdbit (reading [0xB3#8, 0x88#8] [])) = some (1#32, 7#4) ∧
      view (fun t => (t.reg.result, t.rd.rcnt))
        (exec .rdbit { reading [] [] with rd := { rbuf := 0xB3#8, rcnt := 5#4, ropen := true } }) =
        some (1#32, 4#4) := by decide
/-- V9: the empty source. -/
theorem test_rdbit_eos :
    view (fun t => (t.reg.result, t.status)) (exec .rdbit (reading [] [])) = some (0xFFFFFFFF#32, 0x0A#8) := by decide
/-- R133. -/
theorem test_rdbyte :
    view (fun t => (t.reg.result, t.srcLeft)) (exec .rdbyte (reading [0x41#8, 0x42#8] [])) =
      some (0x41#32, [0x42#8]) := by decide
/-- V10: a whole word, and two bytes left. -/
theorem test_rdint :
    view (fun t => (t.reg.result, t.reg.eos)) (exec .rdint (reading [1#8, 2#8, 3#8, 4#8] [])) =
        some (0x01020304#32, false) ∧
      view (fun t => (t.reg.result, t.reg.eos, t.srcLeft)) (exec .rdint (reading [0#8, 7#8] [])) =
        some (0xFFFFFFFF#32, true, []) := by decide
theorem test_wopen : view State.status (exec .wopen State.reset) = some 0x10#8 := by decide
/-- V12: `wbuf` 0b101, `wcnt` 3. -/
theorem test_wclose :
    view (fun t => (t.env.snk, t.status)) (exec .wclose (writing 5#8 3#3 [])) = some ([0xA0#8], 0#8) := by decide
/-- R137: the eighth bit of A5; V12: the operand 2. -/
theorem test_wrbit :
    view (fun t => (t.env.snk, t.wr.wcnt)) (exec (.wrbit 1#32) (writing 0x52#8 7#3 [])) =
        some ([0xA5#8], 0#3) ∧
      view (fun t => (t.reg.errcode, t.wr.wbuf, t.wr.wcnt)) (exec (.wrbit 2#32) (writing 5#8 3#3 [])) =
        some (4#4, 5#8, 3#3) := by decide
/-- V10, V12. -/
theorem test_wrbyte :
    view (·.env.snk) (exec (.wrbyte 0xFF#32) (writing 0#8 0#3 [])) = some [0xFF#8] ∧
      view (·.reg.errcode) (exec (.wrbyte 0x41#32) (writing 5#8 3#3 [])) = some 6#4 := by decide
theorem test_wrint :
    view (·.env.snk) (exec (.wrint 0x01020304#32) (writing 0#8 0#3 [])) = some [1#8, 2#8, 3#8, 4#8] := by decide
/-- V8: bits 1 1 0; V11: on a byte boundary nothing. -/
theorem test_flush :
    view (·.env.snk) (exec .flush (writing 6#8 3#3 [])) = some [0xC0#8] ∧
      view (fun t => (t.env.snk, t.wr.snkCnt)) (exec .flush (writing 0#8 0#3 [])) = some ([], 0#64) := by decide
/-- R136, R62: the sink is released although the flush fails, and the byte is not counted. -/
theorem test_wclose_fails :
    view (fun t => (t.status, t.reg.errcode, t.wr.snkCnt)) (exec .wclose (writing 5#8 3#3 [true])) =
      some (0x01#8, 1#4, 0#64) := by decide

/-! ### Priority queue -/

theorem test_pqclr : view (·.ctr.hsize) (exec .pqclr (queueOf [1#9, 0#9])) = some 0#9 := by decide
/-- R163's example: the second, lighter item rises. -/
theorem test_pqins :
    view (fun t => (t.tab.heap, t.ctr.hsize)) (exec (.pqins 1#32) (queueOf [0#9])) =
      some ([(0, 1#9), (1, 0#9)], 2#9) := by decide
/-- V31: 511 is no node. -/
theorem test_pqins_range : view (·.reg.errcode) (exec (.pqins 511#32) (queueOf [0#9])) = some 4#4 := by decide
/-- R167, V28: an item as heavy as its parent does not rise. -/
theorem test_pqins_tie :
    view (·.tab.heap) (exec (.pqins 0#32) (queueOf [0#9, 0#9])) = some [(0, 0#9), (1, 0#9), (2, 0#9)] := by decide
/-- R28: under another tie-break, too, the one queued id is what slot 0 shows. -/
theorem test_other_tie_single (k : Nat) (hist : List Config.PqEvent) :
    rearrange k hist [(0, 1#9)] 1 = .ok [(0, 1#9)] := by
  simp [rearrange, slotIds, heapSlot, readEntry, Memory.read, drawOut, Nat.mod_one, placeFrom, Memory.write, bind,
    Except.bind, pure, Except.pure]
theorem test_pqdelmin :
    view (fun t => (t.reg.result, queuedIds t)) (exec .pqdelmin (queueOf [1#9, 0#9])) = some (1#32, [0#9]) := by decide
/-- V29. -/
theorem test_pqdelmin_empty :
    view (fun t => (t.reg.result, t.status)) (exec .pqdelmin State.reset) = some (0x1FF#32, 0x04#8) := by decide
theorem test_pqsize : view (·.reg.result) (exec .pqsize (queueOf [1#9, 0#9])) = some 2#32 := by decide
theorem test_pqempty : view (·.reg.result) (exec .pqempty State.reset) = some 1#32 := by decide

/-! ### Tree builder -/

/-- V1: the seven records and the root. -/
theorem test_buildtree :
    view (fun t => (t.tab.node, t.ctr.root, t.ctr.nnodes, t.ctr.hsize)) (exec .buildtree (counted v1Counts State.reset)) =
      some (v1Nodes, 6#9, 7#10, 0#9) := by decide +kernel
/-- V1: A = "0", B = "11", C = "100", D = "101". -/
theorem test_buildcodes :
    view (fun t => [65, 66, 67, 68, 69].map t.tab.code.read) (exec .buildcodes (v1Tree State.reset)) =
      some [some [false], some [true, true], some [true, false, false], some [true, false, true], some []] := by
  decide +kernel
/-- V35: a cycle is refused at depth 256. -/
theorem test_buildcodes_cycle :
    view (·.reg.errcode) (exec .buildcodes
      { State.reset with
        tab := { Tables.reset with node := [(0, inner 0#40 0#9 0#9)] }
        ctr := { Counters.reset with root := 0#9 } }) = some 6#4 := by decide +kernel

/-! ### Decode and compress -/

/-- V4's header, the bytes after it left in `SRC`. -/
theorem test_parsehdr :
    view (fun t => (t.ctr.osize, t.ctr.nsym, t.tab.freq.read 65, t.tab.freq.read 67, t.srcLeft))
      (exec .parsehdr (reading (v4Header ++ [0x40#8]) [])) = some (2#32, 2#32, some 1#32, some 0#32, [0x40#8]) := by
  decide +kernel
/-- The ASCII text of a string (R94). -/
def ascii (text : String) : List Byte := text.toList.map fun c => BitVec.ofNat 8 c.toNat

/-- R94: the bytes of the keywords are the characters they are written with. -/
theorem test_keywords :
    kwOriginalSize = ascii "ORIGINAL_SIZE=" ∧ kwSymbols = ascii "SYMBOLS=" ∧ kwEndHeader = ascii "END_HEADER" := by
  decide +kernel
/-- V17 to V19: a blank line, any order, leading zeros, and the last of two pairs for one symbol. -/
theorem test_parsehdr_lines :
    view (fun t => (t.ctr.osize, t.ctr.nsym, t.tab.freq.read 65, t.srcLeft))
      (exec .parsehdr (reading (ascii "\nSYMBOLS=4\n65 9\n065 05\nORIGINAL_SIZE=0010\nEND_HEADER\nA") [])) =
      some (10#32, 4#32, some 5#32, [0x41#8]) := by decide +kernel
/-- R97, R98, R99, V20: what a line says, and the lines that are bad. -/
theorem test_line_meanings :
    lineMeaning 511 (ascii "255 0511") = .count 255 511 ∧
      (["256 1", "65 512", "65", "65  1", " 1", "65 ", "-1 2", "6x 1", "SYMBOLS=", "SYMBOLS=1 ", "ORIGINAL_SIZE=512",
        "end_header", "END_HEADER "].all fun text => decide (lineMeaning 511 (ascii text) = .bad)) = true := by
  decide +kernel
/-- V20: `"65 x"` ends the source: `ParseError` comes before `MalformedHeader`, `EOS` set. -/
theorem test_parsehdr_bad :
    view (fun t => (t.reg.errcode, t.reg.eos)) (exec .parsehdr (reading [0x36#8, 0x35#8, 0x20#8, 0x78#8] [])) =
      some (3#4, true) := by decide +kernel
/-- V1, P1: the payload 07 F2 80 gives the ten bytes, `BITSTATE` 0x00008007. -/
theorem test_walk :
    view (fun t => (t.env.snk, t.ctr.decoded, t.bitstate, t.reg.eos))
      (exec .walk { v1Tree (reading [0x07#8, 0xF2#8, 0x80#8] []) with
        wr := { wbuf := 0#8, wcnt := 0#3, wopen := true, snkCnt := 0#64 }
        ctr := { Counters.reset with root := 6#9, osize := 10#32 } }) =
      some ([0x41#8, 0x41#8, 0x41#8, 0x41#8, 0x41#8, 0x42#8, 0x42#8, 0x42#8, 0x43#8, 0x44#8], 10#32, 0x00008007#32,
        false) := by decide +kernel
/-- V13: one payload byte short of the end: a short count, no error, `CUR` = 5. -/
theorem test_walk_truncated :
    view (fun t => (t.ctr.decoded, t.ctr.cur, t.status))
      (exec .walk { v1Tree (reading [0x07#8] []) with
        wr := { wbuf := 0#8, wcnt := 0#3, wopen := true, snkCnt := 0#64 }
        ctr := { Counters.reset with root := 6#9, osize := 10#32 } }) = some (6#32, 5#9, 0x1A#8) := by decide +kernel
/-- V37: the fifth `SnkWrite` fails: `SNK` holds AAAA for certain, four bytes are counted. -/
theorem test_walk_write_fails :
    view (fun t => (t.env.snk.take 4, t.ctr.decoded, t.wr.snkCnt, t.reg.errcode))
      (exec .walk { v1Tree (reading [0x07#8, 0xF2#8, 0x80#8] (List.replicate 5 false ++ [true])) with
        wr := { wbuf := 0#8, wcnt := 0#3, wopen := true, snkCnt := 0#64 }
        ctr := { Counters.reset with root := 6#9, osize := 10#32 } }) =
      some (List.replicate 4 0x41#8, 4#32, 4#64, 1#4) := by decide +kernel
/-- V4. -/
theorem test_decompress :
    view (fun t => (t.env.snk, t.ctr.decoded, t.status)) (exec .decompress (presented (v4Header ++ [0x40#8]))) =
      some ([0x41#8, 0x42#8], 2#32, 0#8) := by decide +kernel
/-- V4: artifact 48 bytes, `STATUS` 0x02. -/
theorem test_compress :
    view (fun t => (t.env.snk, t.status, t.wr.snkCnt)) (exec .compress (presented [0x41#8, 0x42#8])) =
      some (v4Header ++ [0x40#8], 0x02#8, 48#64) := by decide +kernel
theorem test_countfreq :
    view (fun t => (t.ctr.inlen, t.ctr.nsym, t.tab.freq.read 65, t.tab.inbuf))
      (exec .countfreq (reading [0x41#8, 0x42#8, 0x41#8] [])) =
      some (3#32, 2#32, some 2#32, [(0, 0x41#8), (1, 0x42#8), (2, 0x41#8)]) := by decide +kernel
/-- R230: one byte more than fits. -/
theorem test_countfreq_overflow :
    view (fun t => (t.ctr.inlen, t.reg.errcode, t.srcLeft))
      (exec .countfreq { reading [1#8, 2#8, 3#8] [] with
        par := { cntW := 9, inbufCap := 1, tie := .ref } }) = some (1#32, 6#4, [3#8]) := by decide +kernel
theorem test_wrhdr :
    view (·.env.snk) (exec .wrhdr
      { counted [(65, 1#32), (66, 1#32)] (writing 0#8 0#3 []) with
        ctr := { Counters.reset with osize := 2#32 } }) = some v4Header := by decide +kernel
/-- V1: 17 bits of codes are 07 F2 80. -/
theorem test_encode :
    view (·.env.snk) (exec .encode
      { writing 0#8 0#3 [] with
        tab := { Tables.reset with
          code := [(65, [false]), (66, [true, true]), (67, [true, false, false]), (68, [true, false, true])]
          inbuf := (List.range 10).zip
            [0x41#8, 0x41#8, 0x41#8, 0x41#8, 0x41#8, 0x42#8, 0x42#8, 0x42#8, 0x43#8, 0x44#8] }
        ctr := { Counters.reset with inlen := 10#32 } }) = some [0x07#8, 0xF2#8, 0x80#8] := by decide +kernel
/-- R190, U9: `BUILDTREE` on a block fresh from hard reset stops. -/
theorem test_buildtree_unwritten : (next? (exec .buildtree State.reset)).isNone = true := by decide

/-! ### Witnesses: for every obligation with hypotheses, states and operands that meet them, clause by clause -/

/-- No error and these host events to come. -/
def waiting (es : List HostEvent) : State := scripted State.reset es

/-- The source held with `n` bits of `w` buffered and these bytes left. -/
def midByte (w : Byte) (n : BitVec 4) : State :=
  { reading [] [] with rd := { rbuf := w, rcnt := n, ropen := true } }

/-- Both streams held, nothing buffered. -/
def bothHeld (bytes : List Byte) : State :=
  { reading bytes [] with wr := { wbuf := 0#8, wcnt := 0#3, wopen := true, snkCnt := 0#64 } }

/-- A three-node tree of the leaves 65 and 66. -/
def smallTree (s : State) : State :=
  { s with
    tab := { s.tab with node := [(0, leaf 65#8 1#40), (1, leaf 66#8 1#40), (2, inner 2#40 0#9 1#9)] }
    ctr := { s.ctr with root := 2#9 } }

theorem witness_DecodeAndEncodeAgree :
    (decode 0x1A00000001#40 = .ok (.wrbit 1#32) ∧ decode 0x00DEADBEEF#40 = .ok .nop) ∧
      cmdOp 0x1AFFFFFFFF#40 = opOf (.wrbit 0xFFFFFFFF#32) ∧
      (∀ a, operand? (.wrbit 0xFFFFFFFF#32) = some a → cmdArg 0x1AFFFFFFFF#40 = a) := by
  refine ⟨by decide, by decide, ?_⟩
  intro a h
  simp only [operand?, Option.some.injEq] at h
  subst h
  decide

theorem witness_StepRunsTheDecodedCommand :
    decode 0x1000000000#40 = .ok .ropen ∧
      (waiting [.command 0x1000000000#40]).env.script = .command 0x1000000000#40 :: [] ∧
      (waiting [.regWrite 0 0x10#32]).env.script = .regWrite 0 0x10#32 :: [] ∧
      0x1000000000#40 = (0x10#32 : HostWord).extractLsb' 0 8 ++ (waiting [.regWrite 0 0x10#32]).reg.arg ∧
      State.reset.env.script = [] := by decide

theorem witness_UnassignedCodeRaisesIllegalCommand :
    (waiting [.command 0x0200000000#40]).env.script = .command 0x0200000000#40 :: [] ∧
      ((waiting [.regWrite 0 0xABCDEF02#32]).env.script = .regWrite 0 0xABCDEF02#32 :: [] ∧
        0x0200000000#40 = (0xABCDEF02#32 : HostWord).extractLsb' 0 8 ++
          (waiting [.regWrite 0 0xABCDEF02#32]).reg.arg) ∧
      (waiting [.command 0x0200000000#40]).reg.cmd = 0#8 ∧
      (∀ i, cmdOp 0x0200000000#40 ≠ opOf i) ∧ ∀ i, cmdOp 0xFFFFFFFFFF#40 ≠ opOf i := by
  refine ⟨rfl, by decide, rfl, fun i => ?_, fun i => ?_⟩ <;> cases i <;> simp only [opOf] <;> decide

theorem witness_PendingErrorDropsOperations :
    (raiseError .ioFailure State.reset).reg.err = true ∧ Instr.wrbit 5#32 ≠ .nop ∧ Instr.wrbit 5#32 ≠ .clrerr ∧
      Instr.wrbit 5#32 ≠ .sreset ∧ Instr.compress ≠ .nop ∧ Instr.compress ≠ .clrerr ∧ Instr.compress ≠ .sreset := by
  decide

theorem witness_HardResetLeavesTablesUnspecified :
    (scripted (v1Tree State.reset) [.hardReset]).env.script = .hardReset :: [] := by decide

theorem witness_RopenAcquiresRcloseReleases :
    (State.reset.reg.err = false ∧ (reading [] [true]).reg.err = false) ∧ (reading [] []).rd.ropen = true ∧
      (State.reset.rd.ropen = false ∧ State.reset.env.draws.head? ≠ some true) ∧
      ({ State.reset with env := { Env.reset with draws := [true] } } : State).env.draws.head? = some true := by
  decide

theorem witness_RdbitDeliversNextBit :
    (midByte 0xB3#8 1#4).reg.err = false ∧ State.reset.rd.ropen = false ∧
      ((midByte 0xB3#8 1#4).rd.ropen = true ∧ (midByte 0xB3#8 1#4).rd.rcnt ≠ 0#4 ∧ (midByte 0xB3#8 8#4).rd.rcnt ≠ 0#4) ∧
      ((reading [0xA5#8] []).rd.rcnt = 0#4 ∧ (reading [0xA5#8] []).env.draws.head? ≠ some true ∧
        (reading [0xA5#8] []).srcLeft = 0xA5#8 :: [] ∧ (reading [] [false]).srcLeft = []) ∧
      (reading [0xA5#8] [true]).env.draws.head? = some true := by decide

theorem witness_RdbyteReadsOneByte :
    (reading [0x41#8] []).reg.err = false ∧ (State.reset.rd.ropen = false ∧ (midByte 0xB3#8 1#4).rd.rcnt ≠ 0#4) ∧
      ((reading [0x41#8] []).rd.ropen = true ∧ (reading [0x41#8] []).rd.rcnt = 0#4 ∧
        (reading [0x41#8] []).env.draws.head? ≠ some true ∧ (reading [0x41#8] []).srcLeft = 0x41#8 :: [] ∧
        (reading [] [false]).srcLeft = []) ∧ (reading [0x41#8] [true]).env.draws.head? = some true := by decide

theorem witness_RdintReadsBigEndianWord :
    (reading [1#8, 2#8, 3#8, 4#8] []).reg.err = false ∧ (midByte 0#8 1#4).rd.rcnt ≠ 0#4 ∧
      ((reading [1#8, 2#8, 3#8, 4#8] []).rd.ropen = true ∧ (reading [1#8, 2#8, 3#8, 4#8] []).rd.rcnt = 0#4 ∧
        (reading [1#8, 2#8, 3#8, 4#8] []).srcLeft = 1#8 :: 2#8 :: 3#8 :: 4#8 :: [] ∧
        true ∉ (reading [1#8, 2#8, 3#8, 4#8] [false, false, false, false, true]).env.draws.take 4) ∧
      ((reading [1#8, 2#8, 3#8] []).srcLeft.length < 4 ∧ (reading [] []).srcLeft.length < 4 ∧
        true ∉ (reading [1#8, 2#8, 3#8] []).env.draws.take 4) ∧
      ((reading [] [true]).env.draws.take 1 = List.replicate 0 false ++ [true] ∧
        (reading [1#8, 2#8, 3#8] [false, false, false, true]).env.draws.take 4 =
          List.replicate 3 false ++ [true] ∧
        3 ≤ (reading [1#8, 2#8, 3#8] [false, false, false, true]).srcLeft.length) := by decide

theorem witness_WopenAcquiresSink :
    State.reset.reg.err = false ∧ (writing 0#8 0#3 []).wr.wopen = true ∧
      (State.reset.wr.wopen = false ∧ State.reset.env.draws.head? ≠ some true) ∧
      ({ State.reset with env := { Env.reset with draws := [true] } } : State).env.draws.head? = some true := by
  decide

theorem witness_WcloseFlushesAndReleases :
    (writing 5#8 3#3 []).reg.err = false ∧ State.reset.wr.wopen = false ∧
      ((writing 0#8 0#3 []).wr.wopen = true ∧ (writing 0#8 0#3 []).wr.wcnt = 0#3) ∧
      ((writing 1#8 1#3 []).wr.wcnt ≠ 0#3 ∧ (writing 1#8 7#3 [false]).wr.wcnt ≠ 0#3 ∧
        (writing 1#8 7#3 [false]).env.draws.head? ≠ some true) ∧
      (writing 1#8 1#3 [true]).env.draws.head? = some true := by decide

theorem witness_WrbitAccumulatesAndWritesEighth :
    (writing 5#8 3#3 []).reg.err = false ∧ State.reset.wr.wopen = false ∧
      ((writing 5#8 3#3 []).wr.wopen = true ∧ 1 < (2#32 : HostWord).toNat ∧ (1#32 : HostWord).toNat ≤ 1) ∧
      ((writing 0#8 0#3 []).wr.wcnt ≠ 7#3 ∧ (writing 0x2A#8 6#3 []).wr.wcnt ≠ 7#3) ∧
      ((writing 0x52#8 7#3 []).wr.wcnt = 7#3 ∧ (writing 0x52#8 7#3 []).env.draws.head? ≠ some true ∧
        (writing 0x52#8 7#3 [true]).env.draws.head? = some true) := by decide

theorem witness_WrbyteAppendsItsOperand :
    (writing 0#8 0#3 []).reg.err = false ∧ (State.reset.wr.wopen = false ∧ (writing 1#8 1#3 []).wr.wcnt ≠ 0#3) ∧
      ((writing 0#8 0#3 []).wr.wopen = true ∧ (writing 0#8 0#3 []).wr.wcnt = 0#3 ∧ 255 < (256#32 : HostWord).toNat ∧
        (255#32 : HostWord).toNat ≤ 255) ∧
      ((writing 0#8 0#3 []).env.draws.head? ≠ some true ∧ (writing 0#8 0#3 [true]).env.draws.head? = some true) := by
  decide

theorem witness_WrintAppendsBigEndianWord :
    (writing 0#8 0#3 []).reg.err = false ∧ (writing 1#8 1#3 []).wr.wcnt ≠ 0#3 ∧
      ((writing 0#8 0#3 []).wr.wopen = true ∧ (writing 0#8 0#3 []).wr.wcnt = 0#3 ∧
        true ∉ (writing 0#8 0#3 [false, false, false, false, true]).env.draws.take 4) ∧
      ((bothHeld [1#8, 2#8, 3#8, 4#8]).rd.ropen = true ∧ (bothHeld [1#8, 2#8, 3#8, 4#8]).rd.rcnt = 0#4 ∧
        true ∉ (bothHeld [1#8, 2#8, 3#8, 4#8]).env.draws.take 4 ∧
        (bothHeld [1#8, 2#8, 3#8, 4#8]).srcLeft = [1#8, 2#8, 3#8, 4#8]) ∧
      ((writing 0#8 0#3 [true]).env.draws.take 1 = List.replicate 0 false ++ [true] ∧
        (writing 0#8 0#3 [false, false, false, true]).env.draws.take 4 = List.replicate 3 false ++ [true]) := by
  decide

theorem witness_FlushWritesPartialByte :
    (writing 5#8 3#3 []).reg.err = false ∧ State.reset.wr.wopen = false ∧
      ((writing 0#8 0#3 []).wr.wopen = true ∧ (writing 0#8 0#3 []).wr.wcnt = 0#3) ∧
      ((writing 1#8 1#3 []).wr.wcnt ≠ 0#3 ∧ (writing 1#8 7#3 [false]).env.draws.head? ≠ some true ∧
        (writing 1#8 7#3 [true]).env.draws.head? = some true) := by decide

theorem witness_BitsWrittenAreReadBack :
    ((writing 0#8 0#3 []).reg.err = false ∧ (writing 0#8 0#3 []).wr.wopen = true ∧ (writing 0#8 0#3 []).wr.wcnt = 0#3 ∧
      (writing 0#8 0#3 []).noFailure = true) ∧
    ((reading [0xC0#8] []).reg.err = false ∧ (reading [0xC0#8] []).rd.ropen = true ∧
      (reading [0xC0#8] []).rd.rcnt = 0#4 ∧ (reading [0xC0#8] []).noFailure = true ∧
      (reading [0xC0#8] []).srcLeft = packBits [true, true, false]) ∧ (reading [] []).srcLeft = packBits [] := by decide

theorem witness_QueueClearedAndReported :
    (queueOf [1#9, 0#9]).reg.err = false ∧ State.reset.reg.err = false ∧ State.reset.ctr.hsize = 0#9 := by decide

theorem witness_PqinsRefusesFullQueueThenOperand :
    State.reset.reg.err = false ∧ (queueOf (List.replicate 256 0#9)).ctr.hsize.toNat = 256 ∧
      ((queueOf (List.replicate 255 0#9)).ctr.hsize.toNat ≠ 256 ∧ 510 < (511#32 : HostWord).toNat) := by decide +kernel

/-- A queue of 255 items with node 510 written, so that the operand 510 can still be inserted. -/
def nearlyFull : State :=
  { queueOf (List.replicate 255 0#9) with
    tab := { (queueOf (List.replicate 255 0#9)).tab with node := [(0, leaf 0#8 5#40), (510, leaf 1#8 3#40)] } }

theorem witness_PqinsAddsOneOccurrence :
    nearlyFull.reg.err = false ∧ QueueOk nearlyFull ∧ nearlyFull.ctr.hsize.toNat < 256 ∧
      (510#32 : HostWord).toNat ≤ 510 ∧ (nearlyFull.tab.node.read 510).isSome = true ∧ nearlyFull.par.tie = .ref := by
  unfold QueueOk
  decide +kernel

theorem witness_PqdelminReturnsALightest :
    ((queueOf [0#9]).reg.err = false ∧ QueueOk (queueOf [0#9]) ∧ (queueOf [0#9]).ctr.hsize.toNat ≠ 0) ∧
      QueueOk (queueOf [1#9, 0#9, 1#9]) ∧ (queueOf [1#9, 0#9, 1#9]).ctr.hsize.toNat ≠ 0 ∧
      (queueOf [1#9, 0#9, 1#9]).par.tie = .ref := by
  unfold QueueOk
  decide +kernel

theorem witness_BuildtreeMakesTheTree :
    (counted [] State.reset).reg.err = false ∧ (counted [] State.reset).tab.freq.filled 256 = true ∧
      (presentPairs (counted [] State.reset).tab.freq).length = 0 ∧
      (presentPairs (counted [(255, 1#32)] State.reset).tab.freq).length = 1 ∧
      (presentPairs (counted [(0, 2#32), (255, 3#32)] State.reset).tab.freq).length = 2 := by decide +kernel

theorem witness_BuildtreeIsDeterministic :
    (counted [] State.reset).reg.err = false ∧ (counted [] (v1Tree State.reset)).reg.err = false ∧
      (counted [] State.reset).par.tie = (counted [] (v1Tree State.reset)).par.tie ∧
      (∀ i, i < 256 →
        (counted [] State.reset).tab.freq.read i = (counted [] (v1Tree State.reset)).tab.freq.read i) ∧
      ∃ t₁ t₂, exec .buildtree (counted [] State.reset) = .next t₁ ∧
        exec .buildtree (counted [] (v1Tree State.reset)) = .next t₂ :=
  ⟨rfl, rfl, rfl, fun _ _ => rfl, _, _, next_of_isSome (by decide +kernel), next_of_isSome (by decide +kernel)⟩

/-- Node 0 queued, its weight about to be rewritten by the host. -/
def rewriting : State := scripted (queueOf [0#9]) [.tblWrite .node 0 (Node.pack (leaf 0#8 6#40))]

theorem witness_UndefinedTableContentsStop :
    (State.reset.reg.err = false ∧ State.reset.tab.freq.filled 256 = false) ∧
      (rewriting.env.script = .tblWrite .node 0 (Node.pack (leaf 0#8 6#40)) :: [] ∧ rewriting.reg.err = false ∧
        rewriting.ctr.hsize ≠ 0#9 ∧ rewriting.queued 0 = true ∧
        rewriting.tab.node.read 0 = some (leaf 0#8 5#40) ∧
        (Node.unpack rewriting.par.wW (Node.pack (leaf 0#8 6#40))).weight ≠ (leaf 0#8 5#40).weight) := by
  decide +kernel

/-- A tree as deep as the rule allows: `n` internal nodes, node `i` + 1 having node `i` on its left. -/
def spine : Nat → HTree
  | 0 => .leaf 0#8
  | n + 1 => .node (spine n) (.leaf 0#8)

/-- The records of `spine 255`. -/
def spineNodes : Memory Node :=
  (0, leaf 0#8 0#40) :: (List.range 255).map fun i => (i + 1, inner 0#40 (BitVec.ofNat 9 i) 0#9)

theorem witness_BuildcodesAssignsPaths :
    (State.reset.reg.err = false ∧ State.reset.ctr.root = NONE) ∧
      (treeAt (smallTree State.reset).tab.node (.node (.leaf 65#8) (.leaf 66#8)) (smallTree State.reset).ctr.root =
        true ∧ (HTree.node (.leaf 65#8) (.leaf 66#8)).depth ≤ 255) ∧
      (treeAt v1Nodes (.leaf 65#8) 0#9 = true ∧ (HTree.leaf 65#8).depth ≤ 255) ∧
      (treeAt spineNodes (spine 255) 255#9 = true ∧ (spine 255).depth = 255) := by decide +kernel

/-- An internal root whose left link is `NONE`, both streams held, a zero bit to come. -/
def badRoot : State :=
  { bothHeld [0#8] with
    tab := { Tables.reset with node := [(0, inner 0#40 0x1FF#9 0#9)] }
    ctr := { Counters.reset with root := 0#9, osize := 1#32 } }

/-- A link that is `NONE` on the right, one level down, behind a leaf; the bits 0 1 1 lead there. -/
def badBelow : State :=
  { bothHeld [0x60#8] with
    tab := { Tables.reset with
      node := [(0, inner 0#40 1#9 2#9), (1, leaf 65#8 0#40), (2, inner 0#40 1#9 0x1FF#9)] }
    ctr := { Counters.reset with root := 0#9, osize := 2#32 } }

/-- `spine n` as links, with what lies to the right left open. -/
def spineLinks : Nat → LinkTree
  | 0 => .unexplored
  | n + 1 => .node (spineLinks n) .unexplored

/-- A record whose links both name itself, the cycle of V35. -/
def cycle : State :=
  { State.reset with
    tab := { Tables.reset with node := [(0, inner 0#40 0#9 0#9)] }
    ctr := { Counters.reset with root := 0#9 } }

theorem witness_BadLinkRaisesIllegalState :
    (badRoot.reg.err = false ∧ linksAt badRoot.tab.node (.node .missing .unexplored) badRoot.ctr.root = true ∧
      ((LinkTree.node .missing .unexplored).assign []).2 = .badLink ∧
      ((LinkTree.node .missing .unexplored).walk badRoot.readableBits (.node .missing .unexplored)
        badRoot.ctr.osize.toNat).2.2 = .badLink) ∧
    (linksAt badBelow.tab.node (.node (.leaf 65#8) (.node (.leaf 65#8) .missing)) badBelow.ctr.root = true ∧
      (LinkTree.node (.leaf 65#8) (.node (.leaf 65#8) .missing)).assign [] =
        ([(65#8, [false]), (65#8, [true, false])], .badLink) ∧
      (badBelow.rd.ropen = true ∧ badBelow.wr.wopen = true ∧ badBelow.wr.wcnt = 0#3 ∧ badBelow.noFailure = true) ∧
      (LinkTree.node (.leaf 65#8) (.node (.leaf 65#8) .missing)).walk badBelow.readableBits
        (.node (.leaf 65#8) (.node (.leaf 65#8) .missing)) badBelow.ctr.osize.toNat =
        ([65#8], [false, false, false, false, false], .badLink)) ∧
    (linksAt cycle.tab.node (spineLinks 256) cycle.ctr.root = true ∧
      ((spineLinks 256).assign []).2 = .badLink) := by decide +kernel

theorem witness_BuiltCodesArePrefixFree :
    (counted v1Counts State.reset).reg.err = false ∧ (counted v1Counts State.reset).tab.freq.filled 256 = true ∧
      2 ≤ (presentPairs (counted v1Counts State.reset).tab.freq).length := by decide +kernel

/-- A header with the greatest size and counts that nine bits hold. -/
def narrow : State :=
  { reading (headerText 511 [(0, 0#32), (255, 511#32), (255, 1#32)] ++ [0x40#8]) [] with
    par := { cntW := 9, inbufCap := 511, tie := .ref } }

theorem witness_BuiltCodesAreOptimal :
    (smallTree (counted [(0, 2#32), (255, 3#32)] State.reset)).tab.freq.filled 256 = true ∧
      2 ≤ (presentPairs (counted [(0, 2#32), (255, 3#32)] State.reset).tab.freq).length ∧
      (∀ d ∈ [0, 255], ∀ e ∈ [0, 255], d ≠ e →
        (if d = 0 then [true] else [false]).isPrefixOf (if e = 0 then [true] else [false]) = false) := by
  decide +kernel

theorem witness_ParsehdrReadsAnEmittedHeader :
    narrow.reg.err = false ∧ narrow.rd.ropen = true ∧ narrow.rd.rcnt = 0#4 ∧ narrow.noFailure = true ∧
      narrow.par.wf = true ∧ 511 ≤ narrow.par.maxCount ∧ [(0, 0#32), (255, 511#32), (255, 1#32)].length ≤ narrow.par.maxCount ∧
      (∀ e ∈ [(0, 0#32), (255, 511#32), (255, 1#32)], e.1 ≤ 255 ∧ e.2.toNat ≤ narrow.par.maxCount) ∧
      narrow.srcLeft = headerText 511 [(0, 0#32), (255, 511#32), (255, 1#32)] ++ [0x40#8] := by decide +kernel

theorem witness_ParsehdrRefusedOrAtEndOfSource :
    (reading [] []).reg.err = false ∧ (State.reset.rd.ropen = false ∧ (midByte 0#8 1#4).rd.rcnt ≠ 0#4) ∧
      ((reading [] []).rd.ropen = true ∧ (reading [] []).rd.rcnt = 0#4 ∧ (reading [] []).env.draws.head? ≠ some true ∧
        (reading [] []).srcLeft = []) := by decide

/-- Lines that a parse goes past: blank, a keyword, and two pairs for one symbol. -/
def goodLines : List (List Byte) := [[], ascii "SYMBOLS=1", ascii "065 9", ascii "65 5"]

theorem witness_ParsehdrFollowsTheLines :
    passedOver State.reset.par.maxCount goodLines ∧
    (∀ last ∈ [ascii "END_HEADER", ascii "65", ascii "65 1", []], newline ∉ last) ∧
    (lineMeaning State.reset.par.maxCount (ascii "END_HEADER") = .sentinel ∧
      lineMeaning State.reset.par.maxCount (ascii "65") = .bad ∧
      lineMeaning State.reset.par.maxCount (ascii "65 1") = .count 65 1 ∧
      lineMeaning State.reset.par.maxCount [] = .nothing) ∧
    ((reading (joinLines (goodLines ++ [ascii "65"]) ++ [0x41#8]) []).reg.err = false ∧
      (reading (joinLines (goodLines ++ [ascii "65"]) ++ [0x41#8]) []).rd.ropen = true ∧
      (reading (joinLines (goodLines ++ [ascii "65"]) ++ [0x41#8]) []).rd.rcnt = 0#4 ∧
      (reading (joinLines (goodLines ++ [ascii "65"]) ++ [0x41#8]) []).srcLeft =
        joinLines (goodLines ++ [ascii "65"]) ++ [0x41#8] ∧
      true ∉ (reading [] [false, false, true]).env.draws.take 2) ∧
    ((reading (joinLines goodLines ++ ascii "65 1") []).srcLeft = joinLines goodLines ++ ascii "65 1" ∧
      (reading [] []).srcLeft = joinLines [] ++ []) ∧
    ((reading [0x36#8] [false, true]).srcLeft = joinLines [] ++ ascii "6" ++ [] ∧
      (reading [0x36#8] [false, true]).env.draws.take 2 = List.replicate 1 false ++ [true]) := by
  unfold passedOver
  decide +kernel

theorem witness_WalkWithoutTreeOrWithOneLeaf :
    (bothHeld []).reg.err = false ∧
      (State.reset.rd.ropen = false ∧ (reading [] []).wr.wopen = false ∧ (writing 1#8 1#3 []).wr.wcnt ≠ 0#3) ∧
      ((bothHeld []).rd.ropen = true ∧ (bothHeld []).wr.wopen = true ∧ (bothHeld []).wr.wcnt = 0#3 ∧
        (bothHeld []).ctr.root = NONE) ∧
      (treeAt (smallTree (bothHeld [])).tab.node (.leaf 65#8) 0#9 = true ∧ (bothHeld []).noFailure = true) := by
  decide +kernel

theorem witness_WalkDecodesTheBits :
    (smallTree (bothHeld [0x40#8])).reg.err = false ∧ (smallTree (bothHeld [0x40#8])).rd.ropen = true ∧
      (smallTree (bothHeld [0x40#8])).wr.wopen = true ∧ (smallTree (bothHeld [0x40#8])).wr.wcnt = 0#3 ∧
      (smallTree (bothHeld [0x40#8])).noFailure = true ∧
      treeAt (smallTree (bothHeld [0x40#8])).tab.node (.node (.leaf 65#8) (.leaf 66#8)) 2#9 = true ∧
      (smallTree (bothHeld [0x40#8])).ctr.root = 2#9 := by decide +kernel

/-- Whether every operation of a list answers a next state and the last leaves no error. -/
def chainRuns : List Instr → State → Bool
  | [], s => !s.reg.err
  | i :: is, s => (next? (exec i s)).isSome && chainRuns is (nextOr (exec i s))

theorem witness_WalkCountsWhatItWrites :
    (smallTree (bothHeld [0x40#8])).reg.err = false ∧ (smallTree (bothHeld [0x40#8])).canWalk = true ∧
      ((∃ t, exec .walk (smallTree (bothHeld [0x40#8])) = .next t) ∧
        treeAt (smallTree (bothHeld [])).tab.node (.node (.leaf 65#8) (.leaf 66#8)) (smallTree (bothHeld [])).ctr.root =
          true) ∧
      (bothHeld []).ctr.root = NONE ∧ treeAt v1Nodes (.leaf 65#8) 0#9 = true ∧
      (badBelow.canWalk = true ∧
        linksAt badBelow.tab.node (.node (.leaf 65#8) (.node (.leaf 65#8) .missing)) badBelow.ctr.root = true ∧
        ((LinkTree.node (.leaf 65#8) (.node (.leaf 65#8) .missing)).walk badBelow.readableBits
          (.node (.leaf 65#8) (.node (.leaf 65#8) .missing)) badBelow.ctr.osize.toNat).2.2 ≠ .unknown) :=
  ⟨rfl, rfl, ⟨exists_next (by decide +kernel), by decide +kernel⟩, by decide +kernel⟩

theorem witness_CompositesAreTheirParts :
    (∃ t₁ t₂ t₃ t₄ t₅ t₆ t₇, (presented (v4Header ++ [0x40#8])).idle = true ∧
      exec .ropen (presented (v4Header ++ [0x40#8])) = .next t₁ ∧ exec .wopen t₁ = .next t₂ ∧
      exec .parsehdr t₂ = .next t₃ ∧ exec .buildtree t₃ = .next t₄ ∧ exec .walk t₄ = .next t₅ ∧
      exec .wclose t₅ = .next t₆ ∧ exec .rclose t₆ = .next t₇ ∧ t₇.reg.err = false) ∧
    ∃ t₁ t₂ t₃ t₄ t₅ t₆ t₇ t₈ t₉, (presented [0x41#8, 0x42#8]).idle = true ∧
      exec .ropen (presented [0x41#8, 0x42#8]) = .next t₁ ∧ exec .countfreq t₁ = .next t₂ ∧
      exec .rclose t₂ = .next t₃ ∧ exec .buildtree t₃ = .next t₄ ∧ exec .buildcodes t₄ = .next t₅ ∧
      exec .wopen t₅ = .next t₆ ∧ exec .wrhdr t₆ = .next t₇ ∧ exec .encode t₇ = .next t₈ ∧
      exec .wclose t₈ = .next t₉ ∧ t₉.reg.err = false := by
  have hd : chainRuns [.ropen, .wopen, .parsehdr, .buildtree, .walk, .wclose, .rclose]
      (presented (v4Header ++ [0x40#8])) = true := by decide +kernel
  have hc : chainRuns [.ropen, .countfreq, .rclose, .buildtree, .buildcodes, .wopen, .wrhdr, .encode, .wclose]
      (presented [0x41#8, 0x42#8]) = true := by decide +kernel
  simp only [chainRuns, Bool.and_eq_true, Bool.not_eq_true'] at hd hc
  obtain ⟨d1, d2, d3, d4, d5, d6, d7, d8⟩ := hd
  obtain ⟨c1, c2, c3, c4, c5, c6, c7, c8, c9, c10⟩ := hc
  exact ⟨⟨_, _, _, _, _, _, _, rfl, next_of_isSome d1, next_of_isSome d2, next_of_isSome d3, next_of_isSome d4,
      next_of_isSome d5, next_of_isSome d6, next_of_isSome d7, d8⟩,
    _, _, _, _, _, _, _, _, _, rfl, next_of_isSome c1, next_of_isSome c2, next_of_isSome c3, next_of_isSome c4,
      next_of_isSome c5, next_of_isSome c6, next_of_isSome c7, next_of_isSome c8, next_of_isSome c9, c10⟩

theorem witness_HeaderErrorsAbortBeforePayload :
    ((presented []).idle = true ∧ view (fun t => (t.reg.errcode, t.reg.err)) (exec .decompress (presented [])) =
      some (2#4, true)) ∧
    ((presented [0x78#8]).idle = true ∧
      view (fun t => (t.reg.errcode, t.reg.err)) (exec .decompress (presented [0x78#8])) = some (3#4, true)) := by
  decide +kernel

/-- A block with room for two input bytes. -/
def roomForTwo (bytes : List Byte) : State :=
  { reading bytes [] with par := { cntW := 9, inbufCap := 2, tie := .ref } }

theorem witness_CountfreqKeepsAndCountsTheInput :
    (roomForTwo [1#8, 2#8]).reg.err = false ∧ (State.reset.rd.ropen = false ∧ (midByte 0#8 1#4).rd.rcnt ≠ 0#4) ∧
      ((roomForTwo [1#8, 2#8]).rd.ropen = true ∧ (roomForTwo [1#8, 2#8]).rd.rcnt = 0#4 ∧
        (roomForTwo [1#8, 2#8]).noFailure = true ∧ (roomForTwo [1#8, 2#8]).par.wf = true ∧
        (roomForTwo [1#8, 2#8]).srcLeft.length ≤ (roomForTwo [1#8, 2#8]).par.inbufCap ∧
        (roomForTwo [1#8, 2#8, 3#8]).par.inbufCap < (roomForTwo [1#8, 2#8, 3#8]).srcLeft.length) := by decide

theorem witness_WrhdrEmitsTheHeader :
    (counted v1Counts (writing 0#8 0#3 [])).reg.err = false ∧ (writing 1#8 1#3 []).wr.wcnt ≠ 0#3 ∧
      ((counted v1Counts (writing 0#8 0#3 [])).wr.wopen = true ∧ (counted v1Counts (writing 0#8 0#3 [])).wr.wcnt = 0#3 ∧
        (counted v1Counts (writing 0#8 0#3 [])).noFailure = true ∧
        (counted v1Counts (writing 0#8 0#3 [])).tab.freq.filled 256 = true) := by decide +kernel

/-- Two input bytes kept, the first with the code given. -/
def encoding (c : Code) : State :=
  { writing 1#8 1#3 [] with
    tab := { Tables.reset with code := [(65, c), (66, [true])], inbuf := [(0, 65#8), (1, 66#8)] }
    ctr := { Counters.reset with inlen := 2#32 } }

/-- Two input bytes kept, the second without a code. -/
def noCodeForB : State :=
  { encoding [] with tab := { (encoding []).tab with code := [(65, List.replicate 9 true), (66, [])] } }

theorem witness_EncodeEmitsThePayload :
    (encoding [false]).reg.err = false ∧ (encoding [false]).wr.wopen = true ∧ (encoding [false]).noFailure = true ∧
      [65#8, 66#8].length = (encoding [false]).ctr.inlen.toNat ∧ bufferHolds (encoding [false]).tab.inbuf [65#8, 66#8] ∧
      (∀ b ∈ [65#8, 66#8], (encoding [false]).tab.code.read b.toNat = some (if b = 65#8 then [false] else [true]) ∧
        (if b = 65#8 then [false] else [true]) ≠ []) ∧
      (encoding []).tab.code.read (65#8 : Byte).toNat = some [] ∧ State.reset.wr.wopen = false ∧
      ((noCodeForB.wr.wopen = true ∧ noCodeForB.noFailure = true ∧ noCodeForB.ctr.inlen = 2#32 ∧
        bufferHolds noCodeForB.tab.inbuf [65#8, 66#8]) ∧ [65#8, 66#8] = [65#8] ++ 66#8 :: [] ∧
        (∀ c ∈ [65#8], noCodeForB.tab.code.read c.toNat = some (List.replicate 9 true) ∧
          List.replicate 9 true ≠ []) ∧
        noCodeForB.tab.code.read (66#8 : Byte).toNat = some []) := by
  unfold bufferHolds
  decide +kernel

theorem witness_EmptyInputRoundTrips :
    (presented []).idle = true ∧ (presented []).noFailure = true ∧ (presented []).par.wf = true ∧
      (presented []).srcLeft = [] ∧ (presented (headerText 0 [])).srcLeft = headerText 0 [] := by decide +kernel

/-- Room for one input byte, which is presented. -/
def oneByte : State := { presented [0x5A#8] with par := { cntW := 9, inbufCap := 1, tie := .ref } }

/-- The block that decodes: no input buffer to speak of, the narrowest counts. -/
def decoder (artifact : List Byte) : State :=
  { presented artifact with par := { cntW := 9, inbufCap := 1, tie := .ref } }

theorem witness_DecompressUndoesCompress :
    oneByte.idle = true ∧ oneByte.noFailure = true ∧ oneByte.par.wf = true ∧ oneByte.srcLeft = [0x5A#8] ∧
      [0x5A#8].length ≤ oneByte.par.inbufCap ∧
      ∃ t, exec .compress oneByte = .next t ∧ (decoder t.env.snk).idle = true ∧ (decoder t.env.snk).noFailure = true ∧
        (decoder t.env.snk).par.wf = true ∧ (decoder t.env.snk).par.tie = oneByte.par.tie ∧
        [0x5A#8].length ≤ (decoder t.env.snk).par.maxCount ∧ (decoder t.env.snk).srcLeft = t.env.snk := by
  refine ⟨by decide, by decide, by decide, by decide, by decide, ?_⟩
  obtain ⟨t, ht⟩ := exists_next (o := exec .compress oneByte) (by decide +kernel)
  exact ⟨t, ht, rfl, rfl, rfl, rfl, (by decide : 1 ≤ 511), by simp [decoder, presented, State.srcLeft, Env.reset]⟩

/-- Whether the first operations of a list leave no error and the next one does. -/
def firstErrorAt (before : List Instr) (i : Instr) (s : State) : Bool :=
  (next? (execAll before s)).any fun u => !u.reg.err && (next? (exec i u)).any fun v => v.reg.err

/-- What a first error found that way is. -/
theorem firstErrorAt_states {before : List Instr} {i : Instr} {s : State} (h : firstErrorAt before i s = true) :
    ∃ u v, execAll before s = .next u ∧ u.reg.err = false ∧ exec i u = .next v ∧ v.reg.err = true := by
  unfold firstErrorAt at h
  cases ho : execAll before s with
  | next u =>
    cases hi : exec i u with
    | next v => exact ⟨u, v, rfl, by simpa [ho, hi, next?] using h⟩
    | fault r => simp [ho, hi, next?] at h
    | refused r => simp [ho, hi, next?] at h
  | fault r => simp [ho, next?] at h
  | refused r => simp [ho, next?] at h

theorem witness_CompositesReleaseTheStreams :
    ((State.reset.reg.err = false ∧ State.reset.idle = true ∧ ∃ t, exec .decompress State.reset = .next t) ∧
      ((reading [] []).reg.err = false ∧ (reading [] []).idle = false ∧
        ∃ t, exec .compress (reading [] []) = .next t)) ∧
    ((presented [0x78#8]).idle = true ∧
      [Instr.ropen, .wopen] ++ .parsehdr :: [.buildtree, .walk, .wclose, .rclose] =
        [.ropen, .wopen, .parsehdr, .buildtree, .walk, .wclose, .rclose] ∧
      ∃ u v, execAll [.ropen, .wopen] (presented [0x78#8]) = .next u ∧ u.reg.err = false ∧
        exec .parsehdr u = .next v ∧ v.reg.err = true) ∧
    ∃ u v, execAll [] { presented [] with env := { Env.reset with draws := [true] } } = .next u ∧ u.reg.err = false ∧
      exec .ropen u = .next v ∧ v.reg.err = true :=
  ⟨⟨⟨rfl, rfl, exists_next (by decide +kernel)⟩, rfl, rfl, exists_next (by decide +kernel)⟩,
    ⟨rfl, rfl, firstErrorAt_states (by decide +kernel)⟩, firstErrorAt_states (by decide)⟩

theorem witness_DecompressIgnoresEarlierState :
    (presented v4Header).idle = true ∧ (v1Tree (presented v4Header)).idle = true ∧
      presented v4Header ≠ v1Tree (presented v4Header) ∧
      (presented v4Header).par = (v1Tree (presented v4Header)).par ∧
      (presented v4Header).env = (v1Tree (presented v4Header)).env ∧
      (presented v4Header).reg.errcode = (v1Tree (presented v4Header)).reg.errcode := by decide +kernel

theorem witness_CompressAlwaysCompletes : (v1Tree State.reset).idle = true ∧ (v1Tree State.reset).par.wf = true := by
  decide

theorem witness_OperationsRaiseOnlyTheirErrors :
    State.reset.reg.err = false ∧ view (·.reg.err) (exec (.wrbit 2#32) (writing 0#8 0#3 [])) = some true := by decide

theorem witness_OperationsOnlyAppendToSink :
    ∃ t, exec (.wrbyte 0x41#32) (writing 0#8 0#3 []) = .next t := exists_next (by decide)

theorem witness_OnlyListedOperationsWriteResultAndFlags :
    (∃ t, exec .rdbit (reading [] []) = .next t) ∧ view (·.reg.eos) (exec .rdbit (reading [] [])) = some true ∧
      view (·.reg.empty) (exec .pqdelmin State.reset) = some true ∧ Instr.rdbit ≠ .sreset ∧ Instr.rdbit ≠ .nop ∧
      Instr.flush ∉ [Instr.rdbit, .rdbyte, .rdint, .pqdelmin, .pqsize, .pqempty, .buildtree, .walk, .decompress,
        .compress] :=
  ⟨exists_next (by decide), by decide⟩

theorem witness_ReaderOperationsFrame :
    (∃ t, exec .ropen State.reset = .next t) ∧ (∃ t, exec .rdint (reading [1#8] []) = .next t) :=
  ⟨exists_next (by decide), exists_next (by decide)⟩

theorem witness_WriterOperationsFrame :
    (∃ t, exec (.wrbit 1#32) (writing 0x7F#8 7#3 []) = .next t) ∧
      (∃ t, exec (.wrint 1#32) (writing 0#8 0#3 [false, true]) = .next t) :=
  ⟨exists_next (by decide), exists_next (by decide)⟩

theorem witness_QueueOperationsFrame :
    (∃ t, exec (.pqins 1#32) (queueOf [0#9]) = .next t) ∧ (∃ t, exec .pqdelmin (queueOf [1#9, 0#9]) = .next t) :=
  ⟨exists_next (by decide), exists_next (by decide)⟩

theorem witness_CodecPartsFrame :
    (∃ t, exec .buildtree (counted [(65, 1#32)] State.reset) = .next t) ∧
      (∃ t, exec .buildcodes (smallTree State.reset) = .next t) ∧
      (∃ t, exec .parsehdr (reading [] []) = .next t) ∧
      (∃ t, exec .walk (smallTree (bothHeld [0x40#8])) = .next t) ∧
      (∃ t, exec .countfreq (reading [1#8] []) = .next t) ∧
      (∃ t, exec .wrhdr (counted [] (writing 0#8 0#3 [])) = .next t) ∧
      (∃ t, exec .encode (encoding [false]) = .next t) ∧
      (∃ t, exec .decompress (presented []) = .next t) ∧ ∃ t, exec .compress (presented []) = .next t := by
  refine ⟨?_, ?_, ?_, ?_, ?_, ?_, ?_, ?_, ?_⟩ <;> exact exists_next (by decide +kernel)

theorem witness_HostReadsRegisters :
    (waiting [.regRead 0]).env.script = .regRead 0 :: [] ∧ (waiting [.regRead 15]).env.script = .regRead 15 :: [] ∧
      (waiting [.regRead 16]).env.script = .regRead 16 :: [] ∧ 15 < 16 := by decide

theorem witness_HostWritesRegisters :
    (∀ s ∈ [State.reset, raiseError .parseError State.reset],
      (scripted s [.regWrite 8 512#32]).env.script = .regWrite 8 512#32 :: []) ∧
      ¬ (512#32 : HostWord).toNat ≤ 511 ∧ (511#32 : HostWord).toNat ≤ 511 ∧
      (65536#32 : HostWord).toNat ≤ State.reset.par.inbufCap ∧ ¬ (65537#32 : HostWord).toNat ≤ State.reset.par.inbufCap ∧
      (∀ idx ∈ [2, 3, 4, 7, 9, 10, 12, 13, 14, 15, 16], idx ∉ [0, 1, 5, 6, 8, 11]) := by decide

theorem witness_PackedEntriesRoundTrip :
    (9 + 8 ≤ 40 ∧ (leaf 255#8 0x1FFFF#40).weight.toNat < 2 ^ 17) ∧
      (40 ≤ 40 ∧ (leaf 255#8 0xFFFFFFFFFF#40).weight.toNat < 2 ^ 40) ∧ (List.replicate 255 true).length ≤ 255 := by
  decide +kernel

theorem witness_HostReadsBackTableWrites :
    (∀ sp ∈ [Space.freq, .node, .heap, .code, .inbuf],
      (waiting [.tblWrite sp 0 5#263, .tblRead sp 0]).env.script = .tblWrite sp 0 5#263 :: .tblRead sp 0 :: [] ∧
        State.reset.par.wf = true ∧ 0 < tableSize State.reset.par sp ∧
        (∀ id ∈ queuedIds State.reset, id.toNat ≠ 0) ∧
        (scripted (raiseError .parseError State.reset) [.tblWrite sp 65536 5#263]).env.script =
          .tblWrite sp 65536 5#263 :: [] ∧
        (waiting [.tblRead sp 65536]).env.script = .tblRead sp 65536 :: [] ∧
        tableSize State.reset.par sp ≤ 65536) ∧
    (255 < tableSize State.reset.par .freq ∧ 510 < tableSize State.reset.par .node ∧
      255 < tableSize State.reset.par .heap ∧ 255 < tableSize State.reset.par .code ∧
      65535 < tableSize State.reset.par .inbuf) ∧
    ((counted [] State.reset).tab.freq.read 255 = some 0#32 ∧ v1Nodes.read 6 = some (inner 10#40 0#9 5#9) ∧
      (queueOf [1#9]).tab.heap.read 0 = some 1#9 ∧ (encoding [true]).tab.code.read 65 = some [true] ∧
      [true].length ≤ 255 ∧ (encoding [true]).tab.inbuf.read 1 = some 66#8 ∧
      (State.reset.tab.freq.read 0).isNone = true ∧ (State.reset.tab.inbuf.read 65535).isNone = true) := by
  decide +kernel

theorem witness_EveryStepKeepsTheInvariant :
    Inv (waiting [.command 0x1000000000#40]) ∧ ∃ t, step (waiting [.command 0x1000000000#40]) = .next t := by
  refine ⟨?_, exists_next (by decide)⟩
  constructor <;> decide

theorem witness_EveryStepKeepsTablesCanonical :
    (scripted (v1Tree State.reset) [.tblWrite .node 510 1#263]).tab.freq.wf = true ∧
      (scripted (v1Tree State.reset) [.tblWrite .node 510 1#263]).tab.node.wf = true ∧
      (scripted (v1Tree State.reset) [.tblWrite .node 510 1#263]).tab.heap.wf = true ∧
      (scripted (v1Tree State.reset) [.tblWrite .node 510 1#263]).tab.code.wf = true ∧
      (scripted (v1Tree State.reset) [.tblWrite .node 510 1#263]).tab.inbuf.wf = true ∧
      ∃ t, step (scripted (v1Tree State.reset) [.tblWrite .node 510 1#263]) = .next t := by
  refine ⟨?_, ?_, ?_, ?_, ?_, exists_next (by decide)⟩ <;> decide

end Sys2Proof.Tests
end

section
/-! PROOFS. The invariant of the machine cut into its groups of registers: what each group has to meet, that this is
the invariant but for `CMD`, and what every update of a group needs to keep it. -/

namespace Sys2Proof.Config

/-! ### Parameters -/

/-- The constraints of R5 and R9, as arithmetic. -/
theorem Params.wf_iff (p : Params) :
    p.wf = true ↔ 9 ≤ p.cntW ∧ p.cntW ≤ 32 ∧ 1 ≤ p.inbufCap ∧ p.inbufCap ≤ p.maxCount := by
  simp [Params.wf, and_assoc]

/-- A value fits the counts exactly when it is below 2^`CNT_W` (R9). -/
theorem Params.le_maxCount_iff (p : Params) (v : Nat) : v ≤ p.maxCount ↔ v < 2 ^ p.cntW := by
  have : 0 < 2 ^ p.cntW := by positivity
  unfold Params.maxCount
  omega

/-- The number of symbols fits the counts (R5). -/
theorem Params.symbolCount_le_maxCount {p : Params} (h : p.wf = true) : symbolCount ≤ p.maxCount := by
  obtain ⟨h9, -⟩ := (Params.wf_iff p).1 h
  rw [Params.le_maxCount_iff]
  exact lt_of_lt_of_le (by decide : symbolCount < 2 ^ 9) (Nat.pow_le_pow_right (by decide) h9)

/-- The weights have eight bits more than the counts: 256 counts add up without overflow (R6). -/
theorem Params.symbolCount_mul_maxCount_lt (p : Params) : symbolCount * p.maxCount < 2 ^ p.wW := by
  have : 0 < 2 ^ p.cntW := by positivity
  unfold Params.maxCount Params.wW symbolCount
  rw [Nat.pow_add]
  omega

/-- A count fits a weight (R6). -/
theorem Params.maxCount_lt (p : Params) : p.maxCount < 2 ^ p.wW := by
  have := p.symbolCount_mul_maxCount_lt
  unfold symbolCount at this
  omega

end Sys2Proof.Config

namespace Sys2Proof.Machine

/-! ### Values written to a count -/

/-- A value that fits a count stays a count's value in its container of 32 bits (R5). -/
theorem toNat_ofNat_le {w v n : Nat} (h : v ≤ n) : (BitVec.ofNat w v).toNat ≤ n := by
  rw [BitVec.toNat_ofNat]
  exact (Nat.mod_le _ _).trans h

/-- What the host writes to a count fits it (R38, R70). -/
theorem lowCount_le (p : Config.Params) (v : Nat) : (lowCount p v).toNat ≤ p.maxCount :=
  toNat_ofNat_le ((p.le_maxCount_iff _).2 (Nat.mod_lt _ (by positivity)))

/-! ### The groups -/

/-- In canonical form and within a size (R60). -/
def Memory.Form {α : Type} (m : Memory α) (n : Nat) : Prop := m.wf = true ∧ m.within n = true

/-- What the invariant says of the tables. -/
structure TablesFit (p : Config.Params) (x : Tables) : Prop where
  freqForm : x.freq.Form Config.symbolCount
  nodeForm : x.node.Form Config.nodeCap
  heapForm : x.heap.Form Config.pqCap
  codeForm : x.code.Form Config.symbolCount
  inbufForm : x.inbuf.Form p.inbufCap
  freqFits : ∀ e ∈ x.freq, e.2.toNat ≤ p.maxCount
  weightFits : ∀ e ∈ x.node, e.2.weight.toNat < 2 ^ p.wW
  codeFits : ∀ e ∈ x.code, e.2.length ≤ 255

/-- What the invariant says of the counters and pointers. -/
structure CountersFit (p : Config.Params) (x : Counters) : Prop where
  osizeFits : x.osize.toNat ≤ p.maxCount
  nsymFits : x.nsym.toNat ≤ p.maxCount
  decodedFits : x.decoded.toNat ≤ p.maxCount
  inlenFits : x.inlen.toNat ≤ p.inbufCap
  hsizeRange : x.hsize.toNat ≤ Config.pqCap
  nnodesRange : x.nnodes.toNat ≤ Config.nodeCap

/-- What the invariant says of the bit reader (R21). -/
structure ReaderFit (x : Reader) : Prop where
  rcntRange : x.rcnt.toNat ≤ 8
  closed : x.ropen = false → x.rcnt = 0#4 ∧ x.rbuf = 0#8

/-- What the invariant says of the bit writer (R22). -/
structure WriterFit (x : Writer) : Prop where
  wbufRange : x.wbuf.toNat < 2 ^ x.wcnt.toNat
  closed : x.wopen = false → x.wcnt = 0#3

/-- What the invariant says of the error state (R37). -/
structure RegsFit (x : Regs) : Prop where
  errorShown : x.err = false ↔ x.errcode = 0#4
  errcodeRange : x.errcode.toNat ≤ 6

/-- What the invariant says of the environment (R61). -/
def EnvFit (x : Env) : Prop := x.srcPos ≤ x.src.length

/-- The invariant but for `CMD`, which holds its code while an operation runs: what every piece of an operation's
pseudocode keeps. -/
structure InvInside (s : State) : Prop where
  params : s.par.wf = true
  tab : TablesFit s.par s.tab
  ctr : CountersFit s.par s.ctr
  heapFilled : s.tab.heap.filled s.ctr.hsize.toNat = true
  rd : ReaderFit s.rd
  wr : WriterFit s.wr
  reg : RegsFit s.reg
  env : EnvFit s.env

/-- The invariant is `InvInside` and an empty `CMD`. -/
theorem inv_iff (s : State) : Inv s ↔ InvInside s ∧ s.reg.cmd = 0#8 := by
  constructor
  · intro h
    exact ⟨{ params := h.params
             tab := ⟨h.freqForm, h.nodeForm, h.heapForm, h.codeForm, h.inbufForm, h.freqFits, h.weightFits, h.codeFits⟩
             ctr := ⟨h.osizeFits, h.nsymFits, h.decodedFits, h.inlenFits, h.hsizeRange, h.nnodesRange⟩
             heapFilled := h.heapFilled
             rd := ⟨h.rcntRange, h.readerClosed⟩
             wr := ⟨h.wbufRange, h.writerClosed⟩
             reg := ⟨h.errorShown, h.errcodeRange⟩
             env := h.srcInside }, h.cmdClear⟩
  · rintro ⟨⟨params, tab, ctr, heapFilled, rd, wr, reg, env⟩, cmdClear⟩
    exact { tab, ctr, rd, wr, reg with
            params, heapFilled, cmdClear, readerClosed := rd.closed, writerClosed := wr.closed, srcInside := env }

/-! ### Updates of a group -/

section Updates
variable {s : State}

theorem InvInside.setRd {x : Reader} (h : InvInside s) (hx : ReaderFit x) : InvInside (s.setRd x) := { h with rd := hx }

theorem InvInside.setWr {x : Writer} (h : InvInside s) (hx : WriterFit x) : InvInside (s.setWr x) := { h with wr := hx }

theorem InvInside.setReg {x : Regs} (h : InvInside s) (hx : RegsFit x) : InvInside (s.setReg x) := { h with reg := hx }

theorem InvInside.setEnv {x : Env} (h : InvInside s) (hx : EnvFit x) : InvInside (s.setEnv x) := { h with env := hx }

theorem InvInside.setPq (x : QueueLog) (h : InvInside s) : InvInside (s.setPq x) := { h with }

/-- An update of the tables that leaves no queued slot unwritten. -/
theorem InvInside.setTab {x : Tables} (h : InvInside s) (hx : TablesFit s.par x)
    (hq : x.heap.filled s.ctr.hsize.toNat = true) : InvInside (s.setTab x) := { h with tab := hx, heapFilled := hq }

/-- An update of the counters that leaves the queue's size. -/
theorem InvInside.setCtr {x : Counters} (h : InvInside s) (hx : CountersFit s.par x) (hq : x.hsize = s.ctr.hsize) :
    InvInside (s.setCtr x) := { h with ctr := hx, heapFilled := by simpa [hq] using h.heapFilled }

/-- An update of the host registers that leaves the error state. -/
theorem InvInside.setRegSame {x : Regs} (h : InvInside s) (he : x.err = s.reg.err) (hc : x.errcode = s.reg.errcode) :
    InvInside (s.setReg x) :=
  h.setReg ⟨by rw [he, hc]; exact h.reg.errorShown, by rw [hc]; exact h.reg.errcodeRange⟩

theorem InvInside.setResult (v : HostWord) (h : InvInside s) : InvInside (s.setResult v) := h.setRegSame rfl rfl

theorem InvInside.setArg (v : HostWord) (h : InvInside s) : InvInside (s.setArg v) := h.setRegSame rfl rfl

theorem InvInside.setCmd (v : BitVec 8) (h : InvInside s) : InvInside (s.setCmd v) := h.setRegSame rfl rfl

theorem InvInside.clearResultFlags (h : InvInside s) : InvInside (clearResultFlags s) := h.setRegSame rfl rfl

theorem InvInside.setEos (h : InvInside s) : InvInside (setEos s) := h.setRegSame rfl rfl

theorem InvInside.eosSentinel (h : InvInside s) : InvInside (eosSentinel s) := h.setRegSame rfl rfl

theorem InvInside.emptySentinel (h : InvInside s) : InvInside (emptySentinel s) := h.setRegSame rfl rfl

/-- A code of R260 is not that of no error. -/
theorem ErrCode.code_ne_zero (e : ErrCode) : e.code ≠ 0#4 := by cases e <;> decide

theorem ErrCode.code_le (e : ErrCode) : e.code.toNat ≤ 6 := by cases e <;> decide

theorem InvInside.raiseError (e : ErrCode) (h : InvInside s) : InvInside (raiseError e s) :=
  h.setReg ⟨by simp [e.code_ne_zero], e.code_le⟩

theorem InvInside.acknowledge (h : InvInside s) : InvInside (acknowledge s) := h.setReg ⟨by simp, by simp⟩

theorem InvInside.accessError (e : ErrCode) (h : InvInside s) : InvInside (accessError e s) := by
  unfold Machine.accessError
  split
  · exact h
  · exact h.raiseError e

end Updates

/-! ### Resets -/

theorem RegsFit.reset : RegsFit .reset := ⟨by decide, by decide⟩

theorem ReaderFit.emptied (b : Bool) : ReaderFit { rbuf := 0#8, rcnt := 0#4, ropen := b } := ⟨by simp, by simp⟩

theorem WriterFit.emptied (b : Bool) (c : BitVec 64) : WriterFit { wbuf := 0#8, wcnt := 0#3, wopen := b, snkCnt := c } :=
  ⟨by simp, by simp⟩

theorem CountersFit.reset (p : Config.Params) : CountersFit p .reset := by
  constructor <;> simp [Counters.reset]

theorem TablesFit.reset (p : Config.Params) : TablesFit p .reset := by
  constructor <;> simp [Tables.reset, Memory.Form, Memory.wf, Memory.within]

/-- A reset that leaves tables that fit (R40, R290, R291). -/
theorem InvInside.hardReset_setTab {s : State} {x : Tables} (h : InvInside s) (hx : TablesFit s.par x) :
    InvInside ((hardReset s).setTab x) where
  params := h.params
  tab := hx
  ctr := .reset _
  heapFilled := by simp [Counters.reset, Memory.filled]
  rd := .emptied _
  wr := .emptied _ _
  reg := .reset
  env := h.env

theorem InvInside.softReset {s : State} (h : InvInside s) : InvInside (softReset s) := h.hardReset_setTab h.tab

theorem InvInside.hardReset {s : State} (h : InvInside s) : InvInside (hardReset s) := h.hardReset_setTab (.reset _)

/-! ### Writes of a table -/

section Writes
variable {α : Type} {m : Memory α} {i n : Nat}

/-- A write below the size keeps form and size. -/
theorem Memory.Form.write (h : m.Form n) (hi : i < n) (v : α) : (m.write i v).Form n :=
  ⟨m.wf_write i v h.1, m.within_write v h.2 hi⟩

theorem Memory.Form.fill (n : Nat) (v : α) : (Memory.fill n v).Form n := ⟨Memory.wf_fill n v, Memory.within_fill n v⟩

/-- What every entry meets, and the written value too, every entry meets after the write. -/
theorem Memory.forall_write {P : α → Prop} {v : α} (h : ∀ e ∈ m, P e.2) (hv : P v) : ∀ e ∈ m.write i v, P e.2 := by
  intro e he
  rcases Memory.mem_write he with rfl | he
  · exact hv
  · exact h e he

theorem Memory.forall_fill {P : α → Prop} {v : α} (hv : P v) : ∀ e ∈ Memory.fill n v, P e.2 := by
  simp [Memory.fill, hv]

/-- A write leaves no entry unwritten. -/
theorem Memory.filled_write (v : α) (h : m.filled n = true) : (m.write i v).filled n = true := by
  simp only [Memory.filled, List.all_eq_true] at h ⊢
  exact fun j hj => m.isSome_read_write i j v (h j hj)

end Writes

section Tables
variable {p : Config.Params} {x : Tables} {i : Nat}

theorem TablesFit.writeFreq {v : Count} (h : TablesFit p x) (hi : i < Config.symbolCount) (hv : v.toNat ≤ p.maxCount) :
    TablesFit p { x with freq := x.freq.write i v } :=
  { h with freqForm := h.freqForm.write hi v
           freqFits := Memory.forall_write (P := fun c : Count => c.toNat ≤ p.maxCount) h.freqFits hv }

theorem TablesFit.writeNode {v : Node} (h : TablesFit p x) (hi : i < Config.nodeCap) (hv : v.weight.toNat < 2 ^ p.wW) :
    TablesFit p { x with node := x.node.write i v } :=
  { h with nodeForm := h.nodeForm.write hi v
           weightFits := Memory.forall_write (P := fun n : Node => n.weight.toNat < 2 ^ p.wW) h.weightFits hv }

theorem TablesFit.writeCode {v : Code} (h : TablesFit p x) (hi : i < Config.symbolCount) (hv : v.length ≤ 255) :
    TablesFit p { x with code := x.code.write i v } :=
  { h with codeForm := h.codeForm.write hi v
           codeFits := Memory.forall_write (P := fun c : Code => c.length ≤ 255) h.codeFits hv }

theorem TablesFit.writeInbuf (v : Byte) (h : TablesFit p x) (hi : i < p.inbufCap) :
    TablesFit p { x with inbuf := x.inbuf.write i v } := { h with inbufForm := h.inbufForm.write hi v }

theorem TablesFit.setHeap {heap : Memory NodeId} (h : TablesFit p x) (hh : heap.Form Config.pqCap) :
    TablesFit p { x with heap := heap } := { h with heapForm := hh }

theorem TablesFit.clearFreq (h : TablesFit p x) :
    TablesFit p { x with freq := Memory.fill Config.symbolCount 0#32 } :=
  { h with freqForm := .fill _ _
           freqFits := Memory.forall_fill (P := fun c : Count => c.toNat ≤ p.maxCount) (Nat.zero_le _) }

theorem TablesFit.clearCode (h : TablesFit p x) : TablesFit p { x with code := Memory.fill Config.symbolCount [] } :=
  { h with codeForm := .fill _ _
           codeFits := Memory.forall_fill (P := fun c : Code => c.length ≤ 255) (Nat.zero_le _) }

end Tables

theorem InvInside.setCode {s : State} {sym : Byte} {c : Code} (h : InvInside s) (hc : c.length ≤ 255) :
    InvInside (s.setCode sym c) := h.setTab (h.tab.writeCode sym.isLt hc) h.heapFilled

theorem InvInside.clearHeader {s : State} (h : InvInside s) : InvInside (clearHeader s) :=
  { h with tab := h.tab.clearFreq
           ctr := { h.ctr with osizeFits := Nat.zero_le _, nsymFits := Nat.zero_le _ } }

theorem InvInside.clearCounts {s : State} (h : InvInside s) : InvInside (clearCounts s) :=
  { h with tab := h.tab.clearFreq, ctr := { h.ctr with inlenFits := Nat.zero_le _ } }

theorem InvInside.setNsym {s : State} {k : Nat} (h : InvInside s) (hk : k ≤ s.par.maxCount) :
    InvInside (s.setNsym k) := h.setCtr { h.ctr with nsymFits := toNat_ofNat_le hk } rfl

/-- An empty queue has no slot to fill. -/
theorem InvInside.pqClear {s : State} (h : InvInside s) : InvInside (pqClear s) :=
  { h with ctr := { h.ctr with hsizeRange := by simp }, heapFilled := by simp [Memory.filled] }

end Sys2Proof.Machine
end

section
/-! PROOFS. The stream and bit primitives change the environment and the buffers only; the operations of bit-stream
I/O built from them keep the invariant. -/

namespace Sys2Proof.Machine

variable {α β : Type} {P : State → Prop} {s : State}

/-! ### Results -/

/-- A computation that cannot raise, then a piece that leaves the property from the same state. -/
theorem Res.Leaves.lift_andThen {r : Except Fault α} {k : α → State → Res β}
    (h : ∀ a, r = .ok a → (k a s).Leaves P) : ((Res.lift r s).andThen k).Leaves P := by
  cases r with
  | ok a => exact h a rfl
  | error f => trivial

/-- A sequence whose first piece leaves a property from which the second leaves another, and which implies it. -/
theorem Res.Leaves.andThen_of {Q : State → Prop} {r : Res α} {k : α → State → Res β} (hr : r.Leaves Q)
    (hq : ∀ t, Q t → P t) (hk : ∀ a t, Q t → (k a t).Leaves P) : (r.andThen k).Leaves P := by
  cases r with
  | ok a t => exact hk a t hr
  | raised e t => exact hq t hr
  | stop f => trivial

/-! ### The primitives -/

/-- `SrcRead()` changes the environment only, and keeps the read position within the source. -/
theorem srcRead_leaves (hs : EnvFit s.env) (h : ∀ x, EnvFit x → P (s.setEnv x)) : (srcRead s).Leaves P := by
  rcases srcRead_cases s with ⟨b, hb, -, hr⟩ | ⟨-, -, hr⟩ | ⟨-, hr⟩ <;> rw [hr]
  · exact h _ (List.getElem?_eq_some_iff.1 hb).1
  · exact h _ hs
  · exact h _ (Nat.min_le_right _ _)

/-- `SnkWrite(b)` changes the environment and `snk_cnt` only, and leaves the source alone. -/
theorem snkWrite_leaves (b : Byte) (hs : EnvFit s.env)
    (h : ∀ x c, EnvFit x → P ((s.setEnv x).setWr { s.wr with snkCnt := c })) : (snkWrite b s).Leaves P := by
  rcases snkWrite_cases b s with ⟨-, hr⟩ | ⟨-, hr⟩ <;> rw [hr]
  · exact h { s.env with snk := s.env.snk ++ [b], draws := s.env.draws.tail } _ hs
  · exact h { s.env with
      snk := s.env.snk ++ Config.snkTailAfterFailure s.env.freeCtr
      freeCtr := s.env.freeCtr + 1, draws := s.env.draws.tail } s.wr.snkCnt hs

/-- An acquisition changes the environment only. -/
theorem acquire_leaves (hs : EnvFit s.env) (h : ∀ x, EnvFit x → P (s.setEnv x)) : (acquire s).Leaves P := by
  rcases acquire_cases s with ⟨-, hr⟩ | ⟨-, hr⟩ <;> rw [hr] <;> exact h _ hs

/-- `ReadBit()` on a held source changes the environment and the bit buffer only; the source stays held. -/
theorem readBit_leaves (hs : EnvFit s.env) (hr : ReaderFit s.rd) (ho : s.rd.ropen = true)
    (h : ∀ x r, EnvFit x → ReaderFit r → r.ropen = true → P ((s.setEnv x).setRd r)) : (readBit s).Leaves P := by
  have held : ∀ b c, c.toNat ≤ 8 → ReaderFit { s.rd with rbuf := b, rcnt := c } := fun b c hc => ⟨hc, by simp [ho]⟩
  rcases readBit_cases s with ⟨h0, hb⟩ | ⟨-, -, b, hc, hb⟩ | ⟨-, -, -, hb⟩ | ⟨-, -, hb⟩ <;> rw [hb]
  · have h0' : s.rd.rcnt.toNat ≠ 0 := fun h' => h0 (BitVec.eq_of_toNat_eq h')
    have h8 := hr.rcntRange
    exact h s.env _ hs (held s.rd.rbuf _ (by rw [BitVec.toNat_sub, BitVec.toNat_ofNat]; omega)) ho
  · exact h { s.env with srcPos := s.env.srcPos + 1, draws := s.env.draws.tail } _
      (List.getElem?_eq_some_iff.1 hc).1 (held b 7#4 (by decide)) ho
  · exact h { s.env with draws := s.env.draws.tail } s.rd hs hr ho
  · exact h { s.env with
      srcPos := min (Config.srcPosAfterFailure s.env.freeCtr) s.env.src.length
      freeCtr := s.env.freeCtr + 1, draws := s.env.draws.tail } s.rd (Nat.min_le_right _ _) hr ho

/-- A bit buffered behind `c` bits makes a number of `c` + 1 bits (R22, R63). -/
theorem shiftIn_lt {w : Byte} {c : Nat} (b : Bool) (h : w.toNat < 2 ^ c) :
    ((w <<< 1) ||| (BitVec.ofBool b).setWidth 8).toNat < 2 ^ (c + 1) := by
  rw [BitVec.toNat_or, BitVec.toNat_shiftLeft, Nat.shiftLeft_eq]
  refine Nat.or_lt_two_pow (lt_of_le_of_lt (Nat.mod_le _ _) (by rw [Nat.pow_succ]; omega)) ?_
  have hb : ((BitVec.ofBool b).setWidth 8).toNat < 2 ^ 1 := by cases b <;> decide
  exact lt_of_lt_of_le hb (Nat.pow_le_pow_right (by decide) (by omega))

/-- `WriteBit(b)` on a held sink changes the environment and the bit writer only; the sink stays held. -/
theorem writeBit_leaves (b : Bool) (hs : EnvFit s.env) (hw : WriterFit s.wr) (ho : s.wr.wopen = true)
    (h : ∀ x w, EnvFit x → WriterFit w → w.wopen = true → P ((s.setEnv x).setWr w)) : (writeBit b s).Leaves P := by
  rcases writeBit_cases b s with ⟨h7, hb⟩ | ⟨-, hb⟩ <;> rw [hb]
  · refine h s.env _ hs ⟨?_, by simp [ho]⟩ ho
    have h7' : s.wr.wcnt.toNat ≠ 7 := fun h' => h7 (BitVec.eq_of_toNat_eq h')
    have hc : (s.wr.wcnt + 1#3).toNat = s.wr.wcnt.toNat + 1 := by
      rw [BitVec.toNat_add, BitVec.toNat_ofNat]
      omega
    rw [hc]
    exact shiftIn_lt b hw.wbufRange
  · exact snkWrite_leaves _ hs fun x c hx => h x _ hx ⟨by simp, by simp [ho]⟩ ho

/-- `Flush()` changes the environment and the bit writer only: the buffer is empty afterwards, the sink held or free
as before. -/
theorem flushBits_leaves (hs : EnvFit s.env) (hw : WriterFit s.wr)
    (h : ∀ x w, EnvFit x → WriterFit w → w.wcnt = 0#3 → w.wopen = s.wr.wopen → P ((s.setEnv x).setWr w)) :
    (flushBits s).Leaves P := by
  rcases flushBits_cases s with ⟨h0, hb⟩ | ⟨-, hb⟩ <;> rw [hb]
  · exact h s.env s.wr hs hw h0 rfl
  · exact snkWrite_leaves _ hs fun x c hx => h x _ hx ⟨by simp, fun _ => rfl⟩ rfl rfl

/-! ### The primitives keep the invariant -/

/-- A writer in which only the count of bytes has changed fits as before. -/
theorem WriterFit.setSnkCnt {w : Writer} (c : BitVec 64) (h : WriterFit w) : WriterFit { w with snkCnt := c } :=
  ⟨h.wbufRange, h.closed⟩

theorem InvInside.srcRead (h : InvInside s) : (srcRead s).Leaves InvInside := srcRead_leaves h.env fun _ => h.setEnv

theorem InvInside.snkWrite (b : Byte) (h : InvInside s) : (snkWrite b s).Leaves InvInside :=
  snkWrite_leaves b h.env fun _ c hx => (h.setEnv hx).setWr (h.wr.setSnkCnt c)

theorem InvInside.acquire (h : InvInside s) : (acquire s).Leaves InvInside := acquire_leaves h.env fun _ => h.setEnv

theorem InvInside.flushBits (h : InvInside s) : (flushBits s).Leaves InvInside :=
  flushBits_leaves h.env h.wr fun _ _ hx hw _ _ => (h.setEnv hx).setWr hw

theorem InvInside.emit (bs : List Byte) (h : InvInside s) : (emit bs s).Leaves InvInside := by
  induction bs generalizing s with
  | nil => exact h
  | cons b bs ih => exact (h.snkWrite b).andThen fun _ t _ ht => ih ht

/-! ### The operations of bit-stream I/O -/

theorem ropenBody_keeps (h : InvInside s) : (ropenBody s).Leaves InvInside := by
  unfold ropenBody
  split
  · exact h
  · exact h.acquire.andThen fun _ t _ ht => ht.setRd (.emptied true)

theorem rcloseBody_keeps (h : InvInside s) : (rcloseBody s).Leaves InvInside := by
  unfold rcloseBody
  split
  · exact h.setRd (.emptied false)
  · exact h

theorem rdbitBody_keeps (h : InvInside s) : (rdbitBody s).Leaves InvInside := by
  unfold rdbitBody
  split
  · next ho =>
    have hr : (readBit s).Leaves InvInside := readBit_leaves h.env h.rd ho fun _ _ hx hr _ => (h.setEnv hx).setRd hr
    refine hr.andThen fun r t _ ht => ?_
    cases r with
    | none => exact ht.eosSentinel
    | some b => exact ht.setResult _
  · exact h

theorem rdbyteBody_keeps (h : InvInside s) : (rdbyteBody s).Leaves InvInside := by
  unfold rdbyteBody
  split
  · refine h.srcRead.andThen fun r t _ ht => ?_
    cases r with
    | none => exact ht.eosSentinel
    | some b => exact ht.setResult _
  · exact h

theorem InvInside.readBytes (k : Nat) (v : HostWord) (h : InvInside s) : (readBytes k v s).Leaves InvInside := by
  induction k generalizing v s with
  | zero => exact h
  | succ k ih =>
    refine h.srcRead.andThen fun r t _ ht => ?_
    cases r with
    | none => exact ht
    | some b => exact ih _ ht

theorem rdintBody_keeps (h : InvInside s) : (rdintBody s).Leaves InvInside := by
  unfold rdintBody
  split
  · refine (h.readBytes 4 _).andThen fun r t _ ht => ?_
    cases r with
    | none => exact ht.eosSentinel
    | some v => exact ht.setResult _
  · exact h

theorem wopenBody_keeps (h : InvInside s) : (wopenBody s).Leaves InvInside := by
  unfold wopenBody
  split
  · exact h
  · exact h.acquire.andThen fun _ t _ ht => ht.setWr (.emptied true _)

/-- The sink may be released once its buffer is empty (R22). -/
theorem InvInside.releaseSink (h : InvInside s) (hc : s.wr.wcnt = 0#3) : InvInside (releaseSink s) :=
  h.setWr ⟨h.wr.wbufRange, fun _ => hc⟩

theorem wcloseBody_keeps (h : InvInside s) : (wcloseBody s).Leaves InvInside := by
  unfold wcloseBody
  split
  · have hf : (Machine.flushBits s).Leaves fun t => InvInside (Machine.releaseSink t) :=
      flushBits_leaves h.env h.wr fun _ _ hx hw hc _ => ((h.setEnv hx).setWr hw).releaseSink hc
    cases hr : Machine.flushBits s <;> rw [hr] at hf <;> exact hf
  · exact h

theorem wrbitBody_keeps (h : InvInside s) : (wrbitBody s).Leaves InvInside := by
  unfold wrbitBody
  split
  · next ho =>
    split
    · exact writeBit_leaves _ h.env h.wr ho fun _ _ hx hw _ => (h.setEnv hx).setWr hw
    · exact h
  · exact h

theorem wrbyteBody_keeps (h : InvInside s) : (wrbyteBody s).Leaves InvInside := by
  unfold wrbyteBody
  split
  · split
    · exact h.snkWrite _
    · exact h
  · exact h

theorem wrintBody_keeps (h : InvInside s) : (wrintBody s).Leaves InvInside := by
  unfold wrintBody
  split
  · exact h.emit _
  · exact h

theorem flushBody_keeps (h : InvInside s) : (flushBody s).Leaves InvInside := by
  unfold flushBody
  split
  · exact h.flushBits
  · exact h

end Sys2Proof.Machine
end

section
/-! PROOFS. `PARSEHDR` and `WALK` keep the invariant: the parser writes only counts in range, and the walk counts no
further than `osize`. -/

namespace Sys2Proof.Machine

variable {s : State}

/-! ### `PARSEHDR` -/

/-- A field that parses is within the greatest value (R98). -/
theorem parseUint_le {max v : Nat} {field : List Byte} (h : parseUint max field = some v) : v ≤ max := by
  unfold parseUint at h
  split at h
  · simp at h
  · split at h
    · split at h
      · next hv => simpa [← Option.some.inj h] using hv
      · simp at h
    · simp at h

/-- A pair that parses is a symbol and a count in range (R99). -/
theorem parsePair_le {max sym f : Nat} {line : List Byte} (h : parsePair max line = some (sym, f)) :
    sym < Config.symbolCount ∧ f ≤ max := by
  unfold parsePair at h
  split at h
  · split at h
    · next hf =>
      split at h
      · next hsym =>
        simp only [Option.some.injEq, Prod.mk.injEq] at h
        obtain ⟨rfl, rfl⟩ := h
        exact ⟨Nat.lt_succ_of_le hsym, parseUint_le hf⟩
      · simp at h
    · simp at h
  · simp at h

theorem InvInside.processLine (line : List Byte) (h : InvInside s) : (processLine line s).Leaves InvInside := by
  unfold Machine.processLine
  split
  · exact h
  · exact h
  · split
    · next hv => exact h.setCtr { h.ctr with osizeFits := toNat_ofNat_le (parseUint_le hv) } rfl
    · exact h
  · split
    · next hv => exact h.setCtr { h.ctr with nsymFits := toNat_ofNat_le (parseUint_le hv) } rfl
    · exact h
  · split
    · next hp =>
      obtain ⟨hsym, hf⟩ := parsePair_le hp
      exact h.setTab (h.tab.writeFreq hsym (toNat_ofNat_le hf)) h.heapFilled
    · exact h

theorem InvInside.headerLoop (k : Nat) (line : List Byte) (h : InvInside s) :
    (headerLoop k line s).Leaves InvInside := by
  induction k generalizing line s with
  | zero => trivial
  | succ k ih =>
    refine h.srcRead.andThen fun r t _ ht => ?_
    cases r with
    | none =>
      refine (ht.setEos.processLine line).andThen fun done u _ hu => ?_
      cases done <;> exact hu
    | some b =>
      dsimp only
      split
      · refine (ht.processLine line).andThen fun done u _ hu => ?_
        cases done
        · exact ih _ hu
        · exact hu
      · exact ih _ ht

theorem parsehdrBody_keeps (h : InvInside s) : (parsehdrBody s).Leaves InvInside := by
  unfold parsehdrBody
  split
  · exact h.clearHeader.headerLoop _ _
  · exact h

/-! ### `WALK` -/

theorem InvInside.setDecoded {d : Count} (c : NodeId) (h : InvInside s) (hd : d.toNat ≤ s.ctr.osize.toNat) :
    InvInside (s.setCtr { s.ctr with decoded := d, cur := c }) :=
  h.setCtr { h.ctr with decodedFits := hd.trans h.ctr.osizeFits } rfl

/-- One more symbol decoded, while there are fewer than `osize`. -/
theorem decoded_succ_le {d o : Count} {k : Nat} (h : d.toNat + (k + 1) ≤ o.toNat) : (d + 1#32).toNat + k ≤ o.toNat := by
  have := o.isLt
  rw [BitVec.toNat_add, BitVec.toNat_ofNat]
  omega

/-- The single-leaf loop counts its turns, at most `osize` in all. -/
theorem InvInside.emitRepeat (k : Nat) (b : Byte) (h : InvInside s)
    (hk : s.ctr.decoded.toNat + k ≤ s.ctr.osize.toNat) : (emitRepeat k b s).Leaves InvInside := by
  induction k generalizing s with
  | zero => exact h
  | succ k ih =>
    have hw : (Machine.snkWrite b s).Leaves fun t => InvInside t ∧ t.ctr = s.ctr :=
      snkWrite_leaves b h.env fun x c hx => ⟨(h.setEnv hx).setWr (h.wr.setSnkCnt c), rfl⟩
    refine hw.andThen_of (fun t ht => ht.1) fun _ t ⟨ht, hc⟩ => ?_
    have hd : (t.ctr.decoded + 1#32).toNat + k ≤ t.ctr.osize.toNat := by rw [hc]; exact decoded_succ_le hk
    exact ih (ht.setDecoded t.ctr.cur (by omega)) hd

/-- The invariant inside the loop of `WALK`: the source held, at most `osize` symbols decoded (R201). -/
structure Walking (s : State) : Prop where
  inside : InvInside s
  held : s.rd.ropen = true
  decoded : s.ctr.decoded.toNat ≤ s.ctr.osize.toNat

theorem Walking.step (b : Bool) (h : Walking s) (hlt : s.ctr.decoded < s.ctr.osize) : (walkStep b s).Leaves Walking := by
  refine .lift_andThen fun n _ => ?_
  have moved : ∀ c, Walking (s.setCtr { s.ctr with cur := c }) := fun c =>
    ⟨h.inside.setDecoded c h.decoded, h.held, h.decoded⟩
  dsimp only
  generalize (if b = true then n.right else n.left) = next
  split
  · exact moved _
  · refine .lift_andThen fun m _ => ?_
    split
    · exact moved _
    · have hw := snkWrite_leaves (s := s.setCtr { s.ctr with cur := next }) m.symbol
        (P := fun t => Walking t ∧ t.ctr.decoded < t.ctr.osize) h.inside.env fun x c hx =>
          ⟨⟨((moved _).inside.setEnv hx).setWr (h.inside.wr.setSnkCnt c), h.held, h.decoded⟩, hlt⟩
      refine hw.andThen_of (fun t ht => ht.1) fun _ t ⟨ht, hlt⟩ => ?_
      have hd : (t.ctr.decoded + 1#32).toNat + 0 ≤ t.ctr.osize.toNat := decoded_succ_le hlt
      exact ⟨ht.inside.setDecoded _ hd, ht.held, hd⟩

theorem Walking.loop (k : Nat) (h : Walking s) : (walkLoop k s).Leaves Walking := by
  induction k generalizing s with
  | zero => trivial
  | succ k ih =>
    unfold walkLoop
    split
    · next hlt =>
      have hr : (readBit s).Leaves fun t => Walking t ∧ t.ctr.decoded < t.ctr.osize :=
        readBit_leaves h.inside.env h.inside.rd h.held fun x r hx hr ho =>
          ⟨⟨(h.inside.setEnv hx).setRd hr, ho, h.decoded⟩, hlt⟩
      refine hr.andThen_of (fun t ht => ht.1) fun r t ⟨ht, hlt⟩ => ?_
      cases r with
      | none => exact ⟨ht.inside.setEos, ht.held, ht.decoded⟩
      | some b => exact (ht.step b hlt).andThen fun _ u _ hu => ih hu
    · exact h

theorem walkBody_keeps (h : InvInside s) : (walkBody s).Leaves InvInside := by
  unfold walkBody
  split
  · next hc =>
    have ho : s.rd.ropen = true := by simp_all [State.canWalk]
    have ht : InvInside (s.setCtr { s.ctr with decoded := 0#32, cur := s.ctr.root }) :=
      h.setDecoded _ (Nat.zero_le _)
    dsimp only
    split
    · exact ht.setResult _
    · refine .lift_andThen fun n _ => Res.Leaves.andThen ?_ fun _ u _ hu => hu.setResult _
      split
      · exact ht.emitRepeat _ _ (by simp)
      · exact (Walking.loop _ ⟨ht, ho, Nat.zero_le _⟩).mono fun _ hu => hu.inside
  · exact h

end Sys2Proof.Machine
end

section
/-! PROOFS. `COUNTFREQ`, `WRHDR` and `ENCODE` keep the invariant: no count passes the bytes counted, of which the
buffer holds at most `INBUF_CAP`. -/

namespace Sys2Proof.Machine

variable {s : State}

/-! ### The symbols present -/

/-- The scan of the alphabet, when every entry has been written, gives the symbols present. -/
theorem presentAmong_ok {freq : Memory Count} {syms : List Nat} {pairs : List (Nat × Count)}
    (h : presentAmong freq syms = .ok pairs) :
    pairs = syms.filterMap fun sym =>
      match freq.read sym with
      | some f => if f = 0#32 then none else some (sym, f)
      | none => none := by
  induction syms generalizing pairs with
  | nil => exact (Except.ok.inj h).symm
  | cons sym syms ih =>
    cases hf : readEntry .freq freq sym with
    | error f => simp [presentAmong, hf, bind, Except.bind] at h
    | ok f =>
      cases hr : presentAmong freq syms with
      | error f => simp [presentAmong, hf, hr, bind, Except.bind] at h
      | ok rest =>
        simp only [presentAmong, hf, hr, bind, Except.bind, pure, Except.pure, Except.ok.injEq] at h
        rw [← h, List.filterMap_cons, readEntry_ok.1 hf, ← ih hr]
        dsimp only
        split <;> rfl

theorem symbolsPresent_ok {freq : Memory Count} {pairs : List (Nat × Count)} (h : symbolsPresent freq = .ok pairs) :
    pairs = presentPairs freq := presentAmong_ok h

/-- At most 256 symbols are present. -/
theorem symbolsPresent_length_le {freq : Memory Count} {pairs : List (Nat × Count)}
    (h : symbolsPresent freq = .ok pairs) : pairs.length ≤ Config.symbolCount := by
  rw [symbolsPresent_ok h]
  exact (List.length_filterMap_le _ _).trans List.length_range.le

/-- A symbol present stands in `FREQ` with its count. -/
theorem mem_freq_of_mem_symbolsPresent {freq : Memory Count} {pairs : List (Nat × Count)}
    (h : symbolsPresent freq = .ok pairs) {e : Nat × Count} (he : e ∈ pairs) : e ∈ freq := by
  rw [symbolsPresent_ok h, presentPairs, List.mem_filterMap] at he
  obtain ⟨sym, -, he⟩ := he
  split at he
  · next f hf =>
    split at he
    · simp at he
    · exact Option.some.inj he ▸ Memory.mem_of_read hf
  · simp at he

/-- The number of symbols present fits `nsym`. -/
theorem InvInside.setNsym_present {pairs : List (Nat × Count)} (h : InvInside s)
    (hp : symbolsPresent s.tab.freq = .ok pairs) : InvInside (s.setNsym pairs.length) :=
  h.setNsym ((symbolsPresent_length_le hp).trans (Config.Params.symbolCount_le_maxCount h.params))

/-! ### `COUNTFREQ` -/

/-- The invariant inside the loop of `COUNTFREQ`: no count above the number of bytes read (R230). -/
structure Counting (s : State) : Prop where
  inside : InvInside s
  counts : ∀ e ∈ s.tab.freq, e.2.toNat ≤ s.ctr.inlen.toNat

theorem Counting.countByte (b : Byte) (h : Counting s) : (countByte b s).Leaves Counting := by
  unfold Machine.countByte
  split
  · exact h
  · next hne =>
    refine .lift_andThen fun f hf => ?_
    have hlt : s.ctr.inlen.toNat < s.par.inbufCap := lt_of_le_of_ne h.inside.ctr.inlenFits hne
    obtain ⟨-, -, -, hcap⟩ := (Config.Params.wf_iff _).1 h.inside.params
    have hmax : s.ctr.inlen.toNat + 1 ≤ s.par.maxCount := by omega
    have hfit : s.par.maxCount < 2 ^ 32 := by
      obtain ⟨-, h32, -⟩ := (Config.Params.wf_iff _).1 h.inside.params
      exact lt_of_lt_of_le ((s.par.le_maxCount_iff _).1 le_rfl) (Nat.pow_le_pow_right (by decide) h32)
    have hf' := h.counts _ (Memory.mem_of_read (readEntry_ok.1 hf))
    have hi : (s.ctr.inlen + 1#32).toNat = s.ctr.inlen.toNat + 1 := by
      rw [BitVec.toNat_add, BitVec.toNat_ofNat]; omega
    have hs : (f + 1#32).toNat ≤ s.ctr.inlen.toNat + 1 := by
      rw [BitVec.toNat_add, BitVec.toNat_ofNat]; dsimp only at hf'; omega
    refine ⟨{ h.inside with
      tab := (h.inside.tab.writeInbuf b hlt).writeFreq b.isLt (hs.trans hmax)
      ctr := { h.inside.ctr with inlenFits := ?_ } }, ?_⟩
    · exact hi.trans_le hlt
    · refine Memory.forall_write (P := fun c : Count => c.toNat ≤ (s.ctr.inlen + 1#32).toNat) (fun e he => ?_)
        (hs.trans_eq hi.symm)
      rw [hi]
      exact (h.counts e he).trans (Nat.le_succ _)

theorem Counting.loop (k : Nat) (h : Counting s) : (countLoop k s).Leaves Counting := by
  induction k generalizing s with
  | zero => trivial
  | succ k ih =>
    have hr : (Machine.srcRead s).Leaves Counting :=
      srcRead_leaves h.inside.env fun x hx => ⟨h.inside.setEnv hx, h.counts⟩
    refine hr.andThen fun r t _ ht => ?_
    cases r with
    | none => exact ⟨ht.inside.setEos, ht.counts⟩
    | some b => exact (ht.countByte b).andThen fun _ u _ hu => ih hu

theorem Counting.start (h : InvInside s) : Counting (clearCounts s) :=
  ⟨h.clearCounts, Memory.forall_fill (P := fun c : Count => c.toNat ≤ _) (Nat.zero_le _)⟩

theorem countfreqBody_keeps (h : InvInside s) : (countfreqBody s).Leaves InvInside := by
  unfold countfreqBody
  split
  · refine ((Counting.start h).loop _).andThen_of (fun _ ht => ht.inside) fun _ t ht => ?_
    refine .lift_andThen fun pairs hp => ?_
    obtain ⟨-, -, -, hcap⟩ := (Config.Params.wf_iff _).1 ht.inside.params
    have hi : InvInside (t.setCtr { t.ctr with osize := t.ctr.inlen }) :=
      ht.inside.setCtr { ht.inside.ctr with osizeFits := ht.inside.ctr.inlenFits.trans hcap } rfl
    exact hi.setNsym_present hp
  · exact h

/-! ### `WRHDR` -/

theorem wrhdrBody_keeps (h : InvInside s) : (wrhdrBody s).Leaves InvInside := by
  unfold wrhdrBody
  split
  · exact .lift_andThen fun pairs hp => (h.setNsym_present hp).emit _
  · exact h

/-! ### `ENCODE` -/

/-- The invariant inside the loops of `ENCODE`: the sink held. -/
structure Encoding (s : State) : Prop where
  inside : InvInside s
  held : s.wr.wopen = true

theorem Encoding.writeBits (bs : List Bool) (h : Encoding s) : (writeBits bs s).Leaves Encoding := by
  induction bs generalizing s with
  | nil => exact h
  | cons b bs ih =>
    have hb : (writeBit b s).Leaves Encoding := writeBit_leaves b h.inside.env h.inside.wr h.held fun x w hx hw ho =>
      ⟨(h.inside.setEnv hx).setWr hw, ho⟩
    exact hb.andThen fun _ t _ ht => ih ht

theorem Encoding.encodeByte (b : Byte) (h : Encoding s) : (encodeByte b s).Leaves Encoding := by
  refine .lift_andThen fun c _ => ?_
  split
  · exact h
  · exact h.writeBits c

theorem Encoding.loop (k i : Nat) (h : Encoding s) : (encodeLoop k i s).Leaves Encoding := by
  induction k generalizing i s with
  | zero => exact h
  | succ k ih => exact .lift_andThen fun b _ => (h.encodeByte b).andThen fun _ t _ ht => ih _ ht

theorem encodeBody_keeps (h : InvInside s) : (encodeBody s).Leaves InvInside := by
  unfold encodeBody
  split
  · next ho => exact (Encoding.loop _ 0 ⟨h, ho⟩).andThen_of (fun _ ht => ht.inside) fun _ t ht => ht.inside.flushBits
  · exact h

end Sys2Proof.Machine
end

section
/-! PROOFS. The queue of the block as a list of ids: an insert adds its id to the queue's multiset and a delete takes
its result out, under every tie-break (R28, R160). -/

namespace Sys2Proof.Machine

variable {α β : Type}

/-! ### Computations that cannot raise -/

/-- A sequence gives a result exactly when both its halves do. -/
theorem except_bind_ok {x : Except Fault α} {f : α → Except Fault β} {b : β} :
    x >>= f = .ok b ↔ ∃ a, x = .ok a ∧ f a = .ok b := by
  cases x <;> simp [bind, Except.bind]

theorem except_pure_ok {a b : α} : (pure a : Except Fault α) = .ok b ↔ a = b := by simp [pure, Except.pure]

/-! ### The ids in the slots -/

/-- The ids in the slots below `n`, slot 0 first: of the queue's table and size the queued ids. -/
def idsBelow (heap : Memory NodeId) (n : Nat) : List NodeId := (List.range n).filterMap heap.read

theorem queuedIds_eq (s : State) : queuedIds s = idsBelow s.tab.heap s.ctr.hsize.toNat := rfl

/-- The queued ids of a block whose size is known. -/
theorem queuedIds_of_hsize {s : State} {n : Nat} (h : s.ctr.hsize.toNat = n) :
    queuedIds s = idsBelow s.tab.heap n := by rw [queuedIds_eq, h]

theorem idsBelow_succ {heap : Memory NodeId} {n : Nat} {id : NodeId} (h : heap.read n = some id) :
    idsBelow heap (n + 1) = idsBelow heap n ++ [id] := by
  simp [idsBelow, List.range_succ, h]

/-- Tables that agree below `n` hold the same ids there. -/
theorem idsBelow_congr {heap heap' : Memory NodeId} {n : Nat} (h : ∀ i, i < n → heap'.read i = heap.read i) :
    idsBelow heap' n = idsBelow heap n :=
  List.filterMap_congr fun i hi => h i (List.mem_range.1 hi)

/-- A write at or above `n` leaves the ids below it. -/
theorem idsBelow_write {heap : Memory NodeId} {n i : Nat} (id : NodeId) (h : n ≤ i) :
    idsBelow (heap.write i id) n = idsBelow heap n :=
  idsBelow_congr fun _ hj => heap.read_write_other id (by omega)

/-- The slots below `n` are all written exactly when they hold `n` ids. -/
theorem filled_iff_length (heap : Memory NodeId) (n : Nat) : heap.filled n = true ↔ (idsBelow heap n).length = n := by
  have h := List.countP_eq_length (l := List.range n) (p := fun i => (heap.read i).isSome)
  rw [List.length_range] at h
  rw [idsBelow, List.length_filterMap_eq_countP, h, Memory.filled, List.all_eq_true]

/-- The queue's slots are all written exactly when there are as many queued ids as the queue has items. -/
theorem queue_filled_iff (s : State) :
    s.tab.heap.filled s.ctr.hsize.toNat = true ↔ (queuedIds s).length = s.ctr.hsize.toNat := filled_iff_length _ _

/-- Slots that hold the ids of a list hold that list. -/
theorem idsBelow_eq_of_read {heap : Memory NodeId} {ids : List NodeId}
    (h : ∀ i, i < ids.length → heap.read i = ids[i]?) : idsBelow heap ids.length = ids := by
  have htake : ∀ n, n ≤ ids.length → idsBelow heap n = ids.take n := by
    intro n
    induction n with
    | zero => intro _; rfl
    | succ n ih =>
      intro hn
      rw [idsBelow_succ ((h n hn).trans (List.getElem?_eq_getElem hn)), ih (Nat.le_of_succ_le hn),
        List.take_concat_get' ids n hn]
  rw [htake _ le_rfl, List.take_length]

/-! ### Reordering the slots below `n` -/

/-- One heap table holds below `n` the ids another holds, and is in form if that one is. -/
structure Reordered (n : Nat) (heap heap' : Memory NodeId) : Prop where
  perm : (idsBelow heap' n).Perm (idsBelow heap n)
  form : heap.Form Config.pqCap → heap'.Form Config.pqCap

theorem Reordered.refl (n : Nat) (heap : Memory NodeId) : Reordered n heap heap := ⟨.rfl, id⟩

theorem Reordered.trans {n : Nat} {h₁ h₂ h₃ : Memory NodeId} (a : Reordered n h₁ h₂) (b : Reordered n h₂ h₃) :
    Reordered n h₁ h₃ := ⟨b.perm.trans a.perm, b.form ∘ a.form⟩

/-- Every slot stays written. -/
theorem Reordered.filled {n : Nat} {heap heap' : Memory NodeId} (a : Reordered n heap heap')
    (h : heap.filled n = true) : heap'.filled n = true := by
  rw [filled_iff_length] at h ⊢
  rw [a.perm.length_eq, h]

/-- The slots below `n` visited with two of them exchanged. -/
theorem range_map_swap_perm {n p q : Nat} (hp : p < n) (hq : q < n) :
    ((List.range n).map (Equiv.swap p q)).Perm (List.range n) := by
  have hlt : ∀ j ∈ List.range n, Equiv.swap p q j ∈ List.range n := by
    intro j hj
    rw [List.mem_range] at hj ⊢
    rw [Equiv.swap_apply_def]
    split_ifs <;> omega
  refine (List.perm_ext_iff_of_nodup (List.nodup_range.map (Equiv.injective _)) List.nodup_range).2 fun i => ?_
  rw [List.mem_map]
  constructor
  · rintro ⟨j, hj, rfl⟩; exact hlt j hj
  · exact fun hi => ⟨Equiv.swap p q i, hlt i hi, Equiv.swap_apply_self p q i⟩

/-- Exchanging two slots below `n` reorders the ids there. -/
theorem write_write_reordered {heap : Memory NodeId} {n p q : Nat} {a b : NodeId} (hp : p < n) (hq : q < n)
    (hn : n ≤ Config.pqCap) (ha : heap.read p = some a) (hb : heap.read q = some b) :
    Reordered n heap ((heap.write p b).write q a) := by
  refine ⟨?_, fun h => (h.write (by omega) b).write (by omega) a⟩
  have hread : ∀ i, ((heap.write p b).write q a).read i = heap.read (Equiv.swap p q i) := by
    intro i
    rw [Memory.read_write, Memory.read_write, Equiv.swap_apply_def]
    grind
  rw [idsBelow, List.filterMap_congr fun i _ => hread i]
  exact List.filterMap_map (l := List.range n) ▸ (range_map_swap_perm hp hq).filterMap heap.read

/-! ### `TIE_REF` -/

theorem swapSlots_reordered {heap heap' : Memory NodeId} {n p q : Nat} (h : swapSlots heap p q = .ok heap')
    (hp : p < n) (hq : q < n) (hn : n ≤ Config.pqCap) : Reordered n heap heap' := by
  obtain ⟨a, b, ha, hb, rfl⟩ := swapSlots_ok h
  exact write_write_reordered hp hq hn ha hb

/-- The rise of an inserted item only exchanges slots (R167). -/
theorem siftUp_reordered {node : Memory Node} {n k p : Nat} {heap heap' : Memory NodeId}
    (h : siftUp node k p heap = .ok heap') (hp : p < n) (hn : n ≤ Config.pqCap) : Reordered n heap heap' := by
  induction k generalizing p heap with
  | zero => cases Except.ok.inj h; exact .refl n _
  | succ k ih =>
    unfold siftUp at h
    split at h
    · cases Except.ok.inj h; exact .refl n _
    · obtain ⟨wp, -, h⟩ := except_bind_ok.1 h
      obtain ⟨wq, -, h⟩ := except_bind_ok.1 h
      split at h
      · obtain ⟨heap₁, hs, h⟩ := except_bind_ok.1 h
        have hq : (p - 1) / 2 < n := by omega
        exact (swapSlots_reordered hs hp hq hn).trans (ih h hq)
      · cases except_pure_ok.1 h; exact .refl n _

/-- The child test answers the slot it was given or a child in the queue (R168). -/
theorem lighterOf_lt {node : Memory Node} {heap : Memory NodeId} {n c t t' : Nat}
    (h : lighterOf node heap n c t = .ok t') (ht : t < n) : t' < n := by
  unfold lighterOf at h
  split at h
  · obtain ⟨wc, -, h⟩ := except_bind_ok.1 h
    obtain ⟨wt, -, h⟩ := except_bind_ok.1 h
    rw [← except_pure_ok.1 h]
    split <;> assumption
  · cases Except.ok.inj h; exact ht

/-- The sink of the last item only exchanges slots (R168). -/
theorem siftDown_reordered {node : Memory Node} {n k p : Nat} {heap heap' : Memory NodeId}
    (h : siftDown node n k p heap = .ok heap') (hp : p < n) (hn : n ≤ Config.pqCap) : Reordered n heap heap' := by
  induction k generalizing p heap with
  | zero => cases Except.ok.inj h; exact .refl n _
  | succ k ih =>
    unfold siftDown at h
    obtain ⟨t, ht, h⟩ := except_bind_ok.1 h
    obtain ⟨t', ht', h⟩ := except_bind_ok.1 h
    have hlt := lighterOf_lt ht' (lighterOf_lt ht hp)
    split at h
    · cases except_pure_ok.1 h; exact .refl n _
    · obtain ⟨heap₁, hs, h⟩ := except_bind_ok.1 h
      exact (swapSlots_reordered hs hp hlt hn).trans (ih h hlt)

/-! ### Another tie-break -/

/-- A rearrangement keeps the ids below `n` (R28). -/
theorem rearrange_reordered {k n : Nat} {hist : List Config.PqEvent} {heap heap' : Memory NodeId}
    (h : rearrange k hist heap n = .ok heap') (hn : n ≤ Config.pqCap) : Reordered n heap heap' := by
  obtain ⟨ids, ids', hperm, rfl, rfl, hread, hread', -⟩ := rearrange_ok h
  have hlen := hperm.length_eq
  refine ⟨?_, fun hf => placeFrom_keeps (P := fun m => m.Form Config.pqCap) (fun m i v hi hm => hm.write hi v)
    (by omega) hf⟩
  rw [idsBelow_eq_of_read hread]
  rw [← hlen] at hread' ⊢
  rw [idsBelow_eq_of_read hread']
  exact hperm

/-- The weights are listed by the slots below `n`. -/
theorem queuedWeights_slot_lt {node : Memory Node} {heap : Memory NodeId} {n : Nat} {ws : List (Nat × Weight)}
    (h : queuedWeights node heap n = .ok ws) : ∀ e ∈ ws, e.1 < n := by
  induction n generalizing ws with
  | zero => cases Except.ok.inj h; simp
  | succ n ih =>
    obtain ⟨below, hb, h⟩ := except_bind_ok.1 h
    obtain ⟨w, -, h⟩ := except_bind_ok.1 h
    rw [← except_pure_ok.1 h]
    intro e he
    rcases List.mem_append.1 he with he | he
    · exact (ih hb e he).trans (Nat.lt_succ_self n)
    · rw [List.mem_singleton.1 he]
      exact Nat.lt_succ_self n

/-- A candidate of the tie-break, or slot 0 where there is none, is a slot of the queue (R160). -/
theorem lightest_getD_lt {ws : List (Nat × Weight)} {n : Nat} (h : ∀ e ∈ ws, e.1 < n) (hn : 0 < n) (i : Nat) :
    (lightest ws).getD i 0 < n := by
  rw [List.getD_eq_getElem?_getD]
  cases hi : (lightest ws)[i]? with
  | none => exact hn
  | some slot =>
    obtain ⟨e, he, rfl⟩ := List.mem_map.1 (List.mem_of_getElem? hi)
    exact h e (List.mem_filter.1 he).1

/-! ### Insert and delete -/

/-- Taking an item out of its slot and putting the last one there takes that item out of the ids. -/
theorem takeOut_perm {heap : Memory NodeId} {n slot : Nat} {m last : NodeId} (hslot : slot < n + 1)
    (hn : n + 1 ≤ Config.pqCap) (hm : heap.read slot = some m) (hlast : heap.read n = some last) :
    (m :: idsBelow (heap.write slot last) n).Perm (idsBelow heap (n + 1)) := by
  have hswap := (write_write_reordered hslot (Nat.lt_succ_self n) hn hm hlast).perm
  rw [idsBelow_succ (Memory.read_write_same _ _ _), idsBelow_write m le_rfl] at hswap
  exact (List.perm_append_singleton m _).symm.trans hswap

/-- Everything `PqInsert(i)` can do: the new id goes to the first free slot, from which `TIE_REF` lets it rise (R167)
and another tie-break rearranges the queue. -/
theorem pqInsert_cases {id : NodeId} {s t : State} (h : pqInsert id s = .ok t) :
    let ev : Config.PqEvent := .inserted id ((s.tab.node.read id.toNat).map (·.weight))
    let free := s.ctr.hsize.toNat
    ∃ heap, t = ((s.setTab { s.tab with heap := heap }).setCtr { s.ctr with hsize := s.ctr.hsize + 1#9 }).setPq
        { s.pq with hist := s.pq.hist ++ [ev] } ∧
      ((s.par.tie = .ref ∧ siftUp s.tab.node free free (s.tab.heap.write free id) = .ok heap) ∨
       ∃ k, s.par.tie = .other k ∧ otherInsert k (s.pq.hist ++ [ev]) (s.tab.heap.write free id) free = .ok heap) := by
  unfold pqInsert at h
  cases ht : s.par.tie with
  | ref =>
    rw [ht] at h
    obtain ⟨heap, hr, h⟩ := except_bind_ok.1 h
    exact ⟨heap, (except_pure_ok.1 h).symm, .inl ⟨rfl, hr⟩⟩
  | other k =>
    rw [ht] at h
    obtain ⟨heap, hr, h⟩ := except_bind_ok.1 h
    exact ⟨heap, (except_pure_ok.1 h).symm, .inr ⟨k, rfl, hr⟩⟩

/-- Everything `PqDeleteMin()` can do within its contract: `TIE_REF` or another tie-break takes an item out. -/
theorem pqPop_cases {m : NodeId} {s t : State} (h : pqPop s = .ok (m, t)) :
    ∃ heap, t = ((s.setTab { s.tab with heap := heap }).setCtr { s.ctr with hsize := s.ctr.hsize - 1#9 }).setPq
        { s.pq with hist := s.pq.hist ++ [.deletedMin] } ∧
      ((s.par.tie = .ref ∧ refDeleteMin s.tab.node s.tab.heap s.ctr.hsize.toNat = .ok (m, heap)) ∨
       ∃ k, s.par.tie = .other k ∧
        otherDeleteMin k s.pq.hist s.tab.node s.tab.heap s.ctr.hsize.toNat = .ok (m, heap)) := by
  unfold pqPop at h
  split at h
  · cases ht : s.par.tie with
    | ref =>
      rw [ht] at h
      obtain ⟨⟨m', heap⟩, hr, h⟩ := except_bind_ok.1 h
      obtain ⟨rfl, rfl⟩ := Prod.mk.inj (except_pure_ok.1 h)
      exact ⟨heap, rfl, .inl ⟨rfl, hr⟩⟩
    | other k =>
      rw [ht] at h
      obtain ⟨⟨m', heap⟩, hr, h⟩ := except_bind_ok.1 h
      obtain ⟨rfl, rfl⟩ := Prod.mk.inj (except_pure_ok.1 h)
      exact ⟨heap, rfl, .inr ⟨k, rfl, hr⟩⟩
  · simp at h

theorem toNat_hsize_succ {n : BitVec 9} (h : n.toNat < Config.pqCap) : (n + 1#9).toNat = n.toNat + 1 := by
  unfold Config.pqCap at h
  rw [BitVec.toNat_add, BitVec.toNat_ofNat]
  omega

theorem toNat_hsize_pred {n : BitVec 9} {k : Nat} (h : n.toNat = k + 1) : (n - 1#9).toNat = k := by
  have := n.isLt
  rw [BitVec.toNat_sub, BitVec.toNat_ofNat]
  omega

/-- What `PqInsert(i)` does to the queue: in form as before, it holds the new id beside those it held, under every
tie-break. -/
theorem pqInsert_queue {id : NodeId} {s t : State} (h : pqInsert id s = .ok t) (hs : s.ctr.hsize.toNat < Config.pqCap) :
    ∃ heap log, t = ((s.setTab { s.tab with heap := heap }).setCtr { s.ctr with hsize := s.ctr.hsize + 1#9 }).setPq
        log ∧
      (s.tab.heap.Form Config.pqCap → heap.Form Config.pqCap) ∧
      t.ctr.hsize.toNat = s.ctr.hsize.toNat + 1 ∧ (queuedIds t).Perm (id :: queuedIds s) := by
  obtain ⟨heap, rfl, hr⟩ := pqInsert_cases h
  have ho : Reordered (s.ctr.hsize.toNat + 1) (s.tab.heap.write s.ctr.hsize.toNat id) heap := by
    rcases hr with ⟨-, hr⟩ | ⟨k, -, hr⟩
    · exact siftUp_reordered hr (Nat.lt_succ_self _) hs
    · exact rearrange_reordered hr hs
  have hsize := toNat_hsize_succ hs
  have hadded : idsBelow (s.tab.heap.write s.ctr.hsize.toNat id) (s.ctr.hsize.toNat + 1) = queuedIds s ++ [id] := by
    rw [idsBelow_succ (Memory.read_write_same _ _ _), idsBelow_write id le_rfl, queuedIds_eq]
  refine ⟨heap, _, rfl, fun hf => ho.form (hf.write hs id), hsize, ?_⟩
  exact (List.Perm.of_eq (queuedIds_of_hsize hsize)).trans
    (ho.perm.trans (hadded ▸ List.perm_append_singleton id (queuedIds s)))

theorem refDeleteMin_heap {node : Memory Node} {heap heap' : Memory NodeId} {n : Nat} {m : NodeId}
    (h : refDeleteMin node heap (n + 1) = .ok (m, heap')) (hn : n + 1 ≤ Config.pqCap) :
    (heap.Form Config.pqCap → heap'.Form Config.pqCap) ∧ (m :: idsBelow heap' n).Perm (idsBelow heap (n + 1)) := by
  obtain ⟨m', hm, h⟩ := except_bind_ok.1 h
  have hm := readEntry_ok.1 hm
  split at h
  · next h1 =>
    obtain ⟨rfl, rfl⟩ := Prod.mk.inj (except_pure_ok.1 h)
    obtain rfl : n = 0 := by omega
    exact ⟨id, by rw [idsBelow_succ hm]; rfl⟩
  · next h1 =>
    obtain ⟨last, hlast, h⟩ := except_bind_ok.1 h
    obtain ⟨heap₁, hsift, h⟩ := except_bind_ok.1 h
    obtain ⟨rfl, rfl⟩ := Prod.mk.inj (except_pure_ok.1 h)
    have ho := siftDown_reordered hsift (by omega : 0 < n) (by omega)
    exact ⟨fun hf => ho.form (hf.write (by decide) last),
      (ho.perm.cons m').trans (takeOut_perm (by omega) hn hm (readEntry_ok.1 hlast))⟩

theorem otherDeleteMin_heap {k : Nat} {hist : List Config.PqEvent} {node : Memory Node} {heap heap' : Memory NodeId}
    {n : Nat} {m : NodeId} (h : otherDeleteMin k hist node heap (n + 1) = .ok (m, heap')) (hn : n + 1 ≤ Config.pqCap) :
    (heap.Form Config.pqCap → heap'.Form Config.pqCap) ∧ (m :: idsBelow heap' n).Perm (idsBelow heap (n + 1)) := by
  obtain ⟨ws, hws, h⟩ := except_bind_ok.1 h
  obtain ⟨m', hm, h⟩ := except_bind_ok.1 h
  obtain ⟨last, hlast, h⟩ := except_bind_ok.1 h
  obtain ⟨heap₁, hre, h⟩ := except_bind_ok.1 h
  obtain ⟨rfl, rfl⟩ := Prod.mk.inj (except_pure_ok.1 h)
  have hslot := lightest_getD_lt (queuedWeights_slot_lt hws) (Nat.succ_pos n)
    (Config.tieChoice k hist % (lightest ws).length)
  have ho := rearrange_reordered hre (by omega : n ≤ Config.pqCap)
  exact ⟨fun hf => ho.form (hf.write (by omega) last),
    (ho.perm.cons m').trans (takeOut_perm hslot hn (readEntry_ok.1 hm) (readEntry_ok.1 hlast))⟩

/-- What `PqDeleteMin()` does to a queue that is not empty: in form as before, it holds the ids it held but the one
returned, under every tie-break. -/
theorem pqPop_queue {m : NodeId} {s t : State} {n : Nat} (h : pqPop s = .ok (m, t)) (hs : s.ctr.hsize.toNat = n + 1)
    (hn : n + 1 ≤ Config.pqCap) :
    ∃ heap log, t = ((s.setTab { s.tab with heap := heap }).setCtr { s.ctr with hsize := s.ctr.hsize - 1#9 }).setPq
        log ∧
      (s.tab.heap.Form Config.pqCap → heap.Form Config.pqCap) ∧
      t.ctr.hsize.toNat = n ∧ (m :: queuedIds t).Perm (queuedIds s) := by
  obtain ⟨heap, rfl, hr⟩ := pqPop_cases h
  have hsize := toNat_hsize_pred hs
  have taken : (s.tab.heap.Form Config.pqCap → heap.Form Config.pqCap) ∧
      (m :: idsBelow heap n).Perm (idsBelow s.tab.heap (n + 1)) := by
    rw [hs] at hr
    rcases hr with ⟨-, hr⟩ | ⟨k, -, hr⟩
    · exact refDeleteMin_heap hr hn
    · exact otherDeleteMin_heap hr hn
  refine ⟨heap, _, rfl, taken.1, hsize, ?_⟩
  rw [queuedIds_of_hsize hs]
  exact ((List.Perm.of_eq (queuedIds_of_hsize hsize)).cons m).trans taken.2

end Sys2Proof.Machine
end

section
/-! PROOFS. The queue operations and the tree builder keep the invariant. `BUILDTREE` queues at most 256 items and
writes at most 511 records, and no merge overflows `W_W` bits, because the weights queued never add up to more than the
counts do (R6). -/

namespace Sys2Proof.Machine

variable {s t : State}

/-! ### The queue operations -/

theorem InvInside.pqInsert {id : NodeId} (h : InvInside s) (hr : pqInsert id s = .ok t)
    (hs : s.ctr.hsize.toNat < Config.pqCap) : InvInside t := by
  obtain ⟨heap, log, rfl, hform, hsize, hperm⟩ := pqInsert_queue hr hs
  have hlen := hperm.length_eq
  rw [List.length_cons, (queue_filled_iff s).1 h.heapFilled, ← hsize] at hlen
  exact { h with
    tab := h.tab.setHeap (hform h.tab.heapForm)
    ctr := { h.ctr with hsizeRange := hsize.trans_le hs }
    heapFilled := (queue_filled_iff _).2 hlen }

theorem InvInside.pqPop {m : NodeId} {n : Nat} (h : InvInside s) (hr : pqPop s = .ok (m, t))
    (hs : s.ctr.hsize.toNat = n + 1) : InvInside t := by
  have hcap : n + 1 ≤ Config.pqCap := hs ▸ h.ctr.hsizeRange
  obtain ⟨heap, log, rfl, hform, hsize, hperm⟩ := pqPop_queue hr hs hcap
  have hlen := hperm.length_eq
  rw [List.length_cons, (queue_filled_iff s).1 h.heapFilled, hs, ← hsize] at hlen
  exact { h with
    tab := h.tab.setHeap (hform h.tab.heapForm)
    ctr := { h.ctr with hsizeRange := hsize.trans_le (Nat.le_of_succ_le hcap) }
    heapFilled := (queue_filled_iff _).2 (Nat.succ.inj hlen) }

theorem pqinsBody_keeps (h : InvInside s) : (pqinsBody s).Leaves InvInside := by
  unfold pqinsBody
  split
  · exact h
  · next hne =>
    split
    · exact .lift_andThen fun t ht => h.pqInsert ht (lt_of_le_of_ne h.ctr.hsizeRange hne)
    · exact h

theorem pqdelminBody_keeps (h : InvInside s) : (pqdelminBody s).Leaves InvInside := by
  unfold pqdelminBody
  split
  · exact h.emptySentinel
  · next hne =>
    have h0 : s.ctr.hsize.toNat ≠ 0 := fun h0 => hne (BitVec.eq_of_toNat_eq h0)
    obtain ⟨n, hn⟩ := Nat.exists_eq_succ_of_ne_zero h0
    exact .lift_andThen fun r hr => (h.pqPop hr hn).setResult _

/-! ### The weight of a queue -/

/-- The weight of an id, zero where its record is unwritten. -/
def idWeight (node : Memory Node) (id : NodeId) : Nat := ((weightOf node id).map BitVec.toNat).getD 0

/-- What the ids of a list weigh together. -/
def idsWeight (node : Memory Node) (ids : List NodeId) : Nat := (ids.map (idWeight node)).sum

theorem idsWeight_cons (node : Memory Node) (id : NodeId) (ids : List NodeId) :
    idsWeight node (id :: ids) = idWeight node id + idsWeight node ids := by simp [idsWeight]

theorem idsWeight_perm {node : Memory Node} {ids ids' : List NodeId} (h : ids.Perm ids') :
    idsWeight node ids = idsWeight node ids' := (h.map _).sum_eq

theorem idWeight_of_nodeWeight {node : Memory Node} {id : NodeId} {w : Weight} (h : nodeWeight node id = .ok w) :
    idWeight node id = w.toNat := by
  rw [idWeight, nodeWeight_ok.1 h]
  rfl

/-- A record written elsewhere leaves the weight of an id. -/
theorem idWeight_write_other {node : Memory Node} {id : NodeId} {i : Nat} (n : Node) (h : id.toNat ≠ i) :
    idWeight (node.write i n) id = idWeight node id := by
  rw [idWeight, idWeight, weightOf, weightOf, node.read_write_other n h]

theorem idWeight_write_same {node : Memory Node} {id : NodeId} (n : Node) (h : id.toNat < Config.nodeCap) :
    idWeight (node.write id.toNat n) id = n.weight.toNat := by
  have hne : id ≠ NONE := by rintro rfl; exact absurd h (by decide)
  rw [idWeight, weightOf, if_neg hne, node.read_write_same]
  rfl

/-- A record written for an id that none of a list is leaves what the list weighs. -/
theorem idsWeight_write_other {node : Memory Node} {ids : List NodeId} {i : Nat} (n : Node)
    (h : ∀ id ∈ ids, id.toNat < i) : idsWeight (node.write i n) ids = idsWeight node ids := by
  rw [idsWeight, List.map_congr_left fun id hid => idWeight_write_other n (h id hid).ne]
  rfl

/-! ### `BUILDTREE` -/

/-- The invariant inside `BUILDTREE` on a block with parameters `p`: so many items queued, all of them among the
records made so far, and a bound on what they weigh together. -/
structure Building (p : Config.Params) (items nodes weight : Nat) (s : State) : Prop where
  inside : InvInside s
  par : s.par = p
  hsize : s.ctr.hsize.toNat = items
  nnodes : s.ctr.nnodes.toNat = nodes
  made : ∀ id ∈ queuedIds s, id.toNat < nodes
  weighs : idsWeight s.tab.node (queuedIds s) ≤ weight

section Building
variable {p : Config.Params} {i k w : Nat}

/-- At the start nothing is queued and no record made. -/
theorem Building.start (h : InvInside s) : Building s.par 0 0 0 (clearTree s) where
  inside := { h with
    ctr := { h.ctr with hsizeRange := Nat.zero_le _, nnodesRange := Nat.zero_le _ }, heapFilled := rfl }
  par := rfl
  hsize := rfl
  nnodes := rfl
  made := by simp [queuedIds]
  weighs := le_rfl

/-- A new record is queued beside what was queued. -/
theorem Building.allocNode {n : Node} (h : Building p i k w s) (hi : i < Config.pqCap) (hk : k < Config.nodeCap)
    (hn : n.weight.toNat < 2 ^ p.wW) (hr : allocNode n s = .ok t) :
    Building p (i + 1) (k + 1) (w + n.weight.toNat) t := by
  obtain ⟨u, hu, hr⟩ := except_bind_ok.1 hr
  obtain rfl := except_pure_ok.1 hr
  obtain ⟨inside, rfl, rfl, rfl, made, weighs⟩ := h
  have hid : (s.ctr.nnodes.setWidth 9).toNat = s.ctr.nnodes.toNat := by
    unfold Config.nodeCap at hk
    rw [BitVec.toNat_setWidth]
    omega
  have hnodes : (s.ctr.nnodes + 1#10).toNat = s.ctr.nnodes.toNat + 1 := by
    unfold Config.nodeCap at hk
    rw [BitVec.toNat_add, BitVec.toNat_ofNat]
    omega
  have written : InvInside (s.setTab { s.tab with node := s.tab.node.write s.ctr.nnodes.toNat n }) :=
    inside.setTab (inside.tab.writeNode hk hn) inside.heapFilled
  have inside' := written.pqInsert hu hi
  obtain ⟨heap, log, rfl, -, hsize, hperm⟩ := pqInsert_queue hu hi
  refine ⟨inside'.setCtr { inside'.ctr with nnodesRange := hnodes.trans_le hk } rfl, rfl, hsize, hnodes,
    fun id hid' => ?_, (idsWeight_perm hperm).trans_le ?_⟩
  · rcases List.mem_cons.1 (hperm.mem_iff.1 hid') with rfl | hid'
    · omega
    · exact (made id hid').trans (Nat.lt_succ_self _)
  · have hsame := idsWeight_write_other (node := s.tab.node) n made
    have hnew := idWeight_write_same (node := s.tab.node) n (hid.trans_lt hk)
    rw [hid] at hnew
    rw [idsWeight_cons, Nat.add_comm w]
    exact Nat.add_le_add hnew.le (hsame.trans_le weighs)

/-- An item that comes out takes its weight with it. -/
theorem Building.pqPop {m : NodeId} (h : Building p (i + 1) k w s) (hr : pqPop s = .ok (m, t)) :
    ∃ w', Building p i k w' t ∧ t.tab.node = s.tab.node ∧ idWeight s.tab.node m + w' ≤ w := by
  obtain ⟨inside, rfl, hs, rfl, made, weighs⟩ := h
  have inside' := inside.pqPop hr hs
  obtain ⟨heap, log, rfl, -, hsize, hperm⟩ := pqPop_queue hr hs (hs ▸ inside.ctr.hsizeRange)
  rw [← idsWeight_perm hperm, idsWeight_cons] at weighs
  exact ⟨_, ⟨inside', rfl, hsize, rfl, fun id hid => made id (hperm.mem_iff.1 (List.mem_cons_of_mem m hid)), le_rfl⟩,
    rfl, weighs⟩

/-- The leaf loop makes and queues one record a symbol (R181). -/
theorem Building.addLeaves {es : List (Nat × Count)} (h : Building p i k w s) (hi : i + es.length ≤ Config.pqCap)
    (hk : k + es.length ≤ Config.nodeCap) (hes : ∀ e ∈ es, e.2.toNat ≤ p.maxCount) (hr : addLeaves es s = .ok t) :
    Building p (i + es.length) (k + es.length) (w + es.length * p.maxCount) t := by
  induction es generalizing s i k w with
  | nil => obtain rfl := Except.ok.inj hr; simpa using h
  | cons e es ih =>
    obtain ⟨u, hu, hr⟩ := except_bind_ok.1 hr
    rw [List.length_cons] at hi hk ⊢
    have he := hes e List.mem_cons_self
    have hw : (leafOf e).weight.toNat ≤ p.maxCount := by
      rw [leafOf, BitVec.toNat_setWidth]
      exact (Nat.mod_le _ _).trans he
    have hu' := h.allocNode (by omega) (by omega) (hw.trans_lt p.maxCount_lt) hu
    have ht := ih hu' (by omega) (by omega) (fun e he => hes e (List.mem_cons_of_mem _ he)) hr
    refine ⟨ht.inside, ht.par, ht.hsize.trans (by omega), ht.nnodes.trans (by omega), fun id hid => ?_, ?_⟩
    · have := ht.made id hid; omega
    · have := ht.weighs
      rw [Nat.succ_mul]
      omega

/-- A merge takes two items out and queues one of their joint weight, which does not overflow (R6, R182). -/
theorem Building.mergeOnce (h : Building p (i + 2) k w s) (hk : k < Config.nodeCap) (hw : w < 2 ^ p.wW)
    (hr : mergeOnce s = .ok t) : Building p (i + 1) (k + 1) w t := by
  have hcap : i + 2 ≤ Config.pqCap := h.hsize ▸ h.inside.ctr.hsizeRange
  obtain ⟨⟨a, u₁⟩, h₁, hr⟩ := except_bind_ok.1 hr
  obtain ⟨⟨b, u₂⟩, h₂, hr⟩ := except_bind_ok.1 hr
  obtain ⟨wa, ha, hr⟩ := except_bind_ok.1 hr
  obtain ⟨wb, hb, hr⟩ := except_bind_ok.1 hr
  obtain ⟨w₁, b₁, hnode₁, hw₁⟩ := h.pqPop h₁
  obtain ⟨w₂, b₂, hnode₂, hw₂⟩ := b₁.pqPop h₂
  have ha' := idWeight_of_nodeWeight ha
  have hb' := idWeight_of_nodeWeight hb
  rw [hnode₂, hnode₁] at ha'
  rw [hnode₂] at hb'
  have hsum : (wa + wb).toNat ≤ wa.toNat + wb.toNat := by
    rw [BitVec.toNat_add]
    exact Nat.mod_le _ _
  have ht := b₂.allocNode (n := internalOf wa wb a b) (by omega) hk (by dsimp only [internalOf]; omega) hr
  exact { ht with weighs := ht.weighs.trans (by dsimp only [internalOf]; omega) }

/-- The merge loop ends with an item queued; each turn makes one record and lowers the queue by one (R180). -/
theorem Building.mergeAll {turns : Nat} (h : Building p (i + 1) k w s) (hk : i + k ≤ Config.nodeCap)
    (hw : w < 2 ^ p.wW) (hr : mergeAll turns s = .ok t) : ∃ i' k', Building p (i' + 1) k' w t := by
  induction turns generalizing s i k with
  | zero => obtain rfl := Except.ok.inj hr; exact ⟨i, k, h⟩
  | succ turns ih =>
    unfold Machine.mergeAll at hr
    split at hr
    · obtain rfl := Except.ok.inj hr; exact ⟨i, k, h⟩
    · next hgt =>
      rw [h.hsize] at hgt
      obtain ⟨j, rfl⟩ : ∃ j, i = j + 1 := ⟨i - 1, by omega⟩
      obtain ⟨u, hu, hr⟩ := except_bind_ok.1 hr
      exact ih (h.mergeOnce (by omega) hw hu) (by omega) hr

end Building

theorem InvInside.setRoot (r : NodeId) (h : InvInside s) : InvInside (s.setCtr { s.ctr with root := r }) :=
  { h with ctr := { h.ctr with } }

theorem InvInside.buildTree (h : InvInside s) (hr : buildTree s = .ok t) : InvInside t := by
  obtain ⟨pairs, hp, hr⟩ := except_bind_ok.1 hr
  obtain ⟨u, hu, hr⟩ := except_bind_ok.1 hr
  have hlen := symbolsPresent_length_le hp
  have hsum : 0 + pairs.length * s.par.maxCount < 2 ^ s.par.wW := by
    rw [Nat.zero_add]
    exact (Nat.mul_le_mul_right _ hlen).trans_lt s.par.symbolCount_mul_maxCount_lt
  unfold Config.symbolCount at hlen
  have leaves := (Building.start h).addLeaves (by unfold Config.pqCap; omega) (by unfold Config.nodeCap; omega)
    (fun e he => h.tab.freqFits e (mem_freq_of_mem_symbolsPresent hp he)) hu
  split at hr
  · rw [← except_pure_ok.1 hr]
    exact leaves.inside.setResult _
  · next hne =>
    obtain ⟨v, hv, hr⟩ := except_bind_ok.1 hr
    obtain ⟨⟨r, x⟩, hx, hr⟩ := except_bind_ok.1 hr
    rw [← except_pure_ok.1 hr]
    obtain ⟨i, hi⟩ : ∃ i, 0 + pairs.length = i + 1 := ⟨pairs.length - 1, by omega⟩
    rw [hi] at leaves
    obtain ⟨i', k', merged⟩ := leaves.mergeAll (by unfold Config.nodeCap; omega) hsum hv
    obtain ⟨w', last, -, -⟩ := merged.pqPop hx
    exact (last.inside.setRoot r).setResult _

theorem buildtreeBody_keeps (h : InvInside s) : (buildtreeBody s).Leaves InvInside :=
  .lift_andThen fun _ ht => h.buildTree ht

/-! ### `BUILDCODES` -/

/-- A traversal gives codes as long as the path so far and the edges still allowed: at most 255 bits (R188). -/
theorem InvInside.visit (edges : Nat) (id : NodeId) (path : Code) (h : InvInside s) (hp : path.length + edges ≤ 255) :
    (visit edges id path s).Leaves InvInside := by
  induction edges generalizing id path s with
  | zero =>
    unfold Machine.visit
    refine .lift_andThen fun n _ => ?_
    split
    · exact h.setCode hp
    · exact h
  | succ k ih =>
    unfold Machine.visit
    refine .lift_andThen fun n _ => ?_
    have hbit : ∀ b, (path ++ [b]).length + k ≤ 255 := fun b => by rw [List.length_append, List.length_singleton]; omega
    split
    · exact h.setCode (by omega)
    · dsimp only
      split
      · exact h
      · refine (ih _ _ h (hbit _)).andThen fun _ t _ ht => ?_
        split
        · exact ht
        · exact ih _ _ ht (hbit _)

theorem buildcodesBody_keeps (h : InvInside s) : (buildcodesBody s).Leaves InvInside := by
  have hc : InvInside (s.setTab { s.tab with code := Memory.fill Config.symbolCount [] }) :=
    h.setTab h.tab.clearCode h.heapFilled
  unfold buildcodesBody
  dsimp only
  split
  · exact hc
  · refine .lift_andThen fun n _ => ?_
    split
    · exact hc.setCode (by decide)
    · exact hc.visit _ _ _ le_rfl

end Sys2Proof.Machine
end

section
/-! PROOFS. Every operation, every host access, and so every step keeps the invariant. -/

namespace Sys2Proof.Machine

variable {s t : State}

/-! ### Composites -/

theorem InvInside.runParts {parts : List (State → Res Unit)}
    (hp : ∀ part ∈ parts, ∀ u, InvInside u → (part u).Leaves InvInside) (h : InvInside s) :
    (runParts parts s).Leaves InvInside := by
  induction parts generalizing s with
  | nil => exact h
  | cons part parts ih =>
    exact (hp part List.mem_cons_self s h).andThen fun _ t _ ht => ih (fun q hq => hp q (List.mem_cons_of_mem _ hq)) ht

/-- The state a piece leaves has what it leaves, whether it raised or not. -/
theorem Res.Leaves.settled {P : State → Prop} {r : Res Unit} (h : r.Leaves P) (hr : settled r = .ok t) : P t := by
  cases r with
  | ok a u => exact Except.ok.inj hr ▸ h
  | raised e u => exact Except.ok.inj hr ▸ h
  | stop f => simp [Machine.settled] at hr

theorem InvInside.releaseHeld (h : InvInside s) (hr : releaseHeld s = .ok t) : InvInside t := by
  have source : ∀ u, InvInside u → (if u.rd.ropen then settled (rcloseBody u) else pure u) = .ok t → InvInside t := by
    intro u hu hr
    split at hr
    · exact (rcloseBody_keeps hu).settled hr
    · exact except_pure_ok.1 hr ▸ hu
  unfold Machine.releaseHeld at hr
  split at hr
  · obtain ⟨u, hu, hr⟩ := except_bind_ok.1 hr
    exact source u ((wcloseBody_keeps h).settled hu) hr
  · exact source s h hr

theorem InvInside.composite {parts : List (State → Res Unit)}
    (hp : ∀ part ∈ parts, ∀ u, InvInside u → (part u).Leaves InvInside) (h : InvInside s) :
    (composite parts s).Leaves InvInside := by
  have hrun := h.runParts hp
  rcases composite_cases parts s with ⟨-, hc⟩ | ⟨-, -, ⟨t, ht, hc⟩ | ⟨e, t, u, ht, hu, hc⟩ | ⟨f, -, hc⟩⟩ <;> rw [hc]
  · exact h
  · rwa [ht] at hrun
  · rw [ht] at hrun
    exact InvInside.releaseHeld hrun hu
  · trivial

theorem decompressBody_keeps (h : InvInside s) : (decompressBody s).Leaves InvInside := by
  refine h.composite fun part hpart u hu => ?_
  simp only [decompressParts, List.mem_cons, List.not_mem_nil, or_false] at hpart
  rcases hpart with rfl | rfl | rfl | rfl | rfl | rfl | rfl
  exacts [ropenBody_keeps hu, wopenBody_keeps hu, parsehdrBody_keeps hu, buildtreeBody_keeps hu, walkBody_keeps hu,
    wcloseBody_keeps hu, rcloseBody_keeps hu]

theorem compressBody_keeps (h : InvInside s) : (compressBody s).Leaves InvInside := by
  refine h.composite fun part hpart u hu => ?_
  simp only [compressParts, List.mem_cons, List.not_mem_nil, or_false] at hpart
  rcases hpart with rfl | rfl | rfl | rfl | rfl | rfl | rfl | rfl | rfl
  exacts [ropenBody_keeps hu, countfreqBody_keeps hu, rcloseBody_keeps hu, buildtreeBody_keeps hu,
    buildcodesBody_keeps hu, wopenBody_keeps hu, wrhdrBody_keeps hu, encodeBody_keeps hu, wcloseBody_keeps hu]

/-! ### Operations -/

/-- An operation keeps the invariant when its pseudocode does. -/
theorem issue_keeps {body : State → Res Unit} (hb : ∀ {u}, InvInside u → (body u).Leaves InvInside)
    (h : InvInside s) (hr : issue body s = .next t) : InvInside t := by
  have hleaves := hb h.clearResultFlags
  rcases issue_next hr with ⟨-, rfl⟩ | ⟨-, u, hu, rfl⟩ | ⟨-, e, u, hu, rfl⟩
  · exact h
  · rwa [hu] at hleaves
  · rw [hu] at hleaves
    exact InvInside.raiseError e hleaves

theorem exec_keeps (i : Instr) (h : InvInside s) (hr : exec i s = .next t) : InvInside t := by
  cases i with
  | nop => exact Host.Outcome.next.inj hr ▸ h
  | clrerr => exact Host.Outcome.next.inj hr ▸ h.clearResultFlags.acknowledge
  | sreset => exact Host.Outcome.next.inj hr ▸ h.softReset
  | ropen => exact issue_keeps ropenBody_keeps h hr
  | rclose => exact issue_keeps rcloseBody_keeps h hr
  | rdbit => exact issue_keeps rdbitBody_keeps h hr
  | rdbyte => exact issue_keeps rdbyteBody_keeps h hr
  | rdint => exact issue_keeps rdintBody_keeps h hr
  | wopen => exact issue_keeps wopenBody_keeps h hr
  | wclose => exact issue_keeps wcloseBody_keeps h hr
  | wrbit arg => exact issue_keeps wrbitBody_keeps (h.setArg arg) hr
  | wrbyte arg => exact issue_keeps wrbyteBody_keeps (h.setArg arg) hr
  | wrint arg => exact issue_keeps wrintBody_keeps (h.setArg arg) hr
  | flush => exact issue_keeps flushBody_keeps h hr
  | pqclr => exact issue_keeps (body := pqclrBody) (fun hu => hu.pqClear) h hr
  | pqins arg => exact issue_keeps pqinsBody_keeps (h.setArg arg) hr
  | pqdelmin => exact issue_keeps pqdelminBody_keeps h hr
  | pqsize => exact issue_keeps (body := pqsizeBody) (fun hu => hu.setResult _) h hr
  | pqempty => exact issue_keeps (body := pqemptyBody) (fun hu => hu.setResult _) h hr
  | buildtree => exact issue_keeps buildtreeBody_keeps h hr
  | buildcodes => exact issue_keeps buildcodesBody_keeps h hr
  | parsehdr => exact issue_keeps parsehdrBody_keeps h hr
  | walk => exact issue_keeps walkBody_keeps h hr
  | decompress => exact issue_keeps decompressBody_keeps h hr
  | countfreq => exact issue_keeps countfreqBody_keeps h hr
  | wrhdr => exact issue_keeps wrhdrBody_keeps h hr
  | encode => exact issue_keeps encodeBody_keeps h hr
  | compress => exact issue_keeps compressBody_keeps h hr

theorem illegalCommand_keeps (h : InvInside s) (hr : illegalCommand s = .next t) : InvInside t :=
  issue_keeps (body := (.raised .illegalCommand ·)) id h hr

/-- A command leaves the invariant whole: `CMD` is clear again (R38). -/
theorem runCommand_keeps (w : CmdWord) (h : InvInside s) (hr : runCommand w s = .next t) : Inv t := by
  have hcmd := h.setCmd (cmdOp w)
  have done : ∀ o : Out, (∀ u, o = .next u → InvInside u) → mapNext (·.setCmd 0#8) o = .next t → Inv t := by
    intro o ho hr
    cases o with
    | next u => exact Host.Outcome.next.inj hr ▸ (inv_iff _).2 ⟨(ho u rfl).setCmd 0#8, rfl⟩
    | fault r => simp [mapNext] at hr
    | refused r => simp [mapNext] at hr
  unfold runCommand at hr
  refine done _ (fun u hu => ?_) hr
  cases hd : decode w with
  | ok i => rw [hd] at hu; exact exec_keeps i hcmd hu
  | error e => rw [hd] at hu; exact illegalCommand_keeps hcmd hu

/-! ### Host accesses -/

theorem InvInside.writeReg (idx : Nat) (v : HostWord) (h : InvInside s) : InvInside (writeReg idx v s) := by
  unfold Machine.writeReg
  split
  · exact h.setArg v
  · exact h.setCtr { h.ctr with osizeFits := lowCount_le _ _ } rfl
  · exact h.setCtr { h.ctr with nsymFits := lowCount_le _ _ } rfl
  · split
    · exact h.setRoot _
    · exact h.accessError _
  · split
    · next hv => exact h.setCtr { h.ctr with inlenFits := hv } rfl
    · exact h.accessError _
  · exact h.accessError _

theorem InvInside.writeEntry {sp : Space} {idx : Nat} (v : Entry) (h : InvInside s) (hi : idx < sp.size s.par) :
    InvInside (s.writeEntry sp idx v) := by
  cases sp with
  | freq => exact h.setTab (h.tab.writeFreq hi (lowCount_le _ _)) h.heapFilled
  | node =>
    have hw : s.par.wW ≤ 40 := by
      obtain ⟨-, h32, -⟩ := (Config.Params.wf_iff _).1 h.params
      unfold Config.Params.wW
      omega
    have hn := Node.unpack_weight_lt hw v
    have guarded : ∀ b, InvInside ((s.guardQueue b).setTab
        { s.tab with node := s.tab.node.write idx (Node.unpack s.par.wW v) }) := by
      intro b
      cases b
      · exact h.setTab (h.tab.writeNode hi hn) h.heapFilled
      · exact (h.setPq _).setTab (h.tab.writeNode hi hn) h.heapFilled
    exact guarded _
  | heap => exact h.setTab (h.tab.setHeap (h.tab.heapForm.write hi _)) (Memory.filled_write _ h.heapFilled)
  | code =>
    have hlen : (unpackCode v).length ≤ 255 := by
      rw [unpackCode, List.length_map, List.length_range]
      exact Nat.le_of_lt_succ (v.extractLsb' 255 8).isLt
    exact h.setTab (h.tab.writeCode hi hlen) h.heapFilled
  | inbuf => exact h.setTab (h.tab.writeInbuf _ hi) h.heapFilled

theorem InvInside.readReg (idx : Nat) (h : InvInside s) : InvInside (readReg idx s) := by
  unfold Machine.readReg
  split
  · exact h.setEnv h.env
  · exact h.accessError _

theorem InvInside.readTable {sp : Space} {idx : Nat} (h : InvInside s) (hr : readTable sp idx s = .next t) :
    InvInside t := by
  unfold Machine.readTable at hr
  split at hr
  · split at hr
    · exact Host.Outcome.next.inj hr ▸ h.setEnv h.env
    · simp at hr
  · exact Host.Outcome.next.inj hr ▸ h.accessError _

theorem InvInside.writeTable (sp : Space) (idx : Nat) (v : Entry) (h : InvInside s) :
    InvInside (writeTable sp idx v s) := by
  unfold Machine.writeTable
  split
  · next hi => exact h.writeEntry v hi
  · exact h.accessError _

theorem hostAccess_keeps (ev : HostEvent) (h : InvInside s) (hr : hostAccess ev s = .next t) : InvInside t := by
  cases ev with
  | command w => exact Host.Outcome.next.inj hr ▸ h
  | regRead idx => exact Host.Outcome.next.inj hr ▸ h.readReg idx
  | regWrite idx v => exact Host.Outcome.next.inj hr ▸ h.writeReg idx v
  | tblRead sp idx => exact h.readTable hr
  | tblWrite sp idx v => exact Host.Outcome.next.inj hr ▸ h.writeTable sp idx v
  | presentSrc bytes pos => exact Host.Outcome.next.inj hr ▸ h.setEnv (Nat.min_le_right _ _)
  | presentSnk bytes => exact Host.Outcome.next.inj hr ▸ h.setEnv h.env
  | hardReset => exact Host.Outcome.next.inj hr ▸ h.hardReset

/-! ### `CMD` -/

@[simp] theorem accessError_cmd (e : ErrCode) (s : State) : (accessError e s).reg.cmd = s.reg.cmd := by
  unfold accessError
  split <;> rfl

@[simp] theorem readReg_cmd (idx : Nat) (s : State) : (readReg idx s).reg.cmd = s.reg.cmd := by
  unfold readReg
  split <;> simp

@[simp] theorem writeReg_cmd (idx : Nat) (v : HostWord) (s : State) : (writeReg idx v s).reg.cmd = s.reg.cmd := by
  unfold writeReg
  repeat' split
  all_goals simp

@[simp] theorem writeTable_cmd (sp : Space) (idx : Nat) (v : Entry) (s : State) :
    (writeTable sp idx v s).reg.cmd = s.reg.cmd := by
  unfold writeTable
  split
  · cases sp
    case node => unfold State.writeEntry State.guardQueue; dsimp only; split <;> rfl
    all_goals rfl
  · simp

theorem readTable_cmd {sp : Space} {idx : Nat} (hr : readTable sp idx s = .next t) : t.reg.cmd = s.reg.cmd := by
  unfold readTable at hr
  split at hr
  · split at hr
    · rw [← Host.Outcome.next.inj hr]; rfl
    · simp at hr
  · rw [← Host.Outcome.next.inj hr]; simp

/-- No host access writes `CMD`, and hard reset clears it (R40). -/
theorem hostAccess_cmd (ev : HostEvent) (h : s.reg.cmd = 0#8) (hr : hostAccess ev s = .next t) : t.reg.cmd = 0#8 := by
  cases ev with
  | command w => exact Host.Outcome.next.inj hr ▸ h
  | regRead idx => rw [← Host.Outcome.next.inj hr, readReg_cmd, h]
  | regWrite idx v => rw [← Host.Outcome.next.inj hr, writeReg_cmd, h]
  | tblRead sp idx => rw [readTable_cmd hr, h]
  | tblWrite sp idx v => rw [← Host.Outcome.next.inj hr, writeTable_cmd, h]
  | presentSrc bytes pos => exact Host.Outcome.next.inj hr ▸ h
  | presentSnk bytes => exact Host.Outcome.next.inj hr ▸ h
  | hardReset => exact Host.Outcome.next.inj hr ▸ rfl

/-! ### The step -/

/-- Settles O59: a step without an event changes nothing, one that issues a command runs pseudocode that keeps the
invariant piece by piece, and every other event is an access that keeps it. -/
theorem everyStepKeepsTheInvariant : Obligations.EveryStepKeepsTheInvariant := by
  intro s t h hr
  obtain ⟨hin, hcmd⟩ := (inv_iff s).1 h
  unfold step at hr
  split at hr
  · exact Host.Outcome.next.inj hr ▸ h
  · next ev rest _ =>
    have hpop : InvInside (s.popScript rest) := hin.setEnv hin.env
    dsimp only at hr
    split at hr
    · exact runCommand_keeps _ hpop hr
    · exact (inv_iff t).2 ⟨hostAccess_keeps ev hpop hr, hostAccess_cmd (s := s.popScript rest) ev hcmd hr⟩

end Sys2Proof.Machine
end

section
/-! PROOFS. What the host reads and writes in the registers, and the machine after reset. -/

namespace Sys2Proof.Machine

/-! ### Reset -/

/-- Settles O58: each group of registers at its reset value meets its part of the invariant. -/
theorem resetMeetsTheInvariant : Obligations.ResetMeetsTheInvariant :=
  (inv_iff State.reset).2
    ⟨{ params := by decide
       tab := .reset _
       ctr := .reset _
       heapFilled := rfl
       rd := .emptied false
       wr := .emptied false _
       reg := .reset
       env := le_rfl }, rfl⟩

/-! ### A host read of a register -/

/-- The flags of `STATUS` by their places (R36). -/
theorem status_eq (s : State) :
    s.status.setWidth 32 = BitVec.ofNat 32 (s.reg.err.toNat + 2 * s.reg.eos.toNat + 4 * s.reg.empty.toNat
      + 8 * s.rd.ropen.toNat + 16 * s.wr.wopen.toNat) := by
  have flags : ∀ err eos empty ropen wopen : Bool,
      (0#3 ++ BitVec.ofBool wopen ++ BitVec.ofBool ropen ++ BitVec.ofBool empty ++ BitVec.ofBool eos
        ++ BitVec.ofBool err).setWidth 32 =
      BitVec.ofNat 32 (err.toNat + 2 * eos.toNat + 4 * empty.toNat + 8 * ropen.toNat + 16 * wopen.toNat) := by
    decide
  exact flags _ _ _ _ _

/-- A field put below another adds to it, the upper one moved up by the lower one's width. -/
theorem toNat_append_add {m n : Nat} (x : BitVec m) (y : BitVec n) : (x ++ y).toNat = x.toNat * 2 ^ n + y.toNat := by
  rw [BitVec.toNat_append, ← Nat.shiftLeft_add_eq_or_of_lt y.isLt, Nat.shiftLeft_eq]

/-- The fields of `BITSTATE` by their places (R38). -/
theorem bitstate_eq (s : State) :
    s.bitstate = BitVec.ofNat 32 (s.wr.wbuf.toNat * 2 ^ 24 + s.wr.wcnt.toNat * 2 ^ 16 + s.rd.rbuf.toNat * 2 ^ 8
      + s.rd.rcnt.toNat) := by
  apply BitVec.eq_of_toNat_eq
  unfold State.bitstate
  simp only [toNat_append_add, BitVec.toNat_ofNat]
  have := s.wr.wbuf.isLt
  have := s.wr.wcnt.isLt
  have := s.rd.rbuf.isLt
  have := s.rd.rcnt.isLt
  omega

/-- An event that reads a register is a read of it, and nothing else (R38). -/
theorem step_regRead {s : State} {idx : Nat} {rest : List HostEvent} (h : s.env.script = .regRead idx :: rest) :
    step s = .next (readReg idx (s.popScript rest)) := by
  rw [step, h]
  rfl

/-- An event that writes a register other than `CMD` is a write of it, and nothing else (R38). -/
theorem step_regWrite {s : State} {idx : Nat} {v : HostWord} {rest : List HostEvent}
    (h : s.env.script = .regWrite idx v :: rest) (hidx : idx ≠ 0) :
    step s = .next (writeReg idx v (s.popScript rest)) := by
  obtain ⟨k, rfl⟩ := Nat.exists_eq_succ_of_ne_zero hidx
  rw [step, h]
  rfl

/-- No register has an index above 15 (R38). -/
theorem regValue_none {s : State} {idx : Nat} (h : 15 < idx) : s.regValue idx = none := by
  obtain ⟨k, rfl⟩ : ∃ k, idx = k + 16 := ⟨idx - 16, by omega⟩
  rfl

/-- Settles O54. -/
theorem hostReadsRegisters : Obligations.HostReadsRegisters := by
  intro s idx rest h
  rw [step_regRead h]
  constructor
  · intro v hv
    have shown : (s.popScript rest).regValue idx = some v := by
      obtain ⟨hlt, -⟩ := List.getElem?_eq_some_iff.1 hv
      change idx < 16 at hlt
      rw [← hv]
      match idx, hlt with
      | 3, _ => exact congrArg some (status_eq s)
      | 15, _ => exact congrArg some (bitstate_eq s)
      | 0, _ | 1, _ | 2, _ | 4, _ | 5, _ | 6, _ | 7, _ | 8, _ | 9, _ | 10, _ | 11, _ | 12, _ | 13, _ | 14, _ => rfl
    rw [readReg, shown]
    rfl
  · intro hidx
    rw [readReg, regValue_none hidx]
    rfl

/-! ### A host write of a register -/

/-- The registers that a host can only read, and the indices of none, refuse a write (R38). -/
theorem writeReg_refused {idx : Nat} (v : HostWord) (s : State) (h : idx ∉ [0, 1, 5, 6, 8, 11]) :
    writeReg idx v s = accessError .illegalCommand s := by
  unfold writeReg
  split
  case h_6 => rfl
  all_goals simp at h

/-- Settles O55. -/
theorem hostWritesRegisters : Obligations.HostWritesRegisters := by
  intro s idx v rest h
  refine ⟨?_, ?_, ?_, ?_, ?_, fun hidx => ?_⟩
  case refine_6 =>
    rw [step_regWrite h fun h0 => hidx (h0 ▸ List.mem_cons_self), writeReg_refused v _ hidx]
    rfl
  all_goals
    rintro rfl
    rw [step_regWrite h (by decide)]
    rfl

end Sys2Proof.Machine
end

section
/-! PROOFS. Which operations write `RESULT`, `ARG` and the result flags (R35, R36). The stream, bit and table primitives
write no host register, so they keep every property of them; an operation's pseudocode keeps a property that is blind to
the fields its rule writes. -/

namespace Sys2Proof.Machine

variable {s t : State} {Q : Regs → Prop}

/-! ### The fields written -/

/-- A property of the host registers that no value of `RESULT` changes. -/
def IgnoresResult (Q : Regs → Prop) : Prop := ∀ r v, Q r → Q { r with result := v }

/-- A property of the host registers that stays when `STATUS.EOS` is set. -/
def IgnoresEos (Q : Regs → Prop) : Prop := ∀ r, Q r → Q { r with eos := true }

/-- A property of the host registers that stays when `STATUS.EMPTY` is set. -/
def IgnoresEmpty (Q : Regs → Prop) : Prop := ∀ r, Q r → Q { r with empty := true }

/-- A property of the host registers that no error state changes. -/
def IgnoresError (Q : Regs → Prop) : Prop := ∀ r b c, Q r → Q { r with err := b, errcode := c }

/-- The operations that write `RESULT`, `SRESET` apart (R35). -/
def resultWriters : List Instr :=
  [.rdbit, .rdbyte, .rdint, .pqdelmin, .pqsize, .pqempty, .buildtree, .walk, .decompress, .compress]

/-- The operations that read `SRC` to its end (R36). -/
def eosWriters : List Instr := [.rdbit, .rdbyte, .rdint, .parsehdr, .walk, .decompress, .countfreq, .compress]

theorem IgnoresResult.eosSentinel (hv : IgnoresResult Q) (he : IgnoresEos Q) (h : Q s.reg) : Q (eosSentinel s).reg :=
  hv _ _ (he _ h)

/-! ### Streams and bits -/

theorem srcRead_regs (h : Q s.reg) : (srcRead s).Leaves (Q ·.reg) := by
  rcases srcRead_cases s with ⟨_, -, -, hr⟩ | ⟨-, -, hr⟩ | ⟨-, hr⟩ <;> rw [hr] <;> exact h

theorem snkWrite_regs (b : Byte) (h : Q s.reg) : (snkWrite b s).Leaves (Q ·.reg) := by
  rcases snkWrite_cases b s with ⟨-, hr⟩ | ⟨-, hr⟩ <;> rw [hr] <;> exact h

theorem acquire_regs (h : Q s.reg) : (acquire s).Leaves (Q ·.reg) := by
  rcases acquire_cases s with ⟨-, hr⟩ | ⟨-, hr⟩ <;> rw [hr] <;> exact h

theorem readBit_regs (h : Q s.reg) : (readBit s).Leaves (Q ·.reg) := by
  rcases readBit_cases s with ⟨-, hr⟩ | ⟨-, -, _, -, hr⟩ | ⟨-, -, -, hr⟩ | ⟨-, -, hr⟩ <;> rw [hr] <;> exact h

theorem writeBit_regs (b : Bool) (h : Q s.reg) : (writeBit b s).Leaves (Q ·.reg) := by
  rcases writeBit_cases b s with ⟨-, hr⟩ | ⟨-, hr⟩ <;> rw [hr]
  · exact h
  · exact snkWrite_regs _ h

theorem flushBits_regs (h : Q s.reg) : (flushBits s).Leaves (Q ·.reg) := by
  rcases flushBits_cases s with ⟨-, hr⟩ | ⟨-, hr⟩ <;> rw [hr]
  · exact h
  · exact snkWrite_regs _ h

theorem emit_regs (bs : List Byte) (h : Q s.reg) : (emit bs s).Leaves (Q ·.reg) := by
  induction bs generalizing s with
  | nil => exact h
  | cons b bs ih => exact (snkWrite_regs b h).andThen fun _ _ _ ht => ih ht

theorem writeBits_regs (bs : List Bool) (h : Q s.reg) : (writeBits bs s).Leaves (Q ·.reg) := by
  induction bs generalizing s with
  | nil => exact h
  | cons b bs ih => exact (writeBit_regs b h).andThen fun _ _ _ ht => ih ht

theorem readBytes_regs (k : Nat) (v : HostWord) (h : Q s.reg) : (readBytes k v s).Leaves (Q ·.reg) := by
  induction k generalizing v s with
  | zero => exact h
  | succ k ih =>
    refine (srcRead_regs h).andThen fun r t _ ht => ?_
    cases r with
    | none => exact ht
    | some b => exact ih _ ht

/-! ### Bit-stream I/O -/

theorem ropenBody_regs (h : Q s.reg) : (ropenBody s).Leaves (Q ·.reg) := by
  unfold ropenBody
  split
  · exact h
  · exact (acquire_regs h).andThen fun _ _ _ ht => ht

theorem rcloseBody_regs (h : Q s.reg) : (rcloseBody s).Leaves (Q ·.reg) := by
  unfold rcloseBody
  split <;> exact h

theorem rdbitBody_regs (hv : IgnoresResult Q) (he : IgnoresEos Q) (h : Q s.reg) :
    (rdbitBody s).Leaves (Q ·.reg) := by
  unfold rdbitBody
  split
  · refine (readBit_regs h).andThen fun r t _ ht => ?_
    cases r with
    | none => exact hv.eosSentinel he ht
    | some b => exact hv _ _ ht
  · exact h

theorem rdbyteBody_regs (hv : IgnoresResult Q) (he : IgnoresEos Q) (h : Q s.reg) :
    (rdbyteBody s).Leaves (Q ·.reg) := by
  unfold rdbyteBody
  split
  · refine (srcRead_regs h).andThen fun r t _ ht => ?_
    cases r with
    | none => exact hv.eosSentinel he ht
    | some b => exact hv _ _ ht
  · exact h

theorem rdintBody_regs (hv : IgnoresResult Q) (he : IgnoresEos Q) (h : Q s.reg) :
    (rdintBody s).Leaves (Q ·.reg) := by
  unfold rdintBody
  split
  · refine (readBytes_regs 4 _ h).andThen fun r t _ ht => ?_
    cases r with
    | none => exact hv.eosSentinel he ht
    | some v => exact hv _ _ ht
  · exact h

theorem wopenBody_regs (h : Q s.reg) : (wopenBody s).Leaves (Q ·.reg) := by
  unfold wopenBody
  split
  · exact h
  · exact (acquire_regs h).andThen fun _ _ _ ht => ht

theorem wcloseBody_regs (h : Q s.reg) : (wcloseBody s).Leaves (Q ·.reg) := by
  rcases wcloseBody_cases s with ⟨-, hr⟩ | ⟨-, t, -, -, -, -, hreg, -, -, hr | hr⟩ <;> rw [hr]
  · exact h
  all_goals exact show Q t.reg from hreg ▸ h

theorem wrbitBody_regs (h : Q s.reg) : (wrbitBody s).Leaves (Q ·.reg) := by
  unfold wrbitBody
  split
  · split
    · exact writeBit_regs _ h
    · exact h
  · exact h

theorem wrbyteBody_regs (h : Q s.reg) : (wrbyteBody s).Leaves (Q ·.reg) := by
  unfold wrbyteBody
  split
  · split
    · exact snkWrite_regs _ h
    · exact h
  · exact h

theorem wrintBody_regs (h : Q s.reg) : (wrintBody s).Leaves (Q ·.reg) := by
  unfold wrintBody
  split
  · exact emit_regs _ h
  · exact h

theorem flushBody_regs (h : Q s.reg) : (flushBody s).Leaves (Q ·.reg) := by
  unfold flushBody
  split
  · exact flushBits_regs h
  · exact h

/-! ### The queue and the tree builder -/

theorem pqInsert_reg {id : NodeId} (h : pqInsert id s = .ok t) : t.reg = s.reg := by
  obtain ⟨heap, ev, rfl⟩ := pqInsert_ok h
  rfl

theorem pqPop_reg {m : NodeId} (h : pqPop s = .ok (m, t)) : t.reg = s.reg := by
  obtain ⟨-, heap, rfl⟩ := pqPop_ok h
  rfl

theorem allocNode_reg {n : Node} (h : allocNode n s = .ok t) : t.reg = s.reg := by
  obtain ⟨u, hu, h⟩ := except_bind_ok.1 h
  obtain rfl := except_pure_ok.1 h
  exact (pqInsert_reg hu :)

theorem addLeaves_reg {es : List (Nat × Count)} (h : addLeaves es s = .ok t) : t.reg = s.reg := by
  induction es generalizing s with
  | nil => rw [← Except.ok.inj h]
  | cons e es ih =>
    obtain ⟨u, hu, h⟩ := except_bind_ok.1 h
    exact (ih h).trans (allocNode_reg hu)

theorem mergeOnce_reg (h : mergeOnce s = .ok t) : t.reg = s.reg := by
  obtain ⟨⟨a, u₁⟩, h₁, h⟩ := except_bind_ok.1 h
  obtain ⟨⟨b, u₂⟩, h₂, h⟩ := except_bind_ok.1 h
  obtain ⟨wa, -, h⟩ := except_bind_ok.1 h
  obtain ⟨wb, -, h⟩ := except_bind_ok.1 h
  exact (allocNode_reg h).trans ((pqPop_reg h₂).trans (pqPop_reg h₁))

theorem mergeAll_reg {turns : Nat} (h : mergeAll turns s = .ok t) : t.reg = s.reg := by
  induction turns generalizing s with
  | zero => rw [← Except.ok.inj h]
  | succ turns ih =>
    unfold mergeAll at h
    split at h
    · rw [← Except.ok.inj h]
    · obtain ⟨u, hu, h⟩ := except_bind_ok.1 h
      exact (ih h).trans (mergeOnce_reg hu)

/-- `BUILDTREE` writes `RESULT` once, at its end (R180). -/
theorem buildTree_reg (h : buildTree s = .ok t) : ∃ v, t.reg = { s.reg with result := v } := by
  obtain ⟨pairs, -, h⟩ := except_bind_ok.1 h
  obtain ⟨u, hu, h⟩ := except_bind_ok.1 h
  have hreg : u.reg = s.reg := (addLeaves_reg hu :)
  split at h
  · obtain rfl := except_pure_ok.1 h
    exact ⟨_, by rw [State.setResult_reg, hreg]⟩
  · obtain ⟨v, hv, h⟩ := except_bind_ok.1 h
    obtain ⟨⟨r, x⟩, hx, h⟩ := except_bind_ok.1 h
    obtain rfl := except_pure_ok.1 h
    exact ⟨_, by rw [State.setResult_reg, State.setCtr_reg, pqPop_reg hx, mergeAll_reg hv, hreg]⟩

theorem pqinsBody_regs (h : Q s.reg) : (pqinsBody s).Leaves (Q ·.reg) := by
  unfold pqinsBody
  split
  · exact h
  · split
    · exact .lift_andThen fun t ht => show Q t.reg from pqInsert_reg ht ▸ h
    · exact h

theorem pqdelminBody_regs (hv : IgnoresResult Q) (hm : IgnoresEmpty Q) (h : Q s.reg) :
    (pqdelminBody s).Leaves (Q ·.reg) := by
  unfold pqdelminBody
  split
  · exact hv _ _ (hm _ h)
  · exact .lift_andThen fun r hr => hv r.2.reg _ (pqPop_reg hr ▸ h)

theorem buildtreeBody_regs (hv : IgnoresResult Q) (h : Q s.reg) : (buildtreeBody s).Leaves (Q ·.reg) := by
  refine .lift_andThen fun t ht => ?_
  obtain ⟨v, hreg⟩ := buildTree_reg ht
  exact show Q t.reg from hreg ▸ hv _ v h

theorem visit_regs (edges : Nat) (id : NodeId) (path : Code) (h : Q s.reg) :
    (visit edges id path s).Leaves (Q ·.reg) := by
  induction edges generalizing id path s with
  | zero =>
    unfold visit
    refine .lift_andThen fun n _ => ?_
    split <;> exact h
  | succ k ih =>
    unfold visit
    refine .lift_andThen fun n _ => ?_
    split
    · exact h
    · dsimp only
      split
      · exact h
      · refine (ih _ _ h).andThen fun _ t _ ht => ?_
        split
        · exact ht
        · exact ih _ _ ht

theorem buildcodesBody_regs (h : Q s.reg) : (buildcodesBody s).Leaves (Q ·.reg) := by
  unfold buildcodesBody
  dsimp only
  split
  · exact h
  · refine .lift_andThen fun n _ => ?_
    split
    · exact h
    · exact visit_regs _ _ _ h

/-! ### Decode -/

theorem processLine_regs (line : List Byte) (h : Q s.reg) : (processLine line s).Leaves (Q ·.reg) := by
  unfold processLine
  repeat' split
  all_goals exact h

theorem headerLoop_regs (he : IgnoresEos Q) (k : Nat) (line : List Byte) (h : Q s.reg) :
    (headerLoop k line s).Leaves (Q ·.reg) := by
  induction k generalizing line s with
  | zero => trivial
  | succ k ih =>
    refine (srcRead_regs h).andThen fun r t _ ht => ?_
    cases r with
    | none =>
      refine (processLine_regs line (s := setEos t) (he _ ht)).andThen fun done u _ hu => ?_
      cases done <;> exact hu
    | some b =>
      dsimp only
      split
      · refine (processLine_regs line ht).andThen fun done u _ hu => ?_
        cases done
        · exact ih _ hu
        · exact hu
      · exact ih _ ht

theorem parsehdrBody_regs (he : IgnoresEos Q) (h : Q s.reg) : (parsehdrBody s).Leaves (Q ·.reg) := by
  unfold parsehdrBody
  split
  · exact headerLoop_regs he _ _ h
  · exact h

theorem emitRepeat_regs (k : Nat) (b : Byte) (h : Q s.reg) : (emitRepeat k b s).Leaves (Q ·.reg) := by
  induction k generalizing s with
  | zero => exact h
  | succ k ih => exact (snkWrite_regs b h).andThen fun _ _ _ ht => ih ht

theorem walkStep_regs (b : Bool) (h : Q s.reg) : (walkStep b s).Leaves (Q ·.reg) := by
  refine .lift_andThen fun n _ => ?_
  dsimp only
  generalize (if b = true then n.right else n.left) = next
  split
  · exact h
  · refine .lift_andThen fun m _ => ?_
    split
    · exact h
    · exact (snkWrite_regs m.symbol (s := s.setCtr { s.ctr with cur := next }) h).andThen fun _ _ _ hu => hu

theorem walkLoop_regs (he : IgnoresEos Q) (k : Nat) (h : Q s.reg) : (walkLoop k s).Leaves (Q ·.reg) := by
  induction k generalizing s with
  | zero => trivial
  | succ k ih =>
    unfold walkLoop
    split
    · refine (readBit_regs h).andThen fun r t _ ht => ?_
      cases r with
      | none => exact he _ ht
      | some b => exact (walkStep_regs b ht).andThen fun _ _ _ hu => ih hu
    · exact h

theorem walkBody_regs (hv : IgnoresResult Q) (he : IgnoresEos Q) (h : Q s.reg) : (walkBody s).Leaves (Q ·.reg) := by
  unfold walkBody
  split
  · dsimp only
    split
    · exact hv _ _ h
    · refine .lift_andThen fun n _ => Res.Leaves.andThen ?_ fun _ _ _ hu => hv _ _ hu
      split
      · exact emitRepeat_regs _ _ h
      · exact walkLoop_regs he _ h
  · exact h

/-! ### Compress -/

theorem countByte_regs (b : Byte) (h : Q s.reg) : (countByte b s).Leaves (Q ·.reg) := by
  unfold countByte
  split
  · exact h
  · exact .lift_andThen fun _ _ => h

theorem countLoop_regs (he : IgnoresEos Q) (k : Nat) (h : Q s.reg) : (countLoop k s).Leaves (Q ·.reg) := by
  induction k generalizing s with
  | zero => trivial
  | succ k ih =>
    refine (srcRead_regs h).andThen fun r t _ ht => ?_
    cases r with
    | none => exact he _ ht
    | some b => exact (countByte_regs b ht).andThen fun _ _ _ hu => ih hu

theorem countfreqBody_regs (he : IgnoresEos Q) (h : Q s.reg) : (countfreqBody s).Leaves (Q ·.reg) := by
  unfold countfreqBody
  split
  · exact (countLoop_regs he _ (s := clearCounts s) h).andThen fun _ _ _ ht => .lift_andThen fun _ _ => ht
  · exact h

theorem wrhdrBody_regs (h : Q s.reg) : (wrhdrBody s).Leaves (Q ·.reg) := by
  unfold wrhdrBody
  split
  · exact .lift_andThen fun _ _ => emit_regs _ h
  · exact h

theorem encodeLoop_regs (k i : Nat) (h : Q s.reg) : (encodeLoop k i s).Leaves (Q ·.reg) := by
  induction k generalizing i s with
  | zero => exact h
  | succ k ih =>
    refine .lift_andThen fun b _ => Res.Leaves.andThen (.lift_andThen fun c _ => ?_) fun _ _ _ ht => ih _ ht
    split
    · exact h
    · exact writeBits_regs c h

theorem encodeBody_regs (h : Q s.reg) : (encodeBody s).Leaves (Q ·.reg) := by
  unfold encodeBody
  split
  · exact (encodeLoop_regs _ 0 h).andThen fun _ _ _ ht => flushBits_regs ht
  · exact h

/-! ### Composites -/

/-- What each part of a composite leaves, the parts in order leave. -/
theorem runParts_leaves {P : State → Prop} {parts : List (State → Res Unit)}
    (hp : ∀ part ∈ parts, ∀ u, P u → (part u).Leaves P) (h : P s) : (runParts parts s).Leaves P := by
  induction parts generalizing s with
  | nil => exact h
  | cons part parts ih =>
    exact (hp part List.mem_cons_self s h).andThen fun _ t _ ht => ih (fun q hq => hp q (List.mem_cons_of_mem _ hq)) ht

/-- The releases of a composite write no host register (R206). -/
theorem composite_regs {parts : List (State → Res Unit)}
    (hp : ∀ part ∈ parts, ∀ u : State, Q u.reg → (part u).Leaves (Q ·.reg)) (h : Q s.reg) :
    (composite parts s).Leaves (Q ·.reg) := by
  have hrun : (runParts parts s).Leaves (Q ·.reg) := runParts_leaves hp h
  rcases composite_cases parts s with ⟨-, hc⟩ | ⟨-, -, ⟨t, ht, hc⟩ | ⟨e, t, u, ht, hu, hc⟩ | ⟨f, -, hc⟩⟩ <;> rw [hc]
  · exact h
  · rwa [ht] at hrun
  · obtain ⟨v, hv, -, -, -, -, hreg, -⟩ := releaseHeld_ok t
    obtain rfl := Except.ok.inj (hu.symm.trans hv)
    rw [ht] at hrun
    exact show Q u.reg from hreg ▸ hrun
  · trivial

theorem decompressBody_regs (hv : IgnoresResult Q) (he : IgnoresEos Q) (h : Q s.reg) :
    (decompressBody s).Leaves (Q ·.reg) := by
  refine composite_regs (fun part hpart u hu => ?_) h
  simp only [decompressParts, List.mem_cons, List.not_mem_nil, or_false] at hpart
  rcases hpart with rfl | rfl | rfl | rfl | rfl | rfl | rfl
  exacts [ropenBody_regs hu, wopenBody_regs hu, parsehdrBody_regs he hu, buildtreeBody_regs hv hu,
    walkBody_regs hv he hu, wcloseBody_regs hu, rcloseBody_regs hu]

theorem compressBody_regs (hv : IgnoresResult Q) (he : IgnoresEos Q) (h : Q s.reg) :
    (compressBody s).Leaves (Q ·.reg) := by
  refine composite_regs (fun part hpart u hu => ?_) h
  simp only [compressParts, List.mem_cons, List.not_mem_nil, or_false] at hpart
  rcases hpart with rfl | rfl | rfl | rfl | rfl | rfl | rfl | rfl | rfl
  exacts [ropenBody_regs hu, countfreqBody_regs he hu, rcloseBody_regs hu, buildtreeBody_regs hv hu,
    buildcodesBody_regs hu, wopenBody_regs hu, wrhdrBody_regs hu, encodeBody_regs hu, wcloseBody_regs hu]

/-! ### Operations -/

/-- An issued operation keeps a property of the host registers that the prelude gives and its pseudocode keeps. -/
theorem issue_regs {body : State → Res Unit} (herr : IgnoresError Q) (hd : s.reg.err = true → Q s.reg)
    (hc : Q (clearResultFlags s).reg) (hr : issue body s = .next t)
    (hb : ∀ {u : State}, Q u.reg → (body u).Leaves (Q ·.reg)) : Q t.reg := by
  have hleaves : (body (clearResultFlags s)).Leaves (Q ·.reg) := hb hc
  rcases issue_next hr with ⟨hs, rfl⟩ | ⟨-, u, hu, rfl⟩ | ⟨-, e, u, hu, rfl⟩
  · exact hd hs
  · rwa [hu] at hleaves
  · rw [hu] at hleaves
    exact herr _ _ _ hleaves

/-- An operation other than `SRESET` keeps a property of the host registers that holds once `ARG` is written, of them
as they are where it does nothing, and with the result flags cleared where it runs, if the property is blind to the
error state and to the fields that the operation's rule writes. -/
theorem exec_regs {i : Instr} (hi : i ≠ .sreset) (herr : IgnoresError Q)
    (hv : i ∈ resultWriters → IgnoresResult Q) (he : i ∈ eosWriters → IgnoresEos Q)
    (hm : i = .pqdelmin → IgnoresEmpty Q)
    (hd : i = .nop ∨ s.reg.err = true → Q { s.reg with arg := (operand? i).getD s.reg.arg })
    (hc : Q { s.reg with arg := (operand? i).getD s.reg.arg, eos := false, empty := false })
    (hr : exec i s = .next t) : Q t.reg := by
  have hd' := fun h => hd (.inr h)
  cases i with
  | nop => exact Host.Outcome.next.inj hr ▸ hd (.inl rfl)
  | clrerr => exact Host.Outcome.next.inj hr ▸ herr _ _ _ hc
  | sreset => exact absurd rfl hi
  | ropen => exact issue_regs herr hd' hc hr ropenBody_regs
  | rclose => exact issue_regs herr hd' hc hr rcloseBody_regs
  | rdbit => exact issue_regs herr hd' hc hr (rdbitBody_regs (hv (by decide)) (he (by decide)))
  | rdbyte => exact issue_regs herr hd' hc hr (rdbyteBody_regs (hv (by decide)) (he (by decide)))
  | rdint => exact issue_regs herr hd' hc hr (rdintBody_regs (hv (by decide)) (he (by decide)))
  | wopen => exact issue_regs herr hd' hc hr wopenBody_regs
  | wclose => exact issue_regs herr hd' hc hr wcloseBody_regs
  | wrbit arg => exact issue_regs (s := s.setArg arg) herr hd' hc hr wrbitBody_regs
  | wrbyte arg => exact issue_regs (s := s.setArg arg) herr hd' hc hr wrbyteBody_regs
  | wrint arg => exact issue_regs (s := s.setArg arg) herr hd' hc hr wrintBody_regs
  | flush => exact issue_regs herr hd' hc hr flushBody_regs
  | pqclr => exact issue_regs (body := pqclrBody) herr hd' hc hr id
  | pqins arg => exact issue_regs (s := s.setArg arg) herr hd' hc hr pqinsBody_regs
  | pqdelmin => exact issue_regs herr hd' hc hr (pqdelminBody_regs (hv (by decide)) (hm rfl))
  | pqsize => exact issue_regs (body := pqsizeBody) herr hd' hc hr (hv (by decide) _ _)
  | pqempty => exact issue_regs (body := pqemptyBody) herr hd' hc hr (hv (by decide) _ _)
  | buildtree => exact issue_regs herr hd' hc hr (buildtreeBody_regs (hv (by decide)))
  | buildcodes => exact issue_regs herr hd' hc hr buildcodesBody_regs
  | parsehdr => exact issue_regs herr hd' hc hr (parsehdrBody_regs (he (by decide)))
  | walk => exact issue_regs herr hd' hc hr (walkBody_regs (hv (by decide)) (he (by decide)))
  | decompress => exact issue_regs herr hd' hc hr (decompressBody_regs (hv (by decide)) (he (by decide)))
  | countfreq => exact issue_regs herr hd' hc hr (countfreqBody_regs (he (by decide)))
  | wrhdr => exact issue_regs herr hd' hc hr wrhdrBody_regs
  | encode => exact issue_regs herr hd' hc hr encodeBody_regs
  | compress => exact issue_regs herr hd' hc hr (compressBody_regs (hv (by decide)) (he (by decide)))

/-- Settles O49: of each field, the property that it stands as the prelude left it is blind to every other field, so
an operation that does not write it keeps it. -/
theorem onlyListedOperationsWriteResultAndFlags : Obligations.OnlyListedOperationsWriteResultAndFlags := by
  intro i s t hr hi
  have issued : t.reg.cmd = s.reg.cmd ∧ t.reg.arg = (operand? i).getD s.reg.arg :=
    exec_regs (Q := fun r => r.cmd = s.reg.cmd ∧ r.arg = (operand? i).getD s.reg.arg) hi (fun _ _ _ => id)
      (fun _ _ _ => id) (fun _ _ => id) (fun _ _ => id) (fun _ => ⟨rfl, rfl⟩) ⟨rfl, rfl⟩ hr
  refine ⟨issued.1, issued.2, fun hres => ?_, fun herr hnop => ?_⟩
  · exact exec_regs (Q := fun r => r.result = s.reg.result) hi (fun _ _ _ => id) (fun h => absurd h hres)
      (fun _ _ => id) (fun _ _ => id) (fun _ => rfl) rfl hr
  · have runs : ¬(i = .nop ∨ s.reg.err = true) := by simp [hnop, herr]
    constructor
    · intro heos
      by_contra hne
      have : t.reg.eos = false := exec_regs (Q := fun r => r.eos = false) hi (fun _ _ _ => id) (fun _ _ _ => id)
        (fun h => absurd h hne) (fun _ _ => id) (fun h => absurd h runs) rfl hr
      simp [this] at heos
    · intro hempty
      by_contra hne
      have : t.reg.empty = false := exec_regs (Q := fun r => r.empty = false) hi (fun _ _ _ => id) (fun _ _ _ => id)
        (fun _ _ => id) (fun h => absurd h hne) (fun h => absurd h runs) rfl hr
      simp [this] at hempty

end Sys2Proof.Machine
end

section
/-! PROOFS. What `WALK` writes, however it ends: its loops are followed from any state inside them, with the bytes
emitted from there on and what the links say of them (R201, R202, R204). -/

namespace Sys2Proof.Machine

variable {s t u : State}

/-! ### The bits of the reader -/

/-- A byte's bits are its bit 7 and then those that stay in the buffer (R21, R63). -/
theorem byteBits_eq (b : Byte) : byteBits b = b.getLsbD 7 :: (List.range 7).map fun i => b.getLsbD (6 - i) := rfl

theorem pendingRead_of_rcnt_eq_zero (h : s.rd.rcnt = 0#4) : s.pendingRead = [] := by
  rw [State.pendingRead, h]
  rfl

/-- The bit `ReadBit()` gives is the first of those the reader can deliver, the others stay (R63, R132). -/
theorem readBit_readableBits {b : Bool} (h : readBit s = .ok (some b) t) : s.readableBits = b :: t.readableBits := by
  rcases readBit_cases s with ⟨h0, hr⟩ | ⟨h0, -, c, hc, hr⟩ | ⟨-, -, -, hr⟩ | ⟨-, -, hr⟩ <;> rw [hr] at h
  · obtain ⟨k, hk⟩ := Nat.exists_eq_succ_of_ne_zero fun h' => h0 (BitVec.eq_of_toNat_eq h')
    have hk' : (s.rd.rcnt - 1#4).toNat = k := by
      have := s.rd.rcnt.isLt
      rw [BitVec.toNat_sub, BitVec.toNat_ofNat]
      omega
    obtain ⟨hb, rfl⟩ := (Res.ok.injEq ..).mp h
    obtain rfl := Option.some.inj hb
    simp only [State.readableBits, State.pendingRead, State.srcLeft, State.setRd_rd, State.setRd_env, hk, hk']
    rw [List.range_succ_eq_map, List.map_cons, List.map_map, List.cons_append]
    congr 2
    refine List.map_congr_left fun i _ => ?_
    simp only [Function.comp]
    congr 1
    omega
  · obtain ⟨hb, rfl⟩ := (Res.ok.injEq ..).mp h
    obtain rfl := Option.some.inj hb
    obtain ⟨hlt, rfl⟩ := List.getElem?_eq_some_iff.1 hc
    rw [State.readableBits, pendingRead_of_rcnt_eq_zero h0, State.srcLeft, List.drop_eq_getElem_cons hlt,
      List.flatMap_cons, byteBits_eq]
    rfl
  · simp at h
  · simp at h

/-- `ReadBit()` changes the reader and the environment only, and leaves `SNK` alone. -/
theorem readBit_frame (s : State) :
    (readBit s).Leaves fun t => t.env.snk = s.env.snk ∧ t.wr = s.wr ∧ t.ctr = s.ctr ∧ t.tab = s.tab := by
  rcases readBit_cases s with ⟨-, hr⟩ | ⟨-, -, _, -, hr⟩ | ⟨-, -, -, hr⟩ | ⟨-, -, hr⟩ <;> rw [hr] <;>
    exact ⟨rfl, rfl, rfl, rfl⟩

/-! ### Where links lead -/

theorem linksAt_leaf {node : Memory Node} {sym : Byte} {id : NodeId} :
    linksAt node (.leaf sym) id = true ↔ ∃ n, readNode node id = .ok n ∧ n.kind = .leaf ∧ n.symbol = sym := by
  simp [linksAt, readNode_ok, Option.any_eq_true, and_assoc]

theorem linksAt_node {node : Memory Node} {l r : LinkTree} {id : NodeId} :
    linksAt node (.node l r) id = true ↔ ∃ n, readNode node id = .ok n ∧ n.kind = .internal ∧
      linksAt node l n.left = true ∧ linksAt node r n.right = true := by
  simp [linksAt, readNode_ok, Option.any_eq_true, and_assoc]

/-- A tree as the links lead to it. -/
def HTree.toLinks : HTree → LinkTree
  | .leaf sym => .leaf sym
  | .node l r => .node l.toLinks r.toLinks

theorem linksAt_toLinks (node : Memory Node) (x : HTree) (id : NodeId) :
    linksAt node x.toLinks id = treeAt node x id := by
  induction x generalizing id with
  | leaf sym => rfl
  | node l r ihl ihr => simp only [HTree.toLinks, linksAt, treeAt, ihl, ihr]

/-- A walk along the links of a tree emits what the tree decodes to, and never ends in an unexplored part. -/
theorem walk_toLinks (root l r : HTree) (bits : List Bool) (n : Nat) (hroot : ∃ l₀ r₀, root = .node l₀ r₀) :
    (root.toLinks.walk bits (.node l.toLinks r.toLinks) n).1 = (root.decode bits (.node l r) n).1 ∧
      (root.toLinks.walk bits (.node l.toLinks r.toLinks) n).2.2 ≠ .unknown := by
  induction bits generalizing l r n with
  | nil => cases n <;> exact ⟨rfl, by simp [LinkTree.walk]⟩
  | cons b bits ih =>
    cases n with
    | zero => exact ⟨rfl, by simp [LinkTree.walk]⟩
    | succ n =>
      have hchild : (if b then r.toLinks else l.toLinks) = (if b then r else l).toLinks := by cases b <;> rfl
      simp only [LinkTree.walk, HTree.decode, hchild]
      cases (if b then r else l) with
      | leaf sym =>
        obtain ⟨l₀, r₀, rfl⟩ := hroot
        exact ⟨congrArg (sym :: ·) (ih l₀ r₀ n).1, (ih l₀ r₀ n).2⟩
      | node l' r' => exact ih l' r' (n + 1)

/-! ### The bytes emitted -/

/-- From `s` on the bytes `out` have been written and counted, in `snk_cnt` and in `decoded`, which is at most `osize`;
a failed write may have left `tail` behind them (R62, R201). -/
structure Emitted (s : State) (out tail : List Byte) (t : State) : Prop where
  snk : t.env.snk = s.env.snk ++ out ++ tail
  count : t.wr.snkCnt = s.wr.snkCnt + BitVec.ofNat 64 out.length
  decoded : t.ctr.decoded.toNat = s.ctr.decoded.toNat + out.length
  osize : t.ctr.osize = s.ctr.osize
  fits : t.ctr.decoded.toNat ≤ s.ctr.osize.toNat

/-- Nothing has been written, whatever else has changed. -/
theorem Emitted.nil (hsnk : t.env.snk = s.env.snk) (hwr : t.wr = s.wr) (hdec : t.ctr.decoded = s.ctr.decoded)
    (hos : t.ctr.osize = s.ctr.osize) (hfits : s.ctr.decoded.toNat ≤ s.ctr.osize.toNat) : Emitted s [] [] t where
  snk := by simp [hsnk]
  count := by simp [hwr]
  decoded := by simp [hdec]
  osize := hos
  fits := hdec ▸ hfits

theorem Emitted.trans {out out' tail : List Byte} (h : Emitted s out [] t) (h' : Emitted t out' tail u) :
    Emitted s (out ++ out') tail u where
  snk := by simp [h'.snk, h.snk]
  count := by rw [h'.count, h.count, BitVec.add_assoc, ← BitVec.ofNat_add, List.length_append]
  decoded := by rw [h'.decoded, h.decoded, List.length_append, Nat.add_assoc]
  osize := h'.osize.trans h.osize
  fits := h.osize ▸ h'.fits

/-- A piece of `WALK` begun in `s` has emitted bytes of which `Q` holds, whether it ends or raises; nothing stands
behind them unless it raises. -/
def Res.Emits (s : State) (Q : List Byte → Prop) : Res Unit → Prop
  | .ok _ t => ∃ out, Q out ∧ Emitted s out [] t
  | .raised _ t => ∃ out tail, Q out ∧ Emitted s out tail t
  | .stop _ => True

/-- A weaker property of the bytes emitted holds too. -/
theorem Res.Emits.mono {r : Res Unit} {Q Q' : List Byte → Prop} (h : r.Emits s Q) (hq : ∀ out, Q out → Q' out) :
    r.Emits s Q' := by
  cases r with
  | ok a t => exact h.imp fun out => .imp_left (hq out)
  | raised e t => exact h.imp fun out => .imp fun tail => .imp_left (hq out)
  | stop f => trivial

/-- What a piece emits after some bytes is emitted behind them. -/
theorem Res.Emits.after {r : Res Unit} {out : List Byte} {Q Q' : List Byte → Prop} (hr : r.Emits t Q)
    (h : Emitted s out [] t) (hq : ∀ out', Q out' → Q' (out ++ out')) : r.Emits s Q' := by
  cases r with
  | ok a u =>
    obtain ⟨out', hq', hu⟩ := hr
    exact ⟨_, hq _ hq', h.trans hu⟩
  | raised e u =>
    obtain ⟨out', tail, hq', hu⟩ := hr
    exact ⟨_, tail, hq _ hq', h.trans hu⟩
  | stop f => trivial

/-- One byte more, while there are fewer than `osize`: it is written and may be counted, or the write fails. -/
theorem snkWrite_emits (b : Byte) (h : s.ctr.decoded < s.ctr.osize) :
    (∃ t, snkWrite b s = .ok () t ∧ t.ctr = s.ctr ∧ t.tab = s.tab ∧ t.readableBits = s.readableBits ∧
      ∀ c, Emitted s [b] [] (t.setCtr { t.ctr with cur := c, decoded := t.ctr.decoded + 1#32 })) ∨
    (∃ t tail, snkWrite b s = .raised .ioFailure t ∧ Emitted s [] tail t) := by
  rcases snkWrite_cases b s with ⟨-, hr⟩ | ⟨-, hr⟩
  · have hlt : s.ctr.decoded.toNat < s.ctr.osize.toNat := h
    have hsucc : (s.ctr.decoded + 1#32).toNat = s.ctr.decoded.toNat + 1 := by
      have := s.ctr.osize.isLt
      rw [BitVec.toNat_add, BitVec.toNat_ofNat]
      omega
    exact .inl ⟨_, hr, rfl, rfl, rfl, fun c =>
      ⟨(List.append_nil _).symm, rfl, hsucc, rfl, hsucc.trans_le hlt⟩⟩
  · exact .inr ⟨_, _, hr, (congrArg (· ++ _) (List.append_nil _)).symm, (BitVec.add_zero _).symm, rfl, rfl, le_of_lt h⟩

/-! ### A single leaf -/

/-- The single-leaf loop emits copies of the symbol (R204). -/
theorem emitRepeat_emits (k : Nat) (b : Byte) (hk : s.ctr.decoded.toNat + k ≤ s.ctr.osize.toNat) :
    (emitRepeat k b s).Emits s fun out => out = List.replicate out.length b := by
  induction k generalizing s with
  | zero => exact ⟨[], rfl, .nil rfl rfl rfl rfl hk⟩
  | succ k ih =>
    have hlt : s.ctr.decoded < s.ctr.osize := by rw [BitVec.lt_def]; omega
    unfold emitRepeat
    rcases snkWrite_emits b hlt with ⟨t, hr, -, -, -, ht⟩ | ⟨t, tail, hr, ht⟩ <;> rw [hr]
    · have ht := ht t.ctr.cur
      refine (ih ?_).after ht fun out' hout' => ?_
      · rw [ht.osize, ht.decoded, List.length_singleton]
        omega
      · rw [List.singleton_append, List.length_cons, List.replicate_succ, ← hout']
    · exact ⟨[], tail, rfl, ht⟩

/-! ### The walk -/

/-- Everything the walk step can do (R202). -/
theorem walkStep_cases (b : Bool) (s : State) :
    (∃ f, walkStep b s = .stop f) ∨
    ∃ n, readNode s.tab.node s.ctr.cur = .ok n ∧
      let next := if b then n.right else n.left
      let moved := s.setCtr { s.ctr with cur := next }
      (next = NONE ∧ walkStep b s = .raised .illegalState moved) ∨
      ∃ m, readNode s.tab.node next = .ok m ∧
        ((m.kind = .internal ∧ walkStep b s = .ok () moved) ∨
         (m.kind = .leaf ∧ walkStep b s = (snkWrite m.symbol moved).andThen fun _ u =>
          .ok () (u.setCtr { u.ctr with cur := u.ctr.root, decoded := u.ctr.decoded + 1#32 }))) := by
  unfold walkStep
  cases hn : readNode s.tab.node s.ctr.cur with
  | error f => exact .inl ⟨f, rfl⟩
  | ok n =>
    simp only [Res.lift_ok, Res.andThen_ok]
    generalize hnext : (if b = true then n.right else n.left) = next
    by_cases h : next = NONE
    · exact .inr ⟨n, rfl, .inl ⟨hnext.trans h, by rw [if_pos h, hnext]⟩⟩
    · cases hm : readNode s.tab.node next with
      | error f => exact .inl ⟨f, by simp [h, hm]⟩
      | ok m =>
        refine .inr ⟨n, rfl, .inr ⟨m, hnext ▸ hm, ?_⟩⟩
        cases hk : m.kind with
        | internal => exact .inl ⟨rfl, by simp [h, hm, hk, hnext]⟩
        | leaf => exact .inr ⟨rfl, by simp [h, hm, hk, hnext]⟩

/-- Bytes emitted from a state inside the walk begin what the bits there decode to, over whatever tree the links from
the root and from the walk's position are known to lead to. -/
def WalksTo (s : State) (out : List Byte) : Prop :=
  ∀ l₀ r₀ l r : LinkTree, linksAt s.tab.node (.node l₀ r₀) s.ctr.root = true →
    linksAt s.tab.node (.node l r) s.ctr.cur = true →
    let d := (LinkTree.node l₀ r₀).walk s.readableBits (.node l r) (s.ctr.osize.toNat - s.ctr.decoded.toNat)
    d.2.2 ≠ .unknown → out <+: d.1

theorem WalksTo.nil (s : State) : WalksTo s [] := fun _ _ _ _ _ _ _ => List.nil_prefix

section Step
variable {b : Bool} {n m : Node} {out : List Byte}

/-- A link of the record at the walk's position leads where the subtree says. -/
theorem linksAt_child {node : Memory Node} {l r : LinkTree} {id : NodeId} (h : linksAt node (.node l r) id = true)
    (hn : readNode node id = .ok n) :
    linksAt node (if b then r else l) (if b then n.right else n.left) = true := by
  obtain ⟨n', hn', -, hl, hr⟩ := linksAt_node.1 h
  obtain rfl := Except.ok.inj (hn.symm.trans hn')
  cases b
  · exact hl
  · exact hr

/-- Where the links lead to an internal node, an explored tree has one. -/
theorem linksAt_internal {node : Memory Node} {x : LinkTree} {id : NodeId} (h : linksAt node x id = true)
    (hm : readNode node id = .ok m) (hk : m.kind = .internal) : x = .unexplored ∨ ∃ l r, x = .node l r := by
  cases x with
  | leaf sym =>
    obtain ⟨m', hm', hk', -⟩ := linksAt_leaf.1 h
    obtain rfl := Except.ok.inj (hm.symm.trans hm')
    exact absurd (hk.symm.trans hk') (by decide)
  | node l r => exact .inr ⟨l, r, rfl⟩
  | missing => exact absurd (of_decide_eq_true h) (readNode_ok.1 hm).1
  | unexplored => exact .inl rfl

/-- Where the links lead to a leaf, an explored tree has a leaf of that symbol. -/
theorem linksAt_of_leaf {node : Memory Node} {x : LinkTree} {id : NodeId} (h : linksAt node x id = true)
    (hm : readNode node id = .ok m) (hk : m.kind = .leaf) : x = .unexplored ∨ x = .leaf m.symbol := by
  cases x with
  | leaf sym =>
    obtain ⟨m', hm', -, hsym⟩ := linksAt_leaf.1 h
    obtain rfl := Except.ok.inj (hm.symm.trans hm')
    exact .inr (hsym ▸ rfl)
  | node l r =>
    obtain ⟨m', hm', hk', -⟩ := linksAt_node.1 h
    obtain rfl := Except.ok.inj (hm.symm.trans hm')
    exact absurd (hk.symm.trans hk') (by decide)
  | missing => exact absurd (of_decide_eq_true h) (readNode_ok.1 hm).1
  | unexplored => exact .inl rfl

/-- Bytes emitted from below an internal node are emitted from that node. -/
theorem WalksTo.of_internal (hbits : s.readableBits = b :: t.readableBits) (htab : t.tab = s.tab)
    (hn : readNode s.tab.node s.ctr.cur = .ok n) (hctr : t.ctr = { s.ctr with cur := if b then n.right else n.left })
    (hm : readNode s.tab.node (if b then n.right else n.left) = .ok m) (hk : m.kind = .internal)
    (hlt : s.ctr.decoded < s.ctr.osize) (h : WalksTo t out) : WalksTo s out := by
  intro l₀ r₀ l r hroot hcur
  have hchild := linksAt_child (b := b) hcur hn
  obtain ⟨j, hj⟩ := Nat.exists_eq_succ_of_ne_zero (Nat.sub_ne_zero_of_lt hlt)
  have h := h l₀ r₀
  simp only [htab, hctr, hj] at h
  simp only [hbits, hj, LinkTree.walk]
  generalize (if b = true then r else l) = child at hchild ⊢
  rcases linksAt_internal hchild hm hk with rfl | ⟨l', r', rfl⟩
  · exact fun hne => absurd rfl hne
  · exact h l' r' hroot hchild

/-- Bytes emitted from the root on, after a leaf's symbol, are emitted from the node above the leaf. -/
theorem WalksTo.of_leaf (hbits : s.readableBits = b :: t.readableBits) (htab : t.tab = s.tab)
    (hn : readNode s.tab.node s.ctr.cur = .ok n) (hroot : t.ctr.root = s.ctr.root) (hcur : t.ctr.cur = s.ctr.root)
    (hm : readNode s.tab.node (if b then n.right else n.left) = .ok m) (hk : m.kind = .leaf)
    (ht : Emitted s [m.symbol] [] t) (h : WalksTo t out) : WalksTo s (m.symbol :: out) := by
  intro l₀ r₀ l r hlinks hpos
  have hchild := linksAt_child (b := b) hpos hn
  have hj : s.ctr.osize.toNat - s.ctr.decoded.toNat = t.ctr.osize.toNat - t.ctr.decoded.toNat + 1 := by
    have hdec := ht.decoded
    have hfits := ht.fits
    rw [List.length_singleton] at hdec
    rw [ht.osize]
    omega
  have h := h l₀ r₀ l₀ r₀
  simp only [htab, hroot, hcur] at h
  simp only [hbits, hj, LinkTree.walk]
  generalize (if b = true then r else l) = child at hchild ⊢
  rcases linksAt_of_leaf hchild hm hk with rfl | rfl
  · exact fun hne => absurd rfl hne
  · exact fun hne => (List.prefix_cons_inj _).2 (h hlinks hlinks hne)

end Step

/-- A turn of the loop, its bit read: the walk goes on below an internal node, or from the root after the symbol of a
leaf has been written (R202). -/
theorem walkStep_emits {b : Bool} {rest : State → Res Unit} (hbits : s.readableBits = b :: t.readableBits)
    (hsnk : t.env.snk = s.env.snk) (hwr : t.wr = s.wr) (hctr : t.ctr = s.ctr) (htab : t.tab = s.tab)
    (hlt : s.ctr.decoded < s.ctr.osize)
    (hrest : ∀ u : State, u.ctr.decoded.toNat ≤ u.ctr.osize.toNat → (rest u).Emits u (WalksTo u)) :
    ((walkStep b t).andThen fun _ u => rest u).Emits s (WalksTo s) := by
  have quiet : ∀ c, Emitted s [] [] (t.setCtr { t.ctr with cur := c }) := fun c =>
    .nil hsnk hwr (congrArg Counters.decoded hctr :) (congrArg Counters.osize hctr :) (le_of_lt hlt)
  rcases walkStep_cases b t with ⟨f, hr⟩ | ⟨n, hn, ⟨-, hr⟩ | ⟨m, hm, ⟨hk, hr⟩ | ⟨hk, hr⟩⟩⟩ <;> rw [hr]
  · trivial
  · exact ⟨[], [], .nil s, quiet _⟩
  · rw [htab, hctr] at hn
    rw [htab] at hm
    have hq := quiet (if b then n.right else n.left)
    exact (hrest _ (hq.osize ▸ hq.fits)).after hq fun out => WalksTo.of_internal
      (t := t.setCtr { t.ctr with cur := if b then n.right else n.left }) hbits htab hn (hctr ▸ rfl) hm hk hlt
  · rw [htab, hctr] at hn
    rw [htab] at hm
    rcases snkWrite_emits m.symbol (s := t.setCtr { t.ctr with cur := if b then n.right else n.left }) (hctr ▸ hlt)
      with ⟨u, hw, huctr, hutab, hubits, hu⟩ | ⟨u, tail, hw, hu⟩ <;> rw [hw]
    · have hu := (quiet _).trans (hu u.ctr.root)
      have hroot : u.ctr.root = s.ctr.root := by rw [huctr, State.setCtr_ctr, hctr]
      exact (hrest _ (hu.osize ▸ hu.fits)).after hu fun out => WalksTo.of_leaf
        (t := u.setCtr { u.ctr with cur := u.ctr.root, decoded := u.ctr.decoded + 1#32 })
        (hbits.trans (congrArg (b :: ·) hubits.symm)) (hutab.trans htab) hn hroot hroot hm hk hu
    · exact ⟨[], tail, .nil s, (quiet _).trans hu⟩

/-- The loop of `WALK` emits what the bits decode to from where it stands, as far as it comes (R201). -/
theorem walkLoop_emits (k : Nat) (hs : s.ctr.decoded.toNat ≤ s.ctr.osize.toNat) :
    (walkLoop k s).Emits s (WalksTo s) := by
  induction k generalizing s with
  | zero => trivial
  | succ k ih =>
    unfold walkLoop
    split
    case isFalse => exact ⟨[], .nil s, .nil rfl rfl rfl rfl hs⟩
    case isTrue hlt =>
      have hframe := readBit_frame s
      cases hread : readBit s with
      | stop f => trivial
      | raised e t =>
        rw [hread] at hframe
        obtain ⟨hsnk, hwr, hctr, -⟩ := hframe
        exact ⟨[], [], .nil s, .nil hsnk hwr (hctr ▸ rfl) (hctr ▸ rfl) hs⟩
      | ok r t =>
        rw [hread] at hframe
        obtain ⟨hsnk, hwr, hctr, htab⟩ := hframe
        cases r with
        | none => exact ⟨[], .nil s, .nil hsnk hwr (hctr ▸ rfl) (hctr ▸ rfl) hs⟩
        | some b => exact walkStep_emits (readBit_readableBits hread) hsnk hwr hctr htab hlt fun _ => ih

/-! ### The operation -/

/-- What the bytes of a `WALK` from `s` are, over what the links from the root lead to (R201, R203, R204). -/
structure WalkedFrom (s : State) (out : List Byte) : Prop where
  none : s.ctr.root = NONE → out = []
  leaf : ∀ sym, treeAt s.tab.node (.leaf sym) s.ctr.root = true → out = List.replicate out.length sym
  links : ∀ l r : LinkTree, linksAt s.tab.node (.node l r) s.ctr.root = true →
    let d := (LinkTree.node l r).walk s.readableBits (.node l r) s.ctr.osize.toNat
    d.2.2 ≠ .unknown → out <+: d.1

/-- What a tree decodes to is what its links lead to. -/
theorem WalkedFrom.tree {out : List Byte} (h : WalkedFrom s out) (l r : HTree)
    (ht : treeAt s.tab.node (.node l r) s.ctr.root = true) :
    out <+: ((HTree.node l r).decode s.readableBits (.node l r) s.ctr.osize.toNat).1 := by
  obtain ⟨hbytes, hend⟩ := walk_toLinks (.node l r) l r s.readableBits s.ctr.osize.toNat ⟨l, r, rfl⟩
  rw [← hbytes]
  exact h.links _ _ ((linksAt_toLinks s.tab.node (.node l r) s.ctr.root).trans ht) hend

/-- The state in which the loops of `WALK` begin (R201). -/
def startWalk (s : State) : State := s.setCtr { s.ctr with decoded := 0#32, cur := s.ctr.root }

/-- `RESULT`, written last, is none of what a walk emits. -/
theorem Res.Emits.report {r : Res Unit} {Q : List Byte → Prop} (h : r.Emits s Q) :
    (r.andThen fun _ u => .ok () (reportDecoded u)).Emits s Q := by
  cases r with
  | ok a t =>
    obtain ⟨out, hq, ht⟩ := h
    exact ⟨out, hq, { ht with }⟩
  | raised e t => exact h
  | stop f => trivial

/-- Everything `WALK` can do when it is not refused: no tree (R203), a single leaf (R204), or the walk (R202). -/
theorem walkBody_cases (h : s.canWalk = true) :
    (s.ctr.root = NONE ∧ walkBody s = .ok () ((startWalk s).setResult 0#32)) ∨
    (∃ f, readNode s.tab.node s.ctr.root = .error f ∧ walkBody s = .stop f) ∨
    ∃ n, readNode s.tab.node s.ctr.root = .ok n ∧
      ((n.kind = .leaf ∧ walkBody s = (emitRepeat s.ctr.osize.toNat n.symbol (startWalk s)).andThen fun _ u =>
          .ok () (reportDecoded u)) ∨
       (n.kind = .internal ∧ walkBody s = (walkLoop (s.bitsLeft + 1) (startWalk s)).andThen fun _ u =>
          .ok () (reportDecoded u))) := by
  by_cases hroot : s.ctr.root = NONE
  · exact .inl ⟨hroot, by simp [walkBody, h, hroot, startWalk]⟩
  · right
    cases hn : readNode s.tab.node s.ctr.root with
    | error f => exact .inl ⟨f, rfl, by simp [walkBody, h, hroot, hn]⟩
    | ok n =>
      refine .inr ⟨n, rfl, ?_⟩
      cases hk : n.kind with
      | leaf => exact .inl ⟨rfl, by simp [walkBody, h, hroot, hn, hk, startWalk]⟩
      | internal =>
        refine .inr ⟨rfl, ?_⟩
        simp only [walkBody, h, hroot, hn, hk, if_true, if_false, State.setCtr_ctr, State.setCtr_tab, Res.lift_ok,
          Res.andThen_ok]
        rfl

/-- A `WALK` that is not refused emits what the links from the root say (R201). -/
theorem walkBody_emits (h : s.canWalk = true) : (walkBody s).Emits (startWalk s) (WalkedFrom s) := by
  have fits : (startWalk s).ctr.decoded.toNat ≤ (startWalk s).ctr.osize.toNat := Nat.zero_le _
  rcases walkBody_cases h with ⟨hroot, hr⟩ | ⟨f, -, hr⟩ | ⟨n, hn, ⟨hk, hr⟩ | ⟨hk, hr⟩⟩ <;> rw [hr]
  · exact ⟨[], ⟨fun _ => rfl, fun _ _ => rfl, fun _ _ _ _ => List.nil_prefix⟩, .nil rfl rfl rfl rfl fits⟩
  · trivial
  · refine ((emitRepeat_emits _ _ ?_).mono fun out hout => ?_).report
    · exact (Nat.zero_add _).le
    · refine ⟨fun hroot => absurd hroot (readNode_ok.1 hn).1, fun sym hsym => ?_, fun l r hlinks => ?_⟩
      · rcases linksAt_of_leaf (x := .leaf sym) hsym hn hk with hx | hx
        · cases hx
        · cases hx; exact hout
      · rcases linksAt_of_leaf hlinks hn hk with hx | hx <;> cases hx
  · refine ((walkLoop_emits _ fits).mono fun out hout => ?_).report
    refine ⟨fun hroot => absurd hroot (readNode_ok.1 hn).1, fun sym hsym => ?_, fun l r hlinks => ?_⟩
    · rcases linksAt_internal (x := .leaf sym) hsym hn hk with hx | ⟨_, _, hx⟩ <;> cases hx
    · exact hout l r l r hlinks hlinks

/-- Settles O35: the bytes emitted are followed through the loops, so `decoded` and `snk_cnt` count them and the links
say what they are, whatever ends the `WALK`. -/
theorem walkCountsWhatItWrites : Obligations.WalkCountsWhatItWrites := by
  intro s t herr hwalk hr
  have hemits := walkBody_emits (s := clearResultFlags s) hwalk
  obtain ⟨out, tail, hout, ht, htail⟩ : ∃ out tail, WalkedFrom (clearResultFlags s) out ∧
      Emitted (startWalk (clearResultFlags s)) out tail t ∧ (t.reg.err = false → tail = []) := by
    rcases issue_next hr with ⟨h, -⟩ | ⟨-, u, hu, rfl⟩ | ⟨-, e, u, hu, rfl⟩
    · simp [herr] at h
    · rw [hu] at hemits
      obtain ⟨out, hout, ht⟩ := hemits
      exact ⟨out, [], hout, ht, fun _ => rfl⟩
    · rw [hu] at hemits
      obtain ⟨out, tail, hout, ht⟩ := hemits
      exact ⟨out, tail, hout, { ht with }, fun h => by simp at h⟩
  have hlen : out.length = t.ctr.decoded.toNat := (ht.decoded.trans (Nat.zero_add _)).symm
  refine ⟨ht.fits, ?_, out, tail, ht.snk, hlen, htail, hout.none, fun sym hsym => hlen ▸ hout.leaf sym hsym,
    hout.tree, hout.links⟩
  rw [ht.count, hlen, BitVec.ofNat_toNat]
  rfl

end Sys2Proof.Machine
end

section
/-! PROOFS. What an operation can do to the state, said once: it is a sequence of elementary changes, of which none
takes back a byte of `SNK`, changes `SRC`, the host's script or the parameters, or brings a table out of canonical
form. -/

namespace Sys2Proof.Machine

variable {s₀ s t : State}

/-! ### The elementary changes -/

/-- The states reached from one state by the elementary changes operations are made of: a write of a group of
registers, an access to a stream, a write of a table entry, the clearing of `FREQ` or `CODE`. -/
inductive Evolves (s : State) : State → Prop
  | refl : Evolves s s
  | setRd {t : State} (x : Reader) : Evolves s t → Evolves s (t.setRd x)
  | setWr {t : State} (x : Writer) : Evolves s t → Evolves s (t.setWr x)
  | setCtr {t : State} (x : Counters) : Evolves s t → Evolves s (t.setCtr x)
  | setReg {t : State} (x : Regs) : Evolves s t → Evolves s (t.setReg x)
  | setPq {t : State} (x : QueueLog) : Evolves s t → Evolves s (t.setPq x)
  | source {t : State} (pos free : Nat) (draws : List Bool) : Evolves s t →
      Evolves s (t.setEnv { t.env with srcPos := pos, freeCtr := free, draws := draws })
  | sink {t : State} (bytes : List Byte) (free : Nat) (draws : List Bool) : Evolves s t →
      Evolves s (t.setEnv { t.env with snk := t.env.snk ++ bytes, freeCtr := free, draws := draws })
  | writeFreq {t : State} (i : Nat) (c : Count) : Evolves s t →
      Evolves s (t.setTab { t.tab with freq := t.tab.freq.write i c })
  | writeNode {t : State} (i : Nat) (n : Node) : Evolves s t →
      Evolves s (t.setTab { t.tab with node := t.tab.node.write i n })
  | writeHeap {t : State} (i : Nat) (id : NodeId) : Evolves s t →
      Evolves s (t.setTab { t.tab with heap := t.tab.heap.write i id })
  | writeCode {t : State} (i : Nat) (c : Code) : Evolves s t →
      Evolves s (t.setTab { t.tab with code := t.tab.code.write i c })
  | writeInbuf {t : State} (i : Nat) (b : Byte) : Evolves s t →
      Evolves s (t.setTab { t.tab with inbuf := t.tab.inbuf.write i b })
  | clearFreq {t : State} : Evolves s t →
      Evolves s (t.setTab { t.tab with freq := Memory.fill Config.symbolCount 0#32 })
  | clearCode {t : State} : Evolves s t →
      Evolves s (t.setTab { t.tab with code := Memory.fill Config.symbolCount [] })

/-- Every table in canonical form (R60). -/
structure Tables.Canonical (x : Tables) : Prop where
  freq : x.freq.wf = true
  node : x.node.wf = true
  heap : x.heap.wf = true
  code : x.code.wf = true
  inbuf : x.inbuf.wf = true

/-- Elementary changes keep the canonical form. -/
theorem Evolves.canonical (h : Evolves s t) (hs : s.tab.Canonical) : t.tab.Canonical := by
  induction h with
  | refl => exact hs
  | setRd | setWr | setCtr | setReg | setPq | source | sink => assumption
  | writeFreq i c _ ih => exact { ih with freq := Memory.wf_write _ i c ih.freq }
  | writeNode i n _ ih => exact { ih with node := Memory.wf_write _ i n ih.node }
  | writeHeap i id _ ih => exact { ih with heap := Memory.wf_write _ i id ih.heap }
  | writeCode i c _ ih => exact { ih with code := Memory.wf_write _ i c ih.code }
  | writeInbuf i b _ ih => exact { ih with inbuf := Memory.wf_write _ i b ih.inbuf }
  | clearFreq _ ih => exact { ih with freq := Memory.wf_fill _ _ }
  | clearCode _ ih => exact { ih with code := Memory.wf_fill _ _ }

/-- Elementary changes only append to `SNK` and leave the rest of what the host gave (R12, R39, R61, R62). -/
theorem Evolves.host_frame (h : Evolves s t) :
    s.env.snk <+: t.env.snk ∧ t.env.src = s.env.src ∧ t.env.script = s.env.script ∧
      t.env.busData = s.env.busData ∧ t.par = s.par := by
  induction h with
  | refl => exact ⟨List.prefix_rfl, rfl, rfl, rfl, rfl⟩
  | sink bytes _ _ _ ih =>
    obtain ⟨hsnk, hrest⟩ := ih
    exact ⟨hsnk.trans (List.prefix_append _ bytes), hrest⟩
  | _ => assumption

/-! ### Streams and bits -/

theorem Evolves.useDraw (h : Evolves s₀ s) : Evolves s₀ s.useDraw := .source s.env.srcPos s.env.freeCtr _ h

theorem srcRead_evolves (h : Evolves s₀ s) : (srcRead s).Leaves (Evolves s₀) := by
  rcases srcRead_cases s with ⟨_, -, -, hr⟩ | ⟨-, -, hr⟩ | ⟨-, hr⟩ <;> rw [hr]
  · exact .source _ s.env.freeCtr _ h
  · exact h.useDraw
  · exact .source _ _ _ h

theorem snkWrite_evolves (b : Byte) (h : Evolves s₀ s) : (snkWrite b s).Leaves (Evolves s₀) := by
  rcases snkWrite_cases b s with ⟨-, hr⟩ | ⟨-, hr⟩ <;> rw [hr]
  · exact .setWr _ (.sink [b] s.env.freeCtr _ h)
  · exact .sink _ _ _ h

theorem acquire_evolves (h : Evolves s₀ s) : (acquire s).Leaves (Evolves s₀) := by
  rcases acquire_cases s with ⟨-, hr⟩ | ⟨-, hr⟩ <;> rw [hr] <;> exact h.useDraw

theorem readBit_evolves (h : Evolves s₀ s) : (readBit s).Leaves (Evolves s₀) := by
  rcases readBit_cases s with ⟨-, hr⟩ | ⟨-, -, _, -, hr⟩ | ⟨-, -, -, hr⟩ | ⟨-, -, hr⟩ <;> rw [hr]
  · exact h.setRd _
  · exact .setRd _ (.source _ s.env.freeCtr _ h)
  · exact h.useDraw
  · exact .source _ _ _ h

theorem writeBit_evolves (b : Bool) (h : Evolves s₀ s) : (writeBit b s).Leaves (Evolves s₀) := by
  rcases writeBit_cases b s with ⟨-, hr⟩ | ⟨-, hr⟩ <;> rw [hr]
  · exact h.setWr _
  · exact snkWrite_evolves _ (h.setWr _)

theorem flushBits_evolves (h : Evolves s₀ s) : (flushBits s).Leaves (Evolves s₀) := by
  rcases flushBits_cases s with ⟨-, hr⟩ | ⟨-, hr⟩ <;> rw [hr]
  · exact h
  · exact snkWrite_evolves _ (h.setWr _)

theorem emit_evolves (bs : List Byte) (h : Evolves s₀ s) : (emit bs s).Leaves (Evolves s₀) := by
  induction bs generalizing s with
  | nil => exact h
  | cons b bs ih => exact (snkWrite_evolves b h).andThen fun _ _ _ ht => ih ht

theorem writeBits_evolves (bs : List Bool) (h : Evolves s₀ s) : (writeBits bs s).Leaves (Evolves s₀) := by
  induction bs generalizing s with
  | nil => exact h
  | cons b bs ih => exact (writeBit_evolves b h).andThen fun _ _ _ ht => ih ht

theorem readBytes_evolves (k : Nat) (v : HostWord) (h : Evolves s₀ s) : (readBytes k v s).Leaves (Evolves s₀) := by
  induction k generalizing v s with
  | zero => exact h
  | succ k ih =>
    refine (srcRead_evolves h).andThen fun r t _ ht => ?_
    cases r with
    | none => exact ht
    | some b => exact ih _ ht

/-! ### Bit-stream I/O -/

theorem ropenBody_evolves (h : Evolves s₀ s) : (ropenBody s).Leaves (Evolves s₀) := by
  unfold ropenBody
  split
  · exact h
  · exact (acquire_evolves h).andThen fun _ _ _ ht => ht.setRd _

theorem rcloseBody_evolves (h : Evolves s₀ s) : (rcloseBody s).Leaves (Evolves s₀) := by
  unfold rcloseBody
  split
  · exact h.setRd _
  · exact h

theorem rdbitBody_evolves (h : Evolves s₀ s) : (rdbitBody s).Leaves (Evolves s₀) := by
  unfold rdbitBody
  split
  · refine (readBit_evolves h).andThen fun r t _ ht => ?_
    cases r with
    | none => exact (ht.setReg _).setReg _
    | some b => exact ht.setReg _
  · exact h

theorem rdbyteBody_evolves (h : Evolves s₀ s) : (rdbyteBody s).Leaves (Evolves s₀) := by
  unfold rdbyteBody
  split
  · refine (srcRead_evolves h).andThen fun r t _ ht => ?_
    cases r with
    | none => exact (ht.setReg _).setReg _
    | some b => exact ht.setReg _
  · exact h

theorem rdintBody_evolves (h : Evolves s₀ s) : (rdintBody s).Leaves (Evolves s₀) := by
  unfold rdintBody
  split
  · refine (readBytes_evolves 4 _ h).andThen fun r t _ ht => ?_
    cases r with
    | none => exact (ht.setReg _).setReg _
    | some v => exact ht.setReg _
  · exact h

theorem wopenBody_evolves (h : Evolves s₀ s) : (wopenBody s).Leaves (Evolves s₀) := by
  unfold wopenBody
  split
  · exact h
  · exact (acquire_evolves h).andThen fun _ _ _ ht => ht.setWr _

theorem wcloseBody_evolves (h : Evolves s₀ s) : (wcloseBody s).Leaves (Evolves s₀) := by
  unfold wcloseBody
  split
  · have hf := flushBits_evolves h
    cases hr : flushBits s <;> rw [hr] at hf
    · exact hf.setWr _
    · exact hf.setWr _
    · trivial
  · exact h

theorem wrbitBody_evolves (h : Evolves s₀ s) : (wrbitBody s).Leaves (Evolves s₀) := by
  unfold wrbitBody
  split
  · split
    · exact writeBit_evolves _ h
    · exact h
  · exact h

theorem wrbyteBody_evolves (h : Evolves s₀ s) : (wrbyteBody s).Leaves (Evolves s₀) := by
  unfold wrbyteBody
  split
  · split
    · exact snkWrite_evolves _ h
    · exact h
  · exact h

theorem wrintBody_evolves (h : Evolves s₀ s) : (wrintBody s).Leaves (Evolves s₀) := by
  unfold wrintBody
  split
  · exact emit_evolves _ h
  · exact h

theorem flushBody_evolves (h : Evolves s₀ s) : (flushBody s).Leaves (Evolves s₀) := by
  unfold flushBody
  split
  · exact flushBits_evolves h
  · exact h

/-! ### The queue changes `HEAP` by writes of slots -/

section Heap
variable {P : Memory NodeId → Prop} (hw : ∀ heap i id, P heap → P (Memory.write heap i id))
include hw

theorem siftDown_keeps {node : Memory Node} {n k p : Nat} {heap heap' : Memory NodeId}
    (h : siftDown node n k p heap = .ok heap') (hp : P heap) : P heap' := by
  induction k generalizing p heap with
  | zero => exact Except.ok.inj h ▸ hp
  | succ k ih =>
    unfold siftDown at h
    obtain ⟨t, -, h⟩ := except_bind_ok.1 h
    obtain ⟨t', -, h⟩ := except_bind_ok.1 h
    split at h
    · exact except_pure_ok.1 h ▸ hp
    · obtain ⟨heap₁, hs, h⟩ := except_bind_ok.1 h
      obtain ⟨a, b, -, -, rfl⟩ := swapSlots_ok hs
      exact ih h (hw _ _ _ (hw _ _ _ hp))

theorem rearrange_keeps {k n : Nat} {hist : List Config.PqEvent} {heap heap' : Memory NodeId}
    (h : rearrange k hist heap n = .ok heap') (hp : P heap) : P heap' := by
  obtain ⟨_, ids', -, -, rfl, -⟩ := rearrange_ok h
  exact placeFrom_keeps (fun m i v _ => hw m i v) le_rfl hp

theorem refDeleteMin_keeps {node : Memory Node} {n : Nat} {m : NodeId} {heap heap' : Memory NodeId}
    (h : refDeleteMin node heap n = .ok (m, heap')) (hp : P heap) : P heap' := by
  obtain ⟨m', -, h⟩ := except_bind_ok.1 h
  split at h
  · obtain ⟨rfl, rfl⟩ := Prod.mk.inj (except_pure_ok.1 h)
    exact hp
  · obtain ⟨last, -, h⟩ := except_bind_ok.1 h
    obtain ⟨heap₁, hsift, h⟩ := except_bind_ok.1 h
    obtain ⟨rfl, rfl⟩ := Prod.mk.inj (except_pure_ok.1 h)
    exact siftDown_keeps hw hsift (hw _ _ _ hp)

theorem otherDeleteMin_keeps {k n : Nat} {hist : List Config.PqEvent} {node : Memory Node} {m : NodeId}
    {heap heap' : Memory NodeId} (h : otherDeleteMin k hist node heap n = .ok (m, heap')) (hp : P heap) : P heap' := by
  obtain ⟨ws, -, h⟩ := except_bind_ok.1 h
  obtain ⟨m', -, h⟩ := except_bind_ok.1 h
  obtain ⟨last, -, h⟩ := except_bind_ok.1 h
  obtain ⟨heap₁, hre, h⟩ := except_bind_ok.1 h
  obtain ⟨rfl, rfl⟩ := Prod.mk.inj (except_pure_ok.1 h)
  exact rearrange_keeps hw hre (hw _ _ _ hp)

end Heap

/-- A write of a slot on the way to the `HEAP` an operation leaves (R167, R168). -/
theorem Evolves.writeSlot (heap : Memory NodeId) (i : Nat) (id : NodeId)
    (h : Evolves s₀ (s.setTab { s.tab with heap := heap })) :
    Evolves s₀ (s.setTab { s.tab with heap := heap.write i id }) := h.writeHeap i id

theorem pqInsert_evolves {id : NodeId} (h : Evolves s₀ s) (hr : pqInsert id s = .ok t) : Evolves s₀ t := by
  obtain ⟨heap, rfl, hheap⟩ := pqInsert_cases hr
  have added := h.writeHeap s.ctr.hsize.toNat id
  refine .setPq _ (.setCtr _ ?_)
  rcases hheap with ⟨-, hsift⟩ | ⟨k, -, hother⟩
  · exact siftUp_keeps (fun heap i v _ => Evolves.writeSlot heap i v) hsift (Nat.lt_succ_self _) added
  · exact rearrange_keeps Evolves.writeSlot hother added

theorem pqPop_evolves {m : NodeId} (h : Evolves s₀ s) (hr : pqPop s = .ok (m, t)) : Evolves s₀ t := by
  obtain ⟨heap, rfl, hheap⟩ := pqPop_cases hr
  refine .setPq _ (.setCtr _ ?_)
  rcases hheap with ⟨-, href⟩ | ⟨k, -, hother⟩
  · exact refDeleteMin_keeps Evolves.writeSlot href h
  · exact otherDeleteMin_keeps Evolves.writeSlot hother h

theorem pqinsBody_evolves (h : Evolves s₀ s) : (pqinsBody s).Leaves (Evolves s₀) := by
  unfold pqinsBody
  split
  · exact h
  · split
    · exact .lift_andThen fun t ht => pqInsert_evolves h ht
    · exact h

theorem pqdelminBody_evolves (h : Evolves s₀ s) : (pqdelminBody s).Leaves (Evolves s₀) := by
  unfold pqdelminBody
  split
  · exact (h.setReg _).setReg _
  · exact .lift_andThen fun r hr => (pqPop_evolves h hr).setReg _

/-! ### The tree builder -/

theorem allocNode_evolves {n : Node} (h : Evolves s₀ s) (hr : allocNode n s = .ok t) : Evolves s₀ t := by
  obtain ⟨u, hu, hr⟩ := except_bind_ok.1 hr
  obtain rfl := except_pure_ok.1 hr
  exact (pqInsert_evolves (h.writeNode _ n) hu).setCtr _

theorem addLeaves_evolves {es : List (Nat × Count)} (h : Evolves s₀ s) (hr : addLeaves es s = .ok t) :
    Evolves s₀ t := by
  induction es generalizing s with
  | nil => exact Except.ok.inj hr ▸ h
  | cons e es ih =>
    obtain ⟨u, hu, hr⟩ := except_bind_ok.1 hr
    exact ih (allocNode_evolves h hu) hr

theorem mergeOnce_evolves (h : Evolves s₀ s) (hr : mergeOnce s = .ok t) : Evolves s₀ t := by
  obtain ⟨⟨a, u₁⟩, h₁, hr⟩ := except_bind_ok.1 hr
  obtain ⟨⟨b, u₂⟩, h₂, hr⟩ := except_bind_ok.1 hr
  obtain ⟨wa, -, hr⟩ := except_bind_ok.1 hr
  obtain ⟨wb, -, hr⟩ := except_bind_ok.1 hr
  exact allocNode_evolves (pqPop_evolves (pqPop_evolves h h₁) h₂) hr

theorem mergeAll_evolves {turns : Nat} (h : Evolves s₀ s) (hr : mergeAll turns s = .ok t) : Evolves s₀ t := by
  induction turns generalizing s with
  | zero => exact Except.ok.inj hr ▸ h
  | succ turns ih =>
    unfold mergeAll at hr
    split at hr
    · exact Except.ok.inj hr ▸ h
    · obtain ⟨u, hu, hr⟩ := except_bind_ok.1 hr
      exact ih (mergeOnce_evolves h hu) hr

theorem buildTree_evolves (h : Evolves s₀ s) (hr : buildTree s = .ok t) : Evolves s₀ t := by
  obtain ⟨pairs, -, hr⟩ := except_bind_ok.1 hr
  obtain ⟨u, hu, hr⟩ := except_bind_ok.1 hr
  have leaves : Evolves s₀ u := addLeaves_evolves (s := clearTree s) ((h.setCtr _).setPq _) hu
  split at hr
  · exact except_pure_ok.1 hr ▸ leaves.setReg _
  · obtain ⟨v, hv, hr⟩ := except_bind_ok.1 hr
    obtain ⟨⟨r, x⟩, hx, hr⟩ := except_bind_ok.1 hr
    exact except_pure_ok.1 hr ▸ ((pqPop_evolves (mergeAll_evolves leaves hv) hx).setCtr _).setReg _

theorem buildtreeBody_evolves (h : Evolves s₀ s) : (buildtreeBody s).Leaves (Evolves s₀) :=
  .lift_andThen fun _ ht => buildTree_evolves h ht

theorem visit_evolves (edges : Nat) (id : NodeId) (path : Code) (h : Evolves s₀ s) :
    (visit edges id path s).Leaves (Evolves s₀) := by
  induction edges generalizing id path s with
  | zero =>
    unfold visit
    refine .lift_andThen fun n _ => ?_
    split
    · exact h.writeCode _ path
    · exact h
  | succ k ih =>
    unfold visit
    refine .lift_andThen fun n _ => ?_
    split
    · exact h.writeCode _ path
    · dsimp only
      split
      · exact h
      · refine (ih _ _ h).andThen fun _ t _ ht => ?_
        split
        · exact ht
        · exact ih _ _ ht

theorem buildcodesBody_evolves (h : Evolves s₀ s) : (buildcodesBody s).Leaves (Evolves s₀) := by
  have cleared := h.clearCode
  unfold buildcodesBody
  dsimp only
  split
  · exact cleared
  · refine .lift_andThen fun n _ => ?_
    split
    · exact cleared.writeCode _ [false]
    · exact visit_evolves _ _ _ cleared

/-! ### Decode -/

theorem processLine_evolves (line : List Byte) (h : Evolves s₀ s) : (processLine line s).Leaves (Evolves s₀) := by
  unfold processLine
  split
  · exact h
  · exact h
  · split
    · exact h.setCtr _
    · exact h
  · split
    · exact h.setCtr _
    · exact h
  · split
    · exact h.writeFreq _ _
    · exact h

theorem headerLoop_evolves (k : Nat) (line : List Byte) (h : Evolves s₀ s) :
    (headerLoop k line s).Leaves (Evolves s₀) := by
  induction k generalizing line s with
  | zero => trivial
  | succ k ih =>
    refine (srcRead_evolves h).andThen fun r t _ ht => ?_
    cases r with
    | none =>
      refine (processLine_evolves line (s := setEos t) (ht.setReg _)).andThen fun done u _ hu => ?_
      cases done <;> exact hu
    | some b =>
      dsimp only
      split
      · refine (processLine_evolves line ht).andThen fun done u _ hu => ?_
        cases done
        · exact ih _ hu
        · exact hu
      · exact ih _ ht

theorem parsehdrBody_evolves (h : Evolves s₀ s) : (parsehdrBody s).Leaves (Evolves s₀) := by
  unfold parsehdrBody
  split
  · exact headerLoop_evolves _ _ (h.setCtr _).clearFreq
  · exact h

theorem emitRepeat_evolves (k : Nat) (b : Byte) (h : Evolves s₀ s) : (emitRepeat k b s).Leaves (Evolves s₀) := by
  induction k generalizing s with
  | zero => exact h
  | succ k ih => exact (snkWrite_evolves b h).andThen fun _ _ _ ht => ih (ht.setCtr _)

theorem walkStep_evolves (b : Bool) (h : Evolves s₀ s) : (walkStep b s).Leaves (Evolves s₀) := by
  refine .lift_andThen fun n _ => ?_
  dsimp only
  generalize (if b = true then n.right else n.left) = next
  split
  · exact h.setCtr _
  · refine .lift_andThen fun m _ => ?_
    split
    · exact h.setCtr _
    · exact (snkWrite_evolves m.symbol (h.setCtr _)).andThen fun _ _ _ hu => hu.setCtr _

theorem walkLoop_evolves (k : Nat) (h : Evolves s₀ s) : (walkLoop k s).Leaves (Evolves s₀) := by
  induction k generalizing s with
  | zero => trivial
  | succ k ih =>
    unfold walkLoop
    split
    · refine (readBit_evolves h).andThen fun r t _ ht => ?_
      cases r with
      | none => exact ht.setReg _
      | some b => exact (walkStep_evolves b ht).andThen fun _ _ _ hu => ih hu
    · exact h

theorem walkBody_evolves (h : Evolves s₀ s) : (walkBody s).Leaves (Evolves s₀) := by
  unfold walkBody
  split
  · have started := h.setCtr { s.ctr with decoded := 0#32, cur := s.ctr.root }
    dsimp only
    split
    · exact started.setReg _
    · refine .lift_andThen fun n _ => Res.Leaves.andThen ?_ fun _ _ _ hu => hu.setReg _
      split
      · exact emitRepeat_evolves _ _ started
      · exact walkLoop_evolves _ started
  · exact h

/-! ### Compress -/

theorem countByte_evolves (b : Byte) (h : Evolves s₀ s) : (countByte b s).Leaves (Evolves s₀) := by
  unfold countByte
  split
  · exact h
  · exact .lift_andThen fun f _ => ((h.writeInbuf _ b).writeFreq _ (f + 1#32)).setCtr _

theorem countLoop_evolves (k : Nat) (h : Evolves s₀ s) : (countLoop k s).Leaves (Evolves s₀) := by
  induction k generalizing s with
  | zero => trivial
  | succ k ih =>
    refine (srcRead_evolves h).andThen fun r t _ ht => ?_
    cases r with
    | none => exact ht.setReg _
    | some b => exact (countByte_evolves b ht).andThen fun _ _ _ hu => ih hu

theorem countfreqBody_evolves (h : Evolves s₀ s) : (countfreqBody s).Leaves (Evolves s₀) := by
  unfold countfreqBody
  split
  · exact (countLoop_evolves _ (s := clearCounts s) (h.setCtr _).clearFreq).andThen fun _ _ _ ht =>
      .lift_andThen fun _ _ => (ht.setCtr _).setCtr _
  · exact h

theorem wrhdrBody_evolves (h : Evolves s₀ s) : (wrhdrBody s).Leaves (Evolves s₀) := by
  unfold wrhdrBody
  split
  · exact .lift_andThen fun _ _ => emit_evolves _ (h.setCtr _)
  · exact h

theorem encodeByte_evolves (b : Byte) (h : Evolves s₀ s) : (encodeByte b s).Leaves (Evolves s₀) := by
  refine .lift_andThen fun c _ => ?_
  split
  · exact h
  · exact writeBits_evolves c h

theorem encodeLoop_evolves (k i : Nat) (h : Evolves s₀ s) : (encodeLoop k i s).Leaves (Evolves s₀) := by
  induction k generalizing i s with
  | zero => exact h
  | succ k ih => exact .lift_andThen fun b _ => (encodeByte_evolves b h).andThen fun _ _ _ ht => ih _ ht

theorem encodeBody_evolves (h : Evolves s₀ s) : (encodeBody s).Leaves (Evolves s₀) := by
  unfold encodeBody
  split
  · exact (encodeLoop_evolves _ 0 h).andThen fun _ _ _ ht => flushBits_evolves ht
  · exact h

/-! ### Composites -/

theorem releaseHeld_evolves (h : Evolves s₀ s) (hr : releaseHeld s = .ok t) : Evolves s₀ t := by
  have source : ∀ u, Evolves s₀ u → (if u.rd.ropen then settled (rcloseBody u) else pure u) = .ok t →
      Evolves s₀ t := by
    intro u hu hr
    split at hr
    · exact (rcloseBody_evolves hu).settled hr
    · exact except_pure_ok.1 hr ▸ hu
  unfold releaseHeld at hr
  split at hr
  · obtain ⟨u, hu, hr⟩ := except_bind_ok.1 hr
    exact source u ((wcloseBody_evolves h).settled hu) hr
  · exact source s h hr

theorem composite_evolves {parts : List (State → Res Unit)}
    (hp : ∀ part ∈ parts, ∀ u, Evolves s₀ u → (part u).Leaves (Evolves s₀)) (h : Evolves s₀ s) :
    (composite parts s).Leaves (Evolves s₀) := by
  have hrun := runParts_leaves hp h
  rcases composite_cases parts s with ⟨-, hc⟩ | ⟨-, -, ⟨t, ht, hc⟩ | ⟨e, t, u, ht, hu, hc⟩ | ⟨f, -, hc⟩⟩ <;> rw [hc]
  · exact h
  · rwa [ht] at hrun
  · rw [ht] at hrun
    exact releaseHeld_evolves hrun hu
  · trivial

theorem decompressBody_evolves (h : Evolves s₀ s) : (decompressBody s).Leaves (Evolves s₀) := by
  refine composite_evolves (fun part hpart u hu => ?_) h
  simp only [decompressParts, List.mem_cons, List.not_mem_nil, or_false] at hpart
  rcases hpart with rfl | rfl | rfl | rfl | rfl | rfl | rfl
  exacts [ropenBody_evolves hu, wopenBody_evolves hu, parsehdrBody_evolves hu, buildtreeBody_evolves hu,
    walkBody_evolves hu, wcloseBody_evolves hu, rcloseBody_evolves hu]

theorem compressBody_evolves (h : Evolves s₀ s) : (compressBody s).Leaves (Evolves s₀) := by
  refine composite_evolves (fun part hpart u hu => ?_) h
  simp only [compressParts, List.mem_cons, List.not_mem_nil, or_false] at hpart
  rcases hpart with rfl | rfl | rfl | rfl | rfl | rfl | rfl | rfl | rfl
  exacts [ropenBody_evolves hu, countfreqBody_evolves hu, rcloseBody_evolves hu, buildtreeBody_evolves hu,
    buildcodesBody_evolves hu, wopenBody_evolves hu, wrhdrBody_evolves hu, encodeBody_evolves hu,
    wcloseBody_evolves hu]

/-! ### Operations -/

/-- An issued operation makes elementary changes only when its pseudocode does. -/
theorem issue_evolves {body : State → Res Unit} (hb : ∀ {u}, Evolves s₀ u → (body u).Leaves (Evolves s₀))
    (h : Evolves s₀ s) (hr : issue body s = .next t) : Evolves s₀ t := by
  have hleaves : (body (clearResultFlags s)).Leaves (Evolves s₀) := hb (h.setReg _)
  rcases issue_next hr with ⟨-, rfl⟩ | ⟨-, u, hu, rfl⟩ | ⟨-, e, u, hu, rfl⟩
  · exact h
  · rwa [hu] at hleaves
  · rw [hu] at hleaves
    exact hleaves.setReg _

/-- Every operation is a sequence of elementary changes. -/
theorem exec_evolves (i : Instr) (h : Evolves s₀ s) (hr : exec i s = .next t) : Evolves s₀ t := by
  cases i with
  | nop => exact Host.Outcome.next.inj hr ▸ h
  | clrerr => exact Host.Outcome.next.inj hr ▸ (h.setReg _).setReg _
  | sreset =>
    exact Host.Outcome.next.inj hr ▸ ((((h.setRd .reset).setWr .reset).setCtr .reset).setReg .reset).setPq .reset
  | ropen => exact issue_evolves ropenBody_evolves h hr
  | rclose => exact issue_evolves rcloseBody_evolves h hr
  | rdbit => exact issue_evolves rdbitBody_evolves h hr
  | rdbyte => exact issue_evolves rdbyteBody_evolves h hr
  | rdint => exact issue_evolves rdintBody_evolves h hr
  | wopen => exact issue_evolves wopenBody_evolves h hr
  | wclose => exact issue_evolves wcloseBody_evolves h hr
  | wrbit arg => exact issue_evolves wrbitBody_evolves (h.setReg _) hr
  | wrbyte arg => exact issue_evolves wrbyteBody_evolves (h.setReg _) hr
  | wrint arg => exact issue_evolves wrintBody_evolves (h.setReg _) hr
  | flush => exact issue_evolves flushBody_evolves h hr
  | pqclr => exact issue_evolves (body := pqclrBody) (fun hu => (hu.setCtr _).setPq _) h hr
  | pqins arg => exact issue_evolves pqinsBody_evolves (h.setReg _) hr
  | pqdelmin => exact issue_evolves pqdelminBody_evolves h hr
  | pqsize => exact issue_evolves (body := pqsizeBody) (fun hu => hu.setReg _) h hr
  | pqempty => exact issue_evolves (body := pqemptyBody) (fun hu => hu.setReg _) h hr
  | buildtree => exact issue_evolves buildtreeBody_evolves h hr
  | buildcodes => exact issue_evolves buildcodesBody_evolves h hr
  | parsehdr => exact issue_evolves parsehdrBody_evolves h hr
  | walk => exact issue_evolves walkBody_evolves h hr
  | decompress => exact issue_evolves decompressBody_evolves h hr
  | countfreq => exact issue_evolves countfreqBody_evolves h hr
  | wrhdr => exact issue_evolves wrhdrBody_evolves h hr
  | encode => exact issue_evolves encodeBody_evolves h hr
  | compress => exact issue_evolves compressBody_evolves h hr

/-- Settles O48: every operation is a sequence of elementary changes, and none of those takes back a byte of `SNK` or
touches the rest of what the host gave. -/
theorem operationsOnlyAppendToSink : Obligations.OperationsOnlyAppendToSink := by
  intro i s t hr
  obtain ⟨hsnk, hrest⟩ := (exec_evolves i .refl hr).host_frame
  exact ⟨List.isPrefixOf_iff_prefix.2 hsnk, hrest⟩

/-! ### Commands and host accesses -/

/-- Every command is one too, `CMD` being written before and after the operation (R35, R38). -/
theorem runCommand_evolves (w : CmdWord) (h : Evolves s₀ s) (hr : runCommand w s = .next t) : Evolves s₀ t := by
  have issued : Evolves s₀ (s.setCmd (cmdOp w)) := h.setReg _
  have done : ∀ o : Out, (∀ u, o = .next u → Evolves s₀ u) → mapNext (·.setCmd 0#8) o = .next t → Evolves s₀ t := by
    intro o ho hr
    cases o with
    | next u => exact Host.Outcome.next.inj hr ▸ (ho u rfl).setReg _
    | fault r => simp [mapNext] at hr
    | refused r => simp [mapNext] at hr
  unfold runCommand at hr
  refine done _ (fun u hu => ?_) hr
  cases hd : decode w with
  | ok i => rw [hd] at hu; exact exec_evolves i issued hu
  | error e => rw [hd] at hu; exact issue_evolves (body := (.raised .illegalCommand ·)) id issued hu

theorem accessError_evolves (e : ErrCode) (h : Evolves s₀ s) : Evolves s₀ (accessError e s) := by
  unfold accessError
  split
  · exact h
  · exact h.setReg _

theorem writeReg_evolves (idx : Nat) (v : HostWord) (h : Evolves s₀ s) : Evolves s₀ (writeReg idx v s) := by
  unfold writeReg
  split
  · exact h.setReg _
  · exact h.setCtr _
  · exact h.setCtr _
  · split
    · exact h.setCtr _
    · exact accessError_evolves _ h
  · split
    · exact h.setCtr _
    · exact accessError_evolves _ h
  · exact accessError_evolves _ h

theorem writeTable_evolves (sp : Space) (idx : Nat) (v : Entry) (h : Evolves s₀ s) :
    Evolves s₀ (writeTable sp idx v s) := by
  unfold writeTable
  split
  · cases sp with
    | freq => exact h.writeFreq idx _
    | node =>
      have guarded : ∀ b n, Evolves s₀ ((s.guardQueue b).setTab { s.tab with node := s.tab.node.write idx n }) := by
        intro b n
        cases b
        · exact h.writeNode idx n
        · exact (h.setPq _).writeNode idx n
      exact guarded _ _
    | heap => exact h.writeHeap idx _
    | code => exact h.writeCode idx _
    | inbuf => exact h.writeInbuf idx _
  · exact accessError_evolves _ h

theorem Tables.Canonical.reset : Tables.reset.Canonical := ⟨rfl, rfl, rfl, rfl, rfl⟩

/-- A host read changes no table. -/
theorem readReg_tab (idx : Nat) (s : State) : (readReg idx s).tab = s.tab := by
  unfold readReg accessError
  split
  · rfl
  · split <;> rfl

theorem readTable_tab {sp : Space} {idx : Nat} (hr : readTable sp idx s = .next t) : t.tab = s.tab := by
  unfold readTable accessError at hr
  split at hr
  · split at hr
    · exact Host.Outcome.next.inj hr ▸ rfl
    · simp at hr
  · rw [← Host.Outcome.next.inj hr]
    split <;> rfl

/-- A host access writes table entries or leaves the tables, unless it empties them all (R290). -/
theorem hostAccess_canonical (ev : HostEvent) (h : s.tab.Canonical) (hr : hostAccess ev s = .next t) :
    t.tab.Canonical := by
  cases ev with
  | command w => exact Host.Outcome.next.inj hr ▸ h
  | regRead idx => exact Host.Outcome.next.inj hr ▸ readReg_tab idx s ▸ h
  | regWrite idx v => exact Host.Outcome.next.inj hr ▸ (writeReg_evolves idx v .refl).canonical h
  | tblRead sp idx => exact readTable_tab hr ▸ h
  | tblWrite sp idx v => exact Host.Outcome.next.inj hr ▸ (writeTable_evolves sp idx v .refl).canonical h
  | presentSrc bytes pos => exact Host.Outcome.next.inj hr ▸ h
  | presentSnk bytes => exact Host.Outcome.next.inj hr ▸ h
  | hardReset => exact Host.Outcome.next.inj hr ▸ .reset

theorem step_canonical (h : s.tab.Canonical) (hr : step s = .next t) : t.tab.Canonical := by
  unfold step at hr
  split at hr
  · exact Host.Outcome.next.inj hr ▸ h
  · next ev rest _ =>
    have popped : (s.popScript rest).tab.Canonical := h
    dsimp only at hr
    split at hr
    · exact (runCommand_evolves _ .refl hr).canonical popped
    · exact hostAccess_canonical ev popped hr

/-- Settles O60: a command is a sequence of elementary changes, each of which keeps the canonical form, and so does
every host access. -/
theorem everyStepKeepsTablesCanonical : Obligations.EveryStepKeepsTablesCanonical := by
  intro s t hfreq hnode hheap hcode hinbuf hr
  obtain ⟨hfreq', hnode', hheap', hcode', hinbuf'⟩ := step_canonical ⟨hfreq, hnode, hheap, hcode, hinbuf⟩ hr
  exact ⟨hfreq', hnode', hheap', hcode', hinbuf'⟩

end Sys2Proof.Machine
end

section
/-! PROOFS. The table port (R70, R71, R73): the packed form of a written entry read back, the one entry a write
changes, and what an access inside and outside a table's size does. -/

namespace Sys2Proof.Machine

variable {s : State} {sp : Space} {idx : Nat} {rest : List HostEvent}

/-! ### Packed entries -/

/-- The port zero-extends (R70). -/
theorem setWidth_eq_toEntry {w : Nat} (x : BitVec w) : x.setWidth 263 = toEntry x.toNat :=
  (BitVec.ofNat_toNat 263 x).symm

/-- A count keeps the low `CNT_W` bits written (R38, R70). -/
theorem toNat_lowCount {p : Config.Params} (h : p.wf = true) (v : Nat) : (lowCount p v).toNat = v % 2 ^ p.cntW := by
  obtain ⟨-, h32, -⟩ := (Config.Params.wf_iff p).1 h
  rw [lowCount, BitVec.toNat_ofNat]
  exact Nat.mod_eq_of_lt ((Nat.mod_lt _ (by positivity)).trans_le (Nat.pow_le_pow_right (by decide) h32))

theorem unpack_kind_bit (wW : Nat) (e : Entry) : (Node.unpack wW e).kind.bit = e.toNat / 2 ^ 26 % 2 := by
  rw [← Nat.toNat_testBit, BitVec.testBit_toNat, Node.unpack]
  cases e.getLsbD 26 <;> rfl

theorem toNat_unpack_weight {wW : Nat} (h : wW ≤ 40) (e : Entry) :
    (Node.unpack wW e).weight.toNat = e.toNat / 2 ^ 27 % 2 ^ wW := by
  rw [Node.unpack, BitVec.toNat_ofNat, Nat.shiftRight_eq_div_pow]
  exact Nat.mod_eq_of_lt ((Nat.mod_lt _ (by positivity)).trans_le (Nat.pow_le_pow_right (by decide) h))

/-- A record packs into the bits it was unpacked from, the weight being `W_W` bits wide (R103). -/
theorem Node.pack_unpack {wW : Nat} (h : wW ≤ 40) (e : Entry) :
    (Node.unpack wW e).pack = toEntry (e.toNat % 2 ^ (27 + wW)) := by
  have symbol : (Node.unpack wW e).symbol.toNat = e.toNat / 2 ^ 18 % 2 ^ 8 := by
    rw [Node.unpack, BitVec.extractLsb'_toNat, Nat.shiftRight_eq_div_pow]
  have left : (Node.unpack wW e).left.toNat = e.toNat / 2 ^ 9 % 2 ^ 9 := by
    rw [Node.unpack, BitVec.extractLsb'_toNat, Nat.shiftRight_eq_div_pow]
  have right : (Node.unpack wW e).right.toNat = e.toNat % 2 ^ 9 := by
    rw [Node.unpack, BitVec.extractLsb'_toNat, Nat.shiftRight_zero]
  rw [Node.pack, toNat_unpack_weight h, unpack_kind_bit, symbol, left, right, Nat.pow_add, Nat.mod_mul]
  simp only [Nat.shiftLeft_eq]
  congr 1
  omega

/-- Clearing low bits leaves what is above a higher place and clears them below it. -/
theorem div_mul_split (x d m : Nat) : x / d * d = x / (d * m) * (d * m) + x % (d * m) / d * d := by
  have low := Nat.mod_mul_right_mod x d m
  have h₁ := Nat.div_add_mod' x d
  have h₂ := Nat.div_add_mod' x (d * m)
  have h₃ := Nat.div_add_mod' (x % (d * m)) d
  omega

/-- The `n` bits of a number below place `p`, put back in their places. -/
theorem codeBits_testBit (x : Nat) {n p : Nat} (h : n ≤ p) :
    codeBits ((List.range n).map fun j => x.testBit (p - 1 - j)) p = x % 2 ^ p / 2 ^ (p - n) * 2 ^ (p - n) := by
  induction n generalizing p with
  | zero => simp [codeBits, Nat.div_eq_of_lt (Nat.mod_lt x (Nat.two_pow_pos p))]
  | succ n ih =>
    obtain ⟨q, rfl⟩ := Nat.exists_eq_add_of_le' (Nat.le_of_add_left_le h)
    have tail : ((List.range n).map fun j => x.testBit (q - (j + 1))) =
        (List.range n).map fun j => x.testBit (q - 1 - j) :=
      List.map_congr_left fun j _ => by rw [Nat.sub_sub, Nat.add_comm]
    have hq : 2 ^ (q - n) * 2 ^ n = 2 ^ q := by rw [← Nat.pow_add]; congr 1; omega
    have hx : x % 2 ^ (q + 1) / 2 ^ q = (x.testBit q).toNat := by
      rw [Nat.toNat_testBit, Nat.pow_succ, Nat.mod_mul_right_div_self]
    have hx' : x % 2 ^ (q + 1) % 2 ^ q = x % 2 ^ q := by rw [Nat.pow_succ, Nat.mod_mul_right_mod]
    have split := div_mul_split (x % 2 ^ (q + 1)) (2 ^ (q - n)) (2 ^ n)
    rw [hq, hx, hx'] at split
    rw [List.range_succ_eq_map, List.map_cons, List.map_map, codeBits, Nat.add_sub_add_right q 1 n, split,
      ← ih (Nat.le_of_succ_le_succ h), ← tail, Nat.shiftLeft_eq]
    rfl

/-- A code packs into the bits it was unpacked from, zeros below it (R102; notes/assumptions/14.md). -/
theorem packCode_unpackCode (e : Entry) :
    packCode (unpackCode e) =
      toEntry (e.toNat / 2 ^ (255 - e.toNat / 2 ^ 255) * 2 ^ (255 - e.toNat / 2 ^ 255)) := by
  have len : (e.extractLsb' 255 8).toNat = e.toNat / 2 ^ 255 := by
    rw [BitVec.extractLsb'_toNat, Nat.shiftRight_eq_div_pow]
    have := e.isLt
    omega
  have hle : e.toNat / 2 ^ 255 ≤ 255 := len ▸ Nat.le_of_lt_succ (e.extractLsb' 255 8).isLt
  have bits : unpackCode e = (List.range (e.toNat / 2 ^ 255)).map fun j => e.toNat.testBit (255 - 1 - j) := by
    rw [unpackCode, len]
    rfl
  have hlen : (unpackCode e).length = e.toNat / 2 ^ 255 := by rw [bits, List.length_map, List.length_range]
  have split := div_mul_split e.toNat (2 ^ (255 - e.toNat / 2 ^ 255)) (2 ^ (e.toNat / 2 ^ 255))
  rw [← Nat.pow_add, Nat.sub_add_cancel hle] at split
  rw [packCode, hlen, bits, codeBits_testBit _ hle, Nat.shiftLeft_eq, split]

/-- The code bits in place are the number they spell. -/
theorem codeBits_eq_bitsValue {c : Code} {p : Nat} (h : c.length ≤ p) : codeBits c p = bitsValue c p := by
  induction c generalizing p with
  | nil => cases p <;> rfl
  | cons b c ih =>
    obtain ⟨q, rfl⟩ := Nat.exists_eq_add_of_le' (Nat.le_of_add_left_le h)
    rw [codeBits, bitsValue, Nat.add_sub_cancel, ih (Nat.le_of_succ_le_succ h), Nat.shiftLeft_eq]

theorem packCode_eq {c : Code} (h : c.length ≤ 255) : packCode c = toEntry (c.length * 2 ^ 255 + bitsValue c 255) := by
  rw [packCode, codeBits_eq_bitsValue h, Nat.shiftLeft_eq]

theorem Node.pack_eq (n : Node) :
    n.pack = toEntry (n.weight.toNat * 2 ^ 27 + (if n.kind = .leaf then 2 ^ 26 else 0) + n.symbol.toNat * 2 ^ 18
      + n.left.toNat * 2 ^ 9 + n.right.toNat) := by
  rw [Node.pack]
  simp only [Nat.shiftLeft_eq]
  cases n.kind <;> rfl

/-! ### What an entry shows -/

/-- A written entry shows its value in the port's form. -/
theorem readEntry_map_of_some {α : Type} {m : Memory α} {x : α} (f : α → Entry) (h : m.read idx = some x) :
    (readEntry sp m idx).map f = .ok (f x) := by
  rw [readEntry_ok.2 h]
  rfl

/-- An unwritten entry shows nothing (U9). -/
theorem readEntry_map_of_isNone {α : Type} {m : Memory α} (f : α → Entry) (h : (m.read idx).isNone = true) :
    (readEntry sp m idx).map f = .error (.unwrittenEntry sp idx) := by
  rw [readEntry_error.2 ⟨Option.isNone_iff_eq_none.1 h, rfl⟩]
  rfl

/-! ### A write of an entry -/

/-- An entry just written is read back in the bits it has (R70, R102 to R104). -/
theorem entry_writeEntry (v : Entry) (h : s.par.wf = true) :
    (s.writeEntry sp idx v).entry sp idx = .ok (toEntry (keptBits s.par sp v.toNat)) := by
  have hw : s.par.wW ≤ 40 := by
    obtain ⟨-, h32, -⟩ := (Config.Params.wf_iff _).1 h
    unfold Config.Params.wW
    omega
  have written : ∀ {α : Type} (m : Memory α) (x : α) (f : α → Entry),
      (readEntry sp (m.write idx x) idx).map f = .ok (f x) := fun m x f =>
    readEntry_map_of_some f (m.read_write_same idx x)
  cases sp with
  | freq => exact (written _ _ _).trans (by rw [setWidth_eq_toEntry, toNat_lowCount h, keptBits])
  | node => exact (written _ _ _).trans (by rw [Node.pack_unpack hw, keptBits])
  | heap => exact (written _ _ _).trans (by rw [setWidth_eq_toEntry, BitVec.toNat_setWidth, keptBits])
  | code => exact (written _ _ _).trans (by rw [packCode_unpackCode, keptBits])
  | inbuf => exact (written _ _ _).trans (by rw [setWidth_eq_toEntry, BitVec.toNat_setWidth, keptBits])

/-- Every entry of every table as it was, but for one entry of one table. -/
structure Tables.SameBut (sp : Space) (idx : Nat) (x y : Tables) : Prop where
  freq : ∀ j, sp ≠ .freq ∨ j ≠ idx → y.freq.read j = x.freq.read j
  node : ∀ j, sp ≠ .node ∨ j ≠ idx → y.node.read j = x.node.read j
  heap : ∀ j, sp ≠ .heap ∨ j ≠ idx → y.heap.read j = x.heap.read j
  code : ∀ j, sp ≠ .code ∨ j ≠ idx → y.code.read j = x.code.read j
  inbuf : ∀ j, sp ≠ .inbuf ∨ j ≠ idx → y.inbuf.read j = x.inbuf.read j

theorem Tables.SameBut.refl (sp : Space) (idx : Nat) (x : Tables) : x.SameBut sp idx x :=
  ⟨fun _ _ => rfl, fun _ _ => rfl, fun _ _ => rfl, fun _ _ => rfl, fun _ _ => rfl⟩

section SameBut
variable (x : Tables) (i : Nat)

theorem Tables.sameBut_writeFreq (v : Count) : x.SameBut .freq i { x with freq := x.freq.write i v } :=
  { Tables.SameBut.refl .freq i x with freq := fun _ hj => x.freq.read_write_other v (hj.resolve_left (· rfl)) }

theorem Tables.sameBut_writeNode (v : Node) : x.SameBut .node i { x with node := x.node.write i v } :=
  { Tables.SameBut.refl .node i x with node := fun _ hj => x.node.read_write_other v (hj.resolve_left (· rfl)) }

theorem Tables.sameBut_writeHeap (v : NodeId) : x.SameBut .heap i { x with heap := x.heap.write i v } :=
  { Tables.SameBut.refl .heap i x with heap := fun _ hj => x.heap.read_write_other v (hj.resolve_left (· rfl)) }

theorem Tables.sameBut_writeCode (v : Code) : x.SameBut .code i { x with code := x.code.write i v } :=
  { Tables.SameBut.refl .code i x with code := fun _ hj => x.code.read_write_other v (hj.resolve_left (· rfl)) }

theorem Tables.sameBut_writeInbuf (v : Byte) : x.SameBut .inbuf i { x with inbuf := x.inbuf.write i v } :=
  { Tables.SameBut.refl .inbuf i x with inbuf := fun _ hj => x.inbuf.read_write_other v (hj.resolve_left (· rfl)) }

end SameBut

/-- The queue's record stays as it was unless the write breaks the contract (R161, R303). -/
theorem guardQueue_eq (s : State) (breaks : Bool) :
    s.guardQueue breaks = s.setPq { s.pq with intact := !breaks && s.pq.intact } := by
  cases breaks <;> rfl

theorem writeEntry_node (s : State) (idx : Nat) (v : Entry) :
    let n := Node.unpack s.par.wW v
    let breaks := s.queued idx && decide ((s.tab.node.read idx).map (·.weight) ≠ some n.weight)
    s.writeEntry .node idx v = (s.setTab { s.tab with node := s.tab.node.write idx n }).setPq
      { s.pq with intact := !breaks && s.pq.intact } := by
  dsimp only
  rw [State.writeEntry, guardQueue_eq]
  rfl

/-- An index is queued when a queued id names it (R28). -/
theorem queued_iff : s.queued idx = true ↔ ∃ id ∈ queuedIds s, id.toNat = idx := by
  simp only [State.queued, queuedIds, List.any_eq_true, List.mem_range, Option.any_eq_true, List.mem_filterMap,
    beq_iff_eq]
  constructor
  · rintro ⟨i, hi, id, hid, rfl⟩
    exact ⟨id, ⟨i, hi, hid⟩, rfl⟩
  · rintro ⟨id, ⟨i, hi, hid⟩, rfl⟩
    exact ⟨i, hi, id, hid, rfl⟩

/-- Everything a host write of an entry can do: it changes that entry, and the queue's record only when the entry is the
record of a queued node. -/
theorem writeEntry_cases (s : State) (sp : Space) (idx : Nat) (v : Entry) :
    ∃ x log, s.writeEntry sp idx v = (s.setTab x).setPq log ∧ s.tab.SameBut sp idx x ∧ log.hist = s.pq.hist ∧
      (sp ≠ .node ∨ (∀ id ∈ queuedIds s, id.toNat ≠ idx) → log = s.pq) := by
  cases sp with
  | freq => exact ⟨_, s.pq, rfl, s.tab.sameBut_writeFreq _ _, rfl, fun _ => rfl⟩
  | node =>
    refine ⟨_, _, writeEntry_node s idx v, s.tab.sameBut_writeNode _ _, rfl, fun hq => ?_⟩
    have unqueued : s.queued idx = false := by
      rw [← Bool.not_eq_true, queued_iff]
      rintro ⟨id, hid, hidx⟩
      exact hq.resolve_left (· rfl) id hid hidx
    rw [unqueued]
    rfl
  | heap => exact ⟨_, s.pq, rfl, s.tab.sameBut_writeHeap _ _, rfl, fun _ => rfl⟩
  | code => exact ⟨_, s.pq, rfl, s.tab.sameBut_writeCode _ _, rfl, fun _ => rfl⟩
  | inbuf => exact ⟨_, s.pq, rfl, s.tab.sameBut_writeInbuf _ _, rfl, fun _ => rfl⟩

/-! ### An access -/

theorem size_eq_tableSize (p : Config.Params) (sp : Space) : sp.size p = tableSize p sp := by cases sp <;> rfl

/-- An event that reads a table entry is a read of it, and nothing else (R70). -/
theorem step_tblRead (h : s.env.script = .tblRead sp idx :: rest) :
    step s = readTable sp idx (s.popScript rest) := by
  rw [step, h]
  rfl

/-- An event that writes a table entry is a write of it, and nothing else (R70). -/
theorem step_tblWrite {v : Entry} (h : s.env.script = .tblWrite sp idx v :: rest) :
    step s = .next (writeTable sp idx v (s.popScript rest)) := by
  rw [step, h]
  rfl

theorem writeTable_inside (v : Entry) (h : idx < tableSize s.par sp) :
    writeTable sp idx v s = s.writeEntry sp idx v := by
  rw [writeTable, size_eq_tableSize, if_pos h]

theorem writeTable_outside (v : Entry) (h : tableSize s.par sp ≤ idx) :
    writeTable sp idx v s = accessError .illegalCommand s := by
  rw [writeTable, size_eq_tableSize, if_neg h.not_gt]

theorem readTable_shows {e : Entry} (h : idx < tableSize s.par sp) (he : s.entry sp idx = .ok e) :
    readTable sp idx s = .next (s.showHost e) := by
  rw [readTable, size_eq_tableSize, if_pos h, he]

theorem readTable_stops {f : Fault} (h : idx < tableSize s.par sp) (he : s.entry sp idx = .error f) :
    readTable sp idx s = .fault f := by
  rw [readTable, size_eq_tableSize, if_pos h, he]

theorem readTable_outside (h : tableSize s.par sp ≤ idx) :
    readTable sp idx s = .next (accessError .illegalCommand s) := by
  rw [readTable, size_eq_tableSize, if_neg h.not_gt]

/-- Settles O57: a write changes one entry to what packs into the bits kept, a read shows the entry packed, and either
is refused outside the size. -/
theorem hostReadsBackTableWrites : Obligations.HostReadsBackTableWrites := by
  refine ⟨fun s sp idx v rest h hp hi => ?_, fun s sp idx rest h hi => ?_, fun s sp idx v rest h hi => ?_⟩
  · have shown := entry_writeEntry (s := s.popScript (.tblRead sp idx :: rest)) (sp := sp) (idx := idx) v hp
    have written := step_tblWrite h
    rw [writeTable_inside (s := s.popScript (.tblRead sp idx :: rest)) v hi] at written
    obtain ⟨x, log, hw, same, hhist, hlog⟩ := writeEntry_cases (s.popScript (.tblRead sp idx :: rest)) sp idx v
    rw [hw] at shown written
    exact ⟨_, _, written, (step_tblRead (rest := rest) rfl).trans (readTable_shows hi shown), rfl, rfl, same.freq,
      same.node, same.heap, same.code, same.inbuf, hhist, hlog⟩
  · have shows : ∀ n : Nat, s.entry sp idx = .ok (toEntry n) →
        step s = .next { s with env := { s.env with script := rest, busData := BitVec.ofNat 263 n } } :=
      fun n he => (step_tblRead h).trans (readTable_shows (s := s.popScript rest) hi he)
    refine ⟨?_, ?_, ?_, ?_, ?_, fun hnone => ?_⟩
    · rintro c rfl hc
      exact shows _ ((readEntry_map_of_some _ hc).trans (by rw [setWidth_eq_toEntry]))
    · rintro n rfl hn
      exact shows _ ((readEntry_map_of_some _ hn).trans (by rw [Node.pack_eq]))
    · rintro id rfl hid
      exact shows _ ((readEntry_map_of_some _ hid).trans (by rw [setWidth_eq_toEntry]))
    · rintro c rfl hc hlen
      exact shows _ ((readEntry_map_of_some _ hc).trans (by rw [packCode_eq hlen]))
    · rintro b rfl hb
      exact shows _ ((readEntry_map_of_some _ hb).trans (by rw [setWidth_eq_toEntry]))
    · refine (step_tblRead h).trans (readTable_stops (s := s.popScript rest) hi ?_)
      cases sp <;> exact readEntry_map_of_isNone _ hnone
  · rcases h with h | h
    · rw [step_tblWrite h, writeTable_outside (s := s.popScript rest) v hi]
      rfl
    · rw [step_tblRead h, readTable_outside (s := s.popScript rest) hi]
      rfl

end Sys2Proof.Machine
end

section
/-! PROOFS. The command word (R90 to R93): decoding a word inverts encoding an operation, and what a code that is no
operation's does (R92). -/

namespace Sys2Proof

/-! ### Decoding and encoding -/

/-- The code of an operation, with its operand where it takes one and any `arg` where it takes none, names the operation
(R91, R93). -/
theorem decodeFields_opOf (i : Instr) {arg : HostWord} (h : ∀ a, operand? i = some a → arg = a) :
    decodeFields (opOf i) arg = .ok i := by
  cases i
  case wrbit | wrbyte | wrint | pqins => rw [h _ rfl]; rfl
  all_goals rfl

/-- Fields that name an operation are its code and, where it takes one, its operand (R91, R92). -/
theorem fields_of_decodeFields {op : BitVec 8} {arg : HostWord} {i : Instr} (h : decodeFields op arg = .ok i) :
    op = opOf i ∧ ∀ a, operand? i = some a → arg = a := by
  unfold decodeFields at h
  split at h
  case h_29 => exact nomatch h
  all_goals
    next hop =>
      cases h
      exact ⟨BitVec.eq_of_toNat_eq hop, by simp [operand?]⟩

/-- A word decodes to an operation exactly when its fields are that operation's (R90 to R93). -/
theorem decode_eq_ok_iff {w : CmdWord} {i : Instr} :
    decode w = .ok i ↔ cmdOp w = opOf i ∧ ∀ a, operand? i = some a → cmdArg w = a := by
  refine ⟨fields_of_decodeFields, fun ⟨hop, harg⟩ => ?_⟩
  rw [decode, hop]
  exact decodeFields_opOf i harg

theorem decode_encode (i : Instr) : decode (encode i) = .ok i := by
  obtain ⟨hop, harg⟩ := Laws.Opcode.fields i
  exact decode_eq_ok_iff.2 ⟨hop, fun a ha => by rw [harg, ha]; rfl⟩

/-- Settles O1: the fields of a word determine what it decodes to, and encoding writes an operation's own fields. -/
theorem decodeAndEncodeAgree : Obligations.DecodeAndEncodeAgree :=
  ⟨decode_encode, fun _ _ => decode_eq_ok_iff⟩

/-- A code that is no operation's is rejected (R92). -/
theorem decode_error_of_unassigned {w : CmdWord} (h : ∀ i, cmdOp w ≠ opOf i) : ∃ e, decode w = .error e := by
  cases hd : decode w with
  | ok i => exact absurd (decode_eq_ok_iff.1 hd).1 (h i)
  | error e => exact ⟨e, rfl⟩

namespace Machine

variable {s : State} {w : CmdWord} {rest : List HostEvent}

/-! ### Issue of a code that is no operation's -/

/-- An event that issues a command word is the issue of that word, and nothing else (R90, R254). -/
theorem step_commandOf {ev : HostEvent} (hs : s.env.script = ev :: rest)
    (hw : commandOf ev (s.popScript rest) = some w) : step s = runCommand w (s.popScript rest) := by
  rw [step, hs]
  dsimp only
  rw [hw]

/-- Both forms of issue issue the word (R90, R254). -/
theorem step_issues {v : HostWord} (h : s.env.script = .command w :: rest ∨
    s.env.script = .regWrite 0 v :: rest ∧ w = (v.extractLsb' 0 8 : BitVec 8) ++ s.reg.arg) :
    step s = runCommand w (s.popScript rest) := by
  rcases h with h | ⟨h, rfl⟩ <;> exact step_commandOf h rfl

/-- A word that decodes to no operation raises `IllegalCommand`, `CMD` being clear before and after, and is dropped
while an error is pending (R92, R254). -/
theorem runCommand_unassigned (hw : ∀ i, cmdOp w ≠ opOf i) (hcmd : s.reg.cmd = 0#8) :
    runCommand w s =
      .next (if s.reg.err then s else raiseError .illegalCommand (clearResultFlags s)) := by
  obtain ⟨e, hd⟩ := decode_error_of_unassigned hw
  have cleared : s.setCmd 0#8 = s := hcmd ▸ rfl
  rw [runCommand, hd]
  dsimp only
  by_cases herr : s.reg.err = true
  · rw [if_pos herr, illegalCommand, issue_dropped (s := s.setCmd (cmdOp w)) herr]
    exact congrArg Host.Outcome.next cleared
  · rw [if_neg herr, illegalCommand, issue_run (s := s.setCmd (cmdOp w)) (Bool.eq_false_of_not_eq_true herr)]
    exact congrArg (fun t => Host.Outcome.next (raiseError .illegalCommand (clearResultFlags t))) cleared

/-- Settles O4: either form issues the word, and a word that decodes to no operation is refused. -/
theorem unassignedCodeRaisesIllegalCommand : Obligations.UnassignedCodeRaisesIllegalCommand := by
  intro s w v rest hissue hw hcmd
  rw [step_issues hissue]
  exact runCommand_unassigned (s := s.popScript rest) hw hcmd

end Machine
end Sys2Proof
end

section
/-! PROOFS. Packed node records and codes unpack to themselves (R102, R103). -/

namespace Sys2Proof.Machine

/-! ### Node records -/

theorem NodeKind.bit_lt (k : NodeKind) : k.bit < 2 := by cases k <;> decide

theorem NodeKind.bit_injective : Function.Injective NodeKind.bit := by
  rintro (_ | _) (_ | _) <;> decide

theorem Node.toNat_pack (n : Node) :
    n.pack.toNat = n.weight.toNat * 2 ^ 27 + n.kind.bit * 2 ^ 26 + n.symbol.toNat * 2 ^ 18 + n.left.toNat * 2 ^ 9
      + n.right.toNat := by
  rw [Node.pack, toEntry, BitVec.toNat_ofNat]
  simp only [Nat.shiftLeft_eq]
  have := n.weight.isLt
  have := n.kind.bit_lt
  omega

/-- The weight, the kind, the symbol and the two links stand in places of their own (R103). -/
theorem Node.pack_injective : Function.Injective Node.pack := by
  rintro ⟨kind, symbol, weight, left, right⟩ ⟨kind', symbol', weight', left', right'⟩ h
  have := kind.bit_lt
  have := kind'.bit_lt
  have hnat := congrArg BitVec.toNat h
  simp only [Node.toNat_pack] at hnat
  have hright : right = right' := by bv_omega
  have hleft : left = left' := by bv_omega
  have hsymbol : symbol = symbol' := by bv_omega
  have hweight : weight = weight' := by bv_omega
  have hkind : kind = kind' := NodeKind.bit_injective (by bv_omega)
  rw [hright, hleft, hsymbol, hweight, hkind]

/-- A record whose weight fits `W_W` bits has no bit set above those the port keeps (R103). -/
theorem Node.toNat_pack_lt {n : Node} {wW : Nat} (h : n.weight.toNat < 2 ^ wW) : n.pack.toNat < 2 ^ (27 + wW) := by
  rw [Node.toNat_pack, Nat.pow_add]
  have := n.kind.bit_lt
  omega

/-- Packing loses nothing, and what the port keeps of a packed record is the whole of it (R103). -/
theorem Node.unpack_pack {n : Node} {wW : Nat} (hw : wW ≤ 40) (h : n.weight.toNat < 2 ^ wW) :
    Node.unpack wW n.pack = n := by
  apply Node.pack_injective
  rw [Node.pack_unpack hw, Nat.mod_eq_of_lt (Node.toNat_pack_lt h), toEntry, BitVec.ofNat_toNat, BitVec.setWidth_eq]

/-! ### Codes -/

theorem bitsValue_lt (code : Code) (p : Nat) : bitsValue code p < 2 ^ p := by
  induction code generalizing p with
  | nil => exact Nat.two_pow_pos p
  | cons b code ih =>
    cases p with
    | zero => exact Nat.one_pos
    | succ p =>
      have := ih p
      have := b.toNat_lt
      have : b.toNat * 2 ^ p ≤ 1 * 2 ^ p := Nat.mul_le_mul_right _ (by omega)
      rw [bitsValue]
      omega

/-- Bit `j` of a code stands `j` places below the first (R102). -/
theorem testBit_bitsValue {code : Code} {p j : Nat} (hp : code.length ≤ p) (hj : j < code.length) :
    (bitsValue code p).testBit (p - 1 - j) = code[j] := by
  induction code generalizing p j with
  | nil => cases hj
  | cons b code ih =>
    obtain ⟨q, rfl⟩ := Nat.exists_eq_add_of_le' (Nat.le_of_add_left_le hp)
    rw [bitsValue, Nat.mul_comm, Nat.testBit_two_pow_mul_add _ (bitsValue_lt code q)]
    cases j with
    | zero => cases b <;> simp
    | succ j =>
      have hj' : j < code.length := Nat.lt_of_succ_lt_succ hj
      have hq : code.length ≤ q := Nat.le_of_succ_le_succ hp
      have place : q + 1 - 1 - (j + 1) = q - 1 - j := by omega
      rw [if_pos (by omega), place, ih hq hj', List.getElem_cons_succ]

theorem toNat_packCode {code : Code} (h : code.length ≤ 255) :
    (packCode code).toNat = 2 ^ 255 * code.length + bitsValue code 255 := by
  rw [packCode_eq h, toEntry, BitVec.toNat_ofNat]
  have := bitsValue_lt code 255
  omega

theorem unpackCode_packCode {code : Code} (h : code.length ≤ 255) : unpackCode (packCode code) = code := by
  have hlt := bitsValue_lt code 255
  have len : ((packCode code).extractLsb' 255 8).toNat = code.length := by
    rw [BitVec.extractLsb'_toNat, Nat.shiftRight_eq_div_pow, toNat_packCode h]
    omega
  have bit : ∀ (j : Nat) (hj : j < code.length), (packCode code).getLsbD (254 - j) = code[j] := fun j hj => by
    rw [← BitVec.testBit_toNat, toNat_packCode h, Nat.testBit_two_pow_mul_add _ hlt, if_pos (by omega),
      ← testBit_bitsValue h hj]
  rw [unpackCode, len]
  exact List.ext_getElem (by simp) fun j _ hj => by simp [bit j hj]

/-- Settles O56: the port keeps the whole of a packed record, and unpacking reads each bit of a code where packing puts
it. -/
theorem packedEntriesRoundTrip : Obligations.PackedEntriesRoundTrip :=
  ⟨fun _ _ => Node.unpack_pack, fun _ => unpackCode_packCode⟩

end Sys2Proof.Machine
end

section
/-! PROOFS. Bit strings in bytes (R63, R64): what a bit buffer holds, the byte made of bits, and a packed bit string
read as bits again. -/

namespace Sys2Proof.Machine

/-! ### The bits of a byte -/

/-- The `c` low bits of a byte, most significant first: what a bit buffer of `c` bits holds (R21, R22). -/
def lowBits (w : Byte) (c : Nat) : List Bool := (List.range c).map fun i => w.getLsbD (c - 1 - i)

theorem pendingWrite_eq_lowBits (s : State) : s.pendingWrite = lowBits s.wr.wbuf s.wr.wcnt.toNat := rfl

theorem byteBits_eq_lowBits (b : Byte) : byteBits b = lowBits b 8 := rfl

@[simp] theorem length_lowBits (w : Byte) (c : Nat) : (lowBits w c).length = c := by simp [lowBits]

theorem length_pendingWrite (s : State) : s.pendingWrite.length = s.wr.wcnt.toNat := length_lowBits _ _

/-- A bit enters at the low end of a buffer (R137). -/
def shiftInBit (w : Byte) (b : Bool) : Byte := (w <<< 1) ||| (BitVec.ofBool b).setWidth 8

/-- A bit shifted in stands behind those already buffered (R63, R137). -/
theorem lowBits_shiftIn (w : Byte) (b : Bool) {c : Nat} (hc : c < 8) :
    lowBits (shiftInBit w b) (c + 1) = lowBits w c ++ [b] := by
  unfold lowBits shiftInBit
  rw [List.range_succ, List.map_append]
  congr 1
  · refine List.map_congr_left fun i hi => ?_
    have hi : i < c := List.mem_range.1 hi
    have hne : c - i ≠ 0 := by omega
    have hlt : c - i < 8 := by omega
    rw [Nat.add_sub_cancel, Nat.sub_right_comm, BitVec.getLsbD_or, BitVec.getLsbD_shiftLeft, BitVec.getLsbD_setWidth,
      BitVec.getLsbD_ofBool]
    simp [hne, hlt]
  · cases b <;> simp

/-- Bits moved up by `n` places are followed by `n` zeros (R64). -/
theorem lowBits_shiftLeft (w : Byte) {c n : Nat} (h : c + n ≤ 8) :
    lowBits (w <<< n) (c + n) = lowBits w c ++ List.replicate n false := by
  induction n with
  | zero => simp
  | succ n ih =>
    have hshift := lowBits_shiftIn (w <<< n) false (c := c + n) h
    rw [ih (by omega), List.append_assoc, ← List.replicate_succ', shiftInBit, ← BitVec.shiftLeft_add] at hshift
    simpa [Nat.add_assoc] using hshift

theorem byteBits_injective : Function.Injective byteBits := by
  intro a b h
  refine BitVec.eq_of_getLsbD_eq fun i hi => ?_
  have hbit := congrArg (·[7 - i]?) h
  have hlt : 7 - i < 8 := by omega
  have hi' : 7 - (7 - i) = i := by omega
  simpa [byteBits, hlt, hi'] using hbit

/-! ### The byte made of bits -/

theorem bitsValue_replicate_false (n p : Nat) : bitsValue (List.replicate n false) p = 0 := by
  induction n generalizing p with
  | zero => rfl
  | succ n ih => cases p <;> simp [List.replicate_succ, bitsValue, ih]

/-- Zeros behind a bit string do not change its value (R64). -/
theorem bitsValue_append_replicate_false (bits : List Bool) (n p : Nat) :
    bitsValue (bits ++ List.replicate n false) p = bitsValue bits p := by
  induction bits generalizing p with
  | nil => exact bitsValue_replicate_false n p
  | cons b bits ih => cases p <;> simp [bitsValue, ih]

/-- A byte made of bits holds them, then zeros (R64). -/
theorem byteBits_byteOfBits {bits : List Bool} (h : bits.length ≤ 8) :
    byteBits (byteOfBits bits) = bits ++ List.replicate (8 - bits.length) false := by
  have hlen : (bits ++ List.replicate (8 - bits.length) false).length = 8 := by simp; omega
  refine List.ext_getElem (by rw [hlen]; rfl) fun j _ hj => ?_
  have hlt : 7 - j < 8 := by omega
  simp only [byteBits, byteOfBits, List.getElem_map, List.getElem_range, BitVec.getLsbD_ofNat, hlt, decide_true,
    Bool.true_and]
  rw [← bitsValue_append_replicate_false bits (8 - bits.length)]
  exact testBit_bitsValue hlen.le hj

/-- The byte made of the buffered bits is the buffer left-aligned, zeros below (R64, R140). -/
theorem byteOfBits_lowBits (w : Byte) {c : Nat} (hc : c ≤ 8) : byteOfBits (lowBits w c) = w <<< (8 - c) := by
  have hfull : c + (8 - c) = 8 := by omega
  apply byteBits_injective
  rw [byteBits_byteOfBits (by rwa [length_lowBits]), length_lowBits, byteBits_eq_lowBits,
    ← lowBits_shiftLeft w hfull.le, hfull]

/-! ### Packed bit strings -/

theorem packBits_append {byte : List Bool} (bits : List Bool) (h : byte.length = 8) :
    packBits (byte ++ bits) = byteOfBits byte :: packBits bits := by
  match byte, h with
  | [_, _, _, _, _, _, _, _], _ => rfl

theorem packBits_part {bits : List Bool} (h : bits ≠ []) (h8 : bits.length < 8) :
    packBits bits = [byteOfBits bits] := by
  unfold packBits
  split
  · simp at h8; omega
  · contradiction
  · rfl

/-- A bit string is empty, or part of a byte, or a byte and another bit string (R64). -/
theorem bytewise_induction {motive : List Bool → Prop} (nil : motive [])
    (part : ∀ bits, bits ≠ [] → bits.length < 8 → motive bits)
    (byte : ∀ byte bits, byte.length = 8 → motive bits → motive (byte ++ bits)) (bits : List Bool) : motive bits := by
  rcases Nat.lt_or_ge bits.length 8 with h8 | h8
  · rcases eq_or_ne bits [] with rfl | h
    · exact nil
    · exact part bits h h8
  · rw [← List.take_append_drop 8 bits]
    exact byte _ _ (by simpa using h8) (bytewise_induction nil part byte (bits.drop 8))
termination_by bits.length
decreasing_by rw [List.length_drop]; omega

theorem length_packBits (bits : List Bool) : (packBits bits).length = (bits.length + 7) / 8 := by
  induction bits using bytewise_induction with
  | nil => rfl
  | part bits h h8 =>
    have := List.length_pos_iff.2 h
    rw [packBits_part h h8, List.length_singleton]
    omega
  | byte byte bits h ih =>
    rw [packBits_append bits h, List.length_cons, List.length_append, ih, h]
    omega

/-- The bytes of a bit string hold it, then zeros up to the byte boundary (R64, R141). -/
theorem flatMap_byteBits_packBits (bits : List Bool) :
    (packBits bits).flatMap byteBits =
      bits ++ List.replicate (8 * ((bits.length + 7) / 8) - bits.length) false := by
  induction bits using bytewise_induction with
  | nil => rfl
  | part bits h h8 =>
    have := List.length_pos_iff.2 h
    have hceil : (bits.length + 7) / 8 = 1 := by omega
    rw [packBits_part h h8, List.flatMap_singleton, byteBits_byteOfBits h8.le, hceil]
  | byte byte bits h ih =>
    have hpad : 8 * (((byte ++ bits).length + 7) / 8) - (byte ++ bits).length =
        8 * ((bits.length + 7) / 8) - bits.length := by
      rw [List.length_append]
      omega
    rw [packBits_append bits h, List.flatMap_cons, ih, byteBits_byteOfBits h.le, hpad, h]
    simp

end Sys2Proof.Machine
end

section
/-! PROOFS. Several stream accesses in a row, as the draws decide them (R61, R62, R69, R76): the bytes `RDINT` takes and
the bytes `WRINT` gives. -/

namespace Sys2Proof.Machine

variable {s t : State}

/-! ### Draws -/

theorem not_mem_take_draws_succ {n : Nat} :
    true ∉ s.env.draws.take (n + 1) ↔ s.accessFails = false ∧ true ∉ s.env.draws.tail.take n := by
  unfold State.accessFails
  cases s.env.draws <;> simp

theorem accessFails_of_take_one (h : s.env.draws.take 1 = [true]) : s.accessFails = true := by
  unfold State.accessFails
  cases hd : s.env.draws <;> simp_all

/-- When the access after `k` + 1 more is the first to fail, the coming one does not. -/
theorem take_draws_succ {k : Nat} (h : s.env.draws.take (k + 2) = List.replicate (k + 1) false ++ [true]) :
    s.accessFails = false ∧ s.env.draws.tail.take (k + 1) = List.replicate k false ++ [true] := by
  unfold State.accessFails
  cases hd : s.env.draws <;> simp_all [List.replicate_succ]

/-! ### `SrcRead()` several times -/

/-- A byte of a word enters at the low end (R134). -/
def shiftInByte (v : HostWord) (b : Byte) : HostWord := (v <<< 8) ||| b.setWidth 32

/-- The state after a byte of `SRC` was taken (R61). -/
def State.takeByte (s : State) : State :=
  s.setEnv { s.env with srcPos := s.env.srcPos + 1, draws := s.env.draws.tail }

theorem takeByte_srcLeft {b : Byte} {rest : List Byte} (h : s.srcLeft = b :: rest) : s.takeByte.srcLeft = rest :=
  (srcLeft_cons h).2

/-- A byte that is there and whose access succeeds enters (R134). -/
theorem readBytes_takeByte {b : Byte} {rest : List Byte} (k : Nat) (v : HostWord) (hf : s.accessFails = false)
    (h : s.srcLeft = b :: rest) : readBytes (k + 1) v s = readBytes k (shiftInByte v b) s.takeByte := by
  rw [readBytes, srcRead_byte hf (srcLeft_cons h).1]
  rfl

/-- Bytes that are there and whose accesses succeed enter one after another (R134). -/
theorem readBytes_ok (bytes : List Byte) {rest : List Byte} {v : HostWord} (h : s.srcLeft = bytes ++ rest)
    (hd : true ∉ s.env.draws.take bytes.length) :
    readBytes bytes.length v s = .ok (some (bytes.foldl shiftInByte v))
      (s.setEnv { s.env with
        srcPos := s.env.srcPos + bytes.length, draws := s.env.draws.drop bytes.length }) := by
  induction bytes generalizing s v with
  | nil => rfl
  | cons b bytes ih =>
    obtain ⟨hf, hd⟩ := not_mem_take_draws_succ.1 hd
    rw [List.length_cons, readBytes_takeByte _ v hf h, ih (takeByte_srcLeft h) hd]
    simp [State.takeByte, Nat.add_assoc, Nat.add_comm]

/-- Of too few bytes each is taken, and then the end of the source is met (R134). -/
theorem readBytes_eos {k : Nat} {v : HostWord} (h : s.srcLeft.length < k)
    (hd : true ∉ s.env.draws.take (s.srcLeft.length + 1)) :
    readBytes k v s = .ok none (s.setEnv { s.env with
      srcPos := s.env.srcPos + s.srcLeft.length, draws := s.env.draws.drop (s.srcLeft.length + 1) }) := by
  induction k generalizing s v with
  | zero => cases h
  | succ k ih =>
    obtain ⟨hf, hd⟩ := not_mem_take_draws_succ.1 hd
    cases hleft : s.srcLeft with
    | nil =>
      rw [readBytes, srcRead_eos hf ((srcLeft_nil_iff s).1 hleft)]
      simp [State.useDraw]
    | cons b rest =>
      have hrest := takeByte_srcLeft hleft
      rw [hleft] at h hd
      rw [← hrest] at h hd
      rw [readBytes_takeByte k v hf hleft, ih (Nat.lt_of_succ_lt_succ h) hd, hrest]
      simp [State.takeByte, Nat.add_assoc, Nat.add_comm]

/-- A failing access ends the reading with the bytes before it taken (R69, R134). -/
theorem readBytes_fails {j k : Nat} {v : HostWord} (hj : j < k) (h : j ≤ s.srcLeft.length)
    (hd : s.env.draws.take (j + 1) = List.replicate j false ++ [true]) :
    ∃ pos free, readBytes k v s = .raised .ioFailure (s.setEnv { s.env with
      srcPos := pos, freeCtr := free, draws := s.env.draws.drop (j + 1) }) := by
  induction k generalizing s v j with
  | zero => cases hj
  | succ k ih =>
    cases j with
    | zero =>
      have hf := accessFails_of_take_one hd
      exact ⟨_, _, by rw [readBytes, srcRead_fails hf, Res.andThen_raised, List.drop_one]⟩
    | succ j =>
      obtain ⟨hf, hd⟩ := take_draws_succ hd
      obtain ⟨b, rest, hleft⟩ := List.exists_cons_of_length_pos (Nat.zero_lt_of_lt h)
      rw [hleft, ← takeByte_srcLeft hleft] at h
      obtain ⟨pos, free, hr⟩ := ih (s := s.takeByte) (v := shiftInByte v b) (Nat.lt_of_succ_lt_succ hj)
        (Nat.le_of_succ_le_succ h) hd
      exact ⟨pos, free, by rw [readBytes_takeByte k v hf hleft, hr]; simp [State.takeByte]⟩

theorem toNat_shiftInByte (v : HostWord) (b : Byte) :
    (shiftInByte v b).toNat = (2 ^ 8 * v.toNat + b.toNat) % 2 ^ 32 := by
  rw [shiftInByte, BitVec.toNat_or, BitVec.toNat_shiftLeft, BitVec.toNat_setWidth, ← Nat.or_mod_two_pow,
    Nat.shiftLeft_eq, Nat.mul_comm, ← Nat.two_pow_add_eq_or_of_lt b.isLt]

theorem toNat_append_byte {n : Nat} (v : BitVec n) (b : Byte) : (v ++ b).toNat = 2 ^ 8 * v.toNat + b.toNat := by
  rw [BitVec.toNat_append, Nat.shiftLeft_eq, Nat.mul_comm, ← Nat.two_pow_add_eq_or_of_lt b.isLt]

/-- Four bytes that entered one after another are the word, the first in bits 31 to 24 (R65, R134). -/
theorem foldl_shiftInByte (a b c d : Byte) : [a, b, c, d].foldl shiftInByte 0#32 = a ++ b ++ c ++ d := by
  apply BitVec.eq_of_toNat_eq
  simp only [List.foldl, toNat_shiftInByte, toNat_append_byte]
  simp only [BitVec.toNat_ofNat]
  omega

/-! ### `emit(bytes)` -/

/-- The state after a byte was written to `SNK` (R62). -/
def State.putByte (s : State) (b : Byte) : State :=
  (s.setEnv { s.env with snk := s.env.snk ++ [b], draws := s.env.draws.tail }).setWr
    { s.wr with snkCnt := s.wr.snkCnt + 1#64 }

theorem emit_putByte (b : Byte) (bytes : List Byte) (hf : s.accessFails = false) :
    emit (b :: bytes) s = emit bytes (s.putByte b) := by
  rw [emit, snkWrite_ok b hf]
  rfl

/-- Bytes whose accesses succeed are appended and counted (R62, R139). -/
theorem emit_of_draws {bytes : List Byte} (hd : true ∉ s.env.draws.take bytes.length) :
    emit bytes s = .ok () ((s.setEnv { s.env with
      snk := s.env.snk ++ bytes, draws := s.env.draws.drop bytes.length }).setWr
      { s.wr with snkCnt := s.wr.snkCnt + BitVec.ofNat 64 bytes.length }) := by
  induction bytes generalizing s with
  | nil => simp [emit, State.setEnv, State.setWr]
  | cons b bytes ih =>
    obtain ⟨hf, hd⟩ := not_mem_take_draws_succ.1 hd
    rw [emit_putByte b bytes hf, ih hd]
    simp [State.putByte, State.setEnv, State.setWr, BitVec.add_assoc, ← BitVec.ofNat_add, Nat.add_comm]

/-- A failing access ends the writing, and of the bytes before it each stays written (R69, R139). -/
theorem emit_fails {bytes : List Byte} {k : Nat} (hk : k < bytes.length)
    (hd : s.env.draws.take (k + 1) = List.replicate k false ++ [true]) :
    ∃ tail free, emit bytes s = .raised .ioFailure ((s.setEnv { s.env with
      snk := s.env.snk ++ bytes.take k ++ tail, freeCtr := free, draws := s.env.draws.drop (k + 1) }).setWr
      { s.wr with snkCnt := s.wr.snkCnt + BitVec.ofNat 64 k }) := by
  induction bytes generalizing s k with
  | nil => cases hk
  | cons b bytes ih =>
    cases k with
    | zero =>
      refine ⟨Config.snkTailAfterFailure s.env.freeCtr, s.env.freeCtr + 1, ?_⟩
      rw [emit, snkWrite_fails b (accessFails_of_take_one hd), Res.andThen_raised]
      simp [State.setEnv, State.setWr]
    | succ k =>
      obtain ⟨hf, hd⟩ := take_draws_succ hd
      obtain ⟨tail, free, hr⟩ := ih (s := s.putByte b) (Nat.lt_of_succ_lt_succ hk) hd
      refine ⟨tail, free, ?_⟩
      rw [emit_putByte b bytes hf, hr]
      simp [State.putByte, State.setEnv, State.setWr, BitVec.add_assoc, ← BitVec.ofNat_add, Nat.add_comm]

theorem wordBytes_append (a b c d : Byte) : wordBytes (a ++ b ++ c ++ d) = [a, b, c, d] := by
  have hword : (a ++ b ++ c ++ d).toNat = 2 ^ 8 * (2 ^ 8 * (2 ^ 8 * a.toNat + b.toNat) + c.toNat) + d.toNat := by
    simp only [toNat_append_byte]
  simp only [wordBytes, List.cons.injEq, and_true, ← BitVec.toNat_inj, BitVec.extractLsb'_toNat,
    Nat.shiftRight_eq_div_pow, hword]
  omega

end Sys2Proof.Machine
end

section
/-! PROOFS. What each operation of bit-stream I/O does (R130 to R140): its pseudocode branch by branch, and from that
the next state. -/

namespace Sys2Proof.Machine

variable {s t : State}

/-! ### Issue -/

/-- An operation whose pseudocode ends, the state it leaves written in another form. -/
theorem issue_ok {body : State → Res Unit} {u : State} (herr : s.reg.err = false)
    (h : body (clearResultFlags s) = .ok () u) (hu : u = t := by rfl) : issue body s = .next t := by
  rw [issue_run herr, h, hu, finish_ok]

/-- An operation whose pseudocode raises, the state it leaves written in another form. -/
theorem issue_raised {body : State → Res Unit} {e : ErrCode} {u : State} (herr : s.reg.err = false)
    (h : body (clearResultFlags s) = .raised e u) (hu : u = t := by rfl) :
    issue body s = .next (raiseError e t) := by
  rw [issue_run herr, h, hu, finish_raised]

/-! ### Acquisition and release of the streams -/

theorem acquire_ok (hd : s.env.draws.head? ≠ some true) : acquire s = .ok () s.useDraw := by
  simp [acquire, (accessFails_false_iff s).2 hd]

theorem acquire_fails (hd : s.env.draws.head? = some true) : acquire s = .raised .ioFailure s.useDraw := by
  simp [acquire, (accessFails_iff s).2 hd]

theorem ropenBody_held (ho : s.rd.ropen = true) : ropenBody s = .raised .illegalState s := if_pos ho

theorem ropenBody_fails (ho : s.rd.ropen = false) (hd : s.env.draws.head? = some true) :
    ropenBody s = .raised .ioFailure s.useDraw := by simp [ropenBody, ho, acquire_fails hd]

theorem ropenBody_acquires (ho : s.rd.ropen = false) (hd : s.env.draws.head? ≠ some true) :
    ropenBody s = .ok () (s.useDraw.setRd { rbuf := 0#8, rcnt := 0#4, ropen := true }) := by
  simp [ropenBody, ho, acquire_ok hd]

theorem rcloseBody_free (ho : s.rd.ropen = false) : rcloseBody s = .raised .illegalState s := by simp [rcloseBody, ho]

theorem rcloseBody_releases (ho : s.rd.ropen = true) :
    rcloseBody s = .ok () (s.setRd { rbuf := 0#8, rcnt := 0#4, ropen := false }) := if_pos ho

/-- Settles O8: `ROPEN` finds the source held, or fails to acquire it, or holds it; `RCLOSE` needs it held. -/
theorem ropenAcquiresRcloseReleases : Obligations.RopenAcquiresRcloseReleases :=
  ⟨rfl, rfl, fun _ herr =>
    ⟨fun ho => issue_raised herr (ropenBody_held ho),
     fun ho hd => issue_raised herr (ropenBody_fails ho hd),
     fun ho hd => issue_ok herr (ropenBody_acquires ho hd),
     fun ho => issue_raised herr (rcloseBody_free ho),
     fun ho => issue_ok herr (rcloseBody_releases ho)⟩⟩

theorem wopenBody_held (ho : s.wr.wopen = true) : wopenBody s = .raised .illegalState s := if_pos ho

theorem wopenBody_fails (ho : s.wr.wopen = false) (hd : s.env.draws.head? = some true) :
    wopenBody s = .raised .ioFailure s.useDraw := by simp [wopenBody, ho, acquire_fails hd]

theorem wopenBody_acquires (ho : s.wr.wopen = false) (hd : s.env.draws.head? ≠ some true) :
    wopenBody s = .ok () (s.useDraw.setWr { wbuf := 0#8, wcnt := 0#3, wopen := true, snkCnt := 0#64 }) := by
  simp [wopenBody, ho, acquire_ok hd]

/-- Settles O12: `WOPEN` finds the sink held, or fails to acquire it, or holds it. -/
theorem wopenAcquiresSink : Obligations.WopenAcquiresSink :=
  ⟨rfl, fun _ herr =>
    ⟨fun ho => issue_raised herr (wopenBody_held ho),
     fun ho hd => issue_raised herr (wopenBody_fails ho hd),
     fun ho hd => issue_ok herr (wopenBody_acquires ho hd)⟩⟩

/-! ### `RDBIT` -/

theorem readBit_buffered (h : s.rd.rcnt ≠ 0#4) : readBit s =
    .ok (some (s.rd.rbuf.getLsbD (s.rd.rcnt - 1#4).toNat)) (s.setRd { s.rd with rcnt := s.rd.rcnt - 1#4 }) :=
  if_neg h

theorem readBit_takes {b : Byte} {rest : List Byte} (h : s.rd.rcnt = 0#4) (hd : s.env.draws.head? ≠ some true)
    (hleft : s.srcLeft = b :: rest) : readBit s =
    .ok (some (b.getLsbD 7)) (s.takeByte.setRd { s.rd with rbuf := b, rcnt := 7#4 }) := by
  rw [readBit, if_pos h, srcRead_byte ((accessFails_false_iff s).2 hd) (srcLeft_cons hleft).1, Res.andThen_ok]
  simp [deliverBit, State.takeByte]

theorem readBit_eos (h : s.rd.rcnt = 0#4) (hd : s.env.draws.head? ≠ some true) (hleft : s.srcLeft = []) :
    readBit s = .ok none s.useDraw := by
  rw [readBit, if_pos h, srcRead_eos ((accessFails_false_iff s).2 hd) ((srcLeft_nil_iff s).1 hleft)]
  rfl

theorem readBit_fails (h : s.rd.rcnt = 0#4) (hd : s.env.draws.head? = some true) :
    ∃ pos free, readBit s = .raised .ioFailure (s.setEnv { s.env with
      srcPos := pos, freeCtr := free, draws := s.env.draws.tail }) :=
  ⟨_, _, by rw [readBit, if_pos h, srcRead_fails ((accessFails_iff s).2 hd), Res.andThen_raised]⟩

theorem rdbitBody_free (ho : s.rd.ropen = false) : rdbitBody s = .raised .illegalState s := by simp [rdbitBody, ho]

theorem rdbitBody_bit {b : Bool} (ho : s.rd.ropen = true) (h : readBit s = .ok (some b) t) :
    rdbitBody s = .ok () (t.setResult (if b then 1#32 else 0#32)) := by
  rw [rdbitBody, if_pos ho, h]
  cases b <;> rfl

theorem rdbitBody_eos (ho : s.rd.ropen = true) (h : readBit s = .ok none t) : rdbitBody s = .ok () (eosSentinel t) := by
  rw [rdbitBody, if_pos ho, h]
  rfl

theorem rdbitBody_fails {e : ErrCode} (ho : s.rd.ropen = true) (h : readBit s = .raised e t) :
    rdbitBody s = .raised e t := by rw [rdbitBody, if_pos ho, h, Res.andThen_raised]

/-- Settles O9: `RDBIT` answers as `ReadBit()` does. -/
theorem rdbitDeliversNextBit : Obligations.RdbitDeliversNextBit := by
  refine ⟨rfl, fun s herr => ⟨fun ho => issue_raised herr (rdbitBody_free ho),
    fun ho h => issue_ok herr (rdbitBody_bit ho (readBit_buffered h)),
    fun ho h hd => ⟨fun b rest hleft => issue_ok herr (rdbitBody_bit ho (readBit_takes h hd hleft)),
      fun hleft => issue_ok herr (rdbitBody_eos ho (readBit_eos h hd hleft))⟩, fun ho h hd => ?_⟩⟩
  obtain ⟨pos, free, hr⟩ := readBit_fails (s := clearResultFlags s) h hd
  exact ⟨pos, free, issue_raised herr (rdbitBody_fails ho hr)⟩

/-! ### `RDBYTE` -/

theorem canReadBytes_of (ho : s.rd.ropen = true) (h : s.rd.rcnt = 0#4) : s.canReadBytes = true := by
  simp [State.canReadBytes, ho, h]

theorem not_canReadBytes (h : s.rd.ropen = false ∨ s.rd.rcnt ≠ 0#4) : ¬s.canReadBytes = true := by
  rcases h with h | h <;> simp [State.canReadBytes, h]

theorem rdbyteBody_takes {b : Byte} {rest : List Byte} (ho : s.rd.ropen = true) (h : s.rd.rcnt = 0#4)
    (hd : s.env.draws.head? ≠ some true) (hleft : s.srcLeft = b :: rest) :
    rdbyteBody s = .ok () (s.takeByte.setResult (b.setWidth 32)) := by
  rw [rdbyteBody, if_pos (canReadBytes_of ho h),
    srcRead_byte ((accessFails_false_iff s).2 hd) (srcLeft_cons hleft).1]
  rfl

theorem rdbyteBody_eos (ho : s.rd.ropen = true) (h : s.rd.rcnt = 0#4) (hd : s.env.draws.head? ≠ some true)
    (hleft : s.srcLeft = []) : rdbyteBody s = .ok () (eosSentinel s.useDraw) := by
  rw [rdbyteBody, if_pos (canReadBytes_of ho h),
    srcRead_eos ((accessFails_false_iff s).2 hd) ((srcLeft_nil_iff s).1 hleft)]
  rfl

theorem rdbyteBody_fails (ho : s.rd.ropen = true) (h : s.rd.rcnt = 0#4) (hd : s.env.draws.head? = some true) :
    ∃ pos free, rdbyteBody s = .raised .ioFailure (s.setEnv { s.env with
      srcPos := pos, freeCtr := free, draws := s.env.draws.tail }) :=
  ⟨_, _, by rw [rdbyteBody, if_pos (canReadBytes_of ho h), srcRead_fails ((accessFails_iff s).2 hd),
    Res.andThen_raised]⟩

/-- Settles O10: `RDBYTE` answers as `SrcRead()` does. -/
theorem rdbyteReadsOneByte : Obligations.RdbyteReadsOneByte := by
  refine ⟨rfl, fun s herr => ⟨fun h => issue_raised herr (if_neg (not_canReadBytes h)),
    fun ho h hd => ⟨fun b rest hleft => issue_ok herr (rdbyteBody_takes ho h hd hleft),
      fun hleft => issue_ok herr (rdbyteBody_eos ho h hd hleft)⟩, fun ho h hd => ?_⟩⟩
  obtain ⟨pos, free, hr⟩ := rdbyteBody_fails (s := clearResultFlags s) ho h hd
  exact ⟨pos, free, issue_raised herr hr⟩

/-! ### `RDINT` -/

/-- `RDINT` answers as its loop of `SrcRead()` does (R134). -/
theorem rdintBody_word {v : HostWord} (ho : s.rd.ropen = true) (h : s.rd.rcnt = 0#4)
    (hr : readBytes 4 0#32 s = .ok (some v) t) : rdintBody s = .ok () (t.setResult v) := by
  rw [rdintBody, if_pos (canReadBytes_of ho h), hr]
  rfl

theorem rdintBody_eos (ho : s.rd.ropen = true) (h : s.rd.rcnt = 0#4) (hr : readBytes 4 0#32 s = .ok none t) :
    rdintBody s = .ok () (eosSentinel t) := by
  rw [rdintBody, if_pos (canReadBytes_of ho h), hr]
  rfl

theorem rdintBody_fails {e : ErrCode} (ho : s.rd.ropen = true) (h : s.rd.rcnt = 0#4)
    (hr : readBytes 4 0#32 s = .raised e t) : rdintBody s = .raised e t := by
  rw [rdintBody, if_pos (canReadBytes_of ho h), hr, Res.andThen_raised]

/-- Settles O11: the loop of `RDINT` takes the four bytes, or too few and meets the end, or meets a failing access. -/
theorem rdintReadsBigEndianWord : Obligations.RdintReadsBigEndianWord := by
  refine ⟨rfl, fun s herr => ⟨fun h => issue_raised herr (if_neg (not_canReadBytes h)), fun ho h =>
    ⟨fun a b c d rest hleft hd => ?word,
     fun hleft hd => issue_ok herr (rdintBody_eos ho h (readBytes_eos hleft hd)),
     fun k hk hleft hd => ?fails⟩⟩⟩
  case word =>
    rw [← foldl_shiftInByte a b c d]
    exact issue_ok herr (rdintBody_word ho h (readBytes_ok [a, b, c, d] hleft hd))
  case fails =>
    obtain ⟨pos, free, hr⟩ := readBytes_fails (s := clearResultFlags s) hk hleft hd
    exact ⟨pos, free, issue_raised herr (rdintBody_fails ho h hr)⟩

/-! ### A byte made of buffered bits -/

/-- The state after the buffered bits went to `SNK` as a byte (R137, R140). -/
def State.putBits (s : State) (b : Byte) : State :=
  (s.setEnv { s.env with snk := s.env.snk ++ [b], draws := s.env.draws.tail }).setWr
    { wbuf := 0#8, wcnt := 0#3, wopen := s.wr.wopen, snkCnt := s.wr.snkCnt + 1#64 }

/-- The state after the buffered bits were lost in a failing access (U2, R137, R140). -/
def State.loseBits (s : State) (tail : List Byte) (free : Nat) : State :=
  (s.setEnv { s.env with snk := s.env.snk ++ tail, freeCtr := free, draws := s.env.draws.tail }).setWr
    { wbuf := 0#8, wcnt := 0#3, wopen := s.wr.wopen, snkCnt := s.wr.snkCnt }

theorem snkWrite_putBits (b : Byte) (hd : s.env.draws.head? ≠ some true) :
    snkWrite b (s.setWr { s.wr with wbuf := 0#8, wcnt := 0#3 }) = .ok () (s.putBits b) :=
  snkWrite_ok b ((accessFails_false_iff s).2 hd)

theorem snkWrite_loseBits (b : Byte) (hd : s.env.draws.head? = some true) :
    ∃ tail free, snkWrite b (s.setWr { s.wr with wbuf := 0#8, wcnt := 0#3 }) =
      .raised .ioFailure (s.loseBits tail free) :=
  ⟨_, _, snkWrite_fails b ((accessFails_iff s).2 hd)⟩

/-! ### `FLUSH` and `WCLOSE` -/

theorem flushBits_boundary (h : s.wr.wcnt = 0#3) : flushBits s = .ok () s := if_pos h

theorem flushBits_part (h : s.wr.wcnt ≠ 0#3) : flushBits s =
    snkWrite (byteOfBits s.pendingWrite) (s.setWr { s.wr with wbuf := 0#8, wcnt := 0#3 }) := by
  rw [flushBits, if_neg h, pendingWrite_eq_lowBits, byteOfBits_lowBits _ (by omega)]

theorem flushBits_writes (h : s.wr.wcnt ≠ 0#3) (hd : s.env.draws.head? ≠ some true) :
    flushBits s = .ok () (s.putBits (byteOfBits s.pendingWrite)) := by rw [flushBits_part h, snkWrite_putBits _ hd]

theorem flushBits_fails (h : s.wr.wcnt ≠ 0#3) (hd : s.env.draws.head? = some true) :
    ∃ tail free, flushBits s = .raised .ioFailure (s.loseBits tail free) := by
  rw [flushBits_part h]
  exact snkWrite_loseBits _ hd

theorem flushBody_free (ho : s.wr.wopen = false) : flushBody s = .raised .illegalState s := by simp [flushBody, ho]

theorem flushBody_held {r : Res Unit} (ho : s.wr.wopen = true) (hr : flushBits s = r) : flushBody s = r :=
  (if_pos ho).trans hr

theorem clearResultFlags_putBits_held {b : Byte} (ho : s.wr.wopen = true) : (clearResultFlags s).putBits b =
    { clearResultFlags s with
      wr := { wbuf := 0#8, wcnt := 0#3, wopen := true, snkCnt := s.wr.snkCnt + 1#64 }
      env := { s.env with snk := s.env.snk ++ [b], draws := s.env.draws.tail } } := by
  rw [← ho]
  rfl

theorem clearResultFlags_loseBits_held {tail : List Byte} {free : Nat} (ho : s.wr.wopen = true) :
    (clearResultFlags s).loseBits tail free =
      { clearResultFlags s with
        wr := { wbuf := 0#8, wcnt := 0#3, wopen := true, snkCnt := s.wr.snkCnt }
        env := { s.env with snk := s.env.snk ++ tail, freeCtr := free, draws := s.env.draws.tail } } := by
  rw [← ho]
  rfl

/-- Settles O17: `FLUSH` does what `Flush()` does. -/
theorem flushWritesPartialByte : Obligations.FlushWritesPartialByte := by
  refine ⟨rfl, fun s herr => ⟨fun ho => issue_raised herr (flushBody_free ho),
    fun ho h => issue_ok herr (flushBody_held ho (flushBits_boundary h)),
    fun ho h hd => issue_ok herr (flushBody_held ho (flushBits_writes h hd))
      (clearResultFlags_putBits_held ho), fun ho h hd => ?_⟩⟩
  obtain ⟨tail, free, hr⟩ := flushBits_fails (s := clearResultFlags s) h hd
  exact ⟨tail, free, issue_raised herr (flushBody_held ho hr) (clearResultFlags_loseBits_held ho)⟩

theorem wcloseBody_free (ho : s.wr.wopen = false) : wcloseBody s = .raised .illegalState s := by simp [wcloseBody, ho]

theorem wcloseBody_of_flushed (ho : s.wr.wopen = true) (h : flushBits s = .ok () t) :
    wcloseBody s = .ok () (releaseSink t) := by simp [wcloseBody, ho, h]

theorem wcloseBody_of_failed {e : ErrCode} (ho : s.wr.wopen = true) (h : flushBits s = .raised e t) :
    wcloseBody s = .raised e (releaseSink t) := by simp [wcloseBody, ho, h]

/-- Settles O13: `WCLOSE` releases the sink whatever `Flush()` did. -/
theorem wcloseFlushesAndReleases : Obligations.WcloseFlushesAndReleases := by
  refine ⟨rfl, fun s herr => ⟨fun ho => issue_raised herr (wcloseBody_free ho),
    fun ho h => issue_ok herr (wcloseBody_of_flushed ho (flushBits_boundary h)),
    fun ho h hd => issue_ok herr (wcloseBody_of_flushed ho (flushBits_writes h hd)), fun ho h hd => ?_⟩⟩
  obtain ⟨tail, free, hr⟩ := flushBits_fails (s := clearResultFlags s) h hd
  exact ⟨tail, free, issue_raised herr (wcloseBody_of_failed ho hr)⟩

/-! ### `WRBIT` -/

theorem writeBit_buffers (b : Bool) (h : s.wr.wcnt ≠ 7#3) : writeBit b s =
    .ok () (s.setWr { s.wr with wbuf := shiftInBit s.wr.wbuf b, wcnt := s.wr.wcnt + 1#3 }) := if_neg h

theorem pendingWrite_buffers (b : Bool) (h : s.wr.wcnt ≠ 7#3) (hbuf : t.wr.wbuf = shiftInBit s.wr.wbuf b)
    (hcnt : t.wr.wcnt = s.wr.wcnt + 1#3) : t.pendingWrite = s.pendingWrite ++ [b] := by
  have hlt : s.wr.wcnt.toNat < 8 := s.wr.wcnt.isLt
  have hsucc : (s.wr.wcnt + 1#3).toNat = s.wr.wcnt.toNat + 1 := by bv_omega
  rw [pendingWrite_eq_lowBits, hbuf, hcnt, hsucc, lowBits_shiftIn _ b hlt, pendingWrite_eq_lowBits]

/-- The byte that the eighth bit completes (R137). -/
theorem byteOfBits_eighth (b : Bool) (h : s.wr.wcnt = 7#3) :
    byteOfBits (s.pendingWrite ++ [b]) = shiftInBit s.wr.wbuf b := by
  rw [pendingWrite_eq_lowBits, h, ← lowBits_shiftIn _ b (by decide), byteOfBits_lowBits _ (by decide)]
  simp

theorem writeBit_eighth {b : Bool} {r : Res Unit} (h : s.wr.wcnt = 7#3)
    (hr : snkWrite (byteOfBits (s.pendingWrite ++ [b])) (s.setWr { s.wr with wbuf := 0#8, wcnt := 0#3 }) = r) :
    writeBit b s = r := by
  rw [byteOfBits_eighth b h] at hr
  exact (if_pos h).trans hr

theorem wrbitBody_free (ho : s.wr.wopen = false) : wrbitBody s = .raised .illegalState s := by simp [wrbitBody, ho]

theorem wrbitBody_refuses (ho : s.wr.wopen = true) (ha : 1 < s.reg.arg.toNat) :
    wrbitBody s = .raised .invalidArgument s := by simp [wrbitBody, ho, ha]

theorem wrbitBody_bit {r : Res Unit} (ho : s.wr.wopen = true) (ha : s.reg.arg.toNat ≤ 1)
    (hr : writeBit (s.reg.arg.getLsbD 0) s = r) : wrbitBody s = r := by rw [wrbitBody, if_pos ho, if_pos ha, hr]

theorem shiftInBit_arg (w : Byte) {arg : HostWord} (ha : arg.toNat ≤ 1) :
    shiftInBit w (arg.getLsbD 0) = (w <<< 1) ||| arg.setWidth 8 := by
  rcases Nat.le_one_iff_eq_zero_or_eq_one.1 ha with h | h
  · rw [BitVec.eq_of_toNat_eq (y := 0#32) h]; rfl
  · rw [BitVec.eq_of_toNat_eq (y := 1#32) h]; rfl

/-- Settles O14: `WRBIT` does what `WriteBit(b)` does once the sink is held and the operand is a bit. -/
theorem wrbitAccumulatesAndWritesEighth : Obligations.WrbitAccumulatesAndWritesEighth := by
  refine fun s arg => ⟨rfl, fun herr => ⟨fun ho => issue_raised (s := s.setArg arg) herr (wrbitBody_free ho),
    fun ho ha => issue_raised (s := s.setArg arg) herr (wrbitBody_refuses ho ha), fun ho ha h => ?buffered,
    fun ho ha h hd => ?written, fun ho ha h hd => ?fails⟩⟩
  case buffered =>
    refine ⟨_, issue_ok (s := s.setArg arg) herr (wrbitBody_bit ho ha (writeBit_buffers _ h)),
      pendingWrite_buffers _ h rfl rfl, ?_⟩
    rw [← shiftInBit_arg s.wr.wbuf ha]
    rfl
  case written =>
    exact issue_ok (s := s.setArg arg) herr (wrbitBody_bit ho ha (writeBit_eighth h (snkWrite_putBits _ hd)))
      (clearResultFlags_putBits_held ho)
  case fails =>
    obtain ⟨tail, free, hr⟩ := snkWrite_loseBits (s := clearResultFlags (s.setArg arg))
      (byteOfBits (s.pendingWrite ++ [arg.getLsbD 0])) hd
    exact ⟨tail, free, issue_raised (s := s.setArg arg) herr (wrbitBody_bit ho ha (writeBit_eighth h hr))
      (clearResultFlags_loseBits_held ho)⟩

/-! ### `WRBYTE` and `WRINT` -/

theorem canWriteBytes_of (ho : s.wr.wopen = true) (h : s.wr.wcnt = 0#3) : s.canWriteBytes = true := by
  simp [State.canWriteBytes, ho, h]

theorem not_canWriteBytes (h : s.wr.wopen = false ∨ s.wr.wcnt ≠ 0#3) : ¬s.canWriteBytes = true := by
  rcases h with h | h <;> simp [State.canWriteBytes, h]

theorem wrbyteBody_refuses (ho : s.wr.wopen = true) (h : s.wr.wcnt = 0#3) (ha : 255 < s.reg.arg.toNat) :
    wrbyteBody s = .raised .invalidArgument s := by
  rw [wrbyteBody, if_pos (canWriteBytes_of ho h), if_neg (Nat.not_le.2 ha)]

theorem wrbyteBody_byte {r : Res Unit} (ho : s.wr.wopen = true) (h : s.wr.wcnt = 0#3) (ha : s.reg.arg.toNat ≤ 255)
    (hr : snkWrite (s.reg.arg.setWidth 8) s = r) : wrbyteBody s = r := by
  rw [wrbyteBody, if_pos (canWriteBytes_of ho h), if_pos ha, ← BitVec.setWidth_eq_extractLsb' (by decide), hr]

/-- Settles O15: `WRBYTE` does what `SnkWrite(b)` does once no bit is buffered and the operand is a byte. -/
theorem wrbyteAppendsItsOperand : Obligations.WrbyteAppendsItsOperand :=
  fun s arg => ⟨rfl, fun herr =>
    ⟨fun h => issue_raised (s := s.setArg arg) herr (if_neg (not_canWriteBytes h)),
     fun ho h ha => issue_raised (s := s.setArg arg) herr (wrbyteBody_refuses ho h ha),
     fun ho h ha hd => issue_ok (s := s.setArg arg) herr
       (wrbyteBody_byte ho h ha (snkWrite_ok _ ((accessFails_false_iff s).2 hd))),
     fun ho h ha hd => ⟨_, _, issue_raised (s := s.setArg arg) herr
       (wrbyteBody_byte ho h ha (snkWrite_fails _ ((accessFails_iff s).2 hd)))⟩⟩⟩

theorem wrintBody_word {a b c d : Byte} {r : Res Unit} (ho : s.wr.wopen = true) (h : s.wr.wcnt = 0#3)
    (ha : s.reg.arg = a ++ b ++ c ++ d) (hr : emit [a, b, c, d] s = r) : wrintBody s = r := by
  rw [wrintBody, if_pos (canWriteBytes_of ho h), ha, wordBytes_append, hr]

/-- Settles O16: `WRINT` emits the four bytes of the word, bits 31 to 24 first, and so `RDINT` takes them. -/
theorem wrintAppendsBigEndianWord : Obligations.WrintAppendsBigEndianWord := by
  refine fun s a b c d => ⟨rfl, fun herr =>
    ⟨fun h => issue_raised (s := s.setArg _) herr (if_neg (not_canWriteBytes h)),
     fun ho h hd => issue_ok (s := s.setArg _) herr (wrintBody_word ho h rfl (emit_of_draws hd)),
     fun ho h k hk hd => ?_⟩, fun herr ho h hd hleft => ?_⟩
  · obtain ⟨tail, free, hr⟩ := emit_fails (s := clearResultFlags (s.setArg (a ++ b ++ c ++ d)))
      (bytes := [a, b, c, d]) hk hd
    exact ⟨tail, free, issue_raised (s := s.setArg _) herr (wrintBody_word ho h rfl hr)⟩
  · obtain ⟨-, hrdint⟩ := rdintReadsBigEndianWord
    obtain ⟨-, hheld⟩ := hrdint s herr
    obtain ⟨hword, -⟩ := hheld ho h
    exact ⟨_, hword a b c d [] hleft hd, rfl⟩

end Sys2Proof.Machine
end

section
/-! PROOFS. A bit string written with `WRBIT` and `FLUSH` and read back with `RDBIT` (R141): the writes are followed
with the bits still buffered, the reads with the bits the reader can still deliver. -/

namespace Sys2Proof.Machine

variable {s t : State}

/-! ### Writing -/

/-- The sink held, no error pending and no failure ahead. -/
structure Writing (s : State) : Prop where
  noError : s.reg.err = false
  held : s.wr.wopen = true
  noFailure : s.noFailure = true

theorem not_fails_of_noFailure (h : s.noFailure = true) : s.env.draws.head? ≠ some true :=
  (accessFails_false_iff s).1 (noFailure_access h)

/-- A flush writes what is buffered (R140). -/
theorem flushBits_writing (h : Writing s) :
    ∃ t, flushBits s = .ok () t ∧ t.env.snk = s.env.snk ++ packBits s.pendingWrite := by
  have hlen := length_pendingWrite s
  by_cases h0 : s.wr.wcnt = 0#3
  · rw [h0] at hlen
    rw [List.eq_nil_of_length_eq_zero hlen]
    exact ⟨s, flushBits_boundary h0, (List.append_nil _).symm⟩
  · have hne : s.pendingWrite ≠ [] := fun hnil => h0 (BitVec.eq_of_toNat_eq (by rw [← hlen, hnil]; rfl))
    rw [packBits_part hne (by rw [hlen]; omega)]
    exact ⟨_, flushBits_writes h0 (not_fails_of_noFailure h.noFailure), rfl⟩

/-- One more bit: `SNK` and the bit buffer hold together what they would if the bit were still to come (R137). -/
theorem writeBit_writing (b : Bool) (h : Writing s) :
    ∃ t, writeBit b s = .ok () t ∧ Writing t ∧ ∀ bits, t.env.snk ++ packBits (t.pendingWrite ++ bits) =
      s.env.snk ++ packBits (s.pendingWrite ++ b :: bits) := by
  by_cases h7 : s.wr.wcnt = 7#3
  · refine ⟨_, writeBit_eighth h7 (snkWrite_putBits _ (not_fails_of_noFailure h.noFailure)),
      ⟨h.noError, h.held, noFailure_drop h.noFailure 1 List.drop_one.symm⟩, fun bits => ?_⟩
    have hbyte : (s.pendingWrite ++ [b]).length = 8 := by simp [length_pendingWrite, h7]
    have hpack := packBits_append bits hbyte
    rw [List.append_assoc, List.singleton_append] at hpack
    rw [hpack]
    simp [State.putBits, State.pendingWrite]
  · refine ⟨_, writeBit_buffers b h7, ⟨h.noError, h.held, h.noFailure⟩, fun bits => ?_⟩
    rw [pendingWrite_buffers b h7 rfl rfl, List.append_assoc]
    rfl

theorem exec_wrbit_writing {arg : HostWord} {b : Bool} (ha : arg.toNat ≤ 1) (hb : arg.getLsbD 0 = b) (h : Writing s) :
    ∃ t, exec (.wrbit arg) s = .next t ∧ Writing t ∧ ∀ bits, t.env.snk ++ packBits (t.pendingWrite ++ bits) =
      s.env.snk ++ packBits (s.pendingWrite ++ b :: bits) := by
  subst hb
  obtain ⟨t, hr, ht⟩ := writeBit_writing (arg.getLsbD 0) (s := clearResultFlags (s.setArg arg))
    ⟨h.noError, h.held, h.noFailure⟩
  exact ⟨t, issue_ok (s := s.setArg arg) h.noError (wrbitBody_bit h.held ha hr), ht⟩

/-- Bits written one by one and flushed end in `SNK`, behind those that were buffered, eight to a byte (R141). -/
theorem execAll_wrbits_flush (bits : List Bool) (h : Writing s) :
    ∃ t, execAll (bits.map (fun b => .wrbit (if b then 1#32 else 0#32)) ++ [.flush]) s = .next t ∧
      t.env.snk = s.env.snk ++ packBits (s.pendingWrite ++ bits) := by
  induction bits generalizing s with
  | nil =>
    obtain ⟨t, hr, hsnk⟩ := flushBits_writing (s := clearResultFlags s) ⟨h.noError, h.held, h.noFailure⟩
    have hflush : exec .flush s = .next t := issue_ok h.noError (flushBody_held h.held hr)
    exact ⟨t, by simp [execAll, hflush], by rw [List.append_nil]; exact hsnk⟩
  | cons b bits ih =>
    obtain ⟨t, hr, ht, hpack⟩ := exec_wrbit_writing (arg := if b then 1#32 else 0#32) (b := b)
      (by cases b <;> decide) (by cases b <;> rfl) h
    obtain ⟨u, hrest, hsnk⟩ := ih ht
    exact ⟨u, by simpa [execAll, hr] using hrest, by rw [hsnk, hpack]⟩

/-! ### Reading -/

/-- The source held, no error pending and no failure ahead, with the bits the reader can still deliver. -/
structure Reading (bits : List Bool) (s : State) : Prop where
  noError : s.reg.err = false
  held : s.rd.ropen = true
  noFailure : s.noFailure = true
  readable : s.readableBits = bits

theorem readableBits_nil_iff : s.readableBits = [] ↔ s.rd.rcnt = 0#4 ∧ s.srcLeft = [] := by
  have hsrc : s.srcLeft.flatMap byteBits = [] ↔ s.srcLeft = [] := by
    cases s.srcLeft <;> simp [byteBits_eq]
  have hrcnt : s.pendingRead = [] ↔ s.rd.rcnt = 0#4 := by
    rw [State.pendingRead, List.map_eq_nil_iff, List.range_eq_nil, ← BitVec.toNat_inj]
    rfl
  rw [State.readableBits, List.append_eq_nil_iff, hsrc, hrcnt]

/-- `ReadBit()` gives the next bit the reader can deliver (R63, R132). -/
theorem readBit_reading {b : Bool} {bits : List Bool} (h : Reading (b :: bits) s) :
    ∃ t, readBit s = .ok (some b) t ∧ Reading bits t := by
  have hd := not_fails_of_noFailure h.noFailure
  have hread : ∃ c t, readBit s = .ok (some c) t ∧ t.reg = s.reg ∧ t.rd.ropen = s.rd.ropen ∧ t.noFailure = true := by
    by_cases h0 : s.rd.rcnt = 0#4
    · cases hleft : s.srcLeft with
      | nil => exact absurd (readableBits_nil_iff.2 ⟨h0, hleft⟩) (by simp [h.readable])
      | cons c rest =>
        exact ⟨_, _, readBit_takes h0 hd hleft, rfl, rfl, noFailure_drop h.noFailure 1 List.drop_one.symm⟩
    · exact ⟨_, _, readBit_buffered h0, rfl, rfl, h.noFailure⟩
  obtain ⟨c, t, hr, hreg, hopen, hn⟩ := hread
  obtain ⟨rfl, hbits⟩ := List.cons.inj (h.readable.symm.trans (readBit_readableBits hr))
  exact ⟨t, hr, hreg ▸ h.noError, hopen ▸ h.held, hn, hbits.symm⟩

theorem exec_rdbit_reading {b : Bool} {bits : List Bool} (h : Reading (b :: bits) s) :
    ∃ t, exec .rdbit s = .next t ∧ t.reg.result = (if b then 1#32 else 0#32) ∧ Reading bits t := by
  obtain ⟨t, hr, ht⟩ := readBit_reading (s := clearResultFlags s) ⟨h.noError, h.held, h.noFailure, h.readable⟩
  exact ⟨t.setResult _, issue_ok h.noError (rdbitBody_bit h.held hr), rfl,
    ht.noError, ht.held, ht.noFailure, ht.readable⟩

/-- `RDBIT` after the last bit shows the sentinel (R132). -/
theorem exec_rdbit_exhausted (h : Reading [] s) :
    ∃ t, exec .rdbit s = .next t ∧ t.reg.result = 0xFFFFFFFF#32 ∧ t.reg.eos = true := by
  obtain ⟨h0, hleft⟩ := readableBits_nil_iff.1 h.readable
  have hd : (clearResultFlags s).env.draws.head? ≠ some true := not_fails_of_noFailure h.noFailure
  exact ⟨_, issue_ok h.noError (rdbitBody_eos h.held (readBit_eos h0 hd hleft)), rfl, rfl⟩

/-- As many `RDBIT` as there are bits deliver them in order (R141). -/
theorem collectResults_rdbit {bits : List Bool} (h : Reading bits s) :
    ∃ t, collectResults .rdbit bits.length s = some (bits.map (fun b => if b then 1#32 else 0#32), t) ∧
      Reading [] t := by
  induction bits generalizing s with
  | nil => exact ⟨s, rfl, h⟩
  | cons b bits ih =>
    obtain ⟨t, hr, hres, ht⟩ := exec_rdbit_reading h
    obtain ⟨u, hrest, hu⟩ := ih ht
    exact ⟨u, by simp [collectResults, hr, hrest, hres], hu⟩

/-- Settles O18: the bytes written are the bit string packed, and the bits of a packed bit string are its own, then
zeros up to the byte boundary. -/
theorem bitsWrittenAreReadBack : Obligations.BitsWrittenAreReadBack := by
  intro bits s herr ho h0 hn
  obtain ⟨t, hr, hsnk⟩ := execAll_wrbits_flush bits ⟨herr, ho, hn⟩
  have hempty : s.pendingWrite = [] := List.eq_nil_of_length_eq_zero (by rw [length_pendingWrite, h0]; rfl)
  rw [hempty, List.nil_append] at hsnk
  refine ⟨t, hr, hsnk, length_packBits bits, fun u huerr huo hu0 hun hleft => ?_⟩
  have hbits : u.readableBits = bits ++ List.replicate (8 * ((bits.length + 7) / 8) - bits.length) false := by
    rw [State.readableBits, pendingRead_of_rcnt_eq_zero hu0, hleft, flatMap_byteBits_packBits, List.nil_append]
  have hlen : (bits ++ List.replicate (8 * ((bits.length + 7) / 8) - bits.length) false).length =
      8 * ((bits.length + 7) / 8) := by
    rw [List.length_append, List.length_replicate]
    omega
  obtain ⟨v, hcollect, hv⟩ := collectResults_rdbit ⟨huerr, huo, hun, hbits⟩
  rw [hlen] at hcollect
  exact ⟨v, hcollect, exec_rdbit_exhausted hv⟩

end Sys2Proof.Machine
end

section
/-! PROOFS. What the operations of bit-stream I/O leave unchanged (R130 to R140): a property of the state that is blind
to the source, the reader and the host registers is preserved by the reader operations, and one that is blind to the
sink, the writer and the host registers by the writer operations. -/

namespace Sys2Proof.Machine

variable {s t : State} {P : State → Prop}

/-! ### What a property is blind to -/

/-- A property of the state that does not depend on what an access to `SRC` or an acquisition moves. -/
def IgnoresSource (P : State → Prop) : Prop := ∀ t pos free draws, P t →
  P (t.setEnv { t.env with srcPos := pos, freeCtr := free, draws := draws })

/-- A property of the state that does not depend on what an access to `SNK` or an acquisition moves. -/
def IgnoresSink (P : State → Prop) : Prop := ∀ t snk free draws, P t →
  P (t.setEnv { t.env with snk := snk, freeCtr := free, draws := draws })

/-- A property of the state that does not depend on the bit reader. -/
def IgnoresReader (P : State → Prop) : Prop := ∀ t x, P t → P (t.setRd x)

/-- A property of the state that does not depend on the count of bytes written. -/
def IgnoresSnkCnt (P : State → Prop) : Prop := ∀ t c, P t → P (t.setWr { t.wr with snkCnt := c })

/-- A property of the state that does not depend on the bit writer, but for whether the sink is held. -/
def IgnoresBitBuffer (P : State → Prop) : Prop := ∀ t x, x.wopen = t.wr.wopen → P t → P (t.setWr x)

/-- A property of the state that does not depend on the bit writer. -/
def IgnoresWriter (P : State → Prop) : Prop := ∀ t x, P t → P (t.setWr x)

/-- A property of the state that does not depend on the host registers. -/
def IgnoresRegs (P : State → Prop) : Prop := ∀ t x, P t → P (t.setReg x)

theorem IgnoresBitBuffer.snkCnt (hb : IgnoresBitBuffer P) : IgnoresSnkCnt P := fun t _ h => hb t _ rfl h

theorem IgnoresWriter.bitBuffer (hw : IgnoresWriter P) : IgnoresBitBuffer P := fun t x _ h => hw t x h

/-- An issued operation preserves a property blind to the host registers that its pseudocode preserves. -/
theorem issue_preserves {body : State → Res Unit} (hg : IgnoresRegs P) (hb : ∀ {u}, P u → (body u).Leaves P) (h : P s)
    (hr : issue body s = .next t) : P t := by
  have hleaves : (body (clearResultFlags s)).Leaves P := hb (hg _ _ h)
  rcases issue_next hr with ⟨-, rfl⟩ | ⟨-, u, hu, rfl⟩ | ⟨-, e, u, hu, rfl⟩
  · exact h
  · rwa [hu] at hleaves
  · rw [hu] at hleaves
    exact hg _ _ hleaves

/-! ### Reader operations -/

theorem srcRead_preserves (hs : IgnoresSource P) (h : P s) : (srcRead s).Leaves P := by
  rcases srcRead_cases s with ⟨_, -, -, hr⟩ | ⟨-, -, hr⟩ | ⟨-, hr⟩ <;> rw [hr]
  · exact hs s _ s.env.freeCtr _ h
  · exact hs s s.env.srcPos s.env.freeCtr _ h
  · exact hs s _ _ _ h

theorem readBytes_preserves (hs : IgnoresSource P) (k : Nat) (v : HostWord) (h : P s) : (readBytes k v s).Leaves P := by
  induction k generalizing v s with
  | zero => exact h
  | succ k ih =>
    refine (srcRead_preserves hs h).andThen fun r t _ ht => ?_
    cases r with
    | none => exact ht
    | some b => exact ih _ ht

theorem rdbyteBody_preserves (hs : IgnoresSource P) (hg : IgnoresRegs P) (h : P s) : (rdbyteBody s).Leaves P := by
  unfold rdbyteBody
  split
  · refine (srcRead_preserves hs h).andThen fun r t _ ht => ?_
    cases r <;> exact hg t _ ht
  · exact h

theorem rdintBody_preserves (hs : IgnoresSource P) (hg : IgnoresRegs P) (h : P s) : (rdintBody s).Leaves P := by
  unfold rdintBody
  split
  · refine (readBytes_preserves hs 4 _ h).andThen fun r t _ ht => ?_
    cases r <;> exact hg t _ ht
  · exact h

/-- `RDBYTE` and `RDINT` move the source and the host registers only (R133, R134). -/
theorem exec_preserves_of_byteRead (hs : IgnoresSource P) (hg : IgnoresRegs P) {i : Instr}
    (hi : i = .rdbyte ∨ i = .rdint) (h : P s) (hr : exec i s = .next t) : P t := by
  rcases hi with rfl | rfl
  · exact issue_preserves hg (rdbyteBody_preserves hs hg) h hr
  · exact issue_preserves hg (rdintBody_preserves hs hg) h hr

theorem ropenBody_preserves (hs : IgnoresSource P) (hrd : IgnoresReader P) (h : P s) : (ropenBody s).Leaves P := by
  unfold ropenBody
  split
  · exact h
  · rcases acquire_cases s with ⟨-, hr⟩ | ⟨-, hr⟩ <;> rw [hr]
    · exact hrd _ _ (hs s s.env.srcPos s.env.freeCtr _ h)
    · exact hs s s.env.srcPos s.env.freeCtr _ h

theorem rcloseBody_preserves (hrd : IgnoresReader P) (h : P s) : (rcloseBody s).Leaves P := by
  unfold rcloseBody
  split
  · exact hrd _ _ h
  · exact h

theorem readBit_preserves (hs : IgnoresSource P) (hrd : IgnoresReader P) (h : P s) : (readBit s).Leaves P := by
  rcases readBit_cases s with ⟨-, hr⟩ | ⟨-, -, _, -, hr⟩ | ⟨-, -, -, hr⟩ | ⟨-, -, hr⟩ <;> rw [hr]
  · exact hrd _ _ h
  · exact hrd _ _ (hs s _ s.env.freeCtr _ h)
  · exact hs s s.env.srcPos s.env.freeCtr _ h
  · exact hs s _ _ _ h

theorem rdbitBody_preserves (hs : IgnoresSource P) (hrd : IgnoresReader P) (hg : IgnoresRegs P) (h : P s) :
    (rdbitBody s).Leaves P := by
  unfold rdbitBody
  split
  · refine (readBit_preserves hs hrd h).andThen fun r t _ ht => ?_
    cases r <;> exact hg t _ ht
  · exact h

/-- A reader operation moves the source, the reader and the host registers only (R130 to R134). -/
theorem exec_preserves_of_reader (hs : IgnoresSource P) (hrd : IgnoresReader P) (hg : IgnoresRegs P) {i : Instr}
    (hi : i ∈ [Instr.ropen, .rclose, .rdbit, .rdbyte, .rdint]) (h : P s)
    (hr : exec i s = .next t) : P t := by
  simp only [List.mem_cons, List.not_mem_nil, or_false] at hi
  rcases hi with rfl | rfl | rfl | hi
  · exact issue_preserves hg (ropenBody_preserves hs hrd) h hr
  · exact issue_preserves hg (rcloseBody_preserves hrd) h hr
  · exact issue_preserves hg (rdbitBody_preserves hs hrd hg) h hr
  · exact exec_preserves_of_byteRead hs hg hi h hr

/-- The groups of the state that no reader operation moves, and `SNK`. -/
def SameOutsideReader (s t : State) : Prop :=
  t.wr = s.wr ∧ t.tab = s.tab ∧ t.ctr = s.ctr ∧ t.pq = s.pq ∧ t.env.snk = s.env.snk

/-- Settles O50: the groups named are none that a reader operation moves; of the host registers O49 says which it
writes, of the source O48. -/
theorem readerOperationsFrame : Obligations.ReaderOperationsFrame := by
  intro s t i hi hr
  have hsame : SameOutsideReader s t := exec_preserves_of_reader (P := SameOutsideReader s) (fun _ _ _ _ h => h)
    (fun _ _ h => h) (fun _ _ h => h) hi ⟨rfl, rfl, rfl, rfl, rfl⟩ hr
  have hrd : i = .rdbyte ∨ i = .rdint → t.rd = s.rd := fun h =>
    exec_preserves_of_byteRead (P := (·.rd = s.rd)) (fun _ _ _ _ h => h) (fun _ _ h => h) h rfl hr
  obtain ⟨-, hsrc, -, -, hpar⟩ := operationsOnlyAppendToSink i s t hr
  have hno : i ≠ .sreset ∧ operand? i = none := by
    simp only [List.mem_cons, List.not_mem_nil, or_false] at hi
    rcases hi with rfl | rfl | rfl | rfl | rfl <;> decide
  obtain ⟨hcmd, harg, hresult, -⟩ := onlyListedOperationsWriteResultAndFlags i s t hr hno.1
  rw [hno.2] at harg
  obtain ⟨hwr, htab, hctr, hpq, hsnk⟩ := hsame
  refine ⟨hwr, htab, hctr, hpq, hpar, hsnk, hsrc, harg, hcmd, hrd, fun h => hresult ?_⟩
  rcases h with rfl | rfl <;> decide

/-! ### Writer operations -/

theorem snkWrite_preserves (hs : IgnoresSink P) (hc : IgnoresSnkCnt P) (b : Byte) (h : P s) :
    (snkWrite b s).Leaves P := by
  rcases snkWrite_cases b s with ⟨-, hr⟩ | ⟨-, hr⟩ <;> rw [hr]
  · exact hc _ _ (hs s _ s.env.freeCtr _ h)
  · exact hs s _ _ _ h

theorem emit_preserves (hs : IgnoresSink P) (hc : IgnoresSnkCnt P) (bytes : List Byte) (h : P s) :
    (emit bytes s).Leaves P := by
  induction bytes generalizing s with
  | nil => exact h
  | cons b bytes ih => exact (snkWrite_preserves hs hc b h).andThen fun _ _ _ ht => ih ht

theorem wrbyteBody_preserves (hs : IgnoresSink P) (hc : IgnoresSnkCnt P) (h : P s) : (wrbyteBody s).Leaves P := by
  unfold wrbyteBody
  split
  · split
    · exact snkWrite_preserves hs hc _ h
    · exact h
  · exact h

theorem wrintBody_preserves (hs : IgnoresSink P) (hc : IgnoresSnkCnt P) (h : P s) : (wrintBody s).Leaves P := by
  unfold wrintBody
  split
  · exact emit_preserves hs hc _ h
  · exact h

/-- `WRBYTE` and `WRINT` move the sink, the count of bytes written and the host registers only (R138, R139). -/
theorem exec_preserves_of_byteWrite (hs : IgnoresSink P) (hc : IgnoresSnkCnt P) (hg : IgnoresRegs P) {i : Instr}
    {arg : HostWord} (hi : i = .wrbyte arg ∨ i = .wrint arg) (h : P s) (hr : exec i s = .next t) : P t := by
  rcases hi with rfl | rfl
  · exact issue_preserves hg (wrbyteBody_preserves hs hc) (hg s _ h) hr
  · exact issue_preserves hg (wrintBody_preserves hs hc) (hg s _ h) hr

theorem writeBit_preserves (hs : IgnoresSink P) (hb : IgnoresBitBuffer P) (b : Bool) (h : P s) :
    (writeBit b s).Leaves P := by
  rcases writeBit_cases b s with ⟨-, hr⟩ | ⟨-, hr⟩ <;> rw [hr]
  · exact hb _ _ rfl h
  · exact snkWrite_preserves hs hb.snkCnt _ (hb s _ rfl h)

theorem flushBits_preserves (hs : IgnoresSink P) (hb : IgnoresBitBuffer P) (h : P s) : (flushBits s).Leaves P := by
  rcases flushBits_cases s with ⟨-, hr⟩ | ⟨-, hr⟩ <;> rw [hr]
  · exact h
  · exact snkWrite_preserves hs hb.snkCnt _ (hb s _ rfl h)

theorem wrbitBody_preserves (hs : IgnoresSink P) (hb : IgnoresBitBuffer P) (h : P s) : (wrbitBody s).Leaves P := by
  unfold wrbitBody
  split
  · split
    · exact writeBit_preserves hs hb _ h
    · exact h
  · exact h

theorem flushBody_preserves (hs : IgnoresSink P) (hb : IgnoresBitBuffer P) (h : P s) : (flushBody s).Leaves P := by
  unfold flushBody
  split
  · exact flushBits_preserves hs hb h
  · exact h

/-- A write to the sink moves the sink, what the writer holds and the host registers only (R137 to R140). -/
theorem exec_preserves_of_write (hs : IgnoresSink P) (hb : IgnoresBitBuffer P) (hg : IgnoresRegs P) {i : Instr}
    {arg : HostWord} (hi : i ∈ [Instr.wrbit arg, .wrbyte arg, .wrint arg, .flush]) (h : P s)
    (hr : exec i s = .next t) : P t := by
  simp only [List.mem_cons, List.not_mem_nil, or_false] at hi
  rcases hi with rfl | rfl | rfl | rfl
  · exact issue_preserves hg (wrbitBody_preserves hs hb) (hg s _ h) hr
  · exact exec_preserves_of_byteWrite hs hb.snkCnt hg (.inl rfl) h hr
  · exact exec_preserves_of_byteWrite hs hb.snkCnt hg (.inr rfl) h hr
  · exact issue_preserves hg (flushBody_preserves hs hb) h hr

theorem wopenBody_preserves (hs : IgnoresSink P) (hw : IgnoresWriter P) (h : P s) : (wopenBody s).Leaves P := by
  unfold wopenBody
  split
  · exact h
  · rcases acquire_cases s with ⟨-, hr⟩ | ⟨-, hr⟩ <;> rw [hr]
    · exact hw _ _ (hs s s.env.snk s.env.freeCtr _ h)
    · exact hs s s.env.snk s.env.freeCtr _ h

theorem wcloseBody_preserves (hs : IgnoresSink P) (hw : IgnoresWriter P) (h : P s) : (wcloseBody s).Leaves P := by
  unfold wcloseBody
  split
  · have hf := flushBits_preserves hs hw.bitBuffer h
    cases hr : flushBits s <;> rw [hr] at hf
    · exact hw _ _ hf
    · exact hw _ _ hf
    · trivial
  · exact h

/-- A writer operation moves the sink, the writer and the host registers only (R135 to R140). -/
theorem exec_preserves_of_writer (hs : IgnoresSink P) (hw : IgnoresWriter P) (hg : IgnoresRegs P) {i : Instr}
    {arg : HostWord} (hi : i ∈ [Instr.wopen, .wclose, .wrbit arg, .wrbyte arg, .wrint arg, .flush]) (h : P s)
    (hr : exec i s = .next t) : P t := by
  rw [List.mem_cons, List.mem_cons] at hi
  rcases hi with rfl | rfl | hi
  · exact issue_preserves hg (wopenBody_preserves hs hw) h hr
  · exact issue_preserves hg (wcloseBody_preserves hs hw) h hr
  · exact exec_preserves_of_write hs hw.bitBuffer hg hi h hr

/-- The groups of the state that no writer operation moves, and the read position of `SRC`. -/
def SameOutsideWriter (s t : State) : Prop :=
  t.rd = s.rd ∧ t.tab = s.tab ∧ t.ctr = s.ctr ∧ t.pq = s.pq ∧ t.env.srcPos = s.env.srcPos

/-- Settles O51: the groups named are none that a writer operation moves; of the host registers O49 says which it
writes, of the source and the parameters O48. -/
theorem writerOperationsFrame : Obligations.WriterOperationsFrame := by
  intro s t arg i hi hr
  have hsame : SameOutsideWriter s t := exec_preserves_of_writer (P := SameOutsideWriter s) (fun _ _ _ _ h => h)
    (fun _ _ h => h) (fun _ _ h => h) hi ⟨rfl, rfl, rfl, rfl, rfl⟩ hr
  have hopen : i ≠ .wopen → i ≠ .wclose → t.wr.wopen = s.wr.wopen := fun hwopen hwclose =>
    exec_preserves_of_write (P := (·.wr.wopen = s.wr.wopen)) (fun _ _ _ _ h => h) (fun _ _ hx h => hx.trans h)
      (fun _ _ h => h) (List.mem_of_ne_of_mem hwclose (List.mem_of_ne_of_mem hwopen hi)) rfl hr
  have hbuf : i = .wrbyte arg ∨ i = .wrint arg → t.wr.wbuf = s.wr.wbuf ∧ t.wr.wcnt = s.wr.wcnt := fun h =>
    exec_preserves_of_byteWrite (P := fun u => u.wr.wbuf = s.wr.wbuf ∧ u.wr.wcnt = s.wr.wcnt) (fun _ _ _ _ h => h)
      (fun _ _ h => h) (fun _ _ h => h) h ⟨rfl, rfl⟩ hr
  obtain ⟨-, hsrc, -, -, hpar⟩ := operationsOnlyAppendToSink i s t hr
  have hno : i ≠ .sreset ∧ i ∉ resultWriters := by
    simp only [List.mem_cons, List.not_mem_nil, or_false] at hi
    rcases hi with rfl | rfl | rfl | rfl | rfl | rfl <;> simp [resultWriters]
  obtain ⟨hcmd, -, hresult, -⟩ := onlyListedOperationsWriteResultAndFlags i s t hr hno.1
  obtain ⟨hrd, htab, hctr, hpq, hpos⟩ := hsame
  exact ⟨hrd, htab, hctr, hpq, hpar, hsrc, hpos, hresult hno.2, hcmd, hopen, hbuf⟩

end Sys2Proof.Machine
end

section
/-! PROOFS. The queue operations that compare no weights (R162, R165, R166, the refusals of R163 and the empty queue of
R164), and what every queue operation leaves unchanged. -/

namespace Sys2Proof.Machine

variable {s t : State}

/-! ### Operations that compare no weights -/

/-- `PQDELMIN` on an empty queue gives the sentinel (R164). -/
theorem pqdelminBody_empty (h : s.ctr.hsize = 0#9) : pqdelminBody s = .ok () (emptySentinel s) := if_pos h

/-- Settles O19: each operation's pseudocode ends, in the state written there. -/
theorem queueClearedAndReported : Obligations.QueueClearedAndReported := by
  refine ⟨rfl, rfl, rfl, rfl, fun s herr => ⟨issue_ok herr rfl, issue_ok herr rfl, ?_, fun hempty => ?_⟩⟩
  · exact issue_ok herr rfl (congrArg (clearResultFlags s).setResult (if_congr BitVec.toNat_eq rfl rfl))
  · exact issue_ok herr (pqdelminBody_empty hempty)

/-- `PQINS` on a full queue is refused whatever its operand (R163, R268). -/
theorem pqinsBody_full (h : s.ctr.hsize.toNat = Config.pqCap) : pqinsBody s = .raised .illegalState s := if_pos h

/-- `PQINS` of an operand that is no node id is refused (R163). -/
theorem pqinsBody_refuses (h : s.ctr.hsize.toNat ≠ Config.pqCap) (ha : 510 < s.reg.arg.toNat) :
    pqinsBody s = .raised .invalidArgument s := by
  rw [pqinsBody, if_neg h, if_neg (Nat.not_le.2 ha)]

/-- Settles O20: the full queue is looked at before the operand. -/
theorem pqinsRefusesFullQueueThenOperand : Obligations.PqinsRefusesFullQueueThenOperand :=
  fun s arg herr =>
    ⟨fun hfull => issue_raised (s := s.setArg arg) herr (pqinsBody_full hfull),
      fun hroom ha => issue_raised (s := s.setArg arg) herr (pqinsBody_refuses hroom ha)⟩

/-! ### Slots the queue does not write -/

/-- The rise of an inserted item writes no slot above the one it starts from (R167). -/
theorem siftUp_read_above {node : Memory Node} {k p j : Nat} {heap heap' : Memory NodeId}
    (h : siftUp node k p heap = .ok heap') (hj : p < j) : heap'.read j = heap.read j :=
  siftUp_keeps (P := fun m => m.read j = heap.read j) (fun m _ v hi hm => (m.read_write_other v hi.ne').trans hm)
    h hj rfl

/-- The sink of the last item writes no slot beyond the queue (R168). -/
theorem siftDown_read_beyond {node : Memory Node} {n k p j : Nat} {heap heap' : Memory NodeId}
    (h : siftDown node n k p heap = .ok heap') (hp : p < n) (hj : n ≤ j) : heap'.read j = heap.read j := by
  induction k generalizing p heap with
  | zero => cases Except.ok.inj h; rfl
  | succ k ih =>
    unfold siftDown at h
    obtain ⟨t, ht, h⟩ := except_bind_ok.1 h
    obtain ⟨t', ht', h⟩ := except_bind_ok.1 h
    have hlt := lighterOf_lt ht' (lighterOf_lt ht hp)
    split at h
    · cases except_pure_ok.1 h; rfl
    · obtain ⟨heap₁, hs, h⟩ := except_bind_ok.1 h
      obtain ⟨a, b, -, -, rfl⟩ := swapSlots_ok hs
      rw [ih h hlt, Memory.read_write_other _ _ (by omega), Memory.read_write_other _ _ (by omega)]

/-- A delete under `TIE_REF` leaves the slots from the last item's on (R168). -/
theorem refDeleteMin_read_beyond {node : Memory Node} {heap heap' : Memory NodeId} {n j : Nat} {m : NodeId}
    (h : refDeleteMin node heap (n + 1) = .ok (m, heap')) (hj : n ≤ j) : heap'.read j = heap.read j := by
  obtain ⟨m', -, h⟩ := except_bind_ok.1 h
  split at h
  · obtain ⟨rfl, rfl⟩ := Prod.mk.inj (except_pure_ok.1 h)
    rfl
  · obtain ⟨last, -, h⟩ := except_bind_ok.1 h
    obtain ⟨heap₁, hsift, h⟩ := except_bind_ok.1 h
    obtain ⟨rfl, rfl⟩ := Prod.mk.inj (except_pure_ok.1 h)
    rw [siftDown_read_beyond hsift (by omega) hj, Memory.read_write_other _ _ (by omega)]

/-- A delete under another tie-break leaves the slots from the last item's on. -/
theorem otherDeleteMin_read_beyond {k : Nat} {hist : List Config.PqEvent} {node : Memory Node}
    {heap heap' : Memory NodeId} {n j : Nat} {m : NodeId}
    (h : otherDeleteMin k hist node heap (n + 1) = .ok (m, heap')) (hj : n ≤ j) : heap'.read j = heap.read j := by
  obtain ⟨ws, hws, h⟩ := except_bind_ok.1 h
  obtain ⟨m', -, h⟩ := except_bind_ok.1 h
  obtain ⟨last, hlast, h⟩ := except_bind_ok.1 h
  obtain ⟨heap₁, hre, h⟩ := except_bind_ok.1 h
  obtain ⟨rfl, rfl⟩ := Prod.mk.inj (except_pure_ok.1 h)
  obtain ⟨ids, ids', -, -, -, -, -, hbeyond⟩ := rearrange_ok hre
  have hslot := lightest_getD_lt (queuedWeights_slot_lt hws) (Nat.succ_pos n)
    (Config.tieChoice k hist % (lightest ws).length)
  rw [hbeyond j hj, Memory.read_write]
  split
  · next heq =>
    obtain rfl : j = n := by omega
    exact (readEntry_ok.1 hlast).symm
  · rfl

/-! ### Frame -/

/-- The groups of the state that no queue operation moves, every table but `HEAP`, and every counter but `hsize`. -/
def SameOutsideQueue (s t : State) : Prop :=
  t.rd = s.rd ∧ t.wr = s.wr ∧ t.env = s.env ∧ t.par = s.par ∧ t.tab = { s.tab with heap := t.tab.heap } ∧
    t.ctr = { s.ctr with hsize := t.ctr.hsize }

/-- The frame of an operation on the queue, which leaves the slots of `HEAP` that `kept` says. -/
def QueueFrame (kept : Nat → Prop) (s t : State) : Prop :=
  SameOutsideQueue s t ∧ ∀ j, kept j → t.tab.heap.read j = s.tab.heap.read j

theorem QueueFrame.refl (kept : Nat → Prop) (s : State) : QueueFrame kept s s :=
  ⟨⟨rfl, rfl, rfl, rfl, rfl, rfl⟩, fun _ _ => rfl⟩

/-- The frame of an operation that only reports on the queue. -/
def SameQueue (s t : State) : Prop :=
  SameOutsideQueue s t ∧ t.tab.heap = s.tab.heap ∧ t.ctr.hsize = s.ctr.hsize

theorem SameQueue.refl (s : State) : SameQueue s s := ⟨⟨rfl, rfl, rfl, rfl, rfl, rfl⟩, rfl, rfl⟩

theorem pqInsert_frame {id : NodeId} (h : pqInsert id s = .ok t) : QueueFrame (s.ctr.hsize.toNat < ·) s t := by
  obtain ⟨heap, rfl, hheap⟩ := pqInsert_cases h
  refine ⟨⟨rfl, rfl, rfl, rfl, rfl, rfl⟩, fun j hj => Eq.trans ?_ (s.tab.heap.read_write_other id hj.ne')⟩
  rcases hheap with ⟨-, hsift⟩ | ⟨k, -, hother⟩
  · exact siftUp_read_above hsift hj
  · obtain ⟨ids, ids', -, -, -, -, -, hbeyond⟩ := rearrange_ok hother
    exact hbeyond j hj

theorem pqPop_frame {m : NodeId} {n : Nat} (h : pqPop s = .ok (m, t)) (hs : s.ctr.hsize.toNat = n + 1) :
    QueueFrame (s.ctr.hsize.toNat ≤ · + 1) s t := by
  obtain ⟨heap, rfl, hheap⟩ := pqPop_cases h
  refine ⟨⟨rfl, rfl, rfl, rfl, rfl, rfl⟩, fun j hj => ?_⟩
  rw [hs] at hheap hj
  rcases hheap with ⟨-, href⟩ | ⟨k, -, hother⟩
  · exact refDeleteMin_read_beyond href (Nat.le_of_succ_le_succ hj)
  · exact otherDeleteMin_read_beyond hother (Nat.le_of_succ_le_succ hj)

/-- An issued operation leaves a property blind to the host registers that holds before it and that its pseudocode
leaves. -/
theorem issue_leaves {P : State → Prop} (body : State → Res Unit) (hg : IgnoresRegs P) (h : P s)
    (hb : (body (clearResultFlags s)).Leaves P) (hr : issue body s = .next t) : P t := by
  rcases issue_next hr with ⟨-, rfl⟩ | ⟨-, u, hu, rfl⟩ | ⟨-, e, u, hu, rfl⟩
  · exact h
  · rwa [hu] at hb
  · rw [hu] at hb
    exact hg _ _ hb

theorem exec_pqins_frame {arg : HostWord} (hr : exec (.pqins arg) s = .next t) :
    QueueFrame (s.ctr.hsize.toNat < ·) s t := by
  have hstart := QueueFrame.refl (s.ctr.hsize.toNat < ·) s
  refine issue_leaves (P := QueueFrame _ s) (s := s.setArg arg) pqinsBody (fun _ _ h => h) hstart ?_ hr
  unfold pqinsBody
  split
  · exact hstart
  · split
    · exact .lift_andThen fun u hu => (pqInsert_frame hu :)
    · exact hstart

theorem exec_pqdelmin_frame (hr : exec .pqdelmin s = .next t) : QueueFrame (s.ctr.hsize.toNat ≤ · + 1) s t := by
  have hstart := QueueFrame.refl (s.ctr.hsize.toNat ≤ · + 1) s
  refine issue_leaves (P := QueueFrame _ s) pqdelminBody (fun _ _ h => h) hstart ?_ hr
  unfold pqdelminBody
  split
  · exact hstart
  · next hne =>
    obtain ⟨n, hn⟩ := Nat.exists_eq_succ_of_ne_zero fun h0 => hne (BitVec.eq_of_toNat_eq h0)
    exact .lift_andThen fun r hr => (pqPop_frame hr hn :)

theorem exec_pqclr_frame (hr : exec .pqclr s = .next t) : SameOutsideQueue s t ∧ t.tab.heap = s.tab.heap :=
  issue_leaves (P := fun u => SameOutsideQueue s u ∧ u.tab.heap = s.tab.heap) pqclrBody (fun _ _ h => h)
    ⟨⟨rfl, rfl, rfl, rfl, rfl, rfl⟩, rfl⟩ ⟨⟨rfl, rfl, rfl, rfl, rfl, rfl⟩, rfl⟩ hr

theorem exec_report_frame {i : Instr} (hi : i = .pqsize ∨ i = .pqempty) (hr : exec i s = .next t) :
    SameQueue s t := by
  rcases hi with rfl | rfl
  · exact issue_leaves (P := SameQueue s) pqsizeBody (fun _ _ h => h) (.refl s) (SameQueue.refl s) hr
  · exact issue_leaves (P := SameQueue s) pqemptyBody (fun _ _ h => h) (.refl s) (SameQueue.refl s) hr

/-- Settles O52: each operation's own frame. -/
theorem queueOperationsFrame : Obligations.QueueOperationsFrame := by
  intro s t arg i hi hr
  simp only [List.mem_cons, List.not_mem_nil, or_false] at hi
  rcases hi with rfl | rfl | rfl | hi
  · obtain ⟨⟨hrd, hwr, henv, hpar, htab, hctr⟩, hheap⟩ := exec_pqclr_frame hr
    exact ⟨hrd, hwr, henv, hpar, htab, hctr, fun _ => hheap, by simp, by simp, by simp⟩
  · obtain ⟨⟨hrd, hwr, henv, hpar, htab, hctr⟩, hheap⟩ := exec_pqins_frame hr
    exact ⟨hrd, hwr, henv, hpar, htab, hctr, by simp, fun _ => hheap, by simp, by simp⟩
  · obtain ⟨⟨hrd, hwr, henv, hpar, htab, hctr⟩, hheap⟩ := exec_pqdelmin_frame hr
    exact ⟨hrd, hwr, henv, hpar, htab, hctr, by simp, by simp, fun _ => hheap, by simp⟩
  · obtain ⟨⟨hrd, hwr, henv, hpar, htab, hctr⟩, hheap, hsize⟩ := exec_report_frame hi hr
    refine ⟨hrd, hwr, henv, hpar, htab, hctr, fun _ => hheap, ?_, ?_, fun _ => hsize⟩ <;> rintro rfl <;> simp at hi

end Sys2Proof.Machine
end

section
/-! PROOFS. `TIE_REF` to the slot (R167 to R169): an item rises or sinks along a path of slots, each item it passes
taking the slot it leaves, and the heap property, broken at one slot only, is whole again where it stops. -/

namespace Sys2Proof.Machine

variable {node : Memory Node} {heap heap' heap₀ : Memory NodeId} {item : NodeId} {n k p q : Nat} {s t : State}

/-! ### Keys -/

/-- Every slot below `n` holds an id whose record has been written. -/
def Keyed (node : Memory Node) (n : Nat) (heap : Memory NodeId) : Prop :=
  ∀ i, i < n → ∃ item, heap.read i = some item ∧ (weightOf node item).isSome = true

theorem queueReadable_iff : queueReadable s = true ↔ Keyed s.tab.node s.ctr.hsize.toNat s.tab.heap := by
  simp [queueReadable, Keyed, Option.any_eq_true]

theorem Keyed.mono {m : Nat} (h : Keyed node n heap) (hm : m ≤ n) : Keyed node m heap :=
  fun i hi => h i (hi.trans_le hm)

theorem Keyed.write (h : Keyed node n heap) (hitem : (weightOf node item).isSome = true) :
    Keyed node n (heap.write p item) := by
  intro i hi
  rw [Memory.read_write]
  split
  · exact ⟨item, rfl, hitem⟩
  · exact h i hi

/-- A new item in the slot after the last keeps every slot keyed. -/
theorem Keyed.write_next (h : Keyed node n heap) (hitem : (weightOf node item).isSome = true) :
    Keyed node (n + 1) (heap.write n item) := by
  intro i hi
  rcases Nat.lt_succ_iff_lt_or_eq.1 hi with hi | rfl
  · exact h.write hitem i hi
  · exact ⟨item, heap.read_write_same _ _, hitem⟩

/-- The item of a keyed slot has a weight. -/
theorem Keyed.isSome_of_read (h : Keyed node n heap) (hp : p < n) (hitem : heap.read p = some item) :
    (weightOf node item).isSome = true := by
  obtain ⟨item', hread, hw⟩ := h p hp
  rwa [Option.some.inj (hitem.symm.trans hread)]

/-- An exchange of two slots keeps every slot keyed. -/
theorem Keyed.exchange {a b : NodeId} (h : Keyed node n heap) (hp : p < n) (hq : q < n) (ha : heap.read p = some a)
    (hb : heap.read q = some b) : Keyed node n ((heap.write p b).write q a) :=
  (h.write (h.isSome_of_read hq hb)).write (h.isSome_of_read hp ha)

/-- A weight as a number, zero where there is none. -/
def keyOf (w : Option Weight) : Nat := (w.map BitVec.toNat).getD 0

theorem lighter_iff {v w : Option Weight} (hv : v.isSome = true) (hw : w.isSome = true) :
    lighter v w = true ↔ keyOf v < keyOf w := by
  obtain ⟨a, rfl⟩ := Option.isSome_iff_exists.1 hv
  obtain ⟨b, rfl⟩ := Option.isSome_iff_exists.1 hw
  exact decide_eq_true_iff

/-- The weight of the item in a slot as a number, zero where there is no item or no record. -/
def slotKey (node : Memory Node) (heap : Memory NodeId) (i : Nat) : Nat := keyOf ((heap.read i).bind (weightOf node))

theorem slotKey_of_read (h : heap.read p = some item) : slotKey node heap p = idWeight node item := by
  rw [slotKey, h]
  rfl

theorem slotKey_congr (h : heap.read p = heap'.read p) : slotKey node heap p = slotKey node heap' p := by
  rw [slotKey, h, slotKey]

theorem slotKey_write (heap : Memory NodeId) (i j : Nat) (item : NodeId) :
    slotKey node (heap.write i item) j = if j = i then idWeight node item else slotKey node heap j := by
  unfold slotKey
  rw [Memory.read_write]
  split <;> rfl

/-- Two slots that exchange their items exchange their keys. -/
theorem slotKey_exchange {a b : NodeId} (ha : heap.read p = some a) (hb : heap.read q = some b) (j : Nat) :
    slotKey node ((heap.write p b).write q a) j =
      if j = q then slotKey node heap p else if j = p then slotKey node heap q else slotKey node heap j := by
  rw [slotKey_write, slotKey_write, slotKey_of_read ha, slotKey_of_read hb]

/-- A keyed slot with its item and that item's weight. -/
theorem Keyed.slot (h : Keyed node n heap) (hp : p < n) :
    ∃ item w, heap.read p = some item ∧ weightOf node item = some w ∧ slotKey node heap p = w.toNat := by
  obtain ⟨item, hread, hitem⟩ := h p hp
  obtain ⟨w, hw⟩ := Option.isSome_iff_exists.1 hitem
  refine ⟨item, w, hread, hw, ?_⟩
  rw [slotKey_of_read hread, idWeight, hw]
  rfl

theorem Keyed.slotWeight (h : Keyed node n heap) (hp : p < n) :
    ∃ w, slotWeight node heap p = .ok w ∧ w.toNat = slotKey node heap p := by
  obtain ⟨item, w, hread, hw, hkey⟩ := h.slot hp
  exact ⟨w, except_bind_ok.2 ⟨item, readEntry_ok.2 hread, nodeWeight_ok.2 hw⟩, hkey.symm⟩

theorem Keyed.weightInSlot_isSome (h : Keyed s.tab.node n s.tab.heap) (hp : p < n) :
    (weightInSlot s p).isSome = true := by
  obtain ⟨item, hread, hitem⟩ := h p hp
  rwa [weightInSlot, hread, Option.bind_some]

theorem swapSlots_of_read {a b : NodeId} (ha : heap.read p = some a) (hb : heap.read q = some b) :
    swapSlots heap p q = .ok ((heap.write p b).write q a) :=
  except_bind_ok.2 ⟨a, readEntry_ok.2 ha, except_bind_ok.2 ⟨b, readEntry_ok.2 hb, rfl⟩⟩

/-! ### Moves along a path -/

/-- An item has moved from slot `p` along a path of slots as far as it may pass: each slot it left holds what
`heap₀` holds in the next one, and slots off the path are as they were in `heap`. -/
def Moved (next : Nat → Nat) (passes : Nat → Prop) (item : NodeId) (heap₀ : Memory NodeId) (p : Nat)
    (heap heap' : Memory NodeId) : Prop :=
  ∃ d, (∀ i < d, passes (next^[i] p) ∧ heap'.read (next^[i] p) = heap₀.read (next^[i + 1] p)) ∧
    heap'.read (next^[d] p) = some item ∧ ¬passes (next^[d] p) ∧
    ∀ j, (∀ i ≤ d, j ≠ next^[i] p) → heap'.read j = heap.read j

section Moved
variable {next : Nat → Nat} {passes : Nat → Prop}

theorem Moved.stays (hitem : heap.read p = some item) (hstop : ¬passes p) : Moved next passes item heap₀ p heap heap :=
  ⟨0, fun _ h => absurd h (Nat.not_lt_zero _), hitem, hstop, fun _ _ => rfl⟩

/-- What was in the slot the item started from does not matter: it is on the path. -/
theorem Moved.of_write {b : NodeId} (h : Moved next passes item heap₀ p (heap.write p b) heap') :
    Moved next passes item heap₀ p heap heap' := by
  obtain ⟨d, hpath, hend, hstop, hrest⟩ := h
  exact ⟨d, hpath, hend, hstop, fun j hj => (hrest j hj).trans (heap.read_write_other b (hj 0 (Nat.zero_le d)))⟩

/-- One exchange more at the start of the path, to which the path does not come back. -/
theorem Moved.moves {b : NodeId} (hpass : passes p) (hb : heap₀.read (next p) = some b)
    (hleft : ∀ i, next^[i] (next p) ≠ p)
    (h : Moved next passes item heap₀ (next p) ((heap.write p b).write (next p) item) heap') :
    Moved next passes item heap₀ p heap heap' := by
  obtain ⟨d, hpath, hend, hstop, hrest⟩ := h
  refine ⟨d + 1, fun i hi => ?_, hend, hstop, fun j hj => ?_⟩
  · cases i with
    | zero =>
      refine ⟨hpass, ?_⟩
      have hread := hrest p fun i _ => (hleft i).symm
      have hnext : p ≠ next p := (hleft 0).symm
      rw [Memory.read_write_other _ _ hnext, Memory.read_write_same] at hread
      exact hread.trans hb.symm
    | succ i => exact hpath i (Nat.lt_of_succ_lt_succ hi)
  · have hp : j ≠ p := hj 0 (Nat.zero_le _)
    have hnext : j ≠ next p := hj 1 (Nat.succ_le_succ (Nat.zero_le d))
    rw [hrest j fun i hi => hj (i + 1) (Nat.succ_le_succ hi), Memory.read_write_other _ _ hnext,
      Memory.read_write_other _ _ hp]

end Moved

/-! ### The heap property -/

/-- The slot above a slot (R167). -/
def parentSlot (p : Nat) : Nat := (p - 1) / 2

/-- No key below `n` is less than the one above it (R169). -/
def HeapKeys (n : Nat) (key : Nat → Nat) : Prop := ∀ j, 0 < j → j < n → key (parentSlot j) ≤ key j

/-- The heap property while the item in slot `p` rises: only that item may be lighter than the one above it. -/
def RiseKeys (n : Nat) (key : Nat → Nat) (p : Nat) : Prop :=
  ∀ j, 0 < j → j < n → (j ≠ p → key (parentSlot j) ≤ key j) ∧
    (parentSlot j = p → 0 < p → key (parentSlot p) ≤ key j)

/-- The heap property while the item in slot `p` sinks: only the items right below that one may be lighter than it. -/
def SinkKeys (n : Nat) (key : Nat → Nat) (p : Nat) : Prop :=
  ∀ j, 0 < j → j < n → (parentSlot j ≠ p → key (parentSlot j) ≤ key j) ∧
    (parentSlot j = p → 0 < p → key (parentSlot p) ≤ key j)

theorem parentSlot_le_id : parentSlot ≤ id := fun q => by simp only [parentSlot, id]; omega

theorem parentSlot_lt (h : p ≠ 0) : parentSlot p < p := by unfold parentSlot; omega

section Keys
variable {key key' : Nat → Nat}

theorem HeapKeys.root_le (h : HeapKeys n key) {j : Nat} (hj : j < n) : key 0 ≤ key j := by
  induction j using Nat.strong_induction_on with
  | _ j ih =>
    rcases Nat.eq_zero_or_pos j with rfl | h0
    · exact le_rfl
    · have hlt := parentSlot_lt h0.ne'
      exact (ih _ hlt (hlt.trans hj)).trans (h j h0 hj)

/-- A rise ends at the root or below an item that is not heavier. -/
theorem RiseKeys.stop (h : RiseKeys n key p) (hp : p = 0 ∨ key (parentSlot p) ≤ key p) : HeapKeys n key := by
  intro j h0 hj
  by_cases hjp : j = p
  · subst hjp
    exact hp.resolve_left h0.ne'
  · exact (h j h0 hj).1 hjp

/-- A rise past a heavier item leaves the property broken one slot higher. -/
theorem RiseKeys.rise (h : RiseKeys n key p) (hp : p < n) (h0 : p ≠ 0) (hlt : key p < key (parentSlot p))
    (hkey : ∀ j, key' j = if j = parentSlot p then key p else if j = p then key (parentSlot p) else key j) :
    RiseKeys n key' (parentSlot p) := by
  have hpar := parentSlot_lt h0
  intro j hj0 hj
  refine ⟨fun hne => ?_, fun heq hpos => ?_⟩
  · rw [hkey j, if_neg hne, hkey]
    split_ifs with hq hjp hp hjp hjp
    · exact hlt.le
    · exact hlt.le.trans (hq ▸ (h j hj0 hj).1 hjp)
    · exact absurd (hjp ▸ hp) (parentSlot_lt hj0.ne').ne
    · exact (h j hj0 hj).2 hp (Nat.pos_of_ne_zero h0)
    · exact absurd (hjp ▸ rfl) hq
    · exact (h j hj0 hj).1 hjp
  · have htop := parentSlot_lt hpos.ne'
    have habove := (h _ hpos (hpar.trans hp)).1 hpar.ne
    have hne : j ≠ parentSlot p := (heq ▸ parentSlot_lt hj0.ne').ne'
    rw [hkey (parentSlot (parentSlot p)), if_neg htop.ne, if_neg (htop.trans hpar).ne, hkey j, if_neg hne]
    split_ifs with hjp
    · exact habove
    · exact habove.trans (heq ▸ (h j hj0 hj).1 hjp)

/-- A sink ends above items none of which is lighter. -/
theorem SinkKeys.stop (h : SinkKeys n key p) (hp : ∀ j, 0 < j → j < n → parentSlot j = p → key p ≤ key j) :
    HeapKeys n key := by
  intro j h0 hj
  by_cases hjp : parentSlot j = p
  · exact hjp ▸ hp j h0 hj hjp
  · exact (h j h0 hj).1 hjp

/-- A sink past the lightest item below, a lighter one, leaves the property broken one slot lower. -/
theorem SinkKeys.sink {c : Nat} (h : SinkKeys n key p) (hc : c < n) (h0 : c ≠ 0) (hpar : parentSlot c = p)
    (hlt : key c < key p) (hleast : ∀ j, 0 < j → j < n → parentSlot j = p → key c ≤ key j)
    (hkey : ∀ j, key' j = if j = c then key p else if j = p then key c else key j) : SinkKeys n key' c := by
  have hpc : p < c := hpar ▸ parentSlot_lt h0
  intro j hj0 hj
  have hup := parentSlot_lt hj0.ne'
  refine ⟨fun hne => ?_, fun heq _ => ?_⟩
  · rw [hkey (parentSlot j), if_neg hne, hkey j]
    split_ifs with hp hjc hjp hjc hjp
    · exact hlt.le
    · exact absurd (hjp ▸ hp) hup.ne
    · exact hleast j hj0 hj hp
    · exact absurd (hjc ▸ hpar) hp
    · exact hjp ▸ (h c (Nat.pos_of_ne_zero h0) hc).2 hpar (hjp ▸ hj0)
    · exact (h j hj0 hj).1 hp
  · have hcj : c < j := heq ▸ hup
    have hbelow := (h j hj0 hj).1 (heq ▸ hpc.ne')
    rw [hpar, hkey p, if_neg hpc.ne, if_pos rfl, hkey j, if_neg hcj.ne', if_neg (hpc.trans hcj).ne']
    exact heq ▸ hbelow

end Keys

/-- The heap property with a new item in the slot after the last, before that item rises. -/
theorem HeapKeys.riseKeys_write (h : HeapKeys n (slotKey node heap)) (item : NodeId) :
    RiseKeys (n + 1) (slotKey node (heap.write n item)) n := by
  intro j h0 hj
  have hpar := parentSlot_lt h0.ne'
  refine ⟨fun hne => ?_, fun heq => by omega⟩
  rw [slotKey_write, slotKey_write, if_neg (by omega), if_neg hne]
  exact h j h0 (by omega)

/-- The heap property with an item put into slot 0, before that item sinks. -/
theorem HeapKeys.sinkKeys_write (h : HeapKeys (n + 1) (slotKey node heap)) (item : NodeId) :
    SinkKeys n (slotKey node (heap.write 0 item)) 0 := by
  refine fun j h0 hj => ⟨fun hne => ?_, fun _ hpos => absurd hpos (Nat.lt_irrefl 0)⟩
  rw [slotKey_write, slotKey_write, if_neg hne, if_neg h0.ne']
  exact h j h0 (by omega)

/-! ### The rise -/

theorem siftUp_stays (h : Keyed node n heap) (hp : p < n)
    (hstop : p = 0 ∨ slotKey node heap (parentSlot p) ≤ slotKey node heap p) : siftUp node k p heap = .ok heap := by
  cases k with
  | zero => rfl
  | succ k =>
    unfold siftUp
    split
    · rfl
    · next h0 =>
      obtain ⟨wp, hwp, hkp⟩ := h.slotWeight hp
      obtain ⟨wq, hwq, hkq⟩ := h.slotWeight ((parentSlot_lt h0).trans hp)
      have hle : ¬wp < wq := by
        rw [BitVec.lt_def, hkp, hkq]
        exact Nat.not_lt.2 (hstop.resolve_left h0)
      exact except_bind_ok.2 ⟨wp, hwp, except_bind_ok.2 ⟨wq, hwq, if_neg hle⟩⟩

theorem siftUp_rises {b : NodeId} (h : Keyed node n heap) (hp : p < n) (h0 : p ≠ 0)
    (hlt : slotKey node heap p < slotKey node heap (parentSlot p)) (hitem : heap.read p = some item)
    (hb : heap.read (parentSlot p) = some b)
    (hr : siftUp node k (parentSlot p) ((heap.write p b).write (parentSlot p) item) = .ok heap') :
    siftUp node (k + 1) p heap = .ok heap' := by
  obtain ⟨wp, hwp, hkp⟩ := h.slotWeight hp
  obtain ⟨wq, hwq, hkq⟩ := h.slotWeight ((parentSlot_lt h0).trans hp)
  rw [← hkp, ← hkq, ← BitVec.lt_def] at hlt
  unfold siftUp
  rw [if_neg h0]
  refine except_bind_ok.2 ⟨wp, hwp, except_bind_ok.2 ⟨wq, hwq, ?_⟩⟩
  rw [if_pos hlt]
  exact except_bind_ok.2 ⟨_, swapSlots_of_read hitem hb, hr⟩

/-- What lets an item of a weight rise from a slot: a strictly heavier item above it (R167). -/
def Rises (node : Memory Node) (heap : Memory NodeId) (w p : Nat) : Prop :=
  p ≠ 0 ∧ w < slotKey node heap (parentSlot p)

theorem iterate_parentSlot_ne (h0 : p ≠ 0) (i : Nat) : parentSlot^[i] (parentSlot p) ≠ p :=
  ((Function.iterate_le_id_of_le_id parentSlot_le_id i _).trans_lt (parentSlot_lt h0)).ne

/-- The rise of the item in slot `p`, in a table that agrees with `heap₀` on the slots below `p` (R167, R169). -/
theorem siftUp_correct (h : Keyed node n heap) (hp : p < n) (hk : p ≤ k) (hitem : heap.read p = some item)
    (hsame : ∀ j < p, heap.read j = heap₀.read j) :
    ∃ heap', siftUp node k p heap = .ok heap' ∧
      Moved parentSlot (Rises node heap₀ (idWeight node item)) item heap₀ p heap heap' ∧
      (RiseKeys n (slotKey node heap) p → HeapKeys n (slotKey node heap')) := by
  induction k generalizing p heap with
  | zero =>
    obtain rfl := Nat.le_zero.1 hk
    exact ⟨heap, rfl, .stays hitem fun hr => hr.1 rfl, fun ho => ho.stop (.inl rfl)⟩
  | succ k ih =>
    have hkey := slotKey_of_read (node := node) hitem
    by_cases hrise : Rises node heap₀ (idWeight node item) p
    · have ⟨h0, hlt⟩ := hrise
      have hpar := parentSlot_lt h0
      rw [← hkey, ← slotKey_congr (hsame _ hpar)] at hlt
      obtain ⟨b, hb, -⟩ := h _ (hpar.trans hp)
      obtain ⟨heap', hr, hmoved, hordered⟩ := ih (p := parentSlot p)
        (heap := (heap.write p b).write (parentSlot p) item) (h.exchange hp (hpar.trans hp) hitem hb) (hpar.trans hp)
        (by omega) (Memory.read_write_same _ _ _) fun j hj => by
          rw [Memory.read_write_other _ _ hj.ne, Memory.read_write_other _ _ (hj.trans hpar).ne,
            hsame j (hj.trans hpar)]
      exact ⟨heap', siftUp_rises h hp h0 hlt hitem hb hr,
        .moves hrise ((hsame _ hpar).symm.trans hb) (iterate_parentSlot_ne h0) hmoved,
        fun ho => hordered (ho.rise hp h0 hlt (slotKey_exchange hitem hb))⟩
    · have hstop : p = 0 ∨ slotKey node heap (parentSlot p) ≤ slotKey node heap p := by
        refine or_iff_not_imp_left.2 fun h0 => ?_
        rw [hkey, slotKey_congr (hsame _ (parentSlot_lt h0))]
        exact Nat.not_lt.1 fun hlt => hrise ⟨h0, hlt⟩
      exact ⟨heap, siftUp_stays h hp hstop, .stays hitem hrise, fun ho => ho.stop hstop⟩

/-! ### The sink -/

/-- The child a sinking item would change places with: the left one, unless the right one is in the queue and strictly
lighter (R168). -/
def lighterChildSlot (node : Memory Node) (heap : Memory NodeId) (n p : Nat) : Nat :=
  if 2 * p + 2 < n ∧ slotKey node heap (2 * p + 2) < slotKey node heap (2 * p + 1) then 2 * p + 2 else 2 * p + 1

/-- What lets an item of a weight sink from a slot: a strictly lighter child in the queue (R168). -/
def Sinks (node : Memory Node) (heap : Memory NodeId) (n w p : Nat) : Prop :=
  lighterChildSlot node heap n p < n ∧ slotKey node heap (lighterChildSlot node heap n p) < w

theorem lighterChildSlot_eq_or (node : Memory Node) (heap : Memory NodeId) (n p : Nat) :
    lighterChildSlot node heap n p = 2 * p + 2 ∨ lighterChildSlot node heap n p = 2 * p + 1 := ite_eq_or_eq _ _ _

theorem lt_lighterChildSlot (node : Memory Node) (heap : Memory NodeId) (n p : Nat) :
    p < lighterChildSlot node heap n p := by
  rcases lighterChildSlot_eq_or node heap n p with h | h <;> omega

theorem parentSlot_lighterChildSlot (node : Memory Node) (heap : Memory NodeId) (n p : Nat) :
    parentSlot (lighterChildSlot node heap n p) = p := by
  rcases lighterChildSlot_eq_or node heap n p with h | h <;> rw [h, parentSlot] <;> omega

theorem iterate_lighterChildSlot_ne (node : Memory Node) (heap : Memory NodeId) (n p i : Nat) :
    (lighterChildSlot node heap n)^[i] (lighterChildSlot node heap n p) ≠ p := by
  have hle : id ≤ lighterChildSlot node heap n := fun q => (lt_lighterChildSlot node heap n q).le
  exact ((lt_lighterChildSlot node heap n p).trans_le (Function.id_le_iterate_of_id_le hle i _)).ne'

/-- No child in the queue is lighter than the one chosen. -/
theorem lighterChildSlot_least {j : Nat} (h0 : 0 < j) (hj : j < n) (hpar : parentSlot j = p) :
    lighterChildSlot node heap n p < n ∧ slotKey node heap (lighterChildSlot node heap n p) ≤ slotKey node heap j := by
  have hchild : j = 2 * p + 1 ∨ j = 2 * p + 2 := by unfold parentSlot at hpar; omega
  unfold lighterChildSlot
  split
  · next hr =>
    rcases hchild with rfl | rfl
    · exact ⟨hr.1, hr.2.le⟩
    · exact ⟨hr.1, le_rfl⟩
  · next hl =>
    rcases hchild with rfl | rfl
    · exact ⟨hj, le_rfl⟩
    · exact ⟨by omega, Nat.not_lt.1 fun hlt => hl ⟨hj, hlt⟩⟩

theorem lighterChildSlot_congr (h : ∀ j, p < j → heap.read j = heap₀.read j) :
    lighterChildSlot node heap n p = lighterChildSlot node heap₀ n p := by
  unfold lighterChildSlot
  rw [slotKey_congr (h (2 * p + 2) (by omega)), slotKey_congr (h (2 * p + 1) (by omega))]

theorem sinks_congr {w : Nat} (h : ∀ j, p < j → heap.read j = heap₀.read j) :
    Sinks node heap n w p ↔ Sinks node heap₀ n w p := by
  unfold Sinks
  rw [lighterChildSlot_congr h, slotKey_congr (h _ (lt_lighterChildSlot node heap₀ n p))]

theorem lighterOf_keyed {c : Nat} (h : Keyed node n heap) (hp : p < n) :
    lighterOf node heap n c p = .ok (if c < n ∧ slotKey node heap c < slotKey node heap p then c else p) := by
  unfold lighterOf
  by_cases hc : c < n
  · obtain ⟨wc, hwc, hkc⟩ := h.slotWeight hc
    obtain ⟨wp, hwp, hkp⟩ := h.slotWeight hp
    rw [if_pos hc]
    refine except_bind_ok.2 ⟨wc, hwc, except_bind_ok.2 ⟨wp, hwp, except_pure_ok.2 ?_⟩⟩
    simp only [hc, true_and, BitVec.lt_def, hkc, hkp]
  · rw [if_neg hc, if_neg fun h => hc h.1]

/-- The two child tests, left then right, answer the lighter child where it is lighter than the item itself, and
otherwise the item's own slot. -/
theorem lighterOf_children (h : Keyed node n heap) (hp : p < n) :
    ∃ u v, lighterOf node heap n (2 * p + 1) p = .ok u ∧ lighterOf node heap n (2 * p + 2) u = .ok v ∧
      ((Sinks node heap n (slotKey node heap p) p ∧ v = lighterChildSlot node heap n p) ∨
        (¬Sinks node heap n (slotKey node heap p) p ∧ v = p)) := by
  have hleft := lighterOf_keyed (c := 2 * p + 1) h hp
  refine ⟨_, _, hleft, lighterOf_keyed h (lighterOf_lt hleft hp), ?_⟩
  unfold Sinks lighterChildSlot
  grind

theorem siftDown_stays (h : Keyed node n heap) (hp : p < n) (hstop : ¬Sinks node heap n (slotKey node heap p) p) :
    siftDown node n k p heap = .ok heap := by
  cases k with
  | zero => rfl
  | succ k =>
    obtain ⟨u, v, hl, hr, ⟨hsink, -⟩ | ⟨-, rfl⟩⟩ := lighterOf_children h hp
    · exact absurd hsink hstop
    · exact except_bind_ok.2 ⟨u, hl, except_bind_ok.2 ⟨v, hr, if_pos rfl⟩⟩

theorem siftDown_sinks {b : NodeId} (h : Keyed node n heap) (hp : p < n)
    (hsink : Sinks node heap n (slotKey node heap p) p) (hitem : heap.read p = some item)
    (hb : heap.read (lighterChildSlot node heap n p) = some b)
    (hr : siftDown node n k (lighterChildSlot node heap n p)
      ((heap.write p b).write (lighterChildSlot node heap n p) item) = .ok heap') :
    siftDown node n (k + 1) p heap = .ok heap' := by
  obtain ⟨u, v, hleft, hright, ⟨-, rfl⟩ | ⟨hstop, -⟩⟩ := lighterOf_children h hp
  · refine except_bind_ok.2 ⟨u, hleft, except_bind_ok.2 ⟨_, hright, ?_⟩⟩
    rw [if_neg (lt_lighterChildSlot node heap n p).ne']
    exact except_bind_ok.2 ⟨_, swapSlots_of_read hitem hb, hr⟩
  · exact absurd hsink hstop

/-- The sink of the item in slot `p`, in a table that agrees with `heap₀` on the slots above `p` (R168, R169). -/
theorem siftDown_correct (h : Keyed node n heap) (hp : p < n) (hk : n ≤ k + p) (hitem : heap.read p = some item)
    (hsame : ∀ j, p < j → heap.read j = heap₀.read j) :
    ∃ heap', siftDown node n k p heap = .ok heap' ∧
      Moved (lighterChildSlot node heap₀ n) (Sinks node heap₀ n (idWeight node item)) item heap₀ p heap heap' ∧
      (SinkKeys n (slotKey node heap) p → HeapKeys n (slotKey node heap')) := by
  induction k generalizing p heap with
  | zero => omega
  | succ k ih =>
    have hkey := slotKey_of_read (node := node) hitem
    by_cases hsink : Sinks node heap n (slotKey node heap p) p
    · have hchild := lt_lighterChildSlot node heap n p
      have ⟨hc, hlt⟩ := hsink
      obtain ⟨b, hb, -⟩ := h _ hc
      obtain ⟨heap', hr, hmoved, hordered⟩ := ih (p := lighterChildSlot node heap n p)
        (heap := (heap.write p b).write (lighterChildSlot node heap n p) item) (h.exchange hp hc hitem hb) hc (by omega)
        (Memory.read_write_same _ _ _) fun j hj => by
          rw [Memory.read_write_other _ _ hj.ne', Memory.read_write_other _ _ (hchild.trans hj).ne',
            hsame j (hchild.trans hj)]
      refine ⟨heap', siftDown_sinks h hp hsink hitem hb hr, ?_, fun ho => hordered ?_⟩
      · rw [hkey, sinks_congr hsame] at hsink
        rw [hsame _ hchild] at hb
        rw [lighterChildSlot_congr hsame] at hb hmoved
        exact .moves hsink hb (iterate_lighterChildSlot_ne node heap₀ n p) hmoved
      · exact ho.sink hc (Nat.zero_lt_of_lt hchild).ne' (parentSlot_lighterChildSlot node heap n p) hlt
          (fun j h0 hj hpar => (lighterChildSlot_least h0 hj hpar).2) (slotKey_exchange hitem hb)
    · refine ⟨heap, siftDown_stays h hp hsink, .stays hitem ?_, fun ho => ho.stop fun j h0 hj hpar => ?_⟩
      · rwa [← sinks_congr hsame, ← hkey]
      · obtain ⟨hc, hle⟩ := lighterChildSlot_least (node := node) (heap := heap) h0 hj hpar
        exact (Nat.not_lt.1 fun hlt => hsink ⟨hc, hlt⟩).trans hle

end Sys2Proof.Machine
end

section
/-! PROOFS. `PQINS` and `PQDELMIN` on a queue within its contract (R160, R163, R164, R167 to R169): under every
tie-break the procedures complete, keep the contract, and take out a lightest item. -/

namespace Sys2Proof.Machine

variable {node : Memory Node} {heap heap' : Memory NodeId} {item m : NodeId} {n k : Nat} {s t : State}

/-! ### The contract -/

/-- A queue is readable exactly when it lists an id for each of its items, each with a written record. -/
theorem queueReadable_iff_queuedIds : queueReadable s = true ↔
    (queuedIds s).length = s.ctr.hsize.toNat ∧ ∀ i ∈ queuedIds s, (weightOf s.tab.node i).isSome = true := by
  rw [queueReadable_iff, ← queue_filled_iff, Memory.filled_iff, queuedIds]
  simp only [List.mem_filterMap, List.mem_range]
  constructor
  · refine fun h => ⟨fun i hi => (h i hi).imp fun _ => And.left, ?_⟩
    rintro item ⟨i, hi, hread⟩
    exact Keyed.isSome_of_read h hi hread
  · rintro ⟨hfilled, hw⟩ i hi
    obtain ⟨item, hread⟩ := hfilled i hi
    exact ⟨item, hread, hw item ⟨i, hi, hread⟩⟩

theorem heapOrdered_iff (h : queueReadable s = true) :
    heapOrdered s = true ↔ HeapKeys s.ctr.hsize.toNat (slotKey s.tab.node s.tab.heap) := by
  simp only [heapOrdered, List.all_eq_true, List.mem_range, Bool.or_eq_true, decide_eq_true_eq]
  refine forall_congr' fun i => ?_
  rcases Nat.eq_zero_or_pos i with rfl | h0
  · simp
  · simp only [h0, h0.ne', false_or, forall_const]
    refine forall_congr' fun hi => ?_
    obtain ⟨p, wp, hp, hwp, hkp⟩ := (queueReadable_iff.1 h).slot ((parentSlot_lt h0.ne').trans hi)
    obtain ⟨c, wc, hc, hwc, hkc⟩ := (queueReadable_iff.1 h).slot hi
    rw [parentSlot] at hp
    rw [hp, hc, hkp, hkc]
    simp only [hwp, hwc, decide_eq_true_eq, BitVec.le_def]

/-- A queue that lists other ids, all of them with written records, in heap order under `TIE_REF`, is within its
contract if the one before was. -/
theorem QueueOk.of_queuedIds (h : QueueOk s) (hnode : t.tab.node = s.tab.node) (hpar : t.par = s.par)
    (hintact : t.pq.intact = s.pq.intact) (hcap : t.ctr.hsize.toNat ≤ Config.pqCap)
    (hlen : (queuedIds t).length = t.ctr.hsize.toNat)
    (hids : ∀ i ∈ queuedIds t, (weightOf s.tab.node i).isSome = true)
    (hord : s.par.tie = .ref → HeapKeys t.ctr.hsize.toNat (slotKey s.tab.node t.tab.heap)) : QueueOk t := by
  obtain ⟨-, -, hi, -⟩ := h
  rw [← hnode] at hids hord
  have hread : queueReadable t = true := queueReadable_iff_queuedIds.2 ⟨hlen, hids⟩
  exact ⟨hcap, hread, hintact.trans hi, fun htie => (heapOrdered_iff hread).2 (hord (hpar ▸ htie))⟩

/-! ### Rearrangements -/

theorem Keyed.filled (h : Keyed node n heap) : heap.filled n = true :=
  (heap.filled_iff n).2 fun i hi => (h i hi).imp fun _ => And.left

theorem slotIds_of_filled (h : heap.filled n = true) : ∃ ids, slotIds heap n = .ok ids := by
  rw [Memory.filled_iff] at h
  induction n with
  | zero => exact ⟨[], rfl⟩
  | succ n ih =>
    obtain ⟨below, hbelow⟩ := ih fun i hi => h i (hi.trans (Nat.lt_succ_self n))
    obtain ⟨last, hlast⟩ := h n (Nat.lt_succ_self n)
    exact ⟨below ++ [last], except_bind_ok.2 ⟨below, hbelow, except_bind_ok.2 ⟨last, readEntry_ok.2 hlast, rfl⟩⟩⟩

theorem rearrange_of_filled (k : Nat) (hist : List Config.PqEvent) (h : heap.filled n = true) :
    ∃ heap', rearrange k hist heap n = .ok heap' := by
  obtain ⟨ids, hids⟩ := slotIds_of_filled h
  exact ⟨_, except_bind_ok.2 ⟨ids, hids, rfl⟩⟩

/-! ### Insert -/

theorem ancestor_eq_iterate (i p : Nat) : ancestor i p = parentSlot^[i] p := by
  induction i with
  | zero => rfl
  | succ i ih => rw [Function.iterate_succ_apply', ← ih]; rfl

theorem rises_iff {q : Nat} (h : Keyed s.tab.node n s.tab.heap) (hq : q ≤ n)
    (hitem : (weightOf s.tab.node item).isSome = true) :
    Rises s.tab.node s.tab.heap (idWeight s.tab.node item) q ↔
      q ≠ 0 ∧ lighter (weightOf s.tab.node item) (weightInSlot s (parentSlot q)) = true :=
  and_congr_right fun h0 =>
    (lighter_iff hitem (h.weightInSlot_isSome ((parentSlot_lt h0).trans_le hq))).symm

/-- The rise in the words of R167. -/
theorem roseFrom_of_moved (h : Keyed s.tab.node s.ctr.hsize.toNat s.tab.heap)
    (hitem : (weightOf s.tab.node item).isSome = true)
    (hmoved : Moved parentSlot (Rises s.tab.node s.tab.heap (idWeight s.tab.node item)) item s.tab.heap
      s.ctr.hsize.toNat s.tab.heap t.tab.heap) : RoseFrom s t item := by
  obtain ⟨d, hpath, hend, hstop, hrest⟩ := hmoved
  have hle : ∀ i, parentSlot^[i] s.ctr.hsize.toNat ≤ s.ctr.hsize.toNat :=
    fun i => Function.iterate_le_id_of_le_id parentSlot_le_id i _
  simp only [RoseFrom, ancestor_eq_iterate, Function.iterate_succ_apply']
  simp only [rises_iff h (hle _) hitem, Function.iterate_succ_apply'] at hpath hstop
  refine ⟨d, fun i hi => and_assoc.1 (hpath i hi), hend, ?_, hrest⟩
  exact or_iff_not_imp_left.2 fun h0 => Bool.eq_false_of_not_eq_true fun hl => hstop ⟨h0, hl⟩

/-- `PqInsert(i)` completes where every queued record and the new item's has been written; under `TIE_REF` the new item
rises (R167) and heap order stays (R169). -/
theorem pqInsert_completes (h : queueReadable s = true) (hitem : (weightOf s.tab.node item).isSome = true) :
    ∃ t, pqInsert item s = .ok t ∧ (s.par.tie = .ref → RoseFrom s t item ∧
      (heapOrdered s = true → HeapKeys (s.ctr.hsize.toNat + 1) (slotKey s.tab.node t.tab.heap))) := by
  have hkeyed := queueReadable_iff.1 h
  have hadded := hkeyed.write_next hitem
  cases htie : s.par.tie with
  | ref =>
    obtain ⟨heap, hr, hmoved, hordered⟩ := siftUp_correct hadded (Nat.lt_succ_self _) le_rfl
      (Memory.read_write_same _ _ _) fun j hj => s.tab.heap.read_write_other item hj.ne
    unfold pqInsert
    rw [htie]
    exact ⟨_, except_bind_ok.2 ⟨heap, hr, rfl⟩, fun _ => ⟨roseFrom_of_moved hkeyed hitem hmoved.of_write,
      fun ho => hordered (((heapOrdered_iff h).1 ho).riseKeys_write item)⟩⟩
  | other k =>
    obtain ⟨heap, hr⟩ := rearrange_of_filled k
      (s.pq.hist ++ [.inserted item ((s.tab.node.read item.toNat).map (·.weight))]) hadded.filled
    unfold pqInsert
    rw [htie]
    exact ⟨_, except_bind_ok.2 ⟨heap, hr, rfl⟩, fun h => nomatch h⟩

/-- `PqInsert(i)` keeps a queue within its contract (R160, R169). -/
theorem QueueOk.pqInsert (h : QueueOk s) (hroom : s.ctr.hsize.toNat < Config.pqCap)
    (hitem : (weightOf s.tab.node item).isSome = true) :
    ∃ t, pqInsert item s = .ok t ∧ QueueOk t ∧ (s.par.tie = .ref → RoseFrom s t item) := by
  have ⟨_, hread, _, hordered⟩ := h
  obtain ⟨t, ht, href⟩ := pqInsert_completes hread hitem
  refine ⟨t, ht, ?_, fun htie => (href htie).1⟩
  obtain ⟨hlen, hids⟩ := queueReadable_iff_queuedIds.1 hread
  obtain ⟨-, -, -, -, hsize, hperm⟩ := pqInsert_queue ht hroom
  obtain ⟨heap, ev, rfl⟩ := pqInsert_ok ht
  refine h.of_queuedIds rfl rfl rfl (hsize.trans_le hroom) ?_ (fun i hi => ?_) fun htie => ?_
  · rw [hperm.length_eq, List.length_cons, hlen, hsize]
  · rcases List.mem_cons.1 (hperm.mem_iff.1 hi) with rfl | hi
    · exact hitem
    · exact hids i hi
  · rw [hsize]
    exact (href htie).2 (hordered htie)

theorem pqinsBody_inserts (hroom : s.ctr.hsize.toNat ≠ Config.pqCap) (ha : s.reg.arg.toNat ≤ 510)
    (h : pqInsert (s.reg.arg.setWidth 9) s = .ok t) : pqinsBody s = .ok () t := by
  rw [BitVec.setWidth_eq_extractLsb' (by decide)] at h
  rw [pqinsBody, if_neg hroom, if_pos ha, h]
  rfl

/-- The node an operand of `PQINS` names has a weight when its record has been written. -/
theorem weightOf_operand {arg : HostWord} (ha : arg.toNat ≤ 510) (h : (node.read arg.toNat).isSome = true) :
    (weightOf node (arg.setWidth 9)).isSome = true := by
  have hid : (arg.setWidth 9).toNat = arg.toNat := by rw [BitVec.toNat_setWidth]; omega
  have hne : arg.setWidth 9 ≠ NONE := fun heq => by
    rw [heq, NONE, BitVec.toNat_ofNat] at hid
    omega
  rwa [weightOf, if_neg hne, hid, Option.isSome_map]

/-- Settles O21: within the contract the insert completes, keeps it, and adds the operand to the multiset of queued
ids. -/
theorem pqinsAddsOneOccurrence : Obligations.PqinsAddsOneOccurrence := by
  intro s arg herr hok hroom ha hwritten
  obtain ⟨t, ht, hok', hrose⟩ := QueueOk.pqInsert (s := clearResultFlags (s.setArg arg)) hok hroom
    (weightOf_operand ha hwritten)
  have hrun : exec (.pqins arg) s = .next t :=
    issue_ok (s := s.setArg arg) herr (pqinsBody_inserts (s := clearResultFlags (s.setArg arg)) hroom.ne ha ht)
  obtain ⟨-, -, -, -, -, hperm⟩ := pqInsert_queue ht hroom
  obtain ⟨heap, ev, rfl⟩ := pqInsert_ok ht
  exact ⟨_, hrun, hperm, rfl, hok', hrose, rfl⟩

/-! ### The lightest of a list of weights -/

theorem mem_lightest {ws : List (Nat × Weight)} {slot : Nat} :
    slot ∈ lightest ws ↔ ∃ w, (slot, w) ∈ ws ∧ ∀ e ∈ ws, w ≤ e.2 := by
  simp [lightest]

theorem lightest_ne_nil {ws : List (Nat × Weight)} (h : ws ≠ []) : lightest ws ≠ [] := by
  obtain ⟨e, he⟩ := Option.ne_none_iff_exists'.1 (mt (List.argmin_eq_none (f := fun e : Nat × Weight => e.2.toNat)).1 h)
  exact List.ne_nil_of_mem (mem_lightest.2 ⟨e.2, List.argmin_mem he, fun _ he' => List.le_of_mem_argmin he' he⟩)

/-- The item `TIE` chooses is one of the candidates (R160). -/
theorem getD_mod_length_mem {l : List Nat} (h : l ≠ []) (i : Nat) : l.getD (i % l.length) 0 ∈ l := by
  have hlt := Nat.mod_lt i (List.length_pos_iff.2 h)
  rw [List.getD_eq_getElem _ _ hlt]
  exact List.getElem_mem hlt

theorem queuedWeights_keyed (h : Keyed node n heap) :
    ∃ ws, queuedWeights node heap n = .ok ws ∧ (∀ e ∈ ws, e.2.toNat = slotKey node heap e.1) ∧
      ∀ i, i < n → ∃ w, (i, w) ∈ ws := by
  induction n with
  | zero => exact ⟨[], rfl, by simp, by simp⟩
  | succ n ih =>
    obtain ⟨below, hbelow, hkeys, hslots⟩ := ih (h.mono (Nat.le_succ n))
    obtain ⟨w, hw, hkey⟩ := h.slotWeight (Nat.lt_succ_self n)
    refine ⟨below ++ [(n, w)], except_bind_ok.2 ⟨below, hbelow, except_bind_ok.2 ⟨w, hw, rfl⟩⟩, fun e he => ?_,
      fun i hi => ?_⟩
    · rcases List.mem_append.1 he with he | he
      · exact hkeys e he
      · rw [List.mem_singleton.1 he]
        exact hkey
    · rcases Nat.lt_succ_iff_lt_or_eq.1 hi with hi | rfl
      · exact (hslots i hi).imp fun _ => List.mem_append_left _
      · exact ⟨w, List.mem_append_right _ (List.mem_singleton_self _)⟩

/-! ### Delete -/

/-- A slot of the queue that holds the item and that no slot is lighter than. -/
def LightestIn (node : Memory Node) (heap : Memory NodeId) (n slot : Nat) (m : NodeId) : Prop :=
  slot < n ∧ heap.read slot = some m ∧ ∀ j, j < n → slotKey node heap slot ≤ slotKey node heap j

theorem otherDeleteMin_correct (k : Nat) (hist : List Config.PqEvent) (h : Keyed node (n + 1) heap) :
    ∃ m heap' slot, otherDeleteMin k hist node heap (n + 1) = .ok (m, heap') ∧
      LightestIn node heap (n + 1) slot m := by
  obtain ⟨ws, hws, hkeys, hslots⟩ := queuedWeights_keyed h
  have hne : ws ≠ [] := by
    obtain ⟨w, hw⟩ := hslots 0 (Nat.succ_pos n)
    exact List.ne_nil_of_mem hw
  have hmem := getD_mod_length_mem (lightest_ne_nil hne) (Config.tieChoice k hist)
  obtain ⟨w, hw, hleast⟩ := mem_lightest.1 hmem
  have hslot := queuedWeights_slot_lt hws _ hw
  obtain ⟨m, hm, -⟩ := h _ hslot
  obtain ⟨last, hlast, hlastKey⟩ := h n (Nat.lt_succ_self n)
  obtain ⟨heap', hr⟩ := rearrange_of_filled k (hist ++ [.deletedMin])
    ((h.write (p := (lightest ws).getD (Config.tieChoice k hist % (lightest ws).length) 0) hlastKey).mono
      (Nat.le_succ n)).filled
  refine ⟨m, heap', _, except_bind_ok.2 ⟨ws, hws, except_bind_ok.2 ⟨m, readEntry_ok.2 hm,
    except_bind_ok.2 ⟨last, readEntry_ok.2 hlast, except_bind_ok.2 ⟨heap', hr, rfl⟩⟩⟩⟩, hslot, hm, fun j hj => ?_⟩
  obtain ⟨v, hv⟩ := hslots j hj
  rw [← hkeys _ hw, ← hkeys _ hv]
  exact hleast _ hv

/-- A delete under `TIE_REF` takes the item in slot 0, and the last one sinks from there (R168, R169). -/
theorem refDeleteMin_correct (h : Keyed node (n + 1) heap) :
    ∃ m last heap', refDeleteMin node heap (n + 1) = .ok (m, heap') ∧ heap.read 0 = some m ∧ heap.read n = some last ∧
      Moved (lighterChildSlot node heap n) (Sinks node heap n (idWeight node last)) last heap 0 heap heap' ∧
      (HeapKeys (n + 1) (slotKey node heap) → HeapKeys n (slotKey node heap')) := by
  obtain ⟨m, hm, -⟩ := h 0 (Nat.succ_pos n)
  obtain ⟨last, hlast, hlastKey⟩ := h n (Nat.lt_succ_self n)
  rcases Nat.eq_zero_or_pos n with rfl | hn
  · refine ⟨m, last, heap, except_bind_ok.2 ⟨m, readEntry_ok.2 hm, rfl⟩, hm, hlast, .stays hlast ?_, ?_⟩
    · exact fun hsinks => absurd hsinks.1 (Nat.not_lt_zero _)
    · exact fun _ j _ hj => absurd hj (Nat.not_lt_zero j)
  · obtain ⟨heap', hr, hmoved, hordered⟩ := siftDown_correct ((h.write hlastKey).mono (Nat.le_succ n)) hn le_rfl
      (heap.read_write_same 0 last) fun j hj => heap.read_write_other last hj.ne'
    refine ⟨m, last, heap', except_bind_ok.2 ⟨m, readEntry_ok.2 hm, ?_⟩, hm, hlast, hmoved.of_write,
      fun ho => hordered (ho.sinkKeys_write last)⟩
    rw [if_neg (by omega)]
    exact except_bind_ok.2 ⟨last, readEntry_ok.2 hlast, except_bind_ok.2 ⟨heap', hr, rfl⟩⟩

theorem descent_eq_iterate (i : Nat) : descent s n i = (lighterChild s n)^[i] 0 := by
  induction i with
  | zero => rfl
  | succ i ih => rw [Function.iterate_succ_apply', ← ih]; rfl

theorem lighterChild_eq (h : Keyed s.tab.node n s.tab.heap) :
    lighterChild s n = lighterChildSlot s.tab.node s.tab.heap n := by
  funext p
  refine if_congr (and_congr_right fun hright => ?_) rfl rfl
  exact lighter_iff (h.weightInSlot_isSome hright) (h.weightInSlot_isSome (by omega))

theorem sinks_iff {p : Nat} {last : NodeId} (h : Keyed s.tab.node n s.tab.heap)
    (hlast : (weightOf s.tab.node last).isSome = true) :
    Sinks s.tab.node s.tab.heap n (idWeight s.tab.node last) p ↔ lighterChild s n p < n ∧
      lighter (weightInSlot s (lighterChild s n p)) (weightOf s.tab.node last) = true := by
  rw [lighterChild_eq h]
  exact and_congr_right fun hc => (lighter_iff (h.weightInSlot_isSome hc) hlast).symm

/-- The sink in the words of R168. -/
theorem sankFrom_of_moved {last : NodeId} (h : Keyed s.tab.node (n + 1) s.tab.heap) (hs : s.ctr.hsize.toNat = n + 1)
    (hlast : s.tab.heap.read n = some last)
    (hmoved : Moved (lighterChildSlot s.tab.node s.tab.heap n)
      (Sinks s.tab.node s.tab.heap n (idWeight s.tab.node last)) last s.tab.heap 0 s.tab.heap t.tab.heap) :
    SankFrom s t := by
  have hn : s.ctr.hsize.toNat - 1 = n := by omega
  have hbelow := h.mono (Nat.le_succ n)
  have hweight := h.isSome_of_read (Nat.lt_succ_self n) hlast
  obtain ⟨d, hpath, hend, hstop, hrest⟩ := hmoved
  rw [← lighterChild_eq hbelow] at hpath hend hstop hrest
  simp only [sinks_iff hbelow hweight, Function.iterate_succ_apply'] at hpath hstop
  simp only [SankFrom, hn, descent_eq_iterate, Function.iterate_succ_apply']
  refine ⟨last, d, hlast, fun i hi => and_assoc.1 (hpath i hi), hend, ?_, hrest⟩
  exact fun hlt => Bool.eq_false_of_not_eq_true fun hl => hstop ⟨hlt, hl⟩

theorem descent_setReg (s : State) (x : Regs) (n i : Nat) : descent (s.setReg x) n i = descent s n i := by
  induction i with
  | zero => rfl
  | succ i ih => rw [descent, ih]; rfl

/-- The sink has to do with no host register. -/
theorem SankFrom.of_setReg {x : Regs} (h : SankFrom (s.setReg x) t) (y : Regs) : SankFrom s (t.setReg y) := by
  simp only [SankFrom, descent_setReg] at h ⊢
  exact h

/-- `PqDeleteMin()` completes within the contract and returns the item of a slot that no other is lighter than; under
`TIE_REF` it is slot 0, the last item sinks from there (R168), and heap order stays (R169). -/
theorem pqPop_completes (h : QueueOk s) (hs : s.ctr.hsize.toNat = n + 1) :
    ∃ m t slot, pqPop s = .ok (m, t) ∧ LightestIn s.tab.node s.tab.heap (n + 1) slot m ∧
      (s.par.tie = .ref → slot = 0 ∧ SankFrom s t ∧ HeapKeys n (slotKey s.tab.node t.tab.heap)) := by
  obtain ⟨-, hread, hintact, hordered⟩ := h
  have hkeyed := queueReadable_iff.1 hread
  rw [hs] at hkeyed
  unfold pqPop
  rw [if_pos hintact, hs]
  cases htie : s.par.tie with
  | ref =>
    obtain ⟨m, last, heap, hr, hm, hlast, hmoved, hkeys⟩ := refDeleteMin_correct hkeyed
    have ho := (heapOrdered_iff hread).1 (hordered htie)
    rw [hs] at ho
    exact ⟨m, _, 0, except_bind_ok.2 ⟨(m, heap), hr, rfl⟩, ⟨Nat.succ_pos n, hm, fun j hj => ho.root_le hj⟩,
      fun _ => ⟨rfl, sankFrom_of_moved hkeyed hs hlast hmoved, hkeys ho⟩⟩
  | other k =>
    obtain ⟨m, heap, slot, hr, hleast⟩ := otherDeleteMin_correct k s.pq.hist hkeyed
    exact ⟨m, _, slot, except_bind_ok.2 ⟨(m, heap), hr, rfl⟩, hleast, fun h => nomatch h⟩

/-- `PqDeleteMin()` keeps a queue within its contract (R160, R169). -/
theorem QueueOk.pqPop {m : NodeId} (h : QueueOk s) (hs : s.ctr.hsize.toNat = n + 1) (ht : pqPop s = .ok (m, t))
    (hord : s.par.tie = .ref → HeapKeys n (slotKey s.tab.node t.tab.heap)) : QueueOk t := by
  have ⟨hcap, hread, _, _⟩ := h
  rw [hs] at hcap
  obtain ⟨hlen, hids⟩ := queueReadable_iff_queuedIds.1 hread
  obtain ⟨-, -, -, -, hsize, hperm⟩ := pqPop_queue ht hs hcap
  obtain ⟨-, heap, rfl⟩ := pqPop_ok ht
  refine h.of_queuedIds rfl rfl rfl (hsize.trans_le (Nat.le_of_succ_le hcap)) ?_
    (fun i hi => hids i (hperm.mem_iff.1 (List.mem_cons_of_mem m hi))) (hsize.symm ▸ hord)
  have := hperm.length_eq
  rw [List.length_cons, hlen, hs] at this
  rw [hsize]
  exact Nat.succ.inj this

/-- A lightest slot holds an id no queued id is lighter than (R160). -/
theorem LightestIn.weight_le {slot : Nat} (hslot : LightestIn s.tab.node s.tab.heap s.ctr.hsize.toNat slot m)
    (h : queueReadable s = true) :
    ∃ w, weightOf s.tab.node m = some w ∧
      ∀ j ∈ queuedIds s, ∀ v, weightOf s.tab.node j = some v → w ≤ v := by
  obtain ⟨hlt, hm, hleast⟩ := hslot
  obtain ⟨_, w, hread, hw, hkey⟩ := (queueReadable_iff.1 h).slot hlt
  obtain rfl := Option.some.inj (hm.symm.trans hread)
  refine ⟨w, hw, fun j hj v hv => ?_⟩
  obtain ⟨i, hi, hj⟩ := List.mem_filterMap.1 hj
  have hle := hleast i (List.mem_range.1 hi)
  rwa [hkey, slotKey_of_read hj, idWeight, hv] at hle

theorem pqdelminBody_pops (h : s.ctr.hsize.toNat ≠ 0) (hr : pqPop s = .ok (m, t)) :
    pqdelminBody s = .ok () (t.setResult (m.setWidth 32)) := by
  rw [pqdelminBody, if_neg fun h0 => h (congrArg BitVec.toNat h0), hr]
  rfl

/-- Settles O22: within the contract the delete completes, keeps it, and takes a lightest id out of the multiset of
queued ids. -/
theorem pqdelminReturnsALightest : Obligations.PqdelminReturnsALightest := by
  intro s herr hok hne
  obtain ⟨n, hs : s.ctr.hsize.toNat = n + 1⟩ := Nat.exists_eq_succ_of_ne_zero hne
  have ⟨hcap, hread, _, _⟩ := hok
  rw [hs] at hcap
  obtain ⟨m, t, slot, ht, hleast, href⟩ := pqPop_completes (s := clearResultFlags s) hok hs
  have hok' := QueueOk.pqPop (s := clearResultFlags s) hok hs ht fun htie => (href htie).2.2
  obtain ⟨w, hw, hmin⟩ := LightestIn.weight_le (s := s) (hs ▸ hleast) hread
  have hrun : exec .pqdelmin s = .next (t.setResult (m.setWidth 32)) :=
    issue_ok herr (pqdelminBody_pops (s := clearResultFlags s) hne ht)
  obtain ⟨-, -, -, -, -, hperm⟩ := pqPop_queue ht hs hcap
  obtain ⟨-, heap, rfl⟩ := pqPop_ok ht
  refine ⟨_, m, w, hrun, rfl, hperm.symm, hw, hmin, fun htie => ?_, rfl, hok', rfl⟩
  obtain ⟨rfl, hsank, -⟩ := href htie
  exact ⟨hleast.2.1, hsank.of_setReg _⟩

end Sys2Proof.Machine
end

section
/-! PROOFS. Trees of symbols by themselves (R26, R101, R182, R191): the leaves, weight and cost of a tree, its paths, and
the merging of a forest two lightest trees at a time, which gives a tree that no codes apart from each other beat. -/

namespace Sys2Proof.Machine

variable {f : Byte → Nat}

/-! ### Leaves, weight and cost -/

/-- The symbols at the leaves, left subtree first. -/
def HTree.leaves : HTree → List Byte
  | .leaf sym => [sym]
  | .node l r => l.leaves ++ r.leaves

/-- What the symbols at the leaves weigh together. -/
def HTree.weight (f : Byte → Nat) (x : HTree) : Nat := (x.leaves.map f).sum

/-- What the internal nodes weigh together: the weighted length of the paths. -/
def HTree.cost (f : Byte → Nat) : HTree → Nat
  | .leaf _ => 0
  | .node l r => (HTree.node l r).weight f + l.cost f + r.cost f

@[simp] theorem HTree.weight_leaf (f : Byte → Nat) (sym : Byte) : (HTree.leaf sym).weight f = f sym := by
  simp [HTree.weight, HTree.leaves]

@[simp] theorem HTree.weight_node (f : Byte → Nat) (l r : HTree) :
    (HTree.node l r).weight f = l.weight f + r.weight f := by
  simp [HTree.weight, HTree.leaves]

/-- A tree has more leaves than levels of edges. -/
theorem HTree.depth_lt_length_leaves (x : HTree) : x.depth < x.leaves.length := by
  induction x with
  | leaf sym => exact Nat.one_pos
  | node l r ihl ihr =>
    simp only [HTree.depth, HTree.leaves, List.length_append]
    omega

/-! ### Paths -/

theorem HTree.paths_map_fst (x : HTree) (path : Code) : (x.paths path).map (·.1) = x.leaves := by
  induction x generalizing path with
  | leaf sym => rfl
  | node l r ihl ihr => simp [HTree.paths, HTree.leaves, ihl, ihr]

/-- A path continues the one it starts with. -/
theorem HTree.prefix_of_mem_paths {x : HTree} {path : Code} {e : Byte × Code} (he : e ∈ x.paths path) :
    path <+: e.2 := by
  induction x generalizing path with
  | leaf sym => rw [List.mem_singleton.1 he]
  | node l r ihl ihr =>
    rcases List.mem_append.1 he with he | he
    · exact (List.prefix_append path [false]).trans (ihl he)
    · exact (List.prefix_append path [true]).trans (ihr he)

/-- A path goes down no more edges than the tree has levels. -/
theorem HTree.length_le_of_mem_paths {x : HTree} {path : Code} {e : Byte × Code} (he : e ∈ x.paths path) :
    e.2.length ≤ path.length + x.depth := by
  induction x generalizing path with
  | leaf sym => rw [List.mem_singleton.1 he, HTree.depth, Nat.add_zero]
  | node l r ihl ihr =>
    simp only [HTree.depth]
    rcases List.mem_append.1 he with he | he
    · have := ihl he; rw [List.length_append, List.length_singleton] at this; omega
    · have := ihr he; rw [List.length_append, List.length_singleton] at this; omega

/-- Below an internal node a path has an edge more. -/
theorem HTree.ne_nil_of_mem_paths_node {l r : HTree} {e : Byte × Code} (he : e ∈ (HTree.node l r).paths []) :
    e.2 ≠ [] := by
  rintro hnil
  rcases List.mem_append.1 he with he | he <;> simpa [hnil] using HTree.prefix_of_mem_paths he

/-- A path to the left and one to the right part at the node. -/
theorem not_prefix_of_parted {path c d : Code} {b : Bool} (hc : path ++ [b] <+: c) (hd : path ++ [!b] <+: d) :
    ¬c <+: d := by
  intro hcd
  obtain ⟨c', rfl⟩ := hc
  have hboth := List.prefix_of_prefix_length_le ((List.prefix_append _ c').trans hcd) hd (by simp)
  simpa using hboth.eq_of_length (by simp)

/-- Neither of two codes begins the other. -/
def Apart (d e : Byte × Code) : Prop := ¬d.2 <+: e.2 ∧ ¬e.2 <+: d.2

/-- No path of a tree begins another (R191). -/
theorem HTree.paths_apart (x : HTree) (path : Code) : (x.paths path).Pairwise Apart := by
  induction x generalizing path with
  | leaf sym => exact List.pairwise_singleton _ _
  | node l r ihl ihr =>
    refine List.pairwise_append.2 ⟨ihl _, ihr _, fun d hd e he => ?_⟩
    have hd := HTree.prefix_of_mem_paths hd
    have he := HTree.prefix_of_mem_paths he
    exact ⟨not_prefix_of_parted (b := false) hd he, not_prefix_of_parted (b := true) he hd⟩

/-- The weighted length of the paths: the part above the tree, and the cost of the tree. -/
theorem HTree.sum_paths (f : Byte → Nat) (x : HTree) (path : Code) :
    ((x.paths path).map fun e => f e.1 * e.2.length).sum = x.weight f * path.length + x.cost f := by
  induction x generalizing path with
  | leaf sym => simp [HTree.paths, HTree.cost]
  | node l r ihl ihr =>
    simp only [HTree.paths, HTree.cost, List.map_append, List.sum_append, ihl, ihr, List.length_append,
      List.length_singleton, HTree.weight_node]
    ring

/-! ### Code lengths -/

/-- The part of all bit strings that codes of these lengths begin. -/
noncomputable def kraftSum (lengths : List Nat) : ℝ := (lengths.map fun n => (1 / 2 : ℝ) ^ n).sum

theorem kraftSum_cons (n : Nat) (lengths : List Nat) :
    kraftSum (n :: lengths) = (1 / 2 : ℝ) ^ n + kraftSum lengths := by simp [kraftSum]

theorem kraftSum_perm {lengths lengths' : List Nat} (h : lengths.Perm lengths') :
    kraftSum lengths = kraftSum lengths' := (h.map _).sum_eq

theorem kraftSum_nonneg (lengths : List Nat) : 0 ≤ kraftSum lengths :=
  List.sum_nonneg fun x hx => by
    obtain ⟨n, -, rfl⟩ := List.mem_map.1 hx
    positivity

/-- With no length above `n` the sum is a whole number of parts of size 1 in 2^`n`. -/
theorem exists_kraftSum_mul {lengths : List Nat} {n : Nat} (h : ∀ m ∈ lengths, m ≤ n) :
    ∃ parts : Nat, kraftSum lengths * 2 ^ n = parts := by
  induction lengths with
  | nil => exact ⟨0, by simp [kraftSum]⟩
  | cons m lengths ih =>
    obtain ⟨parts, hparts⟩ := ih fun k hk => h k (List.mem_cons_of_mem m hk)
    obtain ⟨d, rfl⟩ := Nat.exists_eq_add_of_le (h m List.mem_cons_self)
    refine ⟨2 ^ d + parts, ?_⟩
    rw [kraftSum_cons, add_mul, hparts, pow_add]
    push_cast
    rw [← mul_assoc, ← mul_pow]
    norm_num

/-- Two codes of the greatest lengths leave room for one code a bit shorter than the shorter of them. -/
theorem kraftSum_merge {la lb : Nat} {lengths : List Nat} (hb : ∀ m ∈ lengths, m ≤ lb)
    (h : kraftSum (la :: lb :: lengths) ≤ 1) : ∃ n, lb = n + 1 ∧ kraftSum (n :: lengths) ≤ 1 := by
  have hpos : (0 : ℝ) < (1 / 2) ^ la := by positivity
  have hlt : kraftSum (lb :: lengths) < 1 := by rw [kraftSum_cons] at h; linarith
  cases lb with
  | zero =>
    rw [kraftSum_cons, pow_zero] at hlt
    linarith [kraftSum_nonneg lengths]
  | succ n =>
    obtain ⟨parts, hparts⟩ := exists_kraftSum_mul (List.forall_mem_cons.2 ⟨le_rfl, hb⟩)
    have hpow : (0 : ℝ) < 2 ^ (n + 1) := by positivity
    have hfew : parts + 1 ≤ 2 ^ (n + 1) := by
      have : (parts : ℝ) < 2 ^ (n + 1) := by rw [← hparts]; nlinarith
      exact_mod_cast this
    have hroom : kraftSum ((n + 1) :: lengths) + (1 / 2) ^ (n + 1) ≤ 1 := by
      rw [← mul_le_mul_iff_left₀ hpow, add_mul, hparts, ← mul_pow, one_mul]
      norm_num
      exact_mod_cast hfew
    refine ⟨n, rfl, ?_⟩
    rw [kraftSum_cons] at hroom ⊢
    rw [pow_succ] at hroom
    linarith

/-! ### Merging a forest -/

/-- A forest becomes one tree when again and again a lightest tree and then a lightest of the others are made the left
and the right subtree of a new one (R182). -/
inductive Merges (f : Byte → Nat) : List HTree → HTree → Prop
  | single (x : HTree) : Merges f [x] x
  | merge {xs rest : List HTree} {a b x : HTree} (perm : xs.Perm (a :: b :: rest))
      (left : ∀ y ∈ b :: rest, a.weight f ≤ y.weight f) (right : ∀ y ∈ rest, b.weight f ≤ y.weight f)
      (merged : Merges f (.node a b :: rest) x) : Merges f xs x

/-- The tree has the leaves of the forest. -/
theorem Merges.leaves_perm {xs : List HTree} {x : HTree} (h : Merges f xs x) :
    x.leaves.Perm (xs.flatMap HTree.leaves) := by
  induction h with
  | single x => rw [List.flatMap_singleton]
  | merge perm _ _ _ ih =>
    refine ih.trans ((List.Perm.of_eq ?_).trans (perm.symm.flatMap_right _))
    simp [HTree.leaves]

/-- What a forest costs when its trees get codes of the lengths given. -/
def forestCost (f : Byte → Nat) (ps : List (HTree × Nat)) : Nat :=
  (ps.map fun p => p.1.cost f + p.1.weight f * p.2).sum

theorem forestCost_cons (p : HTree × Nat) (ps : List (HTree × Nat)) :
    forestCost f (p :: ps) = p.1.cost f + p.1.weight f * p.2 + forestCost f ps := by simp [forestCost]

theorem forestCost_perm {ps qs : List (HTree × Nat)} (h : ps.Perm qs) : forestCost f ps = forestCost f qs :=
  (h.map _).sum_eq

/-- Lengths can be exchanged so that a lightest tree has a greatest one, at no cost. -/
theorem exists_longest_first (a : HTree) (la : Nat) {qs : List (HTree × Nat)}
    (h : ∀ q ∈ qs, a.weight f ≤ q.1.weight f) :
    ∃ l qs', qs'.map (·.1) = qs.map (·.1) ∧ (l :: qs'.map (·.2)).Perm (la :: qs.map (·.2)) ∧
      (∀ n ∈ qs'.map (·.2), n ≤ l) ∧ forestCost f ((a, l) :: qs') ≤ forestCost f ((a, la) :: qs) := by
  induction qs with
  | nil => exact ⟨la, [], rfl, .rfl, by simp, le_rfl⟩
  | cons q qs ih =>
    obtain ⟨l, qs', hfst, hsnd, hle, hcost⟩ := ih fun q hq => h q (List.mem_cons_of_mem _ hq)
    simp only [forestCost_cons] at hcost ⊢
    rcases le_total q.2 l with hql | hlq
    · refine ⟨l, q :: qs', congrArg (q.1 :: ·) hfst, ?_, List.forall_mem_cons.2 ⟨hql, hle⟩, ?_⟩
      · exact (List.Perm.swap ..).trans ((hsnd.cons q.2).trans (List.Perm.swap ..))
      · rw [forestCost_cons]
        omega
    · refine ⟨q.2, (q.1, l) :: qs', congrArg (q.1 :: ·) hfst, ?_, List.forall_mem_cons.2 ⟨hlq, fun n hn =>
        (hle n hn).trans hlq⟩, ?_⟩
      · exact (hsnd.cons q.2).trans (List.Perm.swap ..)
      · have := mul_add_mul_le_mul_add_mul (h q List.mem_cons_self) hlq
        rw [forestCost_cons]
        dsimp only
        omega

/-- What the images of a list's items are in some order, they are of the items in some order. -/
theorem exists_map_eq_of_perm {α β : Type} {g : α → β} {l : List α} {ys : List β} (h : (l.map g).Perm ys) :
    ∃ l' : List α, l'.map g = ys ∧ l'.Perm l := by
  have hcomp := (congrFun₂ (List.eq_map_comp_perm g) ys l).mpr h.symm
  obtain ⟨l', hmap, hperm⟩ := hcomp
  exact ⟨l', hmap.symm, hperm⟩

/-- The tree merging gives costs no more than the forest does under any lengths that leave room (R191). -/
theorem Merges.cost_le {xs : List HTree} {x : HTree} (h : Merges f xs x) {ps : List (HTree × Nat)}
    (hps : (ps.map (·.1)).Perm xs) (hroom : kraftSum (ps.map (·.2)) ≤ 1) : x.cost f ≤ forestCost f ps := by
  induction h generalizing ps with
  | single x =>
    obtain ⟨p, rfl, rfl⟩ := List.map_eq_singleton_iff.1 (List.perm_singleton.1 hps)
    rw [forestCost_cons]
    omega
  | @merge xs rest a b x perm left right _ ih =>
    obtain ⟨ps₁, hmap₁, hperm₁⟩ := exists_map_eq_of_perm (hps.trans perm)
    obtain ⟨⟨a, la⟩, ps₁, rfl, rfl, hfst₁⟩ := List.map_eq_cons_iff.1 hmap₁
    rw [← kraftSum_perm (hperm₁.map _)] at hroom
    rw [← forestCost_perm hperm₁]
    obtain ⟨l, ps₂, hmap₂, hlen₂, hle₂, hcost₂⟩ := exists_longest_first (f := f) a la (qs := ps₁) fun q hq =>
      left _ (hfst₁ ▸ List.mem_map_of_mem hq)
    obtain ⟨⟨b, lb⟩, ps₂, rfl, rfl, hfst₂⟩ := List.map_eq_cons_iff.1 (hmap₂.trans hfst₁)
    rw [List.map_cons, ← kraftSum_perm hlen₂] at hroom
    obtain ⟨m, ps₃, hmap₃, hlen₃, hle₃, hcost₃⟩ := exists_longest_first (f := f) b lb (qs := ps₂) fun q hq =>
      right _ (hfst₂ ▸ List.mem_map_of_mem hq)
    rw [List.map_cons, ← kraftSum_perm (hlen₃.cons l)] at hroom
    have hml : m ≤ l := hle₂ m (hlen₃.mem_iff.1 List.mem_cons_self)
    obtain ⟨n, rfl, hroom'⟩ := kraftSum_merge hle₃ hroom
    have hmerged := ih (ps := (.node a b, n) :: ps₃) (.of_eq (by rw [List.map_cons, hmap₃, hfst₂])) hroom'
    have hshort := Nat.mul_le_mul_left (a.weight f) hml
    simp only [forestCost_cons, HTree.cost, HTree.weight_node] at hmerged hcost₂ hcost₃ ⊢
    rw [Nat.add_mul] at hmerged
    rw [Nat.mul_succ] at hshort hcost₃
    omega

end Sys2Proof.Machine
end

section
/-! PROOFS. `BUILDTREE` (R180 to R184), under every tie-break: the records made so far and the trees queued are followed
from the first leaf to the last merge. -/

namespace Sys2Proof.Machine

variable {s₀ s t : State} {pairs : List (Nat × Count)} {f : Byte → Nat} {m : Nat} {node node' : Memory Node}

/-! ### Records that stay -/

/-- The records below `m` are the same. -/
def SameRecords (m : Nat) (node node' : Memory Node) : Prop := ∀ i, i < m → node'.read i = node.read i

theorem SameRecords.write (node : Memory Node) (m : Nat) (n : Node) : SameRecords m node (node.write m n) :=
  fun _ hi => node.read_write_other n hi.ne

theorem SameRecords.readNode (h : SameRecords m node node') {id : NodeId} (hid : id.toNat < m) :
    readNode node' id = readNode node id := by
  unfold Machine.readNode readEntry
  rw [h _ hid]

theorem SameRecords.weightOf (h : SameRecords m node node') {id : NodeId} (hid : id.toNat < m) :
    weightOf node' id = weightOf node id := by
  unfold Machine.weightOf
  rw [h _ hid]

theorem toNat_nodeId {m : Nat} (hm : m < Config.nodeCap) : (BitVec.ofNat 9 m).toNat = m := by
  unfold Config.nodeCap at hm
  rw [BitVec.toNat_ofNat]
  omega

/-- The record just written for an id is that of the id. -/
theorem readNode_write_same (node : Memory Node) (n : Node) (hm : m < Config.nodeCap) :
    readNode (node.write m n) (BitVec.ofNat 9 m) = .ok n := by
  have hid := toNat_nodeId hm
  refine readNode_ok.2 ⟨fun hnone => ?_, by rw [hid, Memory.read_write_same]⟩
  unfold Config.nodeCap at hm
  rw [hnone, NONE, BitVec.toNat_ofNat] at hid
  omega

/-- The weight of an id is that of its record. -/
theorem weightOf_eq_some {id : NodeId} {w : Weight} :
    weightOf node id = some w ↔ ∃ n, readNode node id = .ok n ∧ n.weight = w := by
  rw [← nodeWeight_ok, nodeWeight, except_bind_ok]
  exact exists_congr fun n => and_congr_right fun _ => except_pure_ok

theorem treeAt_leaf {sym : Byte} {id : NodeId} :
    treeAt node (.leaf sym) id = true ↔ ∃ n, readNode node id = .ok n ∧ n.kind = .leaf ∧ n.symbol = sym :=
  linksAt_leaf

theorem treeAt_node {l r : HTree} {id : NodeId} :
    treeAt node (.node l r) id = true ↔ ∃ n, readNode node id = .ok n ∧ n.kind = .internal ∧
      treeAt node l n.left = true ∧ treeAt node r n.right = true := by
  rw [← linksAt_toLinks, HTree.toLinks, linksAt_node]
  simp only [linksAt_toLinks]

/-- The record of an internal node as a merge makes it (R182 to R184). -/
def InternalRecord (node : Memory Node) (i : Nat) : Prop :=
  ∃ n a b, node.read i = some n ∧ n.kind = .internal ∧ n.symbol = 0#8 ∧ n.left.toNat < i ∧ n.right.toNat < i ∧
    node.read n.left.toNat = some a ∧ node.read n.right.toNat = some b ∧
    a.weight ≤ b.weight ∧ n.weight.toNat = a.weight.toNat + b.weight.toNat

/-- The records below `m`: the leaves of the symbols present, in their order, and then internal nodes (R180). -/
structure Records (pairs : List (Nat × Count)) (m : Nat) (node : Memory Node) : Prop where
  leaf : ∀ i, i < pairs.length → i < m → ∃ e ∈ pairs[i]?, node.read i = some (leafOf e)
  internal : ∀ i, pairs.length ≤ i → i < m → InternalRecord node i

theorem Records.congr (h : Records pairs m node) (hsame : SameRecords m node node') : Records pairs m node' where
  leaf i hi hm := by
    rw [hsame i hm]
    exact h.leaf i hi hm
  internal i hi hm := by
    obtain ⟨n, a, b, hn, hk, hs, hl, hr, ha, hb, hw⟩ := h.internal i hi hm
    refine ⟨n, a, b, ?_, hk, hs, hl, hr, ?_, ?_, hw⟩ <;> rwa [hsame _ (by omega)]

/-- One more record, that of the next symbol present or of a merge. -/
theorem Records.write {n : Node} (h : Records pairs m node)
    (hleaf : m < pairs.length → ∃ e ∈ pairs[m]?, n = leafOf e)
    (hinternal : pairs.length ≤ m → InternalRecord (node.write m n) m) : Records pairs (m + 1) (node.write m n) := by
  have hold := h.congr (.write node m n)
  refine ⟨fun i hi hm => ?_, fun i hi hm => ?_⟩ <;> rcases Nat.lt_succ_iff_lt_or_eq.1 hm with hm | rfl
  · exact hold.leaf i hi hm
  · obtain ⟨e, he, rfl⟩ := hleaf hi
    exact ⟨e, he, node.read_write_same _ _⟩
  · exact hold.internal i hi hm
  · exact hinternal hi

/-- The record a merge makes of two earlier ones (R183). -/
theorem internalRecord_write {a b : NodeId} {ra rb : Node} (hra : readNode node a = .ok ra)
    (hrb : readNode node b = .ok rb) (ha : a.toNat < m) (hb : b.toNat < m) (hle : ra.weight.toNat ≤ rb.weight.toNat)
    (hadd : (ra.weight + rb.weight).toNat = ra.weight.toNat + rb.weight.toNat) :
    InternalRecord (node.write m (internalOf ra.weight rb.weight a b)) m :=
  ⟨_, ra, rb, node.read_write_same _ _, rfl, rfl, ha, hb, (SameRecords.write node m _ _ ha).trans (readNode_ok.1 hra).2,
    (SameRecords.write node m _ _ hb).trans (readNode_ok.1 hrb).2, hle, hadd⟩

/-- An internal node has lower children. -/
theorem Records.child_lt {id : NodeId} {n : Node} (h : Records pairs m node) (hid : id.toNat < m)
    (hn : readNode node id = .ok n) (hk : n.kind = .internal) : n.left.toNat < id.toNat ∧ n.right.toNat < id.toNat := by
  have hread := (readNode_ok.1 hn).2
  rcases Nat.lt_or_ge id.toNat pairs.length with hi | hi
  · obtain ⟨e, -, he⟩ := h.leaf _ hi hid
    rw [Option.some.inj (hread.symm.trans he)] at hk
    exact absurd hk (by simp [leafOf])
  · obtain ⟨n', -, -, hn', -, -, hl, hr, -⟩ := h.internal _ hi hid
    rw [Option.some.inj (hread.symm.trans hn')]
    exact ⟨hl, hr⟩

/-- Records that stay keep the trees made of them. -/
theorem Records.treeAt_congr {x : HTree} {id : NodeId} (h : Records pairs m node) (hsame : SameRecords m node node')
    (hid : id.toNat < m) (hx : treeAt node x id = true) : treeAt node' x id = true := by
  induction x generalizing id with
  | leaf sym =>
    rw [treeAt_leaf] at hx ⊢
    rwa [hsame.readNode hid]
  | node l r ihl ihr =>
    obtain ⟨n, hn, hk, hl, hr⟩ := treeAt_node.1 hx
    obtain ⟨hleft, hright⟩ := h.child_lt hid hn hk
    exact treeAt_node.2 ⟨n, (hsame.readNode hid).trans hn, hk, ihl (hleft.trans hid) hl, ihr (hright.trans hid) hr⟩

/-! ### The queue beside a new record -/

/-- A record written for an id that is not queued keeps the queue within its contract. -/
theorem QueueOk.writeNode {i : Nat} (n : Node) (h : QueueOk s) (hids : ∀ id ∈ queuedIds s, id.toNat < i) :
    QueueOk (s.setTab { s.tab with node := s.tab.node.write i n }) := by
  obtain ⟨hcap, hread, hintact, hordered⟩ := h
  have hweight : ∀ id ∈ queuedIds s, weightOf (s.tab.node.write i n) id = weightOf s.tab.node id :=
    fun id hid => (SameRecords.write s.tab.node i n).weightOf (hids id hid)
  have hread' : queueReadable (s.setTab { s.tab with node := s.tab.node.write i n }) = true := by
    obtain ⟨hlen, hsome⟩ := queueReadable_iff_queuedIds.1 hread
    refine queueReadable_iff_queuedIds.2 ⟨hlen, fun id hid => ?_⟩
    exact (congrArg Option.isSome (hweight id hid)).trans (hsome id hid)
  have hkey : ∀ j, j < s.ctr.hsize.toNat →
      slotKey (s.tab.node.write i n) s.tab.heap j = slotKey s.tab.node s.tab.heap j := by
    intro j hj
    obtain ⟨id, -, hid, -⟩ := (queueReadable_iff.1 hread).slot hj
    have hmem : id ∈ queuedIds s := List.mem_filterMap.2 ⟨j, List.mem_range.2 hj, hid⟩
    rw [slotKey_of_read hid, slotKey_of_read hid, idWeight, hweight id hmem, idWeight]
  refine ⟨hcap, hread', hintact, fun htie => (heapOrdered_iff hread').2 fun j h0 hj => ?_⟩
  have hle := (heapOrdered_iff hread).1 (hordered htie) j h0 hj
  rwa [← hkey j hj, ← hkey _ ((parentSlot_lt h0.ne').trans hj)] at hle

/-- Nothing queued is lighter than what a lightest slot holds. -/
theorem LightestIn.idWeight_le {slot : Nat} {id : NodeId}
    (h : LightestIn s.tab.node s.tab.heap s.ctr.hsize.toNat slot id) :
    ∀ j ∈ queuedIds s, idWeight s.tab.node id ≤ idWeight s.tab.node j := by
  intro j hj
  obtain ⟨-, hid, hleast⟩ := h
  obtain ⟨i, hi, hj⟩ := List.mem_filterMap.1 hj
  rw [← slotKey_of_read hid, ← slotKey_of_read hj]
  exact hleast i (List.mem_range.1 hi)

/-! ### What `BUILDTREE` leaves alone -/

/-- The registers and tables that `BUILDTREE` does not write, but for `RESULT` at its end (R180). -/
structure BuildFrame (s₀ s : State) : Prop where
  rd : s.rd = s₀.rd
  wr : s.wr = s₀.wr
  par : s.par = s₀.par
  env : s.env = s₀.env
  freq : s.tab.freq = s₀.tab.freq
  code : s.tab.code = s₀.tab.code
  inbuf : s.tab.inbuf = s₀.tab.inbuf
  inlen : s.ctr.inlen = s₀.ctr.inlen
  osize : s.ctr.osize = s₀.ctr.osize
  nsym : s.ctr.nsym = s₀.ctr.nsym
  decoded : s.ctr.decoded = s₀.ctr.decoded
  cur : s.ctr.cur = s₀.ctr.cur

theorem BuildFrame.tab (h : BuildFrame s₀ s) :
    s.tab = { s₀.tab with node := s.tab.node, heap := s.tab.heap } := by
  dsimp only
  rw [← h.freq, ← h.code, ← h.inbuf]

theorem BuildFrame.ctr (h : BuildFrame s₀ s) :
    s.ctr = { s₀.ctr with nnodes := s.ctr.nnodes, root := s.ctr.root, hsize := s.ctr.hsize } := by
  dsimp only
  rw [← h.inlen, ← h.osize, ← h.nsym, ← h.decoded, ← h.cur]

/-! ### The invariant -/

/-- Inside a `BUILDTREE` begun in `s₀`: `m` records have been made, and the ids queued are those of the trees listed,
each weighing what its leaves weigh by the counts `f`. -/
structure Growing (s₀ : State) (pairs : List (Nat × Count)) (f : Byte → Nat) (m : Nat) (trees : List (NodeId × HTree))
    (s : State) : Prop where
  queue : QueueOk s
  nnodes : s.ctr.nnodes.toNat = m
  ids : (queuedIds s).Perm (trees.map (·.1))
  records : Records pairs m s.tab.node
  made : ∀ e ∈ trees, e.1.toNat < m
  shapes : ∀ e ∈ trees, treeAt s.tab.node e.2 e.1 = true
  weights : ∀ e ∈ trees, ∃ w, weightOf s.tab.node e.1 = some w ∧ w.toNat = e.2.weight f
  frame : BuildFrame s₀ s
  reg : s.reg = s₀.reg
  root : s.ctr.root = NONE
  nodeAbove : ∀ j, m ≤ j → s.tab.node.read j = s₀.tab.node.read j
  heapAbove : ∀ j, pairs.length ≤ j → s.tab.heap.read j = s₀.tab.heap.read j

section Growing
variable {trees : List (NodeId × HTree)}

theorem Growing.hsize (h : Growing s₀ pairs f m trees s) : s.ctr.hsize.toNat = trees.length := by
  obtain ⟨-, hread, -⟩ := h.queue
  rw [← (queueReadable_iff_queuedIds.1 hread).1, h.ids.length_eq, List.length_map]

theorem Growing.idWeight (h : Growing s₀ pairs f m trees s) {e : NodeId × HTree} (he : e ∈ trees) :
    idWeight s.tab.node e.1 = e.2.weight f := by
  obtain ⟨w, hw, hwf⟩ := h.weights e he
  rw [Machine.idWeight, hw]
  exact hwf

/-- At the start nothing is queued and no record made. -/
theorem Growing.start (s : State) (pairs : List (Nat × Count)) (f : Byte → Nat) :
    Growing s pairs f 0 [] (clearTree s) where
  queue := ⟨Nat.zero_le _, rfl, rfl, fun _ => rfl⟩
  nnodes := rfl
  ids := .rfl
  records := ⟨fun _ _ h => absurd h (Nat.not_lt_zero _), fun _ _ h => absurd h (Nat.not_lt_zero _)⟩
  made := by simp
  shapes := by simp
  weights := by simp
  frame := ⟨rfl, rfl, rfl, rfl, rfl, rfl, rfl, rfl, rfl, rfl, rfl, rfl⟩
  reg := rfl
  root := rfl
  nodeAbove := fun _ _ => rfl
  heapAbove := fun _ _ => rfl

/-- A delete takes out a tree no other is lighter than (R160). -/
theorem Growing.pop (h : Growing s₀ pairs f m trees s) (hne : trees ≠ []) (hlen : trees.length ≤ pairs.length) :
    ∃ e rest t, pqPop s = .ok (e.1, t) ∧ t.tab.node = s.tab.node ∧ trees.Perm (e :: rest) ∧
      (∀ d ∈ rest, e.2.weight f ≤ d.2.weight f) ∧ Growing s₀ pairs f m rest t := by
  obtain ⟨n, hn⟩ := Nat.exists_eq_succ_of_ne_zero (mt List.length_eq_zero_iff.1 hne)
  have hs : s.ctr.hsize.toNat = n + 1 := h.hsize.trans hn
  have ⟨hcap, _⟩ := h.queue
  obtain ⟨id, t, slot, ht, hleast, href⟩ := pqPop_completes h.queue hs
  have hok := h.queue.pqPop hs ht fun htie => (href htie).2.2
  obtain ⟨-, -, -, -, -, hperm⟩ := pqPop_queue ht hs (hs ▸ hcap)
  have hlight := LightestIn.idWeight_le (s := s) (hs.symm ▸ hleast)
  obtain ⟨-, hheap⟩ := pqPop_frame ht hs
  obtain ⟨-, heap, rfl⟩ := pqPop_ok ht
  obtain ⟨trees', hmap, htrees⟩ := exists_map_eq_of_perm (h.ids.symm.trans hperm.symm)
  obtain ⟨⟨_, x⟩, rest, rfl, rfl, hrest⟩ := List.map_eq_cons_iff.1 hmap
  have hmem : ∀ e ∈ rest, e ∈ trees := fun e he => htrees.mem_iff.1 (List.mem_cons_of_mem _ he)
  refine ⟨_, rest, _, ht, rfl, htrees.symm, fun d hd => ?_, ?_⟩
  · have hle := hlight d.1 (hperm.mem_iff.1 (List.mem_cons_of_mem _ (hrest ▸ List.mem_map_of_mem hd)))
    rwa [h.idWeight (hmem d hd), h.idWeight (htrees.mem_iff.1 List.mem_cons_self)] at hle
  · exact { h with
      queue := hok
      ids := .of_eq hrest.symm
      made := fun e he => h.made e (hmem e he)
      shapes := fun e he => h.shapes e (hmem e he)
      weights := fun e he => h.weights e (hmem e he)
      frame := { h.frame with }
      heapAbove := fun j hj => (hheap j (by have := h.hsize; omega)).trans (h.heapAbove j hj) }

/-- A new record is queued with its tree. -/
theorem Growing.alloc {n : Node} {x : HTree} (h : Growing s₀ pairs f m trees s) (hm : m < Config.nodeCap)
    (hlen : trees.length < pairs.length) (hcap : pairs.length ≤ Config.pqCap)
    (hrecords : Records pairs (m + 1) (s.tab.node.write m n))
    (hx : treeAt (s.tab.node.write m n) x (BitVec.ofNat 9 m) = true) (hw : n.weight.toNat = x.weight f) :
    ∃ t, allocNode n s = .ok t ∧ Growing s₀ pairs f (m + 1) ((BitVec.ofNat 9 m, x) :: trees) t := by
  have hsame := SameRecords.write s.tab.node m n
  have hid := toNat_nodeId hm
  have hweight := weightOf_eq_some.2 ⟨n, readNode_write_same s.tab.node n hm, rfl⟩
  unfold Config.nodeCap at hm
  have hnext : (s.ctr.nnodes + 1#10).toNat = m + 1 := by
    rw [BitVec.toNat_add, BitVec.toNat_ofNat, h.nnodes]
    omega
  have hwidth : s.ctr.nnodes.setWidth 9 = BitVec.ofNat 9 m := by
    apply BitVec.eq_of_toNat_eq
    rw [BitVec.toNat_setWidth, h.nnodes, BitVec.toNat_ofNat]
  have hqueued : ∀ id ∈ queuedIds s, id.toNat < m := fun id hid => by
    obtain ⟨e, he, rfl⟩ := List.mem_map.1 (h.ids.mem_iff.1 hid)
    exact h.made e he
  have hroom : s.ctr.hsize.toNat < Config.pqCap := h.hsize.trans_lt (hlen.trans_le hcap)
  obtain ⟨t, ht, hok, -⟩ := (h.queue.writeNode n hqueued).pqInsert hroom (item := BitVec.ofNat 9 m)
    (by rw [State.setTab_tab, hweight]; rfl)
  obtain ⟨-, -, -, -, -, hperm⟩ := pqInsert_queue ht hroom
  obtain ⟨-, hheap⟩ := pqInsert_frame ht
  obtain ⟨heap, ev, rfl⟩ := pqInsert_ok ht
  refine ⟨_, except_bind_ok.2 ⟨_, by rw [hwidth, h.nnodes]; exact ht, rfl⟩, ?_⟩
  exact {
    queue := hok
    nnodes := hnext
    ids := hperm.trans (h.ids.cons _)
    records := hrecords
    made := List.forall_mem_cons.2 ⟨hid.trans_lt (Nat.lt_succ_self m), fun e he =>
      (h.made e he).trans (Nat.lt_succ_self m)⟩
    shapes := List.forall_mem_cons.2 ⟨hx, fun e he => h.records.treeAt_congr hsame (h.made e he) (h.shapes e he)⟩
    weights := List.forall_mem_cons.2 ⟨⟨_, hweight, hw⟩, fun e he => by
      obtain ⟨w, hold, hwf⟩ := h.weights e he
      exact ⟨w, (hsame.weightOf (h.made e he)).trans hold, hwf⟩⟩
    frame := { h.frame with }
    reg := h.reg
    root := h.root
    nodeAbove := fun j hj => (s.tab.node.read_write_other n (by omega)).trans (h.nodeAbove j (by omega))
    heapAbove := fun j hj => (hheap j (by rw [State.setTab_ctr, h.hsize]; omega)).trans (h.heapAbove j hj) }

/-! ### The loops -/

/-- What the trees of a list weigh together. -/
def treesWeight (f : Byte → Nat) (trees : List (NodeId × HTree)) : Nat := (trees.map fun e => e.2.weight f).sum

theorem treesWeight_cons (e : NodeId × HTree) (trees : List (NodeId × HTree)) :
    treesWeight f (e :: trees) = e.2.weight f + treesWeight f trees := by simp [treesWeight]

theorem treesWeight_perm {trees' : List (NodeId × HTree)} (h : trees.Perm trees') :
    treesWeight f trees = treesWeight f trees' := (h.map _).sum_eq

/-- A merge takes out a lightest tree and then a lightest of the others, and queues the tree made of them (R182, R183);
the weights do not overflow (R6). -/
theorem Growing.merge (h : Growing s₀ pairs f m trees s) (hm : m < Config.nodeCap) (hp : pairs.length ≤ m)
    (htwo : 2 ≤ trees.length) (hlen : trees.length ≤ pairs.length) (hcap : pairs.length ≤ Config.pqCap)
    (hsum : treesWeight f trees < 2 ^ 40) :
    ∃ a b rest t, mergeOnce s = .ok t ∧ trees.Perm (a :: b :: rest) ∧
      (∀ d ∈ b :: rest, a.2.weight f ≤ d.2.weight f) ∧ (∀ d ∈ rest, b.2.weight f ≤ d.2.weight f) ∧
      Growing s₀ pairs f (m + 1) ((BitVec.ofNat 9 m, .node a.2 b.2) :: rest) t := by
  obtain ⟨a, rest₁, s₁, ha, hnode₁, hperm₁, hleast₁, h₁⟩ := h.pop (List.length_pos_iff.1 (by omega)) hlen
  have hlen₁ := hperm₁.length_eq
  rw [List.length_cons] at hlen₁
  obtain ⟨b, rest, s₂, hb, hnode₂, hperm₂, hleast₂, h₂⟩ := h₁.pop (List.length_pos_iff.1 (by omega)) (by omega)
  have hlen₂ := hperm₂.length_eq
  rw [List.length_cons] at hlen₂
  have hperm := hperm₁.trans (hperm₂.cons a)
  have ha_mem := hperm.mem_iff.2 List.mem_cons_self
  have hb_mem := hperm.mem_iff.2 (List.mem_cons_of_mem a List.mem_cons_self)
  have hnode : s₂.tab.node = s.tab.node := hnode₂.trans hnode₁
  obtain ⟨wa, hwa, hfa⟩ := h.weights a ha_mem
  obtain ⟨wb, hwb, hfb⟩ := h.weights b hb_mem
  obtain ⟨ra, hra, rfl⟩ := weightOf_eq_some.1 hwa
  obtain ⟨rb, hrb, rfl⟩ := weightOf_eq_some.1 hwb
  have hle : ra.weight.toNat ≤ rb.weight.toNat := by
    rw [hfa, hfb]
    exact hleast₁ b (hperm₂.mem_iff.2 List.mem_cons_self)
  have hadd : (ra.weight + rb.weight).toNat = ra.weight.toNat + rb.weight.toNat := by
    rw [treesWeight_perm hperm, treesWeight_cons, treesWeight_cons] at hsum
    rw [BitVec.toNat_add]
    omega
  have hsame := SameRecords.write s₂.tab.node m (internalOf ra.weight rb.weight a.1 b.1)
  have hma := h.made a ha_mem
  have hmb := h.made b hb_mem
  have hrecord := readNode_write_same s₂.tab.node (internalOf ra.weight rb.weight a.1 b.1) hm
  have hrecords : Records pairs (m + 1) (s₂.tab.node.write m (internalOf ra.weight rb.weight a.1 b.1)) := by
    rw [← hnode] at hra hrb
    exact h₂.records.write (fun hlt => absurd hp hlt.not_ge) fun _ => internalRecord_write hra hrb hma hmb hle hadd
  have hshape : ∀ e ∈ trees, treeAt (s₂.tab.node.write m (internalOf ra.weight rb.weight a.1 b.1)) e.2 e.1 = true :=
    fun e he => h₂.records.treeAt_congr hsame (h.made e he) (hnode ▸ h.shapes e he)
  obtain ⟨t, ht, hgrown⟩ := h₂.alloc (x := .node a.2 b.2) hm (by omega) hcap hrecords
    (treeAt_node.2 ⟨_, hrecord, rfl, hshape a ha_mem, hshape b hb_mem⟩)
    (by rw [internalOf, hadd, hfa, hfb, HTree.weight_node])
  refine ⟨a, b, rest, t, ?_, hperm, fun d hd => hleast₁ d (hperm₂.mem_iff.2 hd), hleast₂, hgrown⟩
  exact except_bind_ok.2 ⟨_, ha, except_bind_ok.2 ⟨_, hb, except_bind_ok.2 ⟨_, nodeWeight_ok.2 (hnode ▸ hwa),
    except_bind_ok.2 ⟨_, nodeWeight_ok.2 (hnode ▸ hwb), ht⟩⟩⟩⟩

/-- The merge loop ends with one tree, which merging the forest gives; its record is the last made (R180, R182). -/
theorem Growing.mergeAll {turns : Nat} {e : NodeId × HTree} (h : Growing s₀ pairs f m (e :: trees) s)
    (hnewest : e.1.toNat + 1 = m) (hturns : trees.length ≤ turns) (hm : m + trees.length ≤ Config.nodeCap)
    (hp : pairs.length ≤ m) (hlen : trees.length < pairs.length) (hcap : pairs.length ≤ Config.pqCap)
    (hsum : treesWeight f (e :: trees) < 2 ^ 40) :
    ∃ d t, mergeAll turns s = .ok t ∧ Merges f ((e :: trees).map (·.2)) d.2 ∧ d.1.toNat + 1 = m + trees.length ∧
      Growing s₀ pairs f (m + trees.length) [d] t := by
  induction turns generalizing e trees m s with
  | zero =>
    obtain rfl := List.length_eq_zero_iff.1 (Nat.le_zero.1 hturns)
    exact ⟨e, s, rfl, .single e.2, hnewest, h⟩
  | succ turns ih =>
    unfold Machine.mergeAll
    rw [h.hsize, List.length_cons]
    rcases Nat.eq_zero_or_pos trees.length with h0 | hpos
    · obtain rfl := List.length_eq_zero_iff.1 h0
      exact ⟨e, s, rfl, .single e.2, hnewest, h⟩
    · obtain ⟨a, b, rest, u, hu, hperm, hleft, hright, hgrown⟩ :=
        h.merge (by omega) hp (by rw [List.length_cons]; omega) hlen hcap hsum
      have hlen' := hperm.length_eq
      simp only [List.length_cons] at hlen'
      have hsum' : treesWeight f ((BitVec.ofNat 9 m, .node a.2 b.2) :: rest) < 2 ^ 40 := by
        rw [treesWeight_perm hperm, treesWeight_cons, treesWeight_cons] at hsum
        rw [treesWeight_cons, HTree.weight_node]
        omega
      obtain ⟨d, t, ht, hmerges, hlast, hdone⟩ := ih hgrown (congrArg (· + 1) (toNat_nodeId (by omega))) (by omega)
        (by omega) (by omega) (by omega) hsum'
      have hcount : m + 1 + rest.length = m + trees.length := by omega
      rw [hcount] at hlast hdone
      refine ⟨d, t, ?_, .merge (hperm.map _) ?_ ?_ hmerges, hlast, hdone⟩
      · rw [if_neg (by omega)]
        exact except_bind_ok.2 ⟨u, hu, ht⟩
      · exact (List.forall_mem_map (l := b :: rest)).2 hleft
      · exact List.forall_mem_map.2 hright

/-- The leaf of a symbol present. -/
def leafTree (e : Nat × Count) : HTree := .leaf (BitVec.ofNat 8 e.1)

/-- The leaf loop makes and queues one record a symbol, in their order (R180, R181). -/
theorem Growing.addLeaves {before after : List (Nat × Count)} (h : Growing s₀ pairs f before.length trees s)
    (hpairs : pairs = before ++ after) (htrees : trees.map (·.2) = before.reverse.map leafTree)
    (hnewest : ∀ e ∈ trees.head?, e.1.toNat + 1 = before.length) (hcap : pairs.length ≤ Config.pqCap)
    (hf : ∀ e ∈ pairs, f (BitVec.ofNat 8 e.1) = e.2.toNat) :
    ∃ trees' t, addLeaves after s = .ok t ∧ trees'.map (·.2) = pairs.reverse.map leafTree ∧
      (∀ e ∈ trees'.head?, e.1.toNat + 1 = pairs.length) ∧ Growing s₀ pairs f pairs.length trees' t := by
  induction after generalizing before trees s with
  | nil =>
    obtain rfl : pairs = before := hpairs.trans (List.append_nil before)
    exact ⟨trees, s, rfl, htrees, hnewest, h⟩
  | cons e after ih =>
    have hlen : trees.length = before.length := by simpa using congrArg List.length htrees
    have htotal : pairs.length = before.length + (after.length + 1) := by
      rw [hpairs, List.length_append, List.length_cons]
    have hm : before.length < Config.nodeCap := by
      unfold Config.pqCap at hcap
      unfold Config.nodeCap
      omega
    have hrecord := readNode_write_same s.tab.node (leafOf e) hm
    have hrecords : Records pairs (before.length + 1) (s.tab.node.write before.length (leafOf e)) := by
      refine h.records.write (fun _ => ⟨e, ?_, rfl⟩) fun hge => by omega
      rw [hpairs, List.getElem?_append_right le_rfl, Nat.sub_self]
      rfl
    have hweight : (leafOf e).weight.toNat = (leafTree e).weight f := by
      have he := e.2.isLt
      rw [leafTree, HTree.weight_leaf, hf e (by simp [hpairs]), leafOf, BitVec.toNat_setWidth]
      omega
    obtain ⟨u, hu, hgrown⟩ := h.alloc (x := leafTree e) hm (by omega) hcap hrecords
      (treeAt_leaf.2 ⟨_, hrecord, rfl, rfl⟩) hweight
    have hcount : before.length + 1 = (before ++ [e]).length := by simp
    rw [hcount] at hgrown
    obtain ⟨trees', t, ht, hdone⟩ := ih hgrown (by rw [hpairs, List.append_assoc]; rfl)
      (by rw [List.map_cons, htrees, List.reverse_append]; rfl)
      (fun d hd => by rw [← hcount, ← Option.some.inj hd]; exact congrArg (· + 1) (toNat_nodeId hm))
    exact ⟨trees', t, except_bind_ok.2 ⟨u, hu, ht⟩, hdone⟩

end Growing
end Sys2Proof.Machine
end

section
/-! PROOFS. What `BUILDTREE` leaves (R180 to R184): on a written `FREQ` it completes, and the tree is one that merging
the leaves of the symbols present gives. -/

namespace Sys2Proof.Machine

variable {s t : State} {pairs : List (Nat × Count)} {freq : Memory Count}

/-! ### The symbols present -/

theorem presentAmong_of_written {syms : List Nat} (h : ∀ sym ∈ syms, ∃ c, freq.read sym = some c) :
    ∃ pairs, presentAmong freq syms = .ok pairs := by
  induction syms with
  | nil => exact ⟨[], rfl⟩
  | cons sym syms ih =>
    obtain ⟨c, hc⟩ := h sym List.mem_cons_self
    obtain ⟨rest, hrest⟩ := ih fun sym' hsym' => h sym' (List.mem_cons_of_mem sym hsym')
    exact ⟨_, except_bind_ok.2 ⟨c, readEntry_ok.2 hc, except_bind_ok.2 ⟨rest, hrest, rfl⟩⟩⟩

/-- The scan of the alphabet completes on a written `FREQ` (R190). -/
theorem symbolsPresent_of_filled (h : freq.filled 256 = true) : symbolsPresent freq = .ok (presentPairs freq) := by
  obtain ⟨pairs, hp⟩ : ∃ pairs, symbolsPresent freq = .ok pairs :=
    presentAmong_of_written fun sym hsym => (freq.filled_iff 256).1 h sym (List.mem_range.1 hsym)
  rw [hp, symbolsPresent_ok hp]

/-- The count of a symbol as a number, zero where nothing has been written. -/
def countOf (freq : Memory Count) (sym : Byte) : Nat := ((freq.read sym.toNat).getD 0#32).toNat

/-- A pair listed is a symbol of the alphabet with its count, which is not zero. -/
theorem mem_presentPairs {e : Nat × Count} :
    e ∈ presentPairs freq ↔ e.1 < 256 ∧ freq.read e.1 = some e.2 ∧ e.2 ≠ 0#32 := by
  obtain ⟨sym, c⟩ := e
  simp only [presentPairs, Config.symbolCount, List.mem_filterMap, List.mem_range]
  constructor
  · rintro ⟨i, hi, h⟩
    split at h
    · next f hf =>
      split at h
      · exact absurd h (by simp)
      · next h0 =>
        obtain ⟨rfl, rfl⟩ := Prod.mk.inj (Option.some.inj h)
        exact ⟨hi, hf, h0⟩
    · exact absurd h (by simp)
  · rintro ⟨hi, hread, h0⟩
    exact ⟨sym, hi, by rw [hread]; exact if_neg h0⟩

theorem toNat_symbol {e : Nat × Count} (he : e ∈ presentPairs freq) : (BitVec.ofNat 8 e.1).toNat = e.1 := by
  have := (mem_presentPairs.1 he).1
  rw [BitVec.toNat_ofNat]
  omega

theorem countOf_present {e : Nat × Count} (he : e ∈ presentPairs freq) :
    countOf freq (BitVec.ofNat 8 e.1) = e.2.toNat := by
  rw [countOf, toNat_symbol he, (mem_presentPairs.1 he).2.1]
  rfl

theorem length_presentPairs_le (freq : Memory Count) : (presentPairs freq).length ≤ 256 :=
  (List.length_filterMap_le _ _).trans List.length_range.le

/-- The symbols present are listed once each. -/
theorem presentPairs_nodup (freq : Memory Count) : ((presentPairs freq).map (·.1)).Nodup := by
  rw [presentPairs, List.map_filterMap]
  refine List.nodup_range.filterMap fun i j b hi hj => ?_
  have hsym : ∀ i : Nat, b ∈ Option.map (·.1) (match freq.read i with
      | some c => if c = 0#32 then none else some (i, c)
      | none => none) → b = i := by
    intro i h
    split at h
    · split at h
      · exact absurd h (by simp)
      · exact (Option.some.inj h).symm
    · exact absurd h (by simp)
  exact (hsym i hi).symm.trans (hsym j hj)

/-- All the counts together fit the 40 bits of a weight (R6). -/
theorem sum_counts_lt (freq : Memory Count) : ((presentPairs freq).map fun e => e.2.toNat).sum < 2 ^ 40 := by
  have hle := List.sum_le_card_nsmul ((presentPairs freq).map fun e => e.2.toNat) (2 ^ 32 - 1) (by
    intro c hc
    obtain ⟨e, -, rfl⟩ := List.mem_map.1 hc
    have := e.2.isLt
    omega)
  have hlen := length_presentPairs_le freq
  rw [List.length_map, smul_eq_mul] at hle
  omega

/-! ### The result -/

/-- A forest in another order merges to the same trees. -/
theorem Merges.of_perm {f : Byte → Nat} {xs ys : List HTree} {x : HTree} (h : Merges f xs x) (hp : ys.Perm xs) :
    Merges f ys x := by
  cases h with
  | single => rw [List.perm_singleton.1 hp]; exact .single x
  | merge perm left right merged => exact .merge (hp.trans perm) left right merged

/-- The block after a `BUILDTREE` begun in `s` over the symbols present (R180 to R184). -/
structure Built (s : State) (pairs : List (Nat × Count)) (t : State) : Prop where
  frame : BuildFrame s t
  reg : t.reg = { s.reg with result := t.ctr.root.setWidth 32 }
  hsize : t.ctr.hsize = 0#9
  records : Records pairs t.ctr.nnodes.toNat t.tab.node
  nodeAbove : ∀ j, t.ctr.nnodes.toNat ≤ j → t.tab.node.read j = s.tab.node.read j
  heapAbove : ∀ j, pairs.length ≤ j → t.tab.heap.read j = s.tab.heap.read j
  none : pairs = [] → t.ctr.root = NONE ∧ t.ctr.nnodes = 0#10
  tree : pairs ≠ [] → t.ctr.root.toNat = 2 * pairs.length - 2 ∧ t.ctr.nnodes.toNat = 2 * pairs.length - 1 ∧
    ∃ x, treeAt t.tab.node x t.ctr.root = true ∧ Merges (countOf s.tab.freq) (pairs.map leafTree) x

theorem buildTree_none {u : State} (h : symbolsPresent s.tab.freq = .ok []) (hu : addLeaves [] (clearTree s) = .ok u) :
    buildTree s = .ok (u.setResult 0x000001FF#32) :=
  except_bind_ok.2 ⟨[], h, except_bind_ok.2 ⟨u, hu, rfl⟩⟩

theorem buildTree_some {u v w : State} {r : NodeId} (h : symbolsPresent s.tab.freq = .ok pairs) (hne : pairs ≠ [])
    (hu : addLeaves pairs (clearTree s) = .ok u) (hv : mergeAll pairs.length u = .ok v) (hw : pqPop v = .ok (r, w)) :
    buildTree s = .ok ((w.setCtr { w.ctr with root := r }).setResult (r.setWidth 32)) := by
  refine except_bind_ok.2 ⟨pairs, h, except_bind_ok.2 ⟨u, hu, ?_⟩⟩
  rw [if_neg (mt List.length_eq_zero_iff.1 hne)]
  exact except_bind_ok.2 ⟨v, hv, except_bind_ok.2 ⟨_, hw, rfl⟩⟩

/-- The leaves of the symbols present weigh what the counts say. -/
theorem treesWeight_leaves {f : Byte → Nat} {trees : List (NodeId × HTree)}
    (htrees : trees.map (·.2) = pairs.reverse.map leafTree) (hf : ∀ e ∈ pairs, f (BitVec.ofNat 8 e.1) = e.2.toNat) :
    treesWeight f trees = (pairs.map fun e => e.2.toNat).sum := by
  have hleaf : ∀ e ∈ pairs, (leafTree e).weight f = e.2.toNat := fun e he => (HTree.weight_leaf f _).trans (hf e he)
  calc treesWeight f trees = ((trees.map (·.2)).map (HTree.weight f)).sum := by rw [List.map_map]; rfl
    _ = ((pairs.map leafTree).map (HTree.weight f)).sum := by
      rw [htrees]
      exact (((List.reverse_perm pairs).map leafTree).map _).sum_eq
    _ = (pairs.map fun e => e.2.toNat).sum := by
      rw [List.map_map]
      exact congrArg List.sum (List.map_congr_left hleaf)

/-- `BUILDTREE` completes when every entry of `FREQ` can be read, under every tie-break (R180, R190). -/
theorem buildTree_built (h : symbolsPresent s.tab.freq = .ok pairs) : ∃ t, buildTree s = .ok t ∧ Built s pairs t := by
  have hcap := symbolsPresent_length_le h
  have hcount : ∀ e ∈ pairs, countOf s.tab.freq (BitVec.ofNat 8 e.1) = e.2.toNat := by
    rw [symbolsPresent_ok h]
    exact fun _ => countOf_present
  obtain ⟨trees, u, hu, htrees, hnewest, leaves⟩ := (Growing.start s pairs (countOf s.tab.freq)).addLeaves
    (before := []) (after := pairs) rfl rfl (by simp) hcap hcount
  have hlen : trees.length = pairs.length := by simpa using congrArg List.length htrees
  have hsum : treesWeight (countOf s.tab.freq) trees < 2 ^ 40 := by
    rw [treesWeight_leaves htrees hcount, symbolsPresent_ok h]
    exact sum_counts_lt _
  cases trees with
  | nil =>
    obtain rfl : pairs = [] := List.length_eq_zero_iff.1 hlen.symm
    exact ⟨_, buildTree_none h hu, {
      frame := { leaves.frame with }
      reg := by rw [State.setResult_reg, State.setResult_ctr, leaves.reg, leaves.root]; rfl
      hsize := BitVec.eq_of_toNat_eq leaves.hsize
      records := leaves.nnodes.symm ▸ leaves.records
      nodeAbove := fun j hj => leaves.nodeAbove j (leaves.nnodes ▸ hj)
      heapAbove := leaves.heapAbove
      none := fun _ => ⟨leaves.root, BitVec.eq_of_toNat_eq leaves.nnodes⟩
      tree := fun h => absurd rfl h }⟩
  | cons e trees =>
    rw [List.length_cons] at hlen
    have hne : pairs ≠ [] := List.length_pos_iff.1 (by omega)
    unfold Config.symbolCount at hcap
    obtain ⟨d, v, hv, hmerges, hlast, merged⟩ := leaves.mergeAll (turns := pairs.length) (hnewest e rfl) (by omega)
      (by unfold Config.nodeCap; omega) le_rfl (by omega) hcap hsum
    obtain ⟨d', rest, w, hw, hnode, hperm, -, popped⟩ := merged.pop (List.cons_ne_nil d [])
      (by rw [List.length_singleton]; omega)
    obtain ⟨rfl, rfl⟩ := List.cons.inj (List.singleton_perm.1 hperm)
    have hnodes : pairs.length + trees.length = 2 * pairs.length - 1 := by omega
    rw [hnodes] at hlast popped
    rw [htrees] at hmerges
    have hlast' : d.1.toNat = 2 * pairs.length - 2 := by omega
    have hroot : treeAt w.tab.node d.2 d.1 = true := hnode ▸ merged.shapes d List.mem_cons_self
    exact ⟨_, buildTree_some h hne hu hv hw, {
      frame := { popped.frame with }
      reg := congrArg (fun r : Regs => { r with result := d.1.setWidth 32 }) popped.reg
      hsize := BitVec.eq_of_toNat_eq popped.hsize
      records := popped.nnodes.symm ▸ popped.records
      nodeAbove := fun j hj => popped.nodeAbove j (popped.nnodes ▸ hj)
      heapAbove := popped.heapAbove
      none := fun h => absurd h hne
      tree := fun _ => ⟨hlast', popped.nnodes, d.2, hroot,
        hmerges.of_perm ((List.reverse_perm pairs).symm.map leafTree)⟩ }⟩

theorem exec_buildtree_of_filled (herr : s.reg.err = false) (h : s.tab.freq.filled 256 = true) :
    ∃ t, exec .buildtree s = .next t ∧ Built (clearResultFlags s) (presentPairs s.tab.freq) t := by
  obtain ⟨t, ht, hbuilt⟩ := buildTree_built (s := clearResultFlags s) (symbolsPresent_of_filled h)
  exact ⟨t, issue_ok herr (by rw [buildtreeBody, ht]; rfl), hbuilt⟩

/-- There is a record for each symbol present. -/
theorem Built.length_le_nnodes (h : Built s pairs t) : pairs.length ≤ t.ctr.nnodes.toNat := by
  rcases Nat.eq_zero_or_pos pairs.length with h0 | hpos
  · rw [h0]
    exact Nat.zero_le _
  · obtain ⟨-, hnodes, -⟩ := h.tree (List.length_pos_iff.1 hpos)
    omega

/-- The leaves of a tree that merging the leaves of the symbols present gives. -/
theorem Merges.leaves_present {f : Byte → Nat} {x : HTree} (h : Merges f (pairs.map leafTree) x) :
    x.leaves.Perm (pairs.map fun e => BitVec.ofNat 8 e.1) := by
  have hleaves := h.leaves_perm
  rw [List.flatMap_map] at hleaves
  rwa [List.map_eq_flatMap]

/-- The leaves of the tree are the symbols present (R184). -/
theorem Merges.symbols_perm {f : Byte → Nat} {x : HTree} (h : Merges f ((presentPairs freq).map leafTree) x) :
    ((x.paths []).map fun e => e.1.toNat).Perm ((presentPairs freq).map (·.1)) := by
  have hmap : (x.paths []).map (fun e => e.1.toNat) = x.leaves.map BitVec.toNat := by
    rw [← HTree.paths_map_fst x [], List.map_map]
    rfl
  rw [hmap]
  refine (h.leaves_present.map _).trans (.of_eq ?_)
  rw [List.map_map]
  exact List.map_congr_left fun _ he => toNat_symbol he

/-- States that agree in every group of registers are the same. -/
theorem State.eq_of_groups (hrd : s.rd = t.rd) (hwr : s.wr = t.wr) (htab : s.tab = t.tab) (hctr : s.ctr = t.ctr)
    (hreg : s.reg = t.reg) (hpq : s.pq = t.pq) (hpar : s.par = t.par) (henv : s.env = t.env) : s = t := by
  cases s
  cases t
  simp_all

/-- Settles O23: the records and the queue are followed through both loops; the weights do not overflow because together
they are what the counts add up to. -/
theorem buildtreeMakesTheTree : Obligations.BuildtreeMakesTheTree := by
  intro s herr hfilled
  obtain ⟨t, ht, built⟩ := exec_buildtree_of_filled herr hfilled
  have htree := fun h : 0 < (presentPairs s.tab.freq).length => built.tree (List.length_pos_iff.1 h)
  refine ⟨t, ht, built.hsize, congrArg Regs.result built.reg,
    fun i hi => built.records.leaf i hi (hi.trans_le built.length_le_nnodes),
    fun h0 => built.none (List.length_eq_zero_iff.1 h0), fun h1 => ?_, fun h2 => ?_, built.records.internal,
    fun hne => ?_, ?_⟩
  · obtain ⟨hroot, hnodes, -⟩ := htree (by omega)
    rw [h1] at hroot hnodes
    exact ⟨BitVec.eq_of_toNat_eq hroot, BitVec.eq_of_toNat_eq hnodes⟩
  · obtain ⟨hroot, hnodes, -⟩ := htree (by omega)
    exact ⟨hroot, hnodes⟩
  · obtain ⟨-, -, x, hx, hmerges⟩ := htree (Nat.pos_of_ne_zero hne)
    exact ⟨x, hx, hmerges.symbols_perm⟩
  · have hctr := built.frame.ctr
    rw [built.hsize] at hctr
    exact State.eq_of_groups built.frame.rd built.frame.wr built.frame.tab hctr
      (built.reg.trans (by rw [congrArg Regs.result built.reg]; rfl)) rfl built.frame.par built.frame.env

end Sys2Proof.Machine
end

section
/-! PROOFS. `BUILDTREE` is determined by `FREQ` and `TIE` (R160, R189): a second block with the same counts and the same
tie-break is followed step by step beside the first; they agree in what the queue can see, whatever else they hold. -/

namespace Sys2Proof.Machine

variable {α β γ δ : Type}

/-! ### Two computations side by side -/

/-- Where the first computation gives a result the second gives one that stands in the relation to it. -/
def Follows (R : α → β → Prop) (x : Except Fault α) (y : Except Fault β) : Prop :=
  ∀ a, x = .ok a → ∃ b, y = .ok b ∧ R a b

theorem Follows.ok {R : α → β → Prop} {a : α} {b : β} (h : R a b) : Follows R (.ok a) (.ok b) := by
  rintro _ ⟨⟩
  exact ⟨b, rfl, h⟩

theorem Follows.bind {R : α → β → Prop} {S : γ → δ → Prop} {x : Except Fault α} {y : Except Fault β}
    {f : α → Except Fault γ} {g : β → Except Fault δ} (hx : Follows R x y)
    (hf : ∀ a b, R a b → Follows S (f a) (g b)) : Follows S (x >>= f) (y >>= g) := by
  intro c hc
  obtain ⟨a, ha, hc⟩ := except_bind_ok.1 hc
  obtain ⟨b, hb, hab⟩ := hx a ha
  obtain ⟨d, hd, hcd⟩ := hf a b hab c hc
  exact ⟨d, except_bind_ok.2 ⟨b, hb, hd⟩, hcd⟩

/-- The same computation first on both sides. -/
theorem Follows.bind_eq {S : γ → δ → Prop} {x y : Except Fault α} {f : α → Except Fault γ} {g : α → Except Fault δ}
    (hxy : y = x) (hf : ∀ a, x = .ok a → Follows S (f a) (g a)) : Follows S (x >>= f) (y >>= g) := by
  intro c hc
  obtain ⟨a, ha, hc⟩ := except_bind_ok.1 hc
  obtain ⟨d, hd, hcd⟩ := hf a ha c hc
  exact ⟨d, except_bind_ok.2 ⟨a, hxy.trans ha, hd⟩, hcd⟩

/-! ### Queues that look alike -/

section Slots
variable {node₁ node₂ : Memory Node} {heap₁ heap₂ : Memory NodeId} {n p q : Nat}

/-- Two queues hold the same ids in the slots below `n`, each of the same weight. -/
def SameSlots (node₁ node₂ : Memory Node) (n : Nat) (heap₁ heap₂ : Memory NodeId) : Prop :=
  ∀ i, i < n → heap₂.read i = heap₁.read i ∧ ∀ id, heap₁.read i = some id → nodeWeight node₂ id = nodeWeight node₁ id

theorem SameSlots.mono {k : Nat} (h : SameSlots node₁ node₂ n heap₁ heap₂) (hk : k ≤ n) :
    SameSlots node₁ node₂ k heap₁ heap₂ := fun i hi => h i (hi.trans_le hk)

theorem SameSlots.heapSlot (h : SameSlots node₁ node₂ n heap₁ heap₂) (hp : p < n) :
    heapSlot heap₂ p = heapSlot heap₁ p := by
  unfold Machine.heapSlot readEntry
  rw [(h p hp).1]

/-- An id that stands in one of the slots. -/
theorem SameSlots.nodeWeight {id : NodeId} (h : SameSlots node₁ node₂ n heap₁ heap₂) (hp : p < n)
    (hid : Machine.heapSlot heap₁ p = .ok id) : nodeWeight node₂ id = nodeWeight node₁ id :=
  (h p hp).2 id (readEntry_ok.1 hid)

theorem SameSlots.slotWeight (h : SameSlots node₁ node₂ n heap₁ heap₂) (hp : p < n) :
    slotWeight node₂ heap₂ p = slotWeight node₁ heap₁ p := by
  unfold Machine.slotWeight
  rw [h.heapSlot hp]
  cases hid : Machine.heapSlot heap₁ p with
  | error f => rfl
  | ok id => exact h.nodeWeight hp hid

theorem SameSlots.write {id : NodeId} (h : SameSlots node₁ node₂ n heap₁ heap₂)
    (hid : Machine.nodeWeight node₂ id = Machine.nodeWeight node₁ id) :
    SameSlots node₁ node₂ n (heap₁.write p id) (heap₂.write p id) := by
  intro i hi
  rw [Memory.read_write, Memory.read_write]
  split
  · exact ⟨rfl, fun _ h => Option.some.inj h ▸ hid⟩
  · exact h i hi

theorem SameSlots.write_next {id : NodeId} (h : SameSlots node₁ node₂ n heap₁ heap₂)
    (hid : Machine.nodeWeight node₂ id = Machine.nodeWeight node₁ id) :
    SameSlots node₁ node₂ (n + 1) (heap₁.write n id) (heap₂.write n id) := by
  intro i hi
  rcases Nat.lt_succ_iff_lt_or_eq.1 hi with hi | rfl
  · exact h.write hid i hi
  · rw [Memory.read_write_same, Memory.read_write_same]
    exact ⟨rfl, fun _ h => Option.some.inj h ▸ hid⟩

/-! ### `TIE_REF` -/

theorem SameSlots.swapSlots (h : SameSlots node₁ node₂ n heap₁ heap₂) (hp : p < n) (hq : q < n) :
    Follows (SameSlots node₁ node₂ n) (swapSlots heap₁ p q) (swapSlots heap₂ p q) :=
  .bind_eq (h.heapSlot hp) fun _ ha => .bind_eq (h.heapSlot hq) fun _ hb =>
    .ok ((h.write (h.nodeWeight hq hb)).write (h.nodeWeight hp ha))

theorem SameSlots.siftUp (k : Nat) (h : SameSlots node₁ node₂ n heap₁ heap₂) (hp : p < n) :
    Follows (SameSlots node₁ node₂ n) (siftUp node₁ k p heap₁) (siftUp node₂ k p heap₂) := by
  induction k generalizing p heap₁ heap₂ with
  | zero => exact .ok h
  | succ k ih =>
    unfold Machine.siftUp
    split
    · exact .ok h
    · have hq : (p - 1) / 2 < n := by omega
      refine .bind_eq (h.slotWeight hp) fun wp _ => .bind_eq (h.slotWeight hq) fun wq _ => ?_
      split
      · exact (h.swapSlots hp hq).bind fun _ _ h' => ih h' hq
      · exact .ok h

theorem SameSlots.lighterOf {c t : Nat} (h : SameSlots node₁ node₂ n heap₁ heap₂) (ht : t < n) :
    lighterOf node₂ heap₂ n c t = lighterOf node₁ heap₁ n c t := by
  unfold Machine.lighterOf
  split
  · next hc => rw [h.slotWeight hc, h.slotWeight ht]
  · rfl

theorem SameSlots.siftDown (k : Nat) (h : SameSlots node₁ node₂ n heap₁ heap₂) (hp : p < n) :
    Follows (SameSlots node₁ node₂ n) (siftDown node₁ n k p heap₁) (siftDown node₂ n k p heap₂) := by
  induction k generalizing p heap₁ heap₂ with
  | zero => exact .ok h
  | succ k ih =>
    unfold Machine.siftDown
    refine .bind_eq (h.lighterOf hp) fun t ht => ?_
    have ht := lighterOf_lt ht hp
    refine .bind_eq (h.lighterOf ht) fun t' ht' => ?_
    have ht' := lighterOf_lt ht' ht
    split
    · exact .ok h
    · exact (h.swapSlots hp ht').bind fun _ _ h' => ih h' ht'

/-- What two deletes give: the same id, and queues that look alike. -/
def SamePop (node₁ node₂ : Memory Node) (n : Nat) (x y : NodeId × Memory NodeId) : Prop :=
  y.1 = x.1 ∧ SameSlots node₁ node₂ n x.2 y.2

theorem SameSlots.refDeleteMin (h : SameSlots node₁ node₂ (n + 1) heap₁ heap₂) :
    Follows (SamePop node₁ node₂ n) (refDeleteMin node₁ heap₁ (n + 1)) (refDeleteMin node₂ heap₂ (n + 1)) := by
  unfold Machine.refDeleteMin
  refine .bind_eq (h.heapSlot (Nat.succ_pos n)) fun m _ => ?_
  split
  · exact .ok ⟨rfl, h.mono (Nat.le_succ n)⟩
  · have hn := Nat.lt_succ_self n
    refine .bind_eq (h.heapSlot hn) fun last hlast => ?_
    have hsink := (h.write (p := 0) (h.nodeWeight hn hlast)).mono (Nat.le_succ n)
    exact (hsink.siftDown n (by omega)).bind fun _ _ h' => .ok ⟨rfl, h'⟩

/-! ### Another tie-break -/

theorem SameSlots.queuedWeights (h : SameSlots node₁ node₂ n heap₁ heap₂) :
    queuedWeights node₂ heap₂ n = queuedWeights node₁ heap₁ n := by
  induction n with
  | zero => rfl
  | succ n ih =>
    unfold Machine.queuedWeights
    rw [ih (h.mono (Nat.le_succ n)), h.slotWeight (Nat.lt_succ_self n)]

theorem SameSlots.slotIds (h : SameSlots node₁ node₂ n heap₁ heap₂) : slotIds heap₂ n = slotIds heap₁ n := by
  induction n with
  | zero => rfl
  | succ n ih =>
    unfold Machine.slotIds
    rw [ih (h.mono (Nat.le_succ n)), h.heapSlot (Nat.lt_succ_self n)]

theorem SameSlots.rearrange (k : Nat) (hist : List Config.PqEvent) (h : SameSlots node₁ node₂ n heap₁ heap₂) :
    Follows (SameSlots node₁ node₂ n) (rearrange k hist heap₁ n) (rearrange k hist heap₂ n) := by
  refine .bind_eq h.slotIds fun ids hids => .ok fun i hi => ?_
  obtain ⟨hlen, hread⟩ := slotIds_ok hids
  have hperm := drawOut_perm (Config.heapOrder k hist ids) (ids := ids) rfl
  have hin : 0 ≤ i ∧ i < 0 + (drawOut (Config.heapOrder k hist ids) ids.length ids).length := by
    rw [hperm.length_eq]
    omega
  rw [placeFrom_read, placeFrom_read, if_pos hin, if_pos hin]
  refine ⟨rfl, fun id hid => ?_⟩
  obtain ⟨j, hj⟩ := List.mem_iff_getElem?.1 (hperm.mem_iff.1 (List.mem_of_getElem? hid))
  have hjn : j < n := hlen ▸ (List.getElem?_eq_some_iff.1 hj).1
  exact (h j hjn).2 id ((hread j hjn).trans hj)

theorem SameSlots.otherDeleteMin (k : Nat) (hist : List Config.PqEvent)
    (h : SameSlots node₁ node₂ (n + 1) heap₁ heap₂) :
    Follows (SamePop node₁ node₂ n) (otherDeleteMin k hist node₁ heap₁ (n + 1))
      (otherDeleteMin k hist node₂ heap₂ (n + 1)) := by
  unfold Machine.otherDeleteMin
  refine .bind_eq h.queuedWeights fun ws hws => ?_
  have hslot := lightest_getD_lt (queuedWeights_slot_lt hws) (Nat.succ_pos n)
    (Config.tieChoice k hist % (lightest ws).length)
  refine .bind_eq (h.heapSlot hslot) fun m _ => ?_
  have hn := Nat.lt_succ_self n
  refine .bind_eq (h.heapSlot hn) fun last hlast => ?_
  have hrest := (h.write (p := (lightest ws).getD (Config.tieChoice k hist % (lightest ws).length) 0)
    (h.nodeWeight hn hlast)).mono (Nat.le_succ n)
  exact (hrest.rearrange k (hist ++ [.deletedMin])).bind fun a b h' =>
    Follows.ok (R := SamePop node₁ node₂ n) (a := (m, a)) (b := (m, b)) ⟨rfl, h'⟩

end Slots

/-! ### Blocks that look alike -/

variable {s₁ s₂ : State} {k m n : Nat}

/-- Two blocks with the same `TIE` inside a `BUILDTREE` look alike: `k` records made in both, of which the first `m` are
the same, the same `n` items in the same slots, the same history. -/
structure Alike (k m n : Nat) (s₁ s₂ : State) : Prop where
  tie : s₂.par.tie = s₁.par.tie
  pq : s₂.pq = s₁.pq
  nnodes : s₂.ctr.nnodes = s₁.ctr.nnodes
  hsize : s₂.ctr.hsize = s₁.ctr.hsize
  nodes : s₁.ctr.nnodes.toNat = k
  items : s₁.ctr.hsize.toNat = n
  records : SameRecords m s₁.tab.node s₂.tab.node
  slots : ∀ i, i < n → s₂.tab.heap.read i = s₁.tab.heap.read i
  made : ∀ id ∈ queuedIds s₁, id.toNat < m

theorem SameRecords.nodeWeight {node node' : Memory Node} {id : NodeId} (h : SameRecords m node node')
    (hid : id.toNat < m) : nodeWeight node' id = nodeWeight node id := by
  unfold Machine.nodeWeight
  rw [h.readNode hid]

theorem Alike.sameSlots (h : Alike k m n s₁ s₂) :
    SameSlots s₁.tab.node s₂.tab.node n s₁.tab.heap s₂.tab.heap := by
  refine fun i hi => ⟨h.slots i hi, fun id hid => h.records.nodeWeight (h.made id ?_)⟩
  exact List.mem_filterMap.2 ⟨i, List.mem_range.2 (h.items ▸ hi), hid⟩

/-- The block with another queue. -/
def State.requeue (s : State) (heap : Memory NodeId) (size : BitVec 9) (log : QueueLog) : State :=
  ((s.setTab { s.tab with heap := heap }).setCtr { s.ctr with hsize := size }).setPq log

theorem Alike.requeue {heap₁ heap₂ : Memory NodeId} {size : BitVec 9} {log : QueueLog} {j : Nat}
    (h : Alike k m n s₁ s₂) (hsize : size.toNat = j) (hslots : ∀ i, i < j → heap₂.read i = heap₁.read i)
    (hmade : ∀ id ∈ queuedIds (s₁.requeue heap₁ size log), id.toNat < m) :
    Alike k m j (s₁.requeue heap₁ size log) (s₂.requeue heap₂ size log) :=
  { h with pq := rfl, hsize := rfl, items := hsize, slots := hslots, made := hmade }

theorem Alike.pqInsert {id : NodeId} (h : Alike k m n s₁ s₂) (hid : id.toNat < m) (hn : n < Config.pqCap) :
    Follows (Alike k m (n + 1)) (pqInsert id s₁) (pqInsert id s₂) := by
  intro t₁ ht₁
  have hadded := h.sameSlots.write_next (h.records.nodeWeight hid)
  obtain rfl := h.items
  obtain ⟨-, -, -, -, hsize, hperm⟩ := pqInsert_queue ht₁ hn
  have hmade : ∀ id' ∈ queuedIds t₁, id'.toNat < m := fun id' hid' =>
    (List.mem_cons.1 (hperm.mem_iff.1 hid')).elim (fun heq => heq ▸ hid) (h.made id')
  obtain ⟨heap₁, rfl, hheap₁⟩ := pqInsert_cases ht₁
  unfold Machine.pqInsert
  rw [h.tie, h.hsize, h.pq, h.records _ hid]
  rcases hheap₁ with ⟨href, hsift⟩ | ⟨rule, hother, hre⟩
  · rw [href]
    obtain ⟨heap₂, hr, hslots⟩ := hadded.siftUp _ (Nat.lt_succ_self _) _ hsift
    exact ⟨_, except_bind_ok.2 ⟨heap₂, hr, rfl⟩, h.requeue hsize (fun i hi => (hslots i hi).1) hmade⟩
  · rw [hother]
    obtain ⟨heap₂, hr, hslots⟩ := hadded.rearrange rule _ _ hre
    exact ⟨_, except_bind_ok.2 ⟨heap₂, hr, rfl⟩, h.requeue hsize (fun i hi => (hslots i hi).1) hmade⟩

theorem Alike.pqPop (h : Alike k m (n + 1) s₁ s₂) (hn : n + 1 ≤ Config.pqCap) :
    Follows (fun x y => y.1 = x.1 ∧ x.1.toNat < m ∧ Alike k m n x.2 y.2) (pqPop s₁) (pqPop s₂) := by
  rintro ⟨id, t₁⟩ ht₁
  have hslots := h.sameSlots
  obtain ⟨-, -, -, -, hsize, hperm⟩ := pqPop_queue ht₁ h.items hn
  have hid := h.made id (hperm.mem_iff.1 List.mem_cons_self)
  have hmade : ∀ id' ∈ queuedIds t₁, id'.toNat < m := fun id' hid' =>
    h.made id' (hperm.mem_iff.1 (List.mem_cons_of_mem id hid'))
  obtain ⟨hintact, -⟩ := pqPop_ok ht₁
  obtain ⟨heap₁, rfl, hheap₁⟩ := pqPop_cases ht₁
  unfold Machine.pqPop
  rw [h.tie, h.hsize, h.pq, if_pos hintact, h.items]
  rw [h.items] at hheap₁
  rcases hheap₁ with ⟨href, hdelete⟩ | ⟨rule, hother, hdelete⟩
  · rw [href]
    obtain ⟨⟨_, heap₂⟩, hr, rfl, hslots⟩ := hslots.refDeleteMin _ hdelete
    exact ⟨_, except_bind_ok.2 ⟨_, hr, rfl⟩, rfl, hid, h.requeue hsize (fun i hi => (hslots i hi).1) hmade⟩
  · rw [hother]
    obtain ⟨⟨_, heap₂⟩, hr, rfl, hslots⟩ := hslots.otherDeleteMin rule _ _ hdelete
    exact ⟨_, except_bind_ok.2 ⟨_, hr, rfl⟩, rfl, hid, h.requeue hsize (fun i hi => (hslots i hi).1) hmade⟩

/-! ### The loops -/

theorem Alike.start (htie : s₂.par.tie = s₁.par.tie) : Alike 0 0 0 (clearTree s₁) (clearTree s₂) where
  tie := htie
  pq := rfl
  nnodes := rfl
  hsize := rfl
  nodes := rfl
  items := rfl
  records := fun _ hi => absurd hi (Nat.not_lt_zero _)
  slots := fun _ hi => absurd hi (Nat.not_lt_zero _)
  made := by simp [queuedIds]

theorem Alike.allocNode (r : Node) (h : Alike m m n s₁ s₂) (hm : m < Config.nodeCap) (hn : n < Config.pqCap) :
    Follows (Alike (m + 1) (m + 1) (n + 1)) (allocNode r s₁) (allocNode r s₂) := by
  unfold Config.nodeCap at hm
  have hid : (s₁.ctr.nnodes.setWidth 9).toNat < m + 1 := by
    rw [BitVec.toNat_setWidth, h.nodes]
    omega
  have hnext : (s₁.ctr.nnodes + 1#10).toNat = m + 1 := by
    rw [BitVec.toNat_add, BitVec.toNat_ofNat, h.nodes]
    omega
  have written : Alike m (m + 1) n (s₁.setTab { s₁.tab with node := s₁.tab.node.write m r })
      (s₂.setTab { s₂.tab with node := s₂.tab.node.write m r }) := { h with
    records := fun i hi => by
      rw [State.setTab_tab, State.setTab_tab, Memory.read_write, Memory.read_write]
      split
      · rfl
      · exact h.records i (by omega)
    made := fun id hid => (h.made id hid).trans (Nat.lt_succ_self m) }
  unfold Machine.allocNode
  rw [h.nnodes]
  dsimp only
  rw [h.nodes]
  refine (written.pqInsert hid hn).bind fun t₁ t₂ ht => .ok ?_
  exact { ht with nnodes := rfl, nodes := hnext }

theorem Alike.addLeaves (es : List (Nat × Count)) (h : Alike m m n s₁ s₂) (hm : m + es.length ≤ Config.nodeCap)
    (hn : n + es.length ≤ Config.pqCap) :
    Follows (Alike (m + es.length) (m + es.length) (n + es.length)) (addLeaves es s₁) (addLeaves es s₂) := by
  induction es generalizing m n s₁ s₂ with
  | nil => exact .ok h
  | cons e es ih =>
    rw [List.length_cons] at hm hn
    refine (h.allocNode (leafOf e) (by omega) (by omega)).bind fun t₁ t₂ ht => ?_
    have hrest := ih ht (by omega) (by omega)
    rwa [Nat.add_right_comm, Nat.add_right_comm n] at hrest

theorem Alike.mergeOnce (h : Alike m m (n + 2) s₁ s₂) (hm : m < Config.nodeCap) (hn : n + 2 ≤ Config.pqCap) :
    Follows (Alike (m + 1) (m + 1) (n + 1)) (mergeOnce s₁) (mergeOnce s₂) := by
  refine (h.pqPop hn).bind ?_
  rintro ⟨a, t₁⟩ ⟨_, t₂⟩ ⟨rfl, ha, ht⟩
  refine (ht.pqPop (by omega)).bind ?_
  rintro ⟨b, u₁⟩ ⟨_, u₂⟩ ⟨rfl, hb, hu⟩
  refine .bind_eq (hu.records.nodeWeight ha) fun wa _ => .bind_eq (hu.records.nodeWeight hb) fun wb _ => ?_
  exact hu.allocNode _ hm (by omega)

/-- The merge loop, each turn of which makes a record and lowers the queue by one, leaves as many records in both. -/
theorem Alike.mergeAll (turns : Nat) (h : Alike m m (n + 1) s₁ s₂) (hm : m + n ≤ Config.nodeCap)
    (hn : n + 1 ≤ Config.pqCap) :
    Follows (fun t₁ t₂ => ∃ m' n', n' + 1 ≤ Config.pqCap ∧ Alike m' m' (n' + 1) t₁ t₂)
      (mergeAll turns s₁) (mergeAll turns s₂) := by
  induction turns generalizing m n s₁ s₂ with
  | zero => exact .ok ⟨m, n, hn, h⟩
  | succ turns ih =>
    unfold Machine.mergeAll
    rw [h.hsize, h.items]
    split
    · exact .ok ⟨m, n, hn, h⟩
    · next hgt =>
      obtain ⟨n, rfl⟩ : ∃ j, n = j + 1 := ⟨n - 1, by omega⟩
      exact (h.mergeOnce (by omega) hn).bind fun t₁ t₂ ht => ih ht (by omega) (by omega)

/-- What two `BUILDTREE` on equal counts leave the same. -/
def SameTree (t₁ t₂ : State) : Prop :=
  t₁.ctr.nnodes = t₂.ctr.nnodes ∧ t₁.ctr.root = t₂.ctr.root ∧
    ∀ i, i < t₁.ctr.nnodes.toNat → t₁.tab.node.read i = t₂.tab.node.read i

theorem presentAmong_congr {freq₁ freq₂ : Memory Count} {syms : List Nat}
    (h : ∀ sym ∈ syms, freq₂.read sym = freq₁.read sym) : presentAmong freq₂ syms = presentAmong freq₁ syms := by
  induction syms with
  | nil => rfl
  | cons sym syms ih =>
    unfold presentAmong readEntry
    rw [h sym List.mem_cons_self, ih fun sym' hsym' => h sym' (List.mem_cons_of_mem sym hsym')]

theorem buildTree_sameTree (htie : s₁.par.tie = s₂.par.tie)
    (hfreq : ∀ i, i < 256 → s₁.tab.freq.read i = s₂.tab.freq.read i) :
    Follows SameTree (buildTree s₁) (buildTree s₂) := by
  refine .bind_eq (presentAmong_congr fun sym hsym => (hfreq sym (List.mem_range.1 hsym)).symm) fun pairs hp => ?_
  have hlen := symbolsPresent_length_le hp
  unfold Config.symbolCount at hlen
  have leaves := (Alike.start htie.symm).addLeaves pairs (by unfold Config.nodeCap; omega)
    (by unfold Config.pqCap; omega)
  cases pairs with
  | nil => exact .ok ⟨rfl, rfl, fun _ hi => absurd hi (Nat.not_lt_zero _)⟩
  | cons e es =>
    rw [List.length_cons, Nat.zero_add] at leaves
    rw [List.length_cons] at hlen
    refine leaves.bind fun t₁ t₂ ht => ?_
    rw [if_neg (by simp)]
    refine (ht.mergeAll _ (by unfold Config.nodeCap; omega) hlen).bind fun u₁ u₂ hu => ?_
    obtain ⟨m, n, hn, hu⟩ := hu
    refine (hu.pqPop hn).bind ?_
    rintro ⟨r, v₁⟩ ⟨_, v₂⟩ ⟨rfl, -, hv⟩
    exact .ok ⟨hv.nnodes.symm, rfl, fun i hi => (hv.records i (hv.nodes ▸ hi)).symm⟩

/-- What an issued `BUILDTREE` does when it completes. -/
theorem buildTree_of_exec {s t : State} (herr : s.reg.err = false) (h : exec .buildtree s = .next t) :
    buildTree (clearResultFlags s) = .ok t := by
  rcases issue_next h with ⟨h, -⟩ | ⟨-, u, hu, rfl⟩ | ⟨-, e, u, hu, rfl⟩
  · simp [herr] at h
  all_goals
    unfold buildtreeBody at hu
    cases hb : buildTree (clearResultFlags s) <;> simp [hb] at hu ⊢
  exact hu

/-- Settles O24: the queue is all that a merge depends on, and what the queue can see is the same in both. -/
theorem buildtreeIsDeterministic : Obligations.BuildtreeIsDeterministic := by
  intro s₁ s₂ t₁ t₂ herr₁ herr₂ htie hfreq ht₁ ht₂
  obtain ⟨t₂', ht₂', hsame⟩ := buildTree_sameTree (s₁ := clearResultFlags s₁) (s₂ := clearResultFlags s₂) htie hfreq
    t₁ (buildTree_of_exec herr₁ ht₁)
  rwa [Except.ok.inj ((buildTree_of_exec herr₂ ht₂).symm.trans ht₂')]

end Sys2Proof.Machine
end

section
/-! PROOFS. `BUILDCODES` (R185 to R188): the traversal assigns the paths of the leaves until a link is `NONE` or the path
gets too long, over whatever the links lead to. -/

namespace Sys2Proof.Machine

variable {s : State} {id : NodeId} {n : Node} {path : Code} {edges : Nat}

/-! ### The traversal, case by case -/

/-- Follow a link of the tree: one that is `NONE` is bad (R188). -/
def follow (edges : Nat) (id : NodeId) (path : Code) (s : State) : Res Unit :=
  if id = NONE then .raised .illegalState s else visit edges id path s

theorem follow_of_readNode (h : readNode s.tab.node id = .ok n) : follow edges id path s = visit edges id path s :=
  if_neg (readNode_ok.1 h).1

theorem visit_leaf (h : readNode s.tab.node id = .ok n) (hk : n.kind = .leaf) :
    visit edges id path s = .ok () (s.setCode n.symbol path) := by
  unfold visit
  rw [h, Res.lift_ok, Res.andThen_ok, hk]

theorem visit_too_deep (h : readNode s.tab.node id = .ok n) (hk : n.kind = .internal) :
    visit 0 id path s = .raised .illegalState s := by
  unfold visit
  rw [h, Res.lift_ok, Res.andThen_ok, hk]

theorem visit_internal (h : readNode s.tab.node id = .ok n) (hk : n.kind = .internal) :
    visit (edges + 1) id path s = (follow edges n.left (path ++ [false]) s).andThen fun _ t =>
      follow edges n.right (path ++ [true]) t := by
  rw [visit, h, Res.lift_ok, Res.andThen_ok, hk]
  unfold follow
  by_cases hl : n.left = NONE
  · simp [hl]
  · simp [hl]

/-! ### The codes assigned -/

/-- The block with codes written over `CODE` in order. -/
def State.assignCodes (s : State) (es : List (Byte × Code)) : State :=
  s.setTab { s.tab with code := writeAll s.tab.code (es.map fun e => (e.1.toNat, e.2)) }

theorem State.assignCodes_append (s : State) (es es' : List (Byte × Code)) :
    (s.assignCodes es).assignCodes es' = s.assignCodes (es ++ es') := by
  unfold State.assignCodes writeAll
  simp

/-- Following links assigns the codes of what they lead to, up to the first that is bad (R185, R188). -/
theorem follow_links (x : LinkTree) (h : linksAt s.tab.node x id = true) (hedges : path.length + edges = 255) :
    ((x.assign path).2 = .good → follow edges id path s = .ok () (s.assignCodes (x.assign path).1)) ∧
      ((x.assign path).2 = .badLink →
        follow edges id path s = .raised .illegalState (s.assignCodes (x.assign path).1)) := by
  induction x generalizing edges id path s with
  | leaf sym =>
    obtain ⟨n, hn, hk, rfl⟩ := linksAt_leaf.1 h
    rw [follow_of_readNode hn, visit_leaf hn hk]
    exact ⟨fun _ => rfl, (fun h => nomatch h)⟩
  | missing => exact ⟨(fun h => nomatch h), fun _ => if_pos (of_decide_eq_true h)⟩
  | unexplored => exact ⟨(fun h => nomatch h), (fun h => nomatch h)⟩
  | node l r ihl ihr =>
    obtain ⟨n, hn, hk, hl, hr⟩ := linksAt_node.1 h
    rw [follow_of_readNode hn]
    cases edges with
    | zero =>
      rw [visit_too_deep hn hk, LinkTree.assign, if_neg (by omega)]
      exact ⟨(fun h => nomatch h), fun _ => rfl⟩
    | succ k =>
      have hbit : ∀ b, (path ++ [b]).length + k = 255 := fun b => by
        rw [List.length_append, List.length_singleton]
        omega
      obtain ⟨hgood, hbad⟩ := ihl hl (hbit false)
      rw [visit_internal hn hk, LinkTree.assign, if_pos (by omega)]
      generalize l.assign (path ++ [false]) = left at hgood hbad
      obtain ⟨es, ending⟩ := left
      cases ending with
      | good =>
        have hright := ihr (s := s.assignCodes es) hr (hbit true)
        rw [hgood rfl]
        dsimp only [Res.andThen_ok]
        rwa [State.assignCodes_append] at hright
      | badLink =>
        rw [hbad rfl]
        exact ⟨(fun h => nomatch h), fun _ => rfl⟩
      | bitsOut => exact ⟨(fun h => nomatch h), (fun h => nomatch h)⟩
      | unknown => exact ⟨(fun h => nomatch h), (fun h => nomatch h)⟩

/-- A tree within the depth bound has its paths assigned (R186). -/
theorem HTree.assign_toLinks (x : HTree) (h : path.length + x.depth ≤ 255) :
    x.toLinks.assign path = (x.paths path, .good) := by
  induction x generalizing path with
  | leaf sym => rfl
  | node l r ihl ihr =>
    rw [HTree.depth] at h
    have hbit : ∀ b, (path ++ [b]).length = path.length + 1 := fun b => by
      rw [List.length_append, List.length_singleton]
    have hl := ihl (path := path ++ [false]) (by rw [hbit]; omega)
    have hr := ihr (path := path ++ [true]) (by rw [hbit]; omega)
    rw [HTree.toLinks, LinkTree.assign, if_pos (by omega), hl, hr]
    rfl

/-! ### The operation -/

/-- What `BUILDCODES` clears first (R185). -/
def clearCodes (s : State) : State := s.setTab { s.tab with code := Memory.fill Config.symbolCount [] }

theorem buildcodesBody_none (h : s.ctr.root = NONE) : buildcodesBody s = .ok () (clearCodes s) := if_pos h

/-- A root that is a leaf gets the one-bit code "0" (R187). -/
theorem buildcodesBody_leaf (h : readNode s.tab.node s.ctr.root = .ok n) (hk : n.kind = .leaf) :
    buildcodesBody s = .ok () ((clearCodes s).assignCodes [(n.symbol, [false])]) := by
  have hroot : (clearCodes s).ctr.root ≠ NONE := (readNode_ok.1 h).1
  refine (if_neg hroot).trans ?_
  rw [State.setTab_tab, State.setTab_ctr, h, Res.lift_ok, Res.andThen_ok, hk]
  rfl

theorem buildcodesBody_internal (h : readNode s.tab.node s.ctr.root = .ok n) (hk : n.kind = .internal) :
    buildcodesBody s = follow Config.maxDepth s.ctr.root [] (clearCodes s) := by
  have hroot : (clearCodes s).ctr.root ≠ NONE := (readNode_ok.1 h).1
  refine (if_neg hroot).trans ?_
  rw [State.setTab_tab, State.setTab_ctr, h, Res.lift_ok, Res.andThen_ok, hk]
  exact (if_neg hroot).symm

/-- `BUILDCODES` over links whose root is an internal node. -/
theorem buildcodesBody_links {l r : LinkTree} (h : linksAt s.tab.node (.node l r) s.ctr.root = true) :
    let codes := (LinkTree.node l r).assign []
    (codes.2 = .good → buildcodesBody s = .ok () ((clearCodes s).assignCodes codes.1)) ∧
      (codes.2 = .badLink → buildcodesBody s = .raised .illegalState ((clearCodes s).assignCodes codes.1)) := by
  obtain ⟨n, hn, hk, -⟩ := linksAt_node.1 h
  rw [buildcodesBody_internal hn hk]
  exact follow_links (s := clearCodes s) (.node l r) h rfl

/-- `BUILDCODES` over a tree (R185 to R187). -/
theorem buildcodesBody_tree {x : HTree} (h : treeAt s.tab.node x s.ctr.root = true) (hdepth : x.depth ≤ 255) :
    buildcodesBody s = .ok () ((clearCodes s).assignCodes x.codes) := by
  cases x with
  | leaf sym =>
    obtain ⟨n, hn, hk, rfl⟩ := treeAt_leaf.1 h
    exact buildcodesBody_leaf hn hk
  | node l r =>
    rw [← linksAt_toLinks] at h
    obtain ⟨hgood, -⟩ := buildcodesBody_links h
    have hassign := HTree.assign_toLinks (path := []) (.node l r) (by simpa using hdepth)
    rw [HTree.toLinks] at hassign
    rw [hassign] at hgood
    exact hgood rfl

/-- Settles O26: over a tree within the depth bound no link is bad. -/
theorem buildcodesAssignsPaths : Obligations.BuildcodesAssignsPaths := fun s herr =>
  ⟨fun hroot => issue_ok herr (buildcodesBody_none (s := clearResultFlags s) hroot),
    fun _ htree hdepth => issue_ok herr (buildcodesBody_tree (s := clearResultFlags s) htree hdepth)⟩

end Sys2Proof.Machine
end

section
/-! PROOFS. The codes of a built tree (R101, R191): `CODE` holds the path of every symbol present and no other code, no
path begins another, and no other such assignment makes the payload shorter. -/

namespace Sys2Proof.Machine

variable {s t u : State} {pairs : List (Nat × Count)} {freq : Memory Count}

/-! ### A table written over -/

section WriteAll
variable {α : Type} {es : List (Nat × α)} {i : Nat} {v : α}

theorem writeAll_cons (m : Memory α) (e : Nat × α) (es : List (Nat × α)) :
    writeAll m (e :: es) = writeAll (m.write e.1 e.2) es := rfl

theorem read_writeAll_of_notMem (m : Memory α) (h : i ∉ es.map (·.1)) : (writeAll m es).read i = m.read i := by
  induction es generalizing m with
  | nil => rfl
  | cons e es ih =>
    rw [List.map_cons, List.mem_cons, not_or] at h
    rw [writeAll_cons, ih _ h.2, Memory.read_write_other _ _ h.1]

theorem read_writeAll_of_mem (m : Memory α) (hnodup : (es.map (·.1)).Nodup) (h : (i, v) ∈ es) :
    (writeAll m es).read i = some v := by
  induction es generalizing m with
  | nil => exact absurd h List.not_mem_nil
  | cons e es ih =>
    obtain ⟨hnew, hnodup⟩ := List.nodup_cons.1 hnodup
    rcases List.mem_cons.1 h with rfl | h
    · rw [writeAll_cons, read_writeAll_of_notMem _ hnew, Memory.read_write_same]
    · exact ih _ hnodup h

end WriteAll

/-! ### The codes of a tree -/

theorem HTree.codes_map_fst (x : HTree) : x.codes.map (·.1) = x.leaves := by
  cases x with
  | leaf sym => rfl
  | node l r => exact HTree.paths_map_fst _ []

theorem HTree.ne_nil_of_mem_codes {x : HTree} {e : Byte × Code} (he : e ∈ x.codes) : e.2 ≠ [] := by
  cases x with
  | leaf sym =>
    rw [List.mem_singleton.1 he]
    exact List.cons_ne_nil _ _
  | node l r => exact HTree.ne_nil_of_mem_paths_node he

theorem HTree.codes_apart (x : HTree) : x.codes.Pairwise Apart := by
  cases x with
  | leaf sym => exact List.pairwise_singleton _ _
  | node l r => exact HTree.paths_apart _ []

/-- With at least two leaves a code is the path. -/
theorem HTree.codes_eq_paths {x : HTree} (h : 2 ≤ x.leaves.length) : x.codes = x.paths [] := by
  cases x with
  | leaf sym => exact absurd h (by simp [HTree.leaves])
  | node l r => rfl

/-! ### `CODE` after both operations -/

/-- What the symbols of the alphabet read as in `CODE` when it holds the codes of a tree and no others. -/
structure HoldsCodes (code : Memory Code) (x : HTree) : Prop where
  mem : ∀ e ∈ x.codes, code.read e.1.toNat = some e.2
  other : ∀ i, i < 256 → (∀ sym ∈ x.leaves, sym.toNat ≠ i) → code.read i = some []
  beyond : ∀ i, 256 ≤ i → code.read i = none

theorem holdsCodes_assignCodes (s : State) {x : HTree} (h : x.leaves.Nodup) :
    HoldsCodes ((clearCodes s).assignCodes x.codes).tab.code x := by
  have hkeys : (x.codes.map fun e => (e.1.toNat, e.2)).map (·.1) = x.leaves.map BitVec.toNat := by
    rw [← HTree.codes_map_fst, List.map_map, List.map_map]
    rfl
  refine ⟨fun e he => ?_, fun i hi hne => ?_, fun i hi => ?_⟩
  · refine read_writeAll_of_mem _ ?_ (List.mem_map_of_mem (f := fun e : Byte × Code => (e.1.toNat, e.2)) he)
    rw [hkeys]
    exact h.map fun _ _ => BitVec.eq_of_toNat_eq
  · refine (read_writeAll_of_notMem _ ?_).trans ((Memory.read_fill _ _ _).trans (if_pos hi))
    rw [hkeys, List.mem_map]
    rintro ⟨sym, hsym, heq⟩
    exact hne sym hsym heq
  · refine (read_writeAll_of_notMem _ ?_).trans ((Memory.read_fill _ _ _).trans (if_neg (Nat.not_lt.2 hi)))
    rw [hkeys, List.mem_map]
    rintro ⟨sym, -, rfl⟩
    exact absurd sym.isLt (Nat.not_lt.2 hi)

/-- The leaves of the built tree are different symbols. -/
theorem Merges.leaves_nodup {f : Byte → Nat} {x : HTree} (h : Merges f ((presentPairs freq).map leafTree) x) :
    x.leaves.Nodup := by
  have hsymbols := h.symbols_perm.nodup_iff.2 (presentPairs_nodup freq)
  rw [← HTree.paths_map_fst x []]
  refine List.Nodup.of_map BitVec.toNat ?_
  rwa [List.map_map]

theorem Merges.length_leaves {f : Byte → Nat} {x : HTree} (h : Merges f (pairs.map leafTree) x) :
    x.leaves.length = pairs.length := by
  rw [h.leaves_present.length_eq, List.length_map]

theorem Built.err (h : Built s pairs t) : t.reg.err = s.reg.err := by rw [h.reg]

/-- After `BUILDTREE` and `BUILDCODES`, with a symbol present, `CODE` holds the codes of a tree that merging the leaves
gives. -/
theorem exec_buildtree_buildcodes (herr : s.reg.err = false) (hfilled : s.tab.freq.filled 256 = true)
    (hne : presentPairs s.tab.freq ≠ []) :
    ∃ t u x, exec .buildtree s = .next t ∧ exec .buildcodes t = .next u ∧
      Merges (countOf s.tab.freq) ((presentPairs s.tab.freq).map leafTree) x ∧ HoldsCodes u.tab.code x := by
  obtain ⟨t, ht, hbuilt⟩ := exec_buildtree_of_filled herr hfilled
  obtain ⟨-, -, x, hx, hmerges⟩ := hbuilt.tree hne
  have hdepth : x.depth ≤ 255 := by
    have hlt := x.depth_lt_length_leaves
    have hle := length_presentPairs_le s.tab.freq
    rw [hmerges.length_leaves] at hlt
    omega
  exact ⟨t, _, x, ht, issue_ok (hbuilt.err.trans herr) (buildcodesBody_tree (s := clearResultFlags t) hx hdepth),
    hmerges, holdsCodes_assignCodes _ hmerges.leaves_nodup⟩

/-- A symbol is a leaf of the built tree exactly when it is present. -/
theorem Merges.mem_leaves_iff {f : Byte → Nat} {x : HTree} (h : Merges f ((presentPairs freq).map leafTree) x)
    {i : Nat} :
    (∃ sym ∈ x.leaves, sym.toNat = i) ↔ ∃ e ∈ presentPairs freq, e.1 = i := by
  constructor
  · rintro ⟨sym, hsym, rfl⟩
    obtain ⟨e, he, rfl⟩ := List.mem_map.1 (h.leaves_present.mem_iff.1 hsym)
    exact ⟨e, he, (toNat_symbol he).symm⟩
  · rintro ⟨e, he, rfl⟩
    exact ⟨_, h.leaves_present.mem_iff.2 (List.mem_map_of_mem he), toNat_symbol he⟩

/-! ### Prefix-freeness -/

/-- A code in the table is one of the tree's, or empty. -/
theorem HoldsCodes.read_cases {code : Memory Code} {x : HTree} (h : HoldsCodes code x) {i : Nat} {c : Code}
    (hc : code.read i = some c) : (∃ e ∈ x.codes, e.1.toNat = i ∧ e.2 = c) ∨ c = [] := by
  rcases Nat.lt_or_ge i 256 with hi | hi
  · by_cases hsym : ∃ sym ∈ x.leaves, sym.toNat = i
    · obtain ⟨sym, hsym, rfl⟩ := hsym
      rw [← HTree.codes_map_fst] at hsym
      obtain ⟨e, he, rfl⟩ := List.mem_map.1 hsym
      exact .inl ⟨e, he, rfl, Option.some.inj ((h.mem e he).symm.trans hc)⟩
    · exact .inr (Option.some.inj (hc.symm.trans (h.other i hi fun sym hmem heq => hsym ⟨sym, hmem, heq⟩)))
  · rw [h.beyond i hi] at hc
    exact nomatch hc

theorem apart_symm : Std.Symm Apart := ⟨fun _ _ h => ⟨h.2, h.1⟩⟩

theorem HoldsCodes.not_prefix {code : Memory Code} {x : HTree} (h : HoldsCodes code x) {i j : Nat} {c d : Code}
    (hij : i ≠ j) (hc : code.read i = some c) (hd : code.read j = some d) (hne : c ≠ []) : c.isPrefixOf d = false := by
  obtain ⟨e, he, rfl, rfl⟩ := (h.read_cases hc).resolve_right hne
  refine Bool.eq_false_of_not_eq_true fun hprefix => ?_
  have hprefix := List.isPrefixOf_iff_prefix.1 hprefix
  rcases h.read_cases hd with ⟨e', he', rfl, rfl⟩ | rfl
  · have := apart_symm
    exact ((HTree.codes_apart x).forall he he' (fun heq => hij (heq ▸ rfl))).1 hprefix
  · exact hne (List.prefix_nil.1 hprefix)

/-- A symbol of the alphabet has a code when it is a leaf. -/
theorem HoldsCodes.read_symbol {code : Memory Code} {x : HTree} (h : HoldsCodes code x) {i : Nat} (hi : i < 256) :
    ∃ c, code.read i = some c ∧ (c ≠ [] ↔ ∃ sym ∈ x.leaves, sym.toNat = i) ∧
      (2 ≤ x.leaves.length → c.length < x.leaves.length) := by
  by_cases hsym : ∃ sym ∈ x.leaves, sym.toNat = i
  · have ⟨sym, hmem, heq⟩ := hsym
    rw [← HTree.codes_map_fst] at hmem
    obtain ⟨e, he, rfl⟩ := List.mem_map.1 hmem
    refine ⟨e.2, heq ▸ h.mem e he, iff_of_true (HTree.ne_nil_of_mem_codes he) hsym, fun htwo => ?_⟩
    rw [HTree.codes_eq_paths htwo] at he
    have hle := HTree.length_le_of_mem_paths he
    rw [List.length_nil, Nat.zero_add] at hle
    exact hle.trans_lt x.depth_lt_length_leaves
  · refine ⟨[], h.other i hi fun sym hmem heq => hsym ⟨sym, hmem, heq⟩, iff_of_false (fun h => h rfl) hsym,
      fun htwo => ?_⟩
    rw [List.length_nil]
    omega

/-- The symbols present are those with a count above zero. -/
theorem exists_present_iff {i : Nat} (hi : i < 256) :
    (∃ e ∈ presentPairs freq, e.1 = i) ↔ ∃ c, freq.read i = some c ∧ c ≠ 0#32 := by
  constructor
  · rintro ⟨e, he, rfl⟩
    exact ⟨e.2, (mem_presentPairs.1 he).2⟩
  · rintro ⟨c, hc⟩
    exact ⟨(i, c), mem_presentPairs.2 ⟨hi, hc⟩, rfl⟩

/-- Settles O28: the codes are the paths of one tree, whose leaves are the symbols present. -/
theorem builtCodesArePrefixFree : Obligations.BuiltCodesArePrefixFree := by
  intro s herr hfilled
  by_cases hne : presentPairs s.tab.freq = []
  · obtain ⟨t, ht, hbuilt⟩ := exec_buildtree_of_filled herr hfilled
    refine ⟨t, clearCodes (clearResultFlags t), ht, issue_ok (hbuilt.err.trans herr)
      (buildcodesBody_none (s := clearResultFlags t) (hbuilt.none hne).1), ?_, fun i hi => ?_⟩
    · intro i j c d _ hc _ hcne
      have hread := (Memory.read_fill _ _ _).symm.trans hc
      split at hread
      · exact absurd (Option.some.inj hread).symm hcne
      · exact nomatch hread
    · refine ⟨[], (Memory.read_fill _ _ _).trans (if_pos hi), ?_, fun _ => Nat.zero_le _⟩
      rw [← exists_present_iff hi, hne]
      simp
  · obtain ⟨t, u, x, ht, hu, hmerges, hcodes⟩ := exec_buildtree_buildcodes herr hfilled hne
    refine ⟨t, u, ht, hu, fun i j c d hij hc hd hcne => hcodes.not_prefix hij hc hd hcne, fun i hi => ?_⟩
    obtain ⟨c, hc, hiff, hlen⟩ := hcodes.read_symbol hi
    refine ⟨c, hc, hiff.trans (hmerges.mem_leaves_iff.trans (exists_present_iff hi)), fun htwo => ?_⟩
    rw [hmerges.length_leaves] at hlen
    exact Nat.le_sub_one_of_lt (hlen htwo)

/-! ### Optimality -/

/-- A code without the empty word in which no word begins another can be read in one way only. -/
theorem uniquelyDecodable_of_prefixFree {S : Set Code} (hempty : [] ∉ S)
    (hfree : ∀ c ∈ S, ∀ d ∈ S, c <+: d → c = d) : InformationTheory.UniquelyDecodable S := by
  intro cs ds hcs hds heq
  induction cs generalizing ds with
  | nil =>
    cases ds with
    | nil => rfl
    | cons d ds =>
      obtain ⟨rfl, -⟩ := List.append_eq_nil_iff.1 heq.symm
      exact absurd (hds [] List.mem_cons_self) hempty
  | cons c cs ih =>
    obtain ⟨hc, hcs⟩ := List.forall_mem_cons.1 hcs
    cases ds with
    | nil =>
      obtain ⟨rfl, -⟩ := List.append_eq_nil_iff.1 heq
      exact absurd hc hempty
    | cons d ds =>
      obtain ⟨hd, hds'⟩ := List.forall_mem_cons.1 hds
      rw [List.flatten_cons, List.flatten_cons] at heq
      obtain rfl : c = d := by
        rcases List.prefix_or_prefix_of_prefix (List.prefix_append c _) (heq ▸ List.prefix_append d _) with h | h
        · exact hfree c hc d hd h
        · exact (hfree d hd c hc h).symm
      rw [ih ds hcs hds' (List.append_cancel_left heq)]

/-- The lengths of different codes none of which begins another leave room for all of them (Kraft). -/
theorem kraftSum_le_one {codes : List Code} (hnodup : codes.Nodup) (hempty : [] ∉ codes)
    (hfree : ∀ c ∈ codes, ∀ d ∈ codes, c <+: d → c = d) : kraftSum (codes.map List.length) ≤ 1 := by
  have hdecodable : InformationTheory.UniquelyDecodable (codes.toFinset : Set Code) :=
    uniquelyDecodable_of_prefixFree (by simpa using hempty) (by simpa using hfree)
  have hkraft := InformationTheory.kraft_mcmillan_inequality hdecodable
  rw [List.sum_toFinset _ hnodup, Fintype.card_bool] at hkraft
  rw [kraftSum, List.map_map]
  exact hkraft

/-- An assignment of codes to the symbols present in which no code begins another's. -/
def PrefixFree (pairs : List (Nat × Count)) (c : Nat → Code) : Prop :=
  ∀ d ∈ pairs, ∀ e ∈ pairs, d.1 ≠ e.1 → (c d.1).isPrefixOf (c e.1) = false

theorem PrefixFree.kraftSum_le {c : Nat → Code} (h : PrefixFree pairs c) (hnodup : (pairs.map (·.1)).Nodup)
    (htwo : 2 ≤ pairs.length) : kraftSum (pairs.map fun e => (c e.1).length) ≤ 1 := by
  have hsame : ∀ d ∈ pairs, ∀ e ∈ pairs, c d.1 <+: c e.1 → d.1 = e.1 := fun d hd e he hprefix => by
    by_contra hne
    rw [← List.isPrefixOf_iff_prefix, h d hd e he hne] at hprefix
    exact Bool.false_ne_true hprefix
  have hlengths : (pairs.map fun e => (c e.1).length) = (((pairs.map (·.1)).map c).map List.length) := by
    rw [List.map_map, List.map_map]
    rfl
  rw [hlengths]
  refine kraftSum_le_one ?_ ?_ ?_
  · refine hnodup.map_on ?_
    simp only [List.forall_mem_map]
    exact fun d hd e he heq => hsame d hd e he (heq ▸ List.prefix_rfl)
  · intro hempty
    simp only [List.mem_map] at hempty
    obtain ⟨_, ⟨d, hd, rfl⟩, hnil⟩ := hempty
    have hall : ∀ i ∈ pairs.map (·.1), i = d.1 := by
      simp only [List.forall_mem_map]
      exact fun e he => (hsame d hd e he (hnil ▸ List.nil_prefix)).symm
    have hone := (List.nodup_iff_count_le_one.1 hnodup) d.1
    rw [List.count_eq_length.2 fun i hi => (hall i hi).symm, List.length_map] at hone
    omega
  · simp only [List.forall_mem_map]
    exact fun d hd e he hprefix => congrArg c (hsame d hd e he hprefix)

/-- The bits of the payload that a symbol takes by the codes in a table. -/
def payloadBits (freq : Memory Count) (code : Memory Code) (sym : Byte) : Nat :=
  countOf freq sym * ((code.read sym.toNat).getD []).length

/-- The payload the codes in the table give is the cost of the tree. -/
theorem HoldsCodes.payload {code : Memory Code} {x : HTree} (h : HoldsCodes code x)
    (hmerges : Merges (countOf freq) ((presentPairs freq).map leafTree) x) (htwo : 2 ≤ (presentPairs freq).length) :
    ((presentPairs freq).map fun e => e.2.toNat * ((code.read e.1).getD []).length).sum = x.cost (countOf freq) := by
  have hpath : ∀ e ∈ x.paths [], code.read e.1.toNat = some e.2 := by
    rw [← HTree.codes_eq_paths (hmerges.length_leaves.symm ▸ htwo)]
    exact h.mem
  calc ((presentPairs freq).map fun e => e.2.toNat * ((code.read e.1).getD []).length).sum
      = (((presentPairs freq).map fun e => BitVec.ofNat 8 e.1).map (payloadBits freq code)).sum := by
        rw [List.map_map]
        refine congrArg List.sum (List.map_congr_left fun e he => ?_)
        simp only [Function.comp, payloadBits, countOf_present he, toNat_symbol he]
    _ = (x.leaves.map (payloadBits freq code)).sum := ((hmerges.leaves_present.map (payloadBits freq code)).sum_eq).symm
    _ = ((x.paths []).map fun e => countOf freq e.1 * e.2.length).sum := by
        rw [← HTree.paths_map_fst x [], List.map_map]
        refine congrArg List.sum (List.map_congr_left fun e he => ?_)
        simp only [Function.comp, payloadBits, hpath e he, Option.getD_some]
    _ = x.cost (countOf freq) := by
        rw [HTree.sum_paths, List.length_nil, Nat.mul_zero, Nat.zero_add]

/-- What the forest of leaves costs is the payload the lengths give. -/
theorem forestCost_leaves (c : Nat → Code) :
    forestCost (countOf freq) ((presentPairs freq).map fun e => (leafTree e, (c e.1).length)) =
      ((presentPairs freq).map fun e => e.2.toNat * (c e.1).length).sum := by
  rw [forestCost, List.map_map]
  refine congrArg List.sum (List.map_congr_left fun e he => ?_)
  simp only [Function.comp, leafTree, HTree.cost, HTree.weight_leaf, countOf_present he, Nat.zero_add]

/-- Settles O29: merging keeps the lower bound that Kraft's inequality gives for the leaves. -/
theorem builtCodesAreOptimal : Obligations.BuiltCodesAreOptimal := by
  intro s herr hfilled pairs htwo
  have hne : presentPairs s.tab.freq ≠ [] := List.length_pos_iff.1 (Nat.lt_of_lt_of_le Nat.two_pos htwo)
  obtain ⟨t, u, x, ht, hu, hmerges, hcodes⟩ := exec_buildtree_buildcodes herr hfilled hne
  refine ⟨t, u, ht, hu, fun c hfree => ?_⟩
  have hroom := PrefixFree.kraftSum_le hfree (presentPairs_nodup _) htwo
  have hcost := hmerges.cost_le (ps := (presentPairs s.tab.freq).map fun e => (leafTree e, (c e.1).length))
    (.of_eq (by rw [List.map_map]; rfl)) (by rwa [List.map_map])
  rwa [forestCost_leaves, ← hcodes.payload hmerges htwo] at hcost

end Sys2Proof.Machine
end

section
/-! PROOFS. Where the tables leave no result (R190, R161, R303): the machine stops. -/

namespace Sys2Proof.Machine

variable {s t : State} {freq : Memory Count}

/-- The scan of the alphabet stops at the first entry that nothing has written (R190). -/
theorem presentAmong_stops {syms : List Nat} (h : ∃ sym ∈ syms, freq.read sym = none) :
    ∃ sym ∈ syms, freq.read sym = none ∧ presentAmong freq syms = .error (.unwrittenEntry .freq sym) := by
  induction syms with
  | nil => obtain ⟨_, hmem, _⟩ := h; cases hmem
  | cons sym syms ih =>
    cases hsym : freq.read sym with
    | none => exact ⟨sym, List.mem_cons_self, hsym, by simp only [presentAmong, readEntry, hsym]; rfl⟩
    | some c =>
      have hrest : ∃ sym ∈ syms, freq.read sym = none := by
        obtain ⟨i, hmem, hi⟩ := h
        refine ⟨i, (List.mem_cons.1 hmem).resolve_left ?_, hi⟩
        rintro rfl
        exact nomatch hsym.symm.trans hi
      obtain ⟨i, hmem, hi, hstop⟩ := ih hrest
      exact ⟨i, List.mem_cons_of_mem sym hmem, hi, by simp only [presentAmong, readEntry, hsym, hstop]; rfl⟩

/-- A table not filled has an entry below the bound that nothing has written. -/
theorem exists_unwritten_of_not_filled {n : Nat} (h : freq.filled n = false) :
    ∃ sym ∈ List.range n, freq.read sym = none := by
  by_contra hall
  have hfilled : freq.filled n = true := (freq.filled_iff n).2 fun i hi =>
    Option.ne_none_iff_exists'.1 fun hnone => hall ⟨i, List.mem_range.2 hi, hnone⟩
  exact nomatch h.symm.trans hfilled

/-- `PQDELMIN` on a queue whose contract the host has broken (R161, U11). -/
theorem exec_pqdelmin_of_broken (herr : s.reg.err = false) (hsize : s.ctr.hsize ≠ 0#9) (h : s.pq.intact = false) :
    exec .pqdelmin s = .fault .queueKeyRewritten := by
  have hpop : pqPop (clearResultFlags s) = .error .queueKeyRewritten :=
    if_neg (by rw [clearResultFlags_pq, h]; exact Bool.false_ne_true)
  have hbody : pqdelminBody (clearResultFlags s) = .stop .queueKeyRewritten := by
    rw [pqdelminBody, clearResultFlags_ctr, if_neg hsize, hpop]
    rfl
  exact (issue_run herr).trans (congrArg finish hbody)

/-- A host that gives the record of a queued node another weight breaks the queue's contract (R161, R303). -/
theorem writeEntry_node_breaks {idx : Nat} {v : Entry} {n : Node} (hqueued : s.queued idx = true)
    (hread : s.tab.node.read idx = some n) (hweight : (Node.unpack s.par.wW v).weight ≠ n.weight) :
    (s.writeEntry .node idx v).pq.intact = false := by
  have hbreaks : (s.tab.node.read idx).map (·.weight) ≠ some (Node.unpack s.par.wW v).weight := by
    rw [hread]
    exact fun h => hweight (Option.some.inj h).symm
  rw [writeEntry_node, State.setPq_pq, hqueued, decide_eq_true hbreaks]
  rfl

/-- Settles O25: the scan of the alphabet meets the unwritten entry, and the host's write is recorded in the queue. -/
theorem undefinedTableContentsStop : Obligations.UndefinedTableContentsStop := by
  refine ⟨fun s herr hfilled => ?_, fun s idx v rest n hscript herr hsize hqueued hidx hread hweight => ?_⟩
  · obtain ⟨i, hmem, hi, hstop⟩ := presentAmong_stops (exists_unwritten_of_not_filled hfilled)
    have hbuild : buildTree (clearResultFlags s) = .error (.unwrittenEntry .freq i) := by
      simp only [buildTree, symbolsPresent, clearResultFlags_tab, Config.symbolCount, hstop]
      rfl
    have hbody : buildtreeBody (clearResultFlags s) = .stop (.unwrittenEntry .freq i) := by
      rw [buildtreeBody, hbuild]
      rfl
    exact ⟨i, List.mem_range.1 hmem, hi, (issue_run herr).trans (congrArg finish hbody)⟩
  · have hstep := step_tblWrite hscript
    rw [writeTable_inside v hidx] at hstep
    have hbroken := writeEntry_node_breaks (s := s.popScript rest) hqueued hread hweight
    obtain ⟨x, log, hwrite, -⟩ := writeEntry_cases (s.popScript rest) .node idx v
    rw [hwrite] at hstep hbroken
    exact ⟨_, hstep, exec_pqdelmin_of_broken herr hsize hbroken⟩

end Sys2Proof.Machine
end

section
/-! PROOFS. Links that lead nowhere (R188, R202): `BUILDCODES` and `WALK` over records with a `NONE` link, the walk
followed bit by bit from any state inside it. -/

namespace Sys2Proof.Machine

variable {s t u : State} {root pos l r : LinkTree} {b : Bool} {bits : List Bool} {out out' : List Byte}

/-! ### A walk that nothing fails -/

theorem length_readableBits (s : State) : s.readableBits.length = s.bitsLeft := by
  simp [State.readableBits, State.pendingRead, State.bitsLeft, byteBits, Nat.mul_comm]

/-- From `s` on the bytes `out` have been written and counted, and the host registers are as they were. -/
structure Advanced (s : State) (out : List Byte) (t : State) : Prop extends Emitted s out [] t where
  reg : t.reg = s.reg

theorem Advanced.trans (h : Advanced s out t) (h' : Advanced t out' u) : Advanced s (out ++ out') u where
  toEmitted := h.toEmitted.trans h'.toEmitted
  reg := h'.reg.trans h.reg

/-- Inside a walk over `bits`: nothing fails, and the links from the root and from the walk's position lead where `root`
and `pos` say. -/
structure WalkingLinks (root pos : LinkTree) (bits : List Bool) (s : State) : Prop extends Reading bits s where
  fits : s.ctr.decoded.toNat ≤ s.ctr.osize.toNat
  rootLinks : linksAt s.tab.node root s.ctr.root = true
  posLinks : linksAt s.tab.node pos s.ctr.cur = true

/-- The walk at another position, nothing emitted. -/
theorem WalkingLinks.move {c : NodeId} {pos' : LinkTree} (h : WalkingLinks root pos bits s)
    (hc : linksAt s.tab.node pos' c = true) :
    WalkingLinks root pos' bits (s.setCtr { s.ctr with cur := c }) ∧
      Advanced s [] (s.setCtr { s.ctr with cur := c }) where
  left := { h with posLinks := hc }
  right := { toEmitted := .nil rfl rfl rfl rfl h.fits, reg := rfl }

/-- A turn of the loop of `WALK` reads its bit and makes the step (R201). -/
theorem walkLoop_turn {k : Nat} (h : WalkingLinks root pos (b :: bits) s) (hlt : s.ctr.decoded < s.ctr.osize) :
    ∃ t, walkLoop (k + 1) s = ((walkStep b t).andThen fun _ u => walkLoop k u) ∧ WalkingLinks root pos bits t ∧
      Advanced s [] t ∧ t.ctr = s.ctr := by
  obtain ⟨t, hread, hreading⟩ := readBit_reading h.toReading
  have hframe := readBit_frame s
  have hreg := readBit_regs (s := s) (Q := (· = s.reg)) rfl
  rw [hread] at hframe hreg
  obtain ⟨hsnk, hwr, hctr, htab⟩ := hframe
  refine ⟨t, ?_, ⟨hreading, hctr ▸ h.fits, ?_, ?_⟩, ⟨.nil hsnk hwr (hctr ▸ rfl) (hctr ▸ rfl) h.fits, hreg⟩, hctr⟩
  · rw [walkLoop, if_pos hlt, hread]
    rfl
  · rw [htab, hctr]
    exact h.rootLinks
  · rw [htab, hctr]
    exact h.posLinks

/-! ### The step, by what the link taken leads to -/

/-- The record at the walk's position is internal, and the link the bit selects leads where the subtree says. -/
theorem WalkingLinks.child (h : WalkingLinks root (.node l r) bits s) :
    ∃ n, readNode s.tab.node s.ctr.cur = .ok n ∧
      linksAt s.tab.node (if b then r else l) (if b then n.right else n.left) = true := by
  obtain ⟨n, hn, -⟩ := linksAt_node.1 h.posLinks
  exact ⟨n, hn, linksAt_child h.posLinks hn⟩

theorem walkStep_missing (h : WalkingLinks root (.node l r) bits s) (hchild : (if b then r else l) = .missing) :
    walkStep b s = .raised .illegalState (s.setCtr { s.ctr with cur := NONE }) := by
  obtain ⟨n, hn, hlink⟩ := h.child (b := b)
  rw [hchild] at hlink
  have hnone : (if b then n.right else n.left) = NONE := of_decide_eq_true hlink
  simp only [walkStep, hn, Res.lift_ok, Res.andThen_ok, hnone, if_true]

theorem walkStep_node {l' r' : LinkTree} (h : WalkingLinks root (.node l r) bits s)
    (hchild : (if b then r else l) = .node l' r') :
    ∃ t, walkStep b s = .ok () t ∧ WalkingLinks root (.node l' r') bits t ∧ Advanced s [] t ∧
      t.ctr.decoded = s.ctr.decoded ∧ t.ctr.osize = s.ctr.osize := by
  obtain ⟨n, hn, hlink⟩ := h.child (b := b)
  rw [hchild] at hlink
  obtain ⟨m, hm, hk, -⟩ := linksAt_node.1 hlink
  obtain ⟨hwalking, hadv⟩ := h.move hlink
  refine ⟨_, ?_, hwalking, hadv, rfl, rfl⟩
  simp only [walkStep, hn, Res.lift_ok, Res.andThen_ok, (readNode_ok.1 hm).1, if_false, State.setCtr_tab, hm, hk]

/-- A symbol written and counted, the walk set back to the root (R202). -/
theorem WalkingLinks.emit {sym : Byte} (h : WalkingLinks root pos bits s) (hlt : s.ctr.decoded < s.ctr.osize) :
    ∃ t, snkWrite sym s = .ok () t ∧
      let u := t.setCtr { t.ctr with cur := t.ctr.root, decoded := t.ctr.decoded + 1#32 }
      WalkingLinks root root bits u ∧ Advanced s [sym] u := by
  have hwrite := snkWrite_ok sym (noFailure_access h.noFailure)
  rcases snkWrite_emits sym hlt with ⟨t, ht, hctr, htab, hbits, hemits⟩ | ⟨_, _, hraised, -⟩
  · obtain rfl : _ = t := ((Res.ok.injEq ..).mp (hwrite.symm.trans ht)).2
    have hemitted := hemits s.ctr.root
    have hleft := hbits.trans h.readable
    exact ⟨_, ht, ⟨⟨h.noError, h.held, noFailure_drop h.noFailure 1 List.drop_one.symm, hleft⟩,
      hemitted.fits, h.rootLinks, h.rootLinks⟩, hemitted, rfl⟩
  · exact nomatch hwrite.symm.trans hraised

theorem walkStep_leaf {sym : Byte} (h : WalkingLinks root (.node l r) bits s) (hlt : s.ctr.decoded < s.ctr.osize)
    (hchild : (if b then r else l) = .leaf sym) :
    ∃ t, walkStep b s = .ok () t ∧ WalkingLinks root root bits t ∧ Advanced s [sym] t := by
  obtain ⟨n, hn, hlink⟩ := h.child (b := b)
  rw [hchild] at hlink
  obtain ⟨m, hm, hk, rfl⟩ := linksAt_leaf.1 hlink
  obtain ⟨hwalk, hmove⟩ := h.move hlink
  obtain ⟨t, hwrite, hback, hemit⟩ := hwalk.emit (sym := m.symbol) hlt
  refine ⟨_, ?_, hback, hmove.trans hemit⟩
  simp only [walkStep, hn, Res.lift_ok, Res.andThen_ok, (readNode_ok.1 hm).1, if_false, State.setCtr_tab, hm, hk,
    hwrite]

/-! ### The loop -/

/-- A loop of `WALK` whose bits take it along a `NONE` link raises there, the symbols before it emitted (R202). -/
theorem walkLoop_badLink {l₀ r₀ : LinkTree} (bits : List Bool) {k : Nat} (hk : bits.length < k)
    (h : WalkingLinks (.node l₀ r₀) (.node l r) bits s)
    (hbad : ((LinkTree.node l₀ r₀).walk bits (.node l r) (s.ctr.osize.toNat - s.ctr.decoded.toNat)).2.2 = .badLink) :
    let d := (LinkTree.node l₀ r₀).walk bits (.node l r) (s.ctr.osize.toNat - s.ctr.decoded.toNat)
    ∃ t, walkLoop k s = .raised .illegalState t ∧ Advanced s d.1 t ∧ t.ctr.cur = NONE ∧ t.readableBits = d.2.1 := by
  induction bits generalizing s l r k with
  | nil =>
    generalize s.ctr.osize.toNat - s.ctr.decoded.toNat = n at hbad
    cases n <;> exact nomatch hbad
  | cons b bits ih =>
    obtain ⟨k, rfl⟩ := Nat.exists_eq_succ_of_ne_zero (Nat.ne_zero_of_lt hk)
    have hk : bits.length < k := Nat.lt_of_succ_lt_succ hk
    have hlt : s.ctr.decoded.toNat < s.ctr.osize.toNat := by
      by_contra hge
      rw [Nat.sub_eq_zero_of_le (Nat.le_of_not_lt hge)] at hbad
      exact nomatch hbad
    obtain ⟨t, hturn, hwalk, hread, hctr⟩ := walkLoop_turn (k := k) h hlt
    have hn : s.ctr.osize.toNat - s.ctr.decoded.toNat = s.ctr.osize.toNat - (s.ctr.decoded.toNat + 1) + 1 := by omega
    rw [hn] at hbad ⊢
    rw [hturn]
    rw [LinkTree.walk] at hbad ⊢
    cases hchild : (if b then r else l) with
    | unexplored => rw [hchild] at hbad; exact nomatch hbad
    | missing =>
      rw [walkStep_missing hwalk hchild]
      exact ⟨_, rfl, hread.trans ⟨.nil rfl rfl rfl rfl hwalk.fits, rfl⟩, rfl, hwalk.readable⟩
    | node l' r' =>
      rw [hchild] at hbad
      obtain ⟨u, hstep, hwalk', hmove, hdec, hos⟩ := walkStep_node hwalk hchild
      have hsame : u.ctr.osize.toNat - u.ctr.decoded.toNat =
          s.ctr.osize.toNat - (s.ctr.decoded.toNat + 1) + 1 := by rw [hos, hdec, hctr, hn]
      rw [hstep]
      obtain ⟨v, hv, hadv, hrest⟩ := ih hk hwalk' (hsame ▸ hbad)
      rw [hsame] at hadv hrest
      exact ⟨v, hv, hread.trans (hmove.trans hadv), hrest⟩
    | leaf sym =>
      rw [hchild] at hbad
      obtain ⟨u, hstep, hwalk', hemit⟩ := walkStep_leaf hwalk (hctr ▸ hlt) hchild
      have hsame : u.ctr.osize.toNat - u.ctr.decoded.toNat = s.ctr.osize.toNat - (s.ctr.decoded.toNat + 1) := by
        rw [hemit.osize, hemit.decoded, hctr, List.length_singleton]
      rw [hstep]
      obtain ⟨v, hv, hadv, hrest⟩ := ih hk hwalk' (hsame ▸ hbad)
      rw [hsame] at hadv hrest
      exact ⟨v, hv, hread.trans (hemit.trans hadv), hrest⟩

/-! ### The operations -/

/-- A `WALK` whose root is internal is its loop (R201). -/
theorem walkBody_links (hcan : s.canWalk = true) (h : linksAt s.tab.node (.node l r) s.ctr.root = true) :
    walkBody s = (walkLoop (s.bitsLeft + 1) (startWalk s)).andThen fun _ u => .ok () (reportDecoded u) := by
  obtain ⟨n, hn, hk, -⟩ := linksAt_node.1 h
  rcases walkBody_cases hcan with ⟨hnone, -⟩ | ⟨f, herror, -⟩ | ⟨m, hm, ⟨hleaf, -⟩ | ⟨-, hloop⟩⟩
  · exact absurd hnone (readNode_ok.1 hn).1
  · exact nomatch herror.symm.trans hn
  · obtain rfl := Except.ok.inj (hn.symm.trans hm)
    exact nomatch hk.symm.trans hleaf
  · exact hloop

/-- Settles O27: the loop raises where the links say the walk ends, the traversal where they say it stops. -/
theorem badLinkRaisesIllegalState : Obligations.BadLinkRaisesIllegalState := by
  intro s l r herr hlinks
  refine ⟨fun hbad => ?_, fun hropen hwopen hwcnt hdraws hbad => ?_⟩
  · obtain ⟨-, hraise⟩ := buildcodesBody_links (s := clearResultFlags s) hlinks
    exact issue_raised herr (hraise hbad)
  · have hcan : (clearResultFlags s).canWalk = true := by
      simp only [State.canWalk, State.canWriteBytes, clearResultFlags_rd, clearResultFlags_wr, hropen, hwopen, hwcnt]
      decide
    have hwalk : WalkingLinks (.node l r) (.node l r) s.readableBits (startWalk (clearResultFlags s)) :=
      ⟨⟨herr, hropen, hdraws, rfl⟩, Nat.zero_le _, hlinks, hlinks⟩
    obtain ⟨t, hloop, hadv, hcur, hrest⟩ := walkLoop_badLink (k := s.bitsLeft + 1) s.readableBits
      (Nat.lt_succ_of_le (length_readableBits s).le) hwalk hbad
    have hbody : walkBody (clearResultFlags s) = .raised .illegalState t := by
      rw [walkBody_links hcan hlinks]
      exact congrArg (Res.andThen · _) hloop
    refine ⟨_, issue_raised herr hbody, rfl, rfl, hcur, ?_, ?_, hrest, hadv.count, ?_, ?_⟩
    · refine Eq.trans ?_ (congrArg (BitVec.ofNat 32) (hadv.decoded.trans (Nat.zero_add _)))
      rw [BitVec.ofNat_toNat, BitVec.setWidth_eq]
      rfl
    · exact hadv.snk.trans (List.append_nil _)
    · exact (congrArg Regs.result hadv.reg :)
    · exact (congrArg Regs.eos hadv.reg :)

end Sys2Proof.Machine
end

section
/-! PROOFS. What the codec's pieces can change (R185, R200 to R206, R230 to R233): a property of the state that is blind
to what a piece's rule writes is preserved by the piece. -/

namespace Sys2Proof.Machine

variable {s t : State} {P : State → Prop}

/-! ### What a property is blind to -/

/-- A property of the state that does not depend on `CODE`. -/
def IgnoresCode (P : State → Prop) : Prop := ∀ t x, P t → P (t.setTab { t.tab with code := x })

/-- A property of the state that does not depend on what a header says (R200). -/
def IgnoresHeader (P : State → Prop) : Prop := ∀ t freq osize nsym, P t →
  P ((t.setTab { t.tab with freq := freq }).setCtr { t.ctr with osize := osize, nsym := nsym })

/-- A property of the state that does not depend on the registers of the walker (R201). -/
def IgnoresWalk (P : State → Prop) : Prop := ∀ t decoded cur, P t →
  P (t.setCtr { t.ctr with decoded := decoded, cur := cur })

/-- A property of the state that does not depend on `nsym`. -/
def IgnoresNsym (P : State → Prop) : Prop := ∀ t k, P t → P (t.setNsym k)

/-- A property of the state that does not depend on the totals of an input (R230). -/
def IgnoresTotals (P : State → Prop) : Prop := ∀ t osize nsym, P t →
  P (t.setCtr { t.ctr with osize := osize, nsym := nsym })

/-- A property of the state that one more byte kept in `INBUF` and counted, while there is room, leaves (R230). -/
def KeepsInput (P : State → Prop) : Prop := ∀ t freq b, t.ctr.inlen.toNat ≠ t.par.inbufCap → P t →
  P ((t.setTab { t.tab with inbuf := t.tab.inbuf.write t.ctr.inlen.toNat b, freq := freq }).setCtr
    { t.ctr with inlen := t.ctr.inlen + 1#32 })

/-- A property of the state that does not depend on the bit reader, but for whether the source is held. -/
def IgnoresReadBuffer (P : State → Prop) : Prop := ∀ t x, x.ropen = t.rd.ropen → P t → P (t.setRd x)

/-- A property of the state that depends on the tables, the counters and the parameters only. -/
def SeesTables (P : State → Prop) : Prop := ∀ t u : State, u.tab = t.tab → u.ctr = t.ctr → u.par = t.par → P t → P u

theorem SeesTables.source (h : SeesTables P) : IgnoresSource P := fun t _ _ _ => h t _ rfl rfl rfl

theorem SeesTables.sink (h : SeesTables P) : IgnoresSink P := fun t _ _ _ => h t _ rfl rfl rfl

theorem SeesTables.reader (h : SeesTables P) : IgnoresReader P := fun t _ => h t _ rfl rfl rfl

theorem SeesTables.writer (h : SeesTables P) : IgnoresWriter P := fun t _ => h t _ rfl rfl rfl

theorem SeesTables.regs (h : SeesTables P) : IgnoresRegs P := fun t _ => h t _ rfl rfl rfl

theorem IgnoresReader.readBuffer (h : IgnoresReader P) : IgnoresReadBuffer P := fun t x _ ht => h t x ht

/-! ### The code table -/

theorem visit_preserves (hc : IgnoresCode P) (edges : Nat) (id : NodeId) (path : Code) (h : P s) :
    (visit edges id path s).Leaves P := by
  induction edges generalizing id path s with
  | zero =>
    unfold visit
    refine .lift_andThen fun n _ => ?_
    split
    · exact hc _ _ h
    · exact h
  | succ k ih =>
    unfold visit
    refine .lift_andThen fun n _ => ?_
    split
    · exact hc _ _ h
    · dsimp only
      split
      · exact h
      · refine (ih _ _ h).andThen fun _ t _ ht => ?_
        split
        · exact ht
        · exact ih _ _ ht

theorem buildcodesBody_preserves (hc : IgnoresCode P) (h : P s) : (buildcodesBody s).Leaves P := by
  have cleared := hc s (Memory.fill Config.symbolCount []) h
  unfold buildcodesBody
  dsimp only
  split
  · exact cleared
  · refine .lift_andThen fun n _ => ?_
    split
    · exact hc _ _ cleared
    · exact visit_preserves hc _ _ _ cleared

/-! ### Decode -/

theorem processLine_preserves (hh : IgnoresHeader P) (line : List Byte) (h : P s) : (processLine line s).Leaves P := by
  unfold processLine
  split
  · exact h
  · exact h
  · split
    · exact hh s s.tab.freq _ s.ctr.nsym h
    · exact h
  · split
    · exact hh s s.tab.freq s.ctr.osize _ h
    · exact h
  · split
    · exact hh s (s.tab.freq.write _ _) s.ctr.osize s.ctr.nsym h
    · exact h

theorem headerLoop_preserves (hs : IgnoresSource P) (hg : IgnoresRegs P) (hh : IgnoresHeader P) (k : Nat)
    (line : List Byte) (h : P s) : (headerLoop k line s).Leaves P := by
  induction k generalizing line s with
  | zero => trivial
  | succ k ih =>
    refine (srcRead_preserves hs h).andThen fun r t _ ht => ?_
    cases r with
    | none =>
      refine (processLine_preserves hh line (s := setEos t) (hg _ _ ht)).andThen fun done u _ hu => ?_
      cases done <;> exact hu
    | some b =>
      dsimp only
      split
      · refine (processLine_preserves hh line ht).andThen fun done u _ hu => ?_
        cases done
        · exact ih _ hu
        · exact hu
      · exact ih _ ht

theorem parsehdrBody_preserves (hs : IgnoresSource P) (hg : IgnoresRegs P) (hh : IgnoresHeader P) (h : P s) :
    (parsehdrBody s).Leaves P := by
  unfold parsehdrBody
  split
  · exact headerLoop_preserves hs hg hh _ _ (hh s _ _ _ h)
  · exact h

theorem readBit_preserves_of_held (hs : IgnoresSource P) (hr : IgnoresReadBuffer P) (h : P s) :
    (readBit s).Leaves P := by
  rcases readBit_cases s with ⟨-, hread⟩ | ⟨-, -, _, -, hread⟩ | ⟨-, -, -, hread⟩ | ⟨-, -, hread⟩ <;> rw [hread]
  · exact hr _ _ rfl h
  · exact hr _ _ rfl (hs s _ s.env.freeCtr _ h)
  · exact hs s s.env.srcPos s.env.freeCtr _ h
  · exact hs s _ _ _ h

theorem emitRepeat_preserves (hs : IgnoresSink P) (hc : IgnoresSnkCnt P) (hw : IgnoresWalk P) (k : Nat) (b : Byte)
    (h : P s) : (emitRepeat k b s).Leaves P := by
  induction k generalizing s with
  | zero => exact h
  | succ k ih => exact (snkWrite_preserves hs hc b h).andThen fun _ t _ ht => ih (hw t _ t.ctr.cur ht)

theorem walkStep_preserves (hs : IgnoresSink P) (hc : IgnoresSnkCnt P) (hw : IgnoresWalk P) (b : Bool) (h : P s) :
    (walkStep b s).Leaves P := by
  have moved : ∀ cur, P (s.setCtr { s.ctr with cur := cur }) := fun cur => hw s s.ctr.decoded cur h
  refine .lift_andThen fun n _ => ?_
  dsimp only
  generalize (if b = true then n.right else n.left) = next
  split
  · exact moved _
  · refine .lift_andThen fun m _ => ?_
    split
    · exact moved _
    · exact (snkWrite_preserves hs hc m.symbol (moved _)).andThen fun _ u _ hu => hw u _ _ hu

section Walk
variable (hs : IgnoresSource P) (hr : IgnoresReadBuffer P) (hk : IgnoresSink P) (hc : IgnoresSnkCnt P)
  (hg : IgnoresRegs P) (hw : IgnoresWalk P)
include hs hr hk hc hg hw

theorem walkLoop_preserves (k : Nat) (h : P s) : (walkLoop k s).Leaves P := by
  induction k generalizing s with
  | zero => trivial
  | succ k ih =>
    unfold walkLoop
    split
    · refine (readBit_preserves_of_held hs hr h).andThen fun r t _ ht => ?_
      cases r with
      | none => exact hg _ _ ht
      | some b => exact (walkStep_preserves hk hc hw b ht).andThen fun _ _ _ hu => ih hu
    · exact h

theorem walkBody_preserves (h : P s) : (walkBody s).Leaves P := by
  unfold walkBody
  split
  · have started := hw s 0#32 s.ctr.root h
    dsimp only
    split
    · exact hg _ _ started
    · refine .lift_andThen fun n _ => Res.Leaves.andThen ?_ fun _ _ _ hu => hg _ _ hu
      split
      · exact emitRepeat_preserves hk hc hw _ _ started
      · exact walkLoop_preserves hs hr hk hc hg hw _ started
  · exact h

end Walk

/-! ### Compress -/

theorem countByte_preserves (hi : KeepsInput P) (b : Byte) (h : P s) : (countByte b s).Leaves P := by
  unfold countByte
  split
  · exact h
  · next hroom => exact .lift_andThen fun f _ => hi s _ b hroom h

theorem countLoop_preserves (hs : IgnoresSource P) (hg : IgnoresRegs P) (hi : KeepsInput P) (k : Nat) (h : P s) :
    (countLoop k s).Leaves P := by
  induction k generalizing s with
  | zero => trivial
  | succ k ih =>
    refine (srcRead_preserves hs h).andThen fun r t _ ht => ?_
    cases r with
    | none => exact hg _ _ ht
    | some b => exact (countByte_preserves hi b ht).andThen fun _ _ _ hu => ih hu

/-- `COUNTFREQ` leaves what a refusal leaves, and what its loop leaves from a cleared input implies (R230). -/
theorem countfreqBody_leaves {Q : State → Prop} (hs : IgnoresSource Q) (hg : IgnoresRegs Q) (hi : KeepsInput Q)
    (ht : IgnoresTotals Q) (hclear : Q (clearCounts s)) (hQ : ∀ t, Q t → P t) (h : P s) :
    (countfreqBody s).Leaves P := by
  unfold countfreqBody
  split
  · refine ((countLoop_preserves hs hg hi _ hclear).andThen fun _ t _ hloop => ?_).mono hQ
    exact .lift_andThen fun _ _ => ht t _ _ hloop
  · exact h

theorem wrhdrBody_preserves (hs : IgnoresSink P) (hc : IgnoresSnkCnt P) (hn : IgnoresNsym P) (h : P s) :
    (wrhdrBody s).Leaves P := by
  unfold wrhdrBody
  split
  · exact .lift_andThen fun _ _ => emit_preserves hs hc _ (hn _ _ h)
  · exact h

theorem writeBits_preserves (hs : IgnoresSink P) (hb : IgnoresBitBuffer P) (bits : List Bool) (h : P s) :
    (writeBits bits s).Leaves P := by
  induction bits generalizing s with
  | nil => exact h
  | cons b bits ih => exact (writeBit_preserves hs hb b h).andThen fun _ _ _ ht => ih ht

theorem encodeByte_preserves (hs : IgnoresSink P) (hb : IgnoresBitBuffer P) (b : Byte) (h : P s) :
    (encodeByte b s).Leaves P := by
  refine .lift_andThen fun c _ => ?_
  split
  · exact h
  · exact writeBits_preserves hs hb c h

theorem encodeLoop_preserves (hs : IgnoresSink P) (hb : IgnoresBitBuffer P) (k i : Nat) (h : P s) :
    (encodeLoop k i s).Leaves P := by
  induction k generalizing i s with
  | zero => exact h
  | succ k ih =>
    exact .lift_andThen fun b _ => (encodeByte_preserves hs hb b h).andThen fun _ _ _ ht => ih _ ht

theorem encodeBody_preserves (hs : IgnoresSink P) (hb : IgnoresBitBuffer P) (h : P s) : (encodeBody s).Leaves P := by
  unfold encodeBody
  split
  · exact (encodeLoop_preserves hs hb _ 0 h).andThen fun _ _ _ ht => flushBits_preserves hs hb ht
  · exact h

/-! ### The tree builder and the composites -/

/-- What `BUILDTREE` leaves from any state: it stops, or the tree is built. -/
theorem buildtreeBody_leaves (h : ∀ t, Built s (presentPairs s.tab.freq) t → P t) : (buildtreeBody s).Leaves P := by
  refine .lift_andThen fun t ht => ?_
  obtain ⟨pairs, hpairs, -⟩ := except_bind_ok.1 ht
  obtain ⟨u, hu, hbuilt⟩ := buildTree_built hpairs
  obtain rfl := Except.ok.inj (ht.symm.trans hu)
  exact h t (symbolsPresent_ok hpairs ▸ hbuilt)

/-- A composite leaves what its parts in order leave, the releases touching no table (R206). -/
theorem composite_leaves {parts : List (State → Res Unit)} (hP : SeesTables P) (h : P s)
    (hrun : (runParts parts s).Leaves P) : (composite parts s).Leaves P := by
  rcases composite_cases parts s with ⟨-, hc⟩ | ⟨-, -, ⟨t, ht, hc⟩ | ⟨e, t, u, ht, hu, hc⟩ | ⟨f, -, hc⟩⟩ <;> rw [hc]
  · exact h
  · rwa [ht] at hrun
  · obtain ⟨v, hv, -, -, htab, hctr, -, -, hpar⟩ := releaseHeld_ok t
    obtain rfl := Except.ok.inj (hu.symm.trans hv)
    rw [ht] at hrun
    exact hP t u htab hctr hpar hrun
  · trivial

end Sys2Proof.Machine
end

section
/-! PROOFS. The frame of the codec's parts and of the composites (R180, R185, R200, R201, R206, R230 to R233): of each
operation, that what its rule does not write is as it was. -/

namespace Sys2Proof.Machine

variable {s t u : State}

/-! ### Entries beyond a bound -/

/-- The records of `NODE` from `nnodes` on are as they were. -/
def NodeBeyondKept (s t : State) : Prop := ∀ j, t.ctr.nnodes.toNat ≤ j → t.tab.node.read j = s.tab.node.read j

/-- The bytes of `INBUF` from `inlen` on are as they were. -/
def InputBeyondKept (s t : State) : Prop := ∀ j, t.ctr.inlen.toNat ≤ j → t.tab.inbuf.read j = s.tab.inbuf.read j

/-- Under legal parameters `inlen` is within `INBUF`, whose bytes from there on are as they were. -/
def InputWithin (s t : State) : Prop :=
  t.par = s.par ∧ (s.par.wf = true → t.ctr.inlen.toNat ≤ s.par.inbufCap ∧ InputBeyondKept s t)

theorem inbufCap_lt {p : Config.Params} (h : p.wf = true) : p.inbufCap < 2 ^ 32 := by
  simp only [Config.Params.wf, Bool.and_eq_true, decide_eq_true_eq] at h
  obtain ⟨⟨⟨-, hcnt⟩, -⟩, hcap⟩ := h
  have hpow : 2 ^ p.cntW ≤ 2 ^ 32 := Nat.pow_le_pow_right Nat.two_pos hcnt
  unfold Config.Params.maxCount at hcap
  omega

/-- A byte kept while there is room is written below the new `inlen`, which does not wrap (R230). -/
theorem InputWithin.keepsInput (s : State) : KeepsInput (InputWithin s) := by
  refine fun t freq b hroom ⟨hpar, h⟩ => ⟨hpar, fun hwf => ?_⟩
  obtain ⟨hle, hbeyond⟩ := h hwf
  have hcap := inbufCap_lt hwf
  rw [hpar] at hroom
  have hsucc : (t.ctr.inlen + 1#32).toNat = t.ctr.inlen.toNat + 1 := by
    rw [BitVec.toNat_add, BitVec.toNat_ofNat]
    omega
  refine ⟨hsucc.trans_le (Nat.lt_of_le_of_ne hle hroom), fun j hj => ?_⟩
  have hj : t.ctr.inlen.toNat + 1 ≤ j := hsucc ▸ hj
  exact (t.tab.inbuf.read_write_other b (by omega)).trans (hbeyond j (by omega))

/-- A cleared input has written nothing yet. -/
theorem InputWithin.clear (hpar : t.par = s.par) (h : t.tab.inbuf = s.tab.inbuf) : InputWithin s (clearCounts t) :=
  ⟨hpar, fun _ => ⟨Nat.zero_le _, fun j _ => congrArg (·.read j) h⟩⟩

/-- `COUNTFREQ` keeps within `INBUF` what it keeps of its input, and leaves the rest of it as it was (R230). -/
theorem countfreqBody_inputBeyondKept {A : State → Prop} (hs : IgnoresSource A) (hg : IgnoresRegs A)
    (hi : KeepsInput A) (ht : IgnoresTotals A) (hclear : A (clearCounts t)) (h : A t) (hpar : t.par = s.par)
    (hinbuf : t.tab.inbuf = s.tab.inbuf) :
    (countfreqBody t).Leaves fun u => A u ∧ (s.par.wf = true → InputBeyondKept s u) :=
  countfreqBody_leaves (Q := fun u => A u ∧ InputWithin s u) (fun t _ _ _ h => ⟨hs t _ _ _ h.1, h.2⟩)
    (fun t _ h => ⟨hg t _ h.1, h.2⟩)
    (fun t freq b hroom h => ⟨hi t freq b hroom h.1, InputWithin.keepsInput s t freq b hroom h.2⟩)
    (fun t _ _ h => ⟨ht t _ _ h.1, h.2⟩) ⟨hclear, .clear hpar hinbuf⟩
    (fun _ h => ⟨h.1, fun hwf => (h.2.2 hwf).2⟩) ⟨h, fun _ j _ => congrArg (·.read j) hinbuf⟩

/-! ### The parts -/

/-- What `BUILDTREE` leaves (R180). -/
def BuildtreeFrame (s t : State) : Prop :=
  t.rd = s.rd ∧ t.wr = s.wr ∧ t.env = s.env ∧ t.tab = { s.tab with node := t.tab.node, heap := t.tab.heap } ∧
    t.ctr = { s.ctr with nnodes := t.ctr.nnodes, root := t.ctr.root, hsize := t.ctr.hsize } ∧ NodeBeyondKept s t ∧
    ∀ j, (presentPairs s.tab.freq).length ≤ j → t.tab.heap.read j = s.tab.heap.read j

theorem exec_buildtree_frame (hr : exec .buildtree s = .next t) : BuildtreeFrame s t := by
  refine issue_leaves (P := BuildtreeFrame s) buildtreeBody (fun _ _ h => h)
    ⟨rfl, rfl, rfl, rfl, rfl, fun _ _ => rfl, fun _ _ => rfl⟩ (buildtreeBody_leaves fun u hbuilt => ?_) hr
  obtain ⟨hframe, -, -, -, hnode, hheap, -⟩ := hbuilt
  exact ⟨hframe.rd, hframe.wr, hframe.env, hframe.tab, hframe.ctr, hnode, hheap⟩

/-- What `BUILDCODES` leaves (R185). -/
def BuildcodesFrame (s t : State) : Prop :=
  t.rd = s.rd ∧ t.wr = s.wr ∧ t.env = s.env ∧ t.ctr = s.ctr ∧ t.pq = s.pq ∧ { t.tab with code := s.tab.code } = s.tab

theorem exec_buildcodes_frame (hr : exec .buildcodes s = .next t) : BuildcodesFrame s t :=
  issue_preserves (P := BuildcodesFrame s) (fun _ _ h => h) (buildcodesBody_preserves fun _ _ h => h)
    ⟨rfl, rfl, rfl, rfl, rfl, rfl⟩ hr

/-- What `PARSEHDR` leaves (R200). -/
def ParsehdrFrame (s t : State) : Prop :=
  t.rd = s.rd ∧ t.wr = s.wr ∧ t.pq = s.pq ∧ t.env.snk = s.env.snk ∧ { t.tab with freq := s.tab.freq } = s.tab ∧
    { t.ctr with osize := s.ctr.osize, nsym := s.ctr.nsym } = s.ctr

theorem exec_parsehdr_frame (hr : exec .parsehdr s = .next t) : ParsehdrFrame s t :=
  issue_preserves (P := ParsehdrFrame s) (fun _ _ h => h)
    (parsehdrBody_preserves (fun _ _ _ _ h => h) (fun _ _ h => h) fun _ _ _ _ h => h)
    ⟨rfl, rfl, rfl, rfl, rfl, rfl⟩ hr

/-- What `WALK` leaves (R201). -/
def WalkFrame (s t : State) : Prop :=
  t.tab = s.tab ∧ t.pq = s.pq ∧ t.rd.ropen = s.rd.ropen ∧ { t.wr with snkCnt := s.wr.snkCnt } = s.wr ∧
    { t.ctr with decoded := s.ctr.decoded, cur := s.ctr.cur } = s.ctr

theorem exec_walk_frame (hr : exec .walk s = .next t) : WalkFrame s t :=
  issue_preserves (P := WalkFrame s) (fun _ _ h => h)
    (walkBody_preserves (fun _ _ _ _ h => h)
      (fun _ _ hx ⟨htab, hpq, hopen, hrest⟩ => ⟨htab, hpq, hx.trans hopen, hrest⟩)
      (fun _ _ _ _ h => h) (fun _ _ h => h) (fun _ _ h => h) fun _ _ _ h => h)
    ⟨rfl, rfl, rfl, rfl, rfl⟩ hr

/-- What `COUNTFREQ` leaves but for the bytes of `INBUF` (R230). -/
def CountfreqFrame (s t : State) : Prop :=
  t.rd = s.rd ∧ t.wr = s.wr ∧ t.pq = s.pq ∧ t.env.snk = s.env.snk ∧
    { t.tab with freq := s.tab.freq, inbuf := s.tab.inbuf } = s.tab ∧
    { t.ctr with inlen := s.ctr.inlen, osize := s.ctr.osize, nsym := s.ctr.nsym } = s.ctr

theorem exec_countfreq_frame (hr : exec .countfreq s = .next t) :
    CountfreqFrame s t ∧ (s.par.wf = true → InputBeyondKept s t) := by
  have hstart : CountfreqFrame s s := ⟨rfl, rfl, rfl, rfl, rfl, rfl⟩
  refine issue_leaves (P := fun u => CountfreqFrame s u ∧ (s.par.wf = true → InputBeyondKept s u)) countfreqBody
    (fun _ _ h => h) ⟨hstart, fun _ _ _ => rfl⟩ ?_ hr
  exact countfreqBody_inputBeyondKept (A := CountfreqFrame s) (fun _ _ _ _ h => h) (fun _ _ h => h)
    (fun _ _ _ _ h => h) (fun _ _ _ h => h) hstart hstart rfl rfl

/-- What `WRHDR` leaves (R231). -/
def WrhdrFrame (s t : State) : Prop :=
  t.rd = s.rd ∧ t.tab = s.tab ∧ t.pq = s.pq ∧ t.env.srcPos = s.env.srcPos ∧
    { t.wr with snkCnt := s.wr.snkCnt } = s.wr ∧ { t.ctr with nsym := s.ctr.nsym } = s.ctr

theorem exec_wrhdr_frame (hr : exec .wrhdr s = .next t) : WrhdrFrame s t :=
  issue_preserves (P := WrhdrFrame s) (fun _ _ h => h)
    (wrhdrBody_preserves (fun _ _ _ _ h => h) (fun _ _ h => h) fun _ _ h => h) ⟨rfl, rfl, rfl, rfl, rfl, rfl⟩ hr

/-- What `ENCODE` leaves (R232). -/
def EncodeFrame (s t : State) : Prop :=
  t.wr.wopen = s.wr.wopen ∧ t.rd = s.rd ∧ t.tab = s.tab ∧ t.pq = s.pq ∧ t.ctr = s.ctr ∧ t.env.srcPos = s.env.srcPos

theorem exec_encode_frame (hr : exec .encode s = .next t) : EncodeFrame s t :=
  issue_preserves (P := EncodeFrame s) (fun _ _ h => h)
    (encodeBody_preserves (fun _ _ _ _ h => h) fun _ _ hx h => ⟨hx.trans h.1, h.2⟩) ⟨rfl, rfl, rfl, rfl, rfl, rfl⟩ hr

/-! ### The composites -/

/-- What `DECOMPRESS` leaves but for the records of `NODE` (R206). -/
def DecodePathFrame (s t : State) : Prop :=
  { t.tab with freq := s.tab.freq, node := s.tab.node, heap := s.tab.heap } = s.tab ∧ t.ctr.inlen = s.ctr.inlen

/-- Before `BUILDTREE` the records are as they were. -/
def DecodeUnbuilt (s t : State) : Prop := DecodePathFrame s t ∧ t.tab.node = s.tab.node

/-- From `BUILDTREE` on the records beyond the tree are as they were. -/
def DecodeBuilt (s t : State) : Prop := DecodePathFrame s t ∧ NodeBeyondKept s t

theorem seesTables_decodeUnbuilt (s : State) : SeesTables (DecodeUnbuilt s) := by
  intro t u htab hctr _ h
  rwa [DecodeUnbuilt, DecodePathFrame, htab, hctr]

theorem seesTables_decodeBuilt (s : State) : SeesTables (DecodeBuilt s) := by
  intro t u htab hctr _ h
  rwa [DecodeBuilt, DecodePathFrame, NodeBeyondKept, htab, hctr]

theorem DecodeUnbuilt.built (h : DecodeUnbuilt s t) : DecodeBuilt s t :=
  ⟨h.1, fun j _ => congrArg (·.read j) h.2⟩

theorem Built.nodeBeyondKept {pairs : List (Nat × Count)} (hb : Built t pairs u) (h : t.tab.node = s.tab.node) :
    NodeBeyondKept s u := fun j hj => h ▸ hb.nodeAbove j hj

theorem buildtreeBody_decodeBuilt (h : DecodeUnbuilt s t) : (buildtreeBody t).Leaves (DecodeBuilt s) := by
  refine buildtreeBody_leaves fun u hbuilt => ?_
  obtain ⟨⟨htab, hinlen⟩, hnode⟩ := h
  refine ⟨⟨?_, hbuilt.frame.inlen.trans hinlen⟩, hbuilt.nodeBeyondKept hnode⟩
  rw [hbuilt.frame.tab]
  exact htab

theorem decompressBody_decodeBuilt (h : DecodeUnbuilt s t) : (decompressBody t).Leaves (DecodeBuilt s) := by
  have hfirst := seesTables_decodeUnbuilt s
  have hthen := seesTables_decodeBuilt s
  refine composite_leaves hthen h.built ?_
  refine (ropenBody_preserves hfirst.source hfirst.reader h).andThen_of (fun _ h => h.built) fun _ t₁ h₁ => ?_
  refine (wopenBody_preserves hfirst.sink hfirst.writer h₁).andThen_of (fun _ h => h.built) fun _ t₂ h₂ => ?_
  refine (parsehdrBody_preserves hfirst.source hfirst.regs (fun _ _ _ _ h => h) h₂).andThen_of (fun _ h => h.built)
    fun _ t₃ h₃ => ?_
  refine (buildtreeBody_decodeBuilt h₃).andThen fun _ t₄ _ h₄ => runParts_leaves (fun part hpart u hu => ?_) h₄
  simp only [List.mem_cons, List.not_mem_nil, or_false] at hpart
  rcases hpart with rfl | rfl | rfl
  · exact walkBody_preserves hthen.source hthen.reader.readBuffer hthen.sink hthen.writer.bitBuffer.snkCnt hthen.regs
      (fun _ _ _ h => h) hu
  · exact wcloseBody_preserves hthen.sink hthen.writer hu
  · exact rcloseBody_preserves hthen.reader hu

theorem exec_decompress_frame (hr : exec .decompress s = .next t) : DecodeBuilt s t := by
  have hstart : DecodeUnbuilt s s := ⟨⟨rfl, rfl⟩, rfl⟩
  exact issue_leaves decompressBody (seesTables_decodeBuilt s).regs hstart.built (decompressBody_decodeBuilt hstart) hr

/-- What `COMPRESS` leaves but for the records of `NODE` and the bytes of `INBUF` (R233). -/
def CompressPathFrame (s t : State) : Prop :=
  t.par = s.par ∧ t.ctr.decoded = s.ctr.decoded ∧ t.ctr.cur = s.ctr.cur

/-- Before `COUNTFREQ` the records and the bytes are as they were. -/
def CompressUncounted (s t : State) : Prop :=
  (CompressPathFrame s t ∧ t.tab.node = s.tab.node) ∧ t.tab.inbuf = s.tab.inbuf

/-- From `COUNTFREQ` to `BUILDTREE` the records are as they were, and the bytes beyond the input. -/
def CompressUnbuilt (s t : State) : Prop :=
  (CompressPathFrame s t ∧ t.tab.node = s.tab.node) ∧ (s.par.wf = true → InputBeyondKept s t)

/-- From `BUILDTREE` on the records beyond the tree are as they were, and the bytes beyond the input. -/
def CompressBuilt (s t : State) : Prop :=
  (CompressPathFrame s t ∧ NodeBeyondKept s t) ∧ (s.par.wf = true → InputBeyondKept s t)

theorem seesTables_compressUncounted (s : State) : SeesTables (CompressUncounted s) := by
  intro t u htab hctr hpar h
  rwa [CompressUncounted, CompressPathFrame, htab, hctr, hpar]

theorem seesTables_compressUnbuilt (s : State) : SeesTables (CompressUnbuilt s) := by
  intro t u htab hctr hpar h
  rwa [CompressUnbuilt, CompressPathFrame, InputBeyondKept, htab, hctr, hpar]

theorem seesTables_compressBuilt (s : State) : SeesTables (CompressBuilt s) := by
  intro t u htab hctr hpar h
  rwa [CompressBuilt, CompressPathFrame, NodeBeyondKept, InputBeyondKept, htab, hctr, hpar]

theorem CompressUncounted.unbuilt (h : CompressUncounted s t) : CompressUnbuilt s t :=
  ⟨h.1, fun _ j _ => congrArg (·.read j) h.2⟩

theorem CompressUnbuilt.built (h : CompressUnbuilt s t) : CompressBuilt s t :=
  ⟨⟨h.1.1, fun j _ => congrArg (·.read j) h.1.2⟩, h.2⟩

theorem countfreqBody_compressUnbuilt (h : CompressUncounted s t) : (countfreqBody t).Leaves (CompressUnbuilt s) :=
  countfreqBody_inputBeyondKept (fun _ _ _ _ h => h) (fun _ _ h => h) (fun _ _ _ _ h => h) (fun _ _ _ h => h)
    h.1 h.1 h.1.1.1 h.2

theorem buildtreeBody_compressBuilt (h : CompressUnbuilt s t) : (buildtreeBody t).Leaves (CompressBuilt s) := by
  refine buildtreeBody_leaves fun u hbuilt => ?_
  obtain ⟨⟨⟨hpar, hdec, hcur⟩, hnode⟩, hinput⟩ := h
  have hframe := hbuilt.frame
  refine ⟨⟨⟨hframe.par.trans hpar, hframe.decoded.trans hdec, hframe.cur.trans hcur⟩, hbuilt.nodeBeyondKept hnode⟩,
    fun hwf => ?_⟩
  rw [InputBeyondKept, hframe.inlen, hframe.inbuf]
  exact hinput hwf

theorem compressBody_compressBuilt (h : CompressUncounted s t) : (compressBody t).Leaves (CompressBuilt s) := by
  have hfirst := seesTables_compressUncounted s
  have hnext := seesTables_compressUnbuilt s
  have hthen := seesTables_compressBuilt s
  refine composite_leaves hthen h.unbuilt.built ?_
  refine (ropenBody_preserves hfirst.source hfirst.reader h).andThen_of (fun _ h => h.unbuilt.built) fun _ t₁ h₁ => ?_
  refine (countfreqBody_compressUnbuilt h₁).andThen_of (fun _ h => h.built) fun _ t₂ h₂ => ?_
  refine (rcloseBody_preserves hnext.reader h₂).andThen_of (fun _ h => h.built) fun _ t₃ h₃ => ?_
  refine (buildtreeBody_compressBuilt h₃).andThen fun _ t₄ _ h₄ => runParts_leaves (fun part hpart u hu => ?_) h₄
  simp only [List.mem_cons, List.not_mem_nil, or_false] at hpart
  rcases hpart with rfl | rfl | rfl | rfl | rfl
  · exact buildcodesBody_preserves (fun _ _ h => h) hu
  · exact wopenBody_preserves hthen.sink hthen.writer hu
  · exact wrhdrBody_preserves hthen.sink hthen.writer.bitBuffer.snkCnt (fun _ _ h => h) hu
  · exact encodeBody_preserves hthen.sink hthen.writer.bitBuffer hu
  · exact wcloseBody_preserves hthen.sink hthen.writer hu

theorem exec_compress_frame (hr : exec .compress s = .next t) : CompressBuilt s t := by
  have hstart : CompressUncounted s s := ⟨⟨⟨rfl, rfl, rfl⟩, rfl⟩, rfl⟩
  exact issue_leaves compressBody (seesTables_compressBuilt s).regs hstart.unbuilt.built
    (compressBody_compressBuilt hstart) hr

/-! ### The obligation -/

/-- Settles O53: each operation's frame is a property blind to what the operation writes, and the composites go from one
such property to the next where `COUNTFREQ` and `BUILDTREE` write. -/
theorem codecPartsFrame : Obligations.CodecPartsFrame := by
  intro s t
  refine ⟨exec_buildtree_frame, fun hr => ?_, fun hr => ?_, fun hr => ?_, fun hr => ?_, fun hr => ?_, fun hr => ?_,
    fun hr => ?_, fun hr => ?_⟩
  · obtain ⟨hrd, hwr, henv, hctr, hpq, htab⟩ := exec_buildcodes_frame hr
    exact ⟨hrd, hwr, henv, hctr, hpq, congrArg (fun x : Tables => { x with code := t.tab.code }) htab⟩
  · obtain ⟨hrd, hwr, hpq, hsnk, htab, hctr⟩ := exec_parsehdr_frame hr
    exact ⟨hrd, hwr, hpq, hsnk, congrArg (fun x : Tables => { x with freq := t.tab.freq }) htab,
      congrArg (fun x : Counters => { x with osize := t.ctr.osize, nsym := t.ctr.nsym }) hctr⟩
  · obtain ⟨htab, hpq, hopen, hwr, hctr⟩ := exec_walk_frame hr
    exact ⟨htab, hpq, hopen, congrArg (fun x : Writer => { x with snkCnt := t.wr.snkCnt }) hwr,
      congrArg (fun x : Counters => { x with decoded := t.ctr.decoded, cur := t.ctr.cur }) hctr⟩
  · obtain ⟨⟨hrd, hwr, hpq, hsnk, htab, hctr⟩, hinput⟩ := exec_countfreq_frame hr
    exact ⟨hrd, hwr, hpq, hsnk,
      congrArg (fun x : Tables => { x with freq := t.tab.freq, inbuf := t.tab.inbuf }) htab,
      congrArg (fun x : Counters => { x with inlen := t.ctr.inlen, osize := t.ctr.osize, nsym := t.ctr.nsym }) hctr,
      hinput⟩
  · obtain ⟨hrd, htab, hpq, hpos, hwr, hctr⟩ := exec_wrhdr_frame hr
    exact ⟨hrd, htab, hpq, hpos, congrArg (fun x : Writer => { x with snkCnt := t.wr.snkCnt }) hwr,
      congrArg (fun x : Counters => { x with nsym := t.ctr.nsym }) hctr⟩
  · obtain ⟨hopen, hrd, htab, hpq, hctr, hpos⟩ := exec_encode_frame hr
    exact ⟨hrd, htab, hpq, hctr, hpos, hopen⟩
  · obtain ⟨⟨htab, hinlen⟩, hnode⟩ := exec_decompress_frame hr
    exact ⟨congrArg (fun x : Tables => { x with freq := t.tab.freq, node := t.tab.node, heap := t.tab.heap }) htab,
      hinlen, hnode⟩
  · obtain ⟨⟨⟨-, hdec, hcur⟩, hnode⟩, hinput⟩ := exec_compress_frame hr
    exact ⟨hdec, hcur, hnode, hinput⟩

end Sys2Proof.Machine
end

section
/-! PROOFS. Header lines (R95 to R99): a numeral reads back as its number, and `PARSEHDR` takes of a line what the rules
say it means. -/

namespace Sys2Proof.Machine

variable {s : State} {max v : Nat} {b : Byte} {line field : List Byte}

/-! ### Numeric fields -/

/-- The bytes of a numeral (R94, R98). -/
def IsDigit (b : Byte) : Prop := 48 ≤ b.toNat ∧ b.toNat ≤ 57

theorem digitValue_of_isDigit (h : IsDigit b) : digitValue b = some (b.toNat - 48) := if_pos h

theorem digitValue_of_not_isDigit (h : ¬IsDigit b) : digitValue b = none := if_neg h

/-- The digits before give their places to those that follow (R98). -/
theorem digitsValue_of_digits (h : ∀ b ∈ field, IsDigit b) :
    digitsValue field v = some (v * 10 ^ field.length + decimalValue field) := by
  induction field generalizing v with
  | nil => simp [digitsValue, decimalValue]
  | cons b field ih =>
    obtain ⟨hb, hfield⟩ := List.forall_mem_cons.1 h
    rw [digitsValue, digitValue_of_isDigit hb]
    dsimp only
    rw [ih hfield, decimalValue, List.length_cons]
    exact congrArg some (by ring)

/-- A byte that is no digit spoils the field (R98). -/
theorem digitsValue_of_not_digits (h : ¬∀ b ∈ field, IsDigit b) : digitsValue field v = none := by
  induction field generalizing v with
  | nil => exact absurd (fun _ hb => absurd hb List.not_mem_nil) h
  | cons b field ih =>
    by_cases hb : IsDigit b
    · rw [digitsValue, digitValue_of_isDigit hb]
      exact ih fun hfield => h (List.forall_mem_cons.2 ⟨hb, hfield⟩)
    · rw [digitsValue, digitValue_of_not_isDigit hb]

/-- A field parses to its value (R98). -/
theorem parseUint_eq_fieldValue (max : Nat) (field : List Byte) : parseUint max field = fieldValue max field := by
  cases field with
  | nil => rfl
  | cons b field =>
    rw [parseUint, fieldValue]
    by_cases hdigits : ∀ c ∈ b :: field, IsDigit c
    · rw [digitsValue_of_digits hdigits, Nat.zero_mul, Nat.zero_add]
      simp only [ne_eq, reduceCtorEq, not_false_eq_true, true_and]
      exact if_congr (iff_and_self.2 fun _ => hdigits) rfl rfl
    · rw [digitsValue_of_not_digits hdigits, if_neg fun h => hdigits h.2.1]

/-! ### Numerals -/

theorem toNat_digitByte {d : Nat} (h : d < 10) : (digitByte d).toNat = 48 + d := by
  rw [digitByte, BitVec.toNat_ofNat]
  omega

theorem isDigit_digitByte {d : Nat} (h : d < 10) : IsDigit (digitByte d) := by
  rw [IsDigit, toNat_digitByte h]
  omega

/-- The digits of a number have its value, in front of those already made (R95). -/
theorem decimalValue_decDigits {k n : Nat} {acc : List Byte} (h : n < k) :
    decimalValue (decDigits k n acc) = n * 10 ^ acc.length + decimalValue acc := by
  induction k generalizing n acc with
  | zero => cases h
  | succ k ih =>
    rw [decDigits]
    split
    · next hn => rw [decimalValue, toNat_digitByte hn, Nat.add_sub_cancel_left]
    · have hmod := Nat.mod_lt n (show 10 > 0 by decide)
      rw [ih (by omega), decimalValue, toNat_digitByte hmod, Nat.add_sub_cancel_left, List.length_cons, pow_succ]
      nth_rw 3 [← Nat.div_add_mod n 10]
      ring

theorem isDigit_of_mem_decDigits {k n : Nat} {acc : List Byte} (h : ∀ b ∈ acc, IsDigit b) :
    ∀ b ∈ decDigits k n acc, IsDigit b := by
  induction k generalizing n acc with
  | zero => exact h
  | succ k ih =>
    rw [decDigits]
    split
    · next hn => exact List.forall_mem_cons.2 ⟨isDigit_digitByte hn, h⟩
    · exact ih (List.forall_mem_cons.2 ⟨isDigit_digitByte (Nat.mod_lt n (by decide)), h⟩)

theorem decDigits_ne_nil {k n : Nat} {acc : List Byte} (h : acc ≠ []) : decDigits k n acc ≠ [] := by
  induction k generalizing n acc with
  | zero => exact h
  | succ k ih =>
    rw [decDigits]
    split
    · exact List.cons_ne_nil _ _
    · exact ih (List.cons_ne_nil _ _)

theorem isDigit_of_mem_dec {v : Nat} : ∀ b ∈ dec v, IsDigit b := isDigit_of_mem_decDigits (by simp)

theorem dec_ne_nil (v : Nat) : dec v ≠ [] := by
  rw [dec, decDigits]
  split
  · exact List.cons_ne_nil _ _
  · exact decDigits_ne_nil (List.cons_ne_nil _ _)

/-- A numeral reads back as its number (R95, R98). -/
theorem fieldValue_dec (h : v ≤ max) : fieldValue max (dec v) = some v := by
  have hvalue : decimalValue (dec v) = v := by
    rw [dec, decimalValue_decDigits (Nat.lt_succ_self v)]
    simp [decimalValue]
  rw [fieldValue, hvalue]
  exact if_pos ⟨dec_ne_nil v, isDigit_of_mem_dec, h⟩

/-! ### Lines -/

/-- What processing a line of a meaning does (R97 to R99, R200). -/
def LineMeaning.outcome (m : LineMeaning) (s : State) : Res Bool :=
  match m with
  | .sentinel => .ok true s
  | .bad => .raised .parseError s
  | m => .ok false (m.applyTo s)

theorem isPrefixOf_iff_take {keyword : List Byte} :
    keyword.isPrefixOf line = true ↔ line.take keyword.length = keyword := by
  rw [List.isPrefixOf_iff_prefix, List.prefix_iff_eq_take, eq_comm]

/-- Both fields of a pair line stand around its first space (R99). -/
theorem parsePair_eq (max : Nat) (line : List Byte) :
    parsePair max line =
      (fieldValue max (line.take (line.idxOf space))).bind fun sym =>
        (fieldValue max (line.drop (line.idxOf space + 1))).bind fun f =>
          if line.idxOf space < line.length ∧ sym ≤ 255 then some (sym, f) else none := by
  have hfind : (line.findIdx fun b => !(b != space)) = line.idxOf space := by
    simp [List.idxOf, bne]
  have htake : line.takeWhile (· != space) = line.take (line.idxOf space) := by
    rw [List.takeWhile_eq_take_findIdx_not, hfind]
  have hdrop : (line.dropWhile (· != space)).drop 1 = line.drop (line.idxOf space + 1) := by
    rw [List.dropWhile_eq_drop_findIdx_not, hfind, List.drop_drop]
  rw [parsePair, htake, hdrop, parseUint_eq_fieldValue, parseUint_eq_fieldValue]
  by_cases hmem : space ∈ line
  · simp only [if_pos hmem, List.idxOf_lt_length_iff.2 hmem, true_and]
    cases fieldValue max (line.take (line.idxOf space)) <;>
      cases fieldValue max (line.drop (line.idxOf space + 1)) <;> rfl
  · have hnone : fieldValue max (line.drop (line.idxOf space + 1)) = none := by
      rw [List.drop_eq_nil_of_le (by rw [List.idxOf_eq_length hmem]; exact Nat.le_succ _)]
      rfl
    rw [if_neg hmem, hnone]
    exact (Option.bind_fun_none _).symm

/-- A line is processed as its meaning says (R97 to R99, R200). -/
theorem processLine_eq_outcome (line : List Byte) (s : State) :
    processLine line s = (lineMeaning s.par.maxCount line).outcome s := by
  unfold processLine classifyLine lineMeaning
  by_cases hblank : line = []
  · simp [hblank, LineMeaning.outcome, LineMeaning.applyTo]
  by_cases hsentinel : line = kwEndHeader
  · simp [hsentinel, LineMeaning.outcome, kwEndHeader]
  by_cases hsize : kwOriginalSize.isPrefixOf line = true
  · have htake : line.take 14 = kwOriginalSize := isPrefixOf_iff_take.1 hsize
    simp only [if_neg hblank, if_neg hsentinel, if_pos hsize, if_pos htake, parseUint_eq_fieldValue]
    change (match fieldValue s.par.maxCount (line.drop 14) with | some _ => _ | none => _) = _
    cases fieldValue s.par.maxCount (line.drop 14) <;> rfl
  have htake : ¬line.take 14 = kwOriginalSize := fun h => hsize (isPrefixOf_iff_take.2 h)
  by_cases hsymbols : kwSymbols.isPrefixOf line = true
  · have htake' : line.take 8 = kwSymbols := isPrefixOf_iff_take.1 hsymbols
    simp only [if_neg hblank, if_neg hsentinel, if_neg hsize, if_neg htake, if_pos hsymbols, if_pos htake',
      parseUint_eq_fieldValue]
    change (match fieldValue s.par.maxCount (line.drop 8) with | some _ => _ | none => _) = _
    cases fieldValue s.par.maxCount (line.drop 8) <;> rfl
  have htake' : ¬line.take 8 = kwSymbols := fun h => hsymbols (isPrefixOf_iff_take.2 h)
  simp only [if_neg hblank, if_neg hsentinel, if_neg hsize, if_neg htake, if_neg hsymbols, if_neg htake', parsePair_eq]
  rcases fieldValue s.par.maxCount (line.take (line.idxOf space)) with _ | sym
  · rfl
  rcases fieldValue s.par.maxCount (line.drop (line.idxOf space + 1)) with _ | f
  · rfl
  by_cases hpair : line.idxOf space < line.length ∧ sym ≤ 255
  · simp only [Option.bind_some, if_pos hpair]
    rfl
  · simp only [Option.bind_some, if_neg hpair]
    rfl

end Sys2Proof.Machine
end

section
/-! PROOFS. `PARSEHDR` over any source (R96, R200, R267): its loop is followed over the lines gone past and over the
bytes of the next one, and then by how that line ends. -/

namespace Sys2Proof.Machine

variable {s : State} {k m n max : Nat} {line rest : List Byte} {lines : List (List Byte)}

/-! ### Bytes taken -/

/-- The state after so many bytes of `SRC` were taken (R61). -/
def State.takeBytes (s : State) (n : Nat) : State :=
  s.setEnv { s.env with srcPos := s.env.srcPos + n, draws := s.env.draws.drop n }

@[simp] theorem State.takeBytes_par (s : State) (n : Nat) : (s.takeBytes n).par = s.par := rfl

@[simp] theorem State.takeBytes_zero (s : State) : s.takeBytes 0 = s := rfl

theorem State.takeBytes_takeBytes (s : State) (m n : Nat) : (s.takeBytes m).takeBytes n = s.takeBytes (m + n) := by
  simp [State.takeBytes, Nat.add_assoc]

theorem takeBytes_srcLeft (h : s.srcLeft = line ++ rest) : (s.takeBytes line.length).srcLeft = rest := by
  have hdrop := congrArg (List.drop line.length) h
  rwa [List.drop_left, State.srcLeft, List.drop_drop] at hdrop

/-- No access of a first and of a second run fails when none of both together does. -/
theorem not_mem_take_add {draws : List Bool} (h : true ∉ draws.take (m + n)) :
    true ∉ draws.take m ∧ true ∉ (draws.drop m).take n := by
  rwa [List.take_add, List.mem_append, not_or] at h

theorem accessFails_of_take (h : true ∉ s.env.draws.take (n + 1)) : (s.takeBytes n).accessFails = false := by
  obtain ⟨hf, -⟩ := not_mem_take_draws_succ (s := s.takeBytes n) (n := 0).1 (not_mem_take_add h).2
  exact hf

/-- The first access to fail, by itself. -/
theorem take_draws_at {draws : List Bool} (h : draws.take (n + 1) = List.replicate n false ++ [true]) :
    true ∉ draws.take n ∧ (draws.drop n).take 1 = [true] := by
  have hlen := congrArg List.length h
  rw [List.length_append, List.length_replicate, List.length_singleton, List.length_take] at hlen
  rw [List.take_add] at h
  obtain ⟨hbefore, hat⟩ := List.append_inj h (by rw [List.length_take, List.length_replicate]; omega)
  exact ⟨by rw [hbefore]; simp, hat⟩

/-! ### What lines say -/

@[simp] theorem LineMeaning.applyTo_env (x : LineMeaning) (s : State) : (x.applyTo s).env = s.env := by cases x <;> rfl
@[simp] theorem LineMeaning.applyTo_reg (x : LineMeaning) (s : State) : (x.applyTo s).reg = s.reg := by cases x <;> rfl
@[simp] theorem LineMeaning.applyTo_par (x : LineMeaning) (s : State) : (x.applyTo s).par = s.par := by cases x <;> rfl

@[simp] theorem LineMeaning.applyTo_srcLeft (x : LineMeaning) (s : State) : (x.applyTo s).srcLeft = s.srcLeft := by
  cases x <;> rfl

theorem LineMeaning.applyTo_takeBytes (x : LineMeaning) (s : State) (n : Nat) :
    x.applyTo (s.takeBytes n) = (x.applyTo s).takeBytes n := by cases x <;> rfl

/-- A line that is neither the sentinel nor bad is gone past. -/
theorem LineMeaning.outcome_of_passed {x : LineMeaning} (hsentinel : x ≠ .sentinel) (hbad : x ≠ .bad) (s : State) :
    x.outcome s = .ok false (x.applyTo s) := by
  cases x with
  | sentinel => exact absurd rfl hsentinel
  | bad => exact absurd rfl hbad
  | nothing | size | symbols | count => rfl

/-- The state after lines in order have said what they say, `max` being the greatest count. -/
def applyLines (max : Nat) (lines : List (List Byte)) (s : State) : State :=
  lines.foldl (fun t line => (lineMeaning max line).applyTo t) s

theorem afterLines_eq_applyLines (lines : List (List Byte)) (s : State) :
    afterLines lines s = applyLines s.par.maxCount lines (clearHeader s) := rfl

theorem applyLines_cons (max : Nat) (line : List Byte) (lines : List (List Byte)) (s : State) :
    applyLines max (line :: lines) s = applyLines max lines ((lineMeaning max line).applyTo s) := rfl

@[simp] theorem applyLines_env (max : Nat) (lines : List (List Byte)) (s : State) :
    (applyLines max lines s).env = s.env := by
  induction lines generalizing s with
  | nil => rfl
  | cons line lines ih => rw [applyLines_cons, ih, LineMeaning.applyTo_env]

@[simp] theorem applyLines_reg (max : Nat) (lines : List (List Byte)) (s : State) :
    (applyLines max lines s).reg = s.reg := by
  induction lines generalizing s with
  | nil => rfl
  | cons line lines ih => rw [applyLines_cons, ih, LineMeaning.applyTo_reg]

@[simp] theorem applyLines_par (max : Nat) (lines : List (List Byte)) (s : State) :
    (applyLines max lines s).par = s.par := by
  induction lines generalizing s with
  | nil => rfl
  | cons line lines ih => rw [applyLines_cons, ih, LineMeaning.applyTo_par]

theorem applyLines_takeBytes (max : Nat) (lines : List (List Byte)) (s : State) (n : Nat) :
    applyLines max lines (s.takeBytes n) = (applyLines max lines s).takeBytes n := by
  induction lines generalizing s with
  | nil => rfl
  | cons line lines ih => rw [applyLines_cons, applyLines_cons, LineMeaning.applyTo_takeBytes, ih]

theorem afterLines_takeBytes (lines : List (List Byte)) (s : State) (n : Nat) :
    afterLines lines (s.takeBytes n) = (afterLines lines s).takeBytes n :=
  applyLines_takeBytes s.par.maxCount lines (clearHeader s) n

@[simp] theorem afterLines_env (lines : List (List Byte)) (s : State) : (afterLines lines s).env = s.env :=
  applyLines_env s.par.maxCount lines (clearHeader s)

@[simp] theorem afterLines_reg (lines : List (List Byte)) (s : State) : (afterLines lines s).reg = s.reg :=
  applyLines_reg s.par.maxCount lines (clearHeader s)

@[simp] theorem afterLines_par (lines : List (List Byte)) (s : State) : (afterLines lines s).par = s.par :=
  applyLines_par s.par.maxCount lines (clearHeader s)

theorem afterLines_srcLeft (lines : List (List Byte)) (s : State) : (afterLines lines s).srcLeft = s.srcLeft := by
  rw [State.srcLeft, afterLines_env]
  rfl

theorem joinLines_cons (line : List Byte) (lines : List (List Byte)) :
    joinLines (line :: lines) = line ++ newline :: joinLines lines := by simp [joinLines]

theorem joinLines_concat (lines : List (List Byte)) (line : List Byte) :
    joinLines (lines ++ [line]) = joinLines lines ++ line ++ [newline] := by simp [joinLines]

/-! ### The loop -/

/-- Bytes other than `\n` join the line (R96). -/
theorem headerLoop_within (bytes : List Byte) (hleft : s.srcLeft = bytes ++ rest) (hline : newline ∉ bytes)
    (hd : true ∉ s.env.draws.take bytes.length) :
    headerLoop (bytes.length + k) line s = headerLoop k (line ++ bytes) (s.takeBytes bytes.length) := by
  induction bytes generalizing line s with
  | nil => simp
  | cons b bytes ih =>
    obtain ⟨hne, hline⟩ := not_or.1 (mt List.mem_cons.2 hline)
    obtain ⟨hf, hd⟩ := not_mem_take_draws_succ.1 hd
    have hturn : headerLoop (bytes.length + k + 1) line s = headerLoop (bytes.length + k) (line ++ [b]) s.takeByte := by
      rw [headerLoop, srcRead_byte hf (srcLeft_cons hleft).1, Res.andThen_ok]
      exact if_neg (Ne.symm hne)
    rw [List.length_cons, Nat.add_right_comm, hturn, ih (takeByte_srcLeft hleft) hline hd, List.append_assoc]
    simp [State.takeByte, State.takeBytes, Nat.add_assoc, Nat.add_comm 1]

/-- `\n` ends the line, which is processed (R96, R200). -/
theorem headerLoop_newline (hleft : s.srcLeft = newline :: rest) (hf : s.accessFails = false) :
    headerLoop (k + 1) line s = ((lineMeaning s.par.maxCount line).outcome (s.takeBytes 1)).andThen fun done u =>
      if done then .ok () u else headerLoop k [] u := by
  rw [headerLoop, srcRead_byte hf (srcLeft_cons hleft).1, Res.andThen_ok]
  refine (if_pos rfl).trans ?_
  rw [processLine_eq_outcome]
  simp [State.takeBytes]

/-- The end of the source ends the line, which is processed, and only the sentinel ends the parse without an error
(R96, R267). -/
theorem headerLoop_eos (hleft : s.srcLeft = []) (hf : s.accessFails = false) :
    headerLoop (k + 1) line s =
      ((lineMeaning s.par.maxCount line).outcome (setEos s.useDraw)).andThen fun done u =>
        if done then .ok () u else .raised .malformedHeader u := by
  rw [headerLoop, srcRead_eos hf ((srcLeft_nil_iff s).1 hleft), Res.andThen_ok]
  exact congrArg (Res.andThen · _) (processLine_eq_outcome line _)

/-- A line gone past has said what it says (R97, R200). -/
theorem headerLoop_passes (hline : newline ∉ line) (hsentinel : lineMeaning s.par.maxCount line ≠ .sentinel)
    (hbad : lineMeaning s.par.maxCount line ≠ .bad) (hleft : s.srcLeft = line ++ newline :: rest)
    (hd : true ∉ s.env.draws.take (line.length + 1)) :
    headerLoop (line.length + 1 + k) [] s =
      headerLoop k [] ((lineMeaning s.par.maxCount line).applyTo (s.takeBytes (line.length + 1))) := by
  rw [Nat.add_assoc, headerLoop_within line hleft hline (not_mem_take_add hd).1, List.nil_append, Nat.add_comm 1,
    headerLoop_newline (takeBytes_srcLeft hleft) (accessFails_of_take hd), State.takeBytes_takeBytes,
    State.takeBytes_par, LineMeaning.outcome_of_passed hsentinel hbad]
  rfl

/-- Lines gone past have said what they say (R97, R200). -/
theorem headerLoop_lines (hpass : passedOver s.par.maxCount lines) (hleft : s.srcLeft = joinLines lines ++ rest)
    (hd : true ∉ s.env.draws.take (joinLines lines).length) :
    headerLoop ((joinLines lines).length + k) [] s =
      headerLoop k [] ((applyLines s.par.maxCount lines s).takeBytes (joinLines lines).length) := by
  induction lines generalizing s with
  | nil => simp [joinLines, applyLines]
  | cons line lines ih =>
    obtain ⟨⟨hline, hsentinel, hbad⟩, hpass⟩ := List.forall_mem_cons.1 hpass
    have hlen : (joinLines (line :: lines)).length = line.length + 1 + (joinLines lines).length := by
      rw [joinLines_cons, List.length_append, List.length_cons]
      omega
    rw [hlen] at hd ⊢
    obtain ⟨hd, hd'⟩ := not_mem_take_add hd
    rw [joinLines_cons, List.append_assoc, List.cons_append] at hleft
    have hnext := takeBytes_srcLeft (line := line ++ [newline]) (by rw [hleft, List.append_assoc]; rfl)
    rw [List.length_append, List.length_singleton] at hnext
    rw [Nat.add_assoc, headerLoop_passes hline hsentinel hbad hleft hd,
      ih (by rwa [LineMeaning.applyTo_par]) (by rwa [LineMeaning.applyTo_srcLeft])
        (by rwa [LineMeaning.applyTo_env]),
      LineMeaning.applyTo_par, LineMeaning.applyTo_takeBytes, applyLines_takeBytes, State.takeBytes_takeBytes]
    rfl

/-! ### The operation -/

/-- `PARSEHDR` comes past lines and into the next one (R200). -/
theorem parsehdrBody_within {last : List Byte} (hcan : s.canReadBytes = true)
    (hpass : passedOver s.par.maxCount lines) (hline : newline ∉ last)
    (hleft : s.srcLeft = joinLines lines ++ last ++ rest)
    (hd : true ∉ s.env.draws.take (joinLines lines ++ last).length) :
    parsehdrBody s = headerLoop (rest.length + 1) last
      ((afterLines lines s).takeBytes (joinLines lines ++ last).length) := by
  rw [List.length_append] at hd
  obtain ⟨hd, hd'⟩ := not_mem_take_add hd
  have hfuel : s.srcLeft.length + 1 = (joinLines lines).length + (last.length + (rest.length + 1)) := by
    rw [hleft, List.length_append, List.length_append]
    omega
  rw [List.append_assoc] at hleft
  have hlines := headerLoop_lines (s := clearHeader s) (k := last.length + (rest.length + 1)) hpass hleft hd
  rw [clearHeader_par, ← afterLines_eq_applyLines, ← afterLines_takeBytes] at hlines
  have hnext : (afterLines lines (s.takeBytes (joinLines lines).length)).srcLeft = last ++ rest := by
    rw [afterLines_srcLeft, takeBytes_srcLeft hleft]
  rw [parsehdrBody, if_pos hcan, hfuel, hlines, headerLoop_within last hnext hline (by rwa [afterLines_env]),
    afterLines_takeBytes, State.takeBytes_takeBytes, List.nil_append, List.length_append]

section Last
variable {last : List Byte} (hcan : s.canReadBytes = true) (hpass : passedOver s.par.maxCount lines)
  (hline : newline ∉ last)
include hcan hpass hline

/-- The next line ended by `\n` (R96, R200). -/
theorem parsehdrBody_newline (hleft : s.srcLeft = joinLines (lines ++ [last]) ++ rest)
    (hd : true ∉ s.env.draws.take ((joinLines lines ++ last).length + 1)) :
    parsehdrBody s = ((lineMeaning s.par.maxCount last).outcome
      ((afterLines lines s).takeBytes ((joinLines lines ++ last).length + 1))).andThen fun done u =>
        if done then .ok () u else headerLoop (rest.length + 1) [] u := by
  rw [joinLines_concat, List.append_assoc] at hleft
  have hnext : ((afterLines lines s).takeBytes (joinLines lines ++ last).length).srcLeft = newline :: rest := by
    rw [← afterLines_takeBytes, afterLines_srcLeft, takeBytes_srcLeft hleft]
    rfl
  rw [parsehdrBody_within hcan hpass hline hleft (not_mem_take_add hd).1, List.length_append,
    List.length_singleton, Nat.add_comm 1,
    headerLoop_newline hnext (accessFails_of_take (by rwa [afterLines_env])), State.takeBytes_par, afterLines_par,
    State.takeBytes_takeBytes]

/-- The next line ended by the end of the source (R96, R200, R267). -/
theorem parsehdrBody_eos (hleft : s.srcLeft = joinLines lines ++ last)
    (hd : true ∉ s.env.draws.take ((joinLines lines ++ last).length + 1)) :
    parsehdrBody s = ((lineMeaning s.par.maxCount last).outcome
      (setEos ((afterLines lines s).takeBytes (joinLines lines ++ last).length).useDraw)).andThen fun done u =>
        if done then .ok () u else .raised .malformedHeader u := by
  rw [← List.append_nil (joinLines lines ++ last)] at hleft
  have hnext : ((afterLines lines s).takeBytes (joinLines lines ++ last).length).srcLeft = [] := by
    rw [← afterLines_takeBytes, afterLines_srcLeft, takeBytes_srcLeft hleft]
  rw [parsehdrBody_within hcan hpass hline hleft (not_mem_take_add hd).1,
    headerLoop_eos hnext (accessFails_of_take (by rwa [afterLines_env])), State.takeBytes_par, afterLines_par]

/-- A failing access in the next line (R69, R200). -/
theorem parsehdrBody_fails (hleft : s.srcLeft = joinLines lines ++ last ++ rest)
    (hd : s.env.draws.take ((joinLines lines ++ last).length + 1) =
      List.replicate (joinLines lines ++ last).length false ++ [true]) :
    ∃ pos free, parsehdrBody s = .raised .ioFailure ((afterLines lines s).setEnv { s.env with
      srcPos := pos, freeCtr := free, draws := s.env.draws.drop ((joinLines lines ++ last).length + 1) }) := by
  obtain ⟨hbefore, hat⟩ := take_draws_at hd
  have hfails : ((afterLines lines s).takeBytes (joinLines lines ++ last).length).accessFails = true :=
    accessFails_of_take_one (by rwa [← afterLines_takeBytes, afterLines_env])
  refine ⟨min (Config.srcPosAfterFailure s.env.freeCtr) s.env.src.length, s.env.freeCtr + 1, ?_⟩
  rw [parsehdrBody_within hcan hpass hline hleft hbefore, headerLoop, srcRead_fails hfails, Res.andThen_raised,
    State.takeBytes, State.setEnv_setEnv, State.setEnv_env, afterLines_env, List.tail_drop]

end Last

/-- The state after lines and so many bytes, the result flags having been cleared first. -/
theorem afterLines_clearResultFlags_takeBytes (lines : List (List Byte)) (s : State) (n : Nat) :
    (afterLines lines (clearResultFlags s)).takeBytes n = (afterLines lines (clearResultFlags s)).setEnv
      { s.env with srcPos := s.env.srcPos + n, draws := s.env.draws.drop n } := by
  rw [State.takeBytes, afterLines_env]
  rfl

/-- Settles O32: the loop is followed past the lines and through the next one, which is then processed as its meaning
says, unless the access that would end it fails. -/
theorem parsehdrFollowsTheLines : Obligations.ParsehdrFollowsTheLines := by
  intro s lines last rest herr ho h0 hpass hline n done meaning
  have hcan : (clearResultFlags s).canReadBytes = true := canReadBytes_of ho h0
  have hmeaning : lineMeaning s.par.maxCount last = meaning := rfl
  refine ⟨?newline, ?eos, fun hleft hd => ?fails⟩
  case newline =>
    intro hleft hd t
    have hbody := parsehdrBody_newline (s := clearResultFlags s) hcan hpass hline hleft hd
    rw [clearResultFlags_par, hmeaning, afterLines_clearResultFlags_takeBytes] at hbody
    exact ⟨fun hm => issue_ok herr (hbody.trans (by rw [hm]; rfl)),
      fun hm => issue_raised herr (hbody.trans (by rw [hm]; rfl))⟩
  case eos =>
    intro hleft hd t
    have hbody := parsehdrBody_eos (s := clearResultFlags s) hcan hpass hline hleft hd
    have ht : setEos ((afterLines lines (clearResultFlags s)).takeBytes n).useDraw = t := by
      rw [afterLines_clearResultFlags_takeBytes, setEos, State.useDraw, State.setEnv_setEnv, State.setEnv_env,
        List.tail_drop, State.setEnv_reg, afterLines_reg]
      rfl
    rw [clearResultFlags_par, hmeaning, ht] at hbody
    exact ⟨fun hm => issue_ok herr (hbody.trans (by rw [hm]; rfl)),
      fun hm => issue_raised herr (hbody.trans (by rw [hm]; rfl)),
      fun hs hb => issue_raised herr (hbody.trans (by rw [LineMeaning.outcome_of_passed hs hb]; rfl))⟩
  case fails =>
    obtain ⟨pos, free, hbody⟩ := parsehdrBody_fails (s := clearResultFlags s) hcan hpass hline hleft hd
    exact ⟨pos, free, issue_raised herr hbody⟩

/-- Settles O31: on an empty source the next line is the blank one, ended by the end of the source. -/
theorem parsehdrRefusedOrAtEndOfSource : Obligations.ParsehdrRefusedOrAtEndOfSource := by
  intro s herr
  refine ⟨fun h => issue_raised herr (if_neg (not_canReadBytes h)), fun ho h0 hd hleft => ?_⟩
  obtain ⟨-, heos, -⟩ := parsehdrFollowsTheLines s [] [] [] herr ho h0 (List.forall_mem_nil _) List.not_mem_nil
  obtain ⟨-, -, hmalformed⟩ := heos hleft
    (not_mem_take_draws_succ.2 ⟨(accessFails_false_iff s).2 hd, List.not_mem_nil⟩)
  rw [hmalformed (fun h => nomatch h) (fun h => nomatch h), ← List.drop_one]
  rfl

end Sys2Proof.Machine
end

section
/-! PROOFS. The header `WRHDR` emits, as lines, and what `PARSEHDR` reads from it (R94, R95, R200). -/

namespace Sys2Proof.Machine

variable {max v size : Nat} {pairs : List (Nat × Count)} {e : Nat × Count} {b : Byte}

/-! ### The lines of an emitted header -/

/-- The line of a symbol and its count (R94). -/
def pairText (e : Nat × Count) : List Byte := dec e.1 ++ space :: dec e.2.toNat

/-- The lines of an emitted header before the sentinel (R94). -/
def headerLines (size : Nat) (pairs : List (Nat × Count)) : List (List Byte) :=
  (kwOriginalSize ++ dec size) :: (kwSymbols ++ dec pairs.length) :: pairs.map pairText

theorem headerText_eq_joinLines (size : Nat) (pairs : List (Nat × Count)) :
    headerText size pairs = joinLines (headerLines size pairs ++ [kwEndHeader]) := by
  have hpair : pairLine = fun e => pairText e ++ [newline] := funext fun e => by simp [pairLine, pairText]
  simp [headerText, joinLines, headerLines, List.flatMap_map, hpair]

theorem IsDigit.ne (h : IsDigit b) {c : Byte} (hc : ¬IsDigit c) : b ≠ c := fun heq => hc (heq ▸ h)

theorem not_mem_dec {c : Byte} (hc : ¬IsDigit c) (v : Nat) : c ∉ dec v := fun h => hc (isDigit_of_mem_dec c h)

theorem not_isDigit_newline : ¬IsDigit newline := by unfold IsDigit; decide

theorem not_isDigit_space : ¬IsDigit space := by unfold IsDigit; decide

theorem newline_not_mem_headerLines : ∀ line ∈ headerLines size pairs, newline ∉ line := by
  have hdec := not_mem_dec not_isDigit_newline
  have hsize : newline ∉ kwOriginalSize := by decide
  have hsymbols : newline ∉ kwSymbols := by decide
  have hspace : newline ≠ space := by decide
  have hpair : ∀ e, newline ∉ pairText e := fun e => by simp [pairText, hdec, hspace]
  refine List.forall_mem_cons.2 ⟨by simp [hsize, hdec], List.forall_mem_cons.2 ⟨by simp [hsymbols, hdec], ?_⟩⟩
  exact List.forall_mem_map.2 fun e _ => hpair e

/-! ### What they mean -/

theorem lineMeaning_size (h : v ≤ max) : lineMeaning max (kwOriginalSize ++ dec v) = .size v := by
  have hblank : kwOriginalSize ++ dec v ≠ [] := by simp [kwOriginalSize]
  have hsentinel : kwOriginalSize ++ dec v ≠ kwEndHeader := by simp [kwOriginalSize, kwEndHeader]
  have htake : (kwOriginalSize ++ dec v).take 14 = kwOriginalSize := List.take_left' rfl
  have hdrop : (kwOriginalSize ++ dec v).drop 14 = dec v := List.drop_left' rfl
  rw [lineMeaning, if_neg hblank, if_neg hsentinel, if_pos htake, hdrop, fieldValue_dec h]
  rfl

theorem lineMeaning_symbols (h : v ≤ max) : lineMeaning max (kwSymbols ++ dec v) = .symbols v := by
  have hblank : kwSymbols ++ dec v ≠ [] := by simp [kwSymbols]
  have hsentinel : kwSymbols ++ dec v ≠ kwEndHeader := by simp [kwSymbols, kwEndHeader]
  have hsize : (kwSymbols ++ dec v).take 14 ≠ kwOriginalSize := by simp [kwSymbols, kwOriginalSize]
  have htake : (kwSymbols ++ dec v).take 8 = kwSymbols := List.take_left' rfl
  have hdrop : (kwSymbols ++ dec v).drop 8 = dec v := List.drop_left' rfl
  rw [lineMeaning, if_neg hblank, if_neg hsentinel, if_neg hsize, if_pos htake, hdrop, fieldValue_dec h]
  rfl

/-- A pair line begins with a digit, as no keyword does, and its first space is the one between the fields. -/
theorem lineMeaning_pairText (hsym : e.1 ≤ 255) (hmax : 255 ≤ max) (hcount : e.2.toNat ≤ max) :
    lineMeaning max (pairText e) = .count e.1 e.2.toNat := by
  obtain ⟨b, field, hfield⟩ := List.exists_cons_of_ne_nil (dec_ne_nil e.1)
  have hb : IsDigit b := isDigit_of_mem_dec b (hfield ▸ List.mem_cons_self)
  have hline : pairText e = b :: (field ++ space :: dec e.2.toNat) := by rw [pairText, hfield]; rfl
  have hE : b ≠ 0x45#8 := hb.ne (by unfold IsDigit; decide)
  have hO : b ≠ 0x4F#8 := hb.ne (by unfold IsDigit; decide)
  have hS : b ≠ 0x53#8 := hb.ne (by unfold IsDigit; decide)
  have hblank : pairText e ≠ [] := by simp [hline]
  have hsentinel : pairText e ≠ kwEndHeader := by simp [hline, kwEndHeader, hE]
  have hsize : (pairText e).take 14 ≠ kwOriginalSize := by simp [hline, kwOriginalSize, hO]
  have hsymbols : (pairText e).take 8 ≠ kwSymbols := by simp [hline, kwSymbols, hS]
  have hidx : (pairText e).idxOf space = (dec e.1).length := by
    rw [pairText, List.idxOf_append_of_notMem (not_mem_dec not_isDigit_space _), List.idxOf_cons_self, Nat.add_zero]
  have htake : (pairText e).take (dec e.1).length = dec e.1 := List.take_left
  have hdrop : (pairText e).drop ((dec e.1).length + 1) = dec e.2.toNat := by
    rw [pairText, ← List.drop_drop, List.drop_left]
    rfl
  have hinside : (dec e.1).length < (pairText e).length ∧ e.1 ≤ 255 := ⟨by simp [pairText], hsym⟩
  rw [lineMeaning, if_neg hblank, if_neg hsentinel, if_neg hsize, if_neg hsymbols]
  simp only [hidx, htake, hdrop, fieldValue_dec (hsym.trans hmax), fieldValue_dec hcount, if_pos hinside]

/-! ### The operation -/

/-- A header whose numbers fit the counts. -/
structure HeaderFits (max size : Nat) (pairs : List (Nat × Count)) : Prop where
  symbol : 255 ≤ max
  size : size ≤ max
  length : pairs.length ≤ max
  pair : ∀ e ∈ pairs, e.1 ≤ 255 ∧ e.2.toNat ≤ max

/-- An emitted header's lines before the sentinel are gone past. -/
theorem HeaderFits.passedOver (h : HeaderFits max size pairs) : passedOver max (headerLines size pairs) := by
  intro line hline
  refine ⟨newline_not_mem_headerLines line hline, ?_⟩
  simp only [headerLines, List.mem_cons, List.mem_map] at hline
  rcases hline with rfl | rfl | ⟨e, he, rfl⟩
  · rw [lineMeaning_size h.size]
    exact ⟨(fun h => nomatch h), (fun h => nomatch h)⟩
  · rw [lineMeaning_symbols h.length]
    exact ⟨(fun h => nomatch h), (fun h => nomatch h)⟩
  · rw [lineMeaning_pairText (h.pair e he).1 h.symbol (h.pair e he).2]
    exact ⟨(fun h => nomatch h), (fun h => nomatch h)⟩

/-- Pair lines write their counts over `FREQ` in order (R99). -/
theorem applyLines_pairs {s : State} (hmax : 255 ≤ max) (h : ∀ e ∈ pairs, e.1 ≤ 255 ∧ e.2.toNat ≤ max) :
    applyLines max (pairs.map pairText) s = s.setTab { s.tab with freq := writeAll s.tab.freq pairs } := by
  induction pairs generalizing s with
  | nil => rfl
  | cons e pairs ih =>
    obtain ⟨⟨hsym, hcount⟩, h⟩ := List.forall_mem_cons.1 h
    rw [List.map_cons, applyLines_cons, lineMeaning_pairText hsym hmax hcount, ih h, writeAll_cons,
      LineMeaning.applyTo, BitVec.ofNat_toNat, BitVec.setWidth_eq]
    rfl

/-- The lines of an emitted header say its size, its number of pairs and its counts (R200). -/
theorem afterLines_headerLines {s : State} (h : HeaderFits s.par.maxCount size pairs) :
    afterLines (headerLines size pairs) s = (s.setCtr { s.ctr with
      osize := BitVec.ofNat 32 size, nsym := BitVec.ofNat 32 pairs.length }).setTab { s.tab with
        freq := writeAll (Memory.fill 256 0#32) pairs } := by
  rw [afterLines_eq_applyLines, headerLines, applyLines_cons, applyLines_cons, lineMeaning_size h.size,
    lineMeaning_symbols h.length, applyLines_pairs h.symbol h.pair]
  rfl

/-- Settles O30: the header is lines gone past and then the sentinel. -/
theorem parsehdrReadsAnEmittedHeader : Obligations.ParsehdrReadsAnEmittedHeader := by
  intro s size pairs rest herr ho h0 hn hwf hsize hlength hpairs hleft
  have hmax := Config.Params.symbolCount_le_maxCount hwf
  have hfits : HeaderFits s.par.maxCount size pairs :=
    ⟨by unfold Config.symbolCount at hmax; omega, hsize, hlength, hpairs⟩
  have hd : ∀ n, true ∉ s.env.draws.take n := fun n h => by
    have := List.all_eq_true.1 hn true (List.mem_of_mem_take h)
    exact absurd this (by decide)
  obtain ⟨hline, -⟩ := parsehdrFollowsTheLines s (headerLines size pairs) kwEndHeader rest herr ho h0
    hfits.passedOver (by decide)
  obtain ⟨hend, -⟩ := hline (by rw [hleft, headerText_eq_joinLines]) (hd _)
  have hlen : (joinLines (headerLines size pairs) ++ kwEndHeader).length + 1 = (headerText size pairs).length := by
    rw [headerText_eq_joinLines, joinLines_concat, List.length_append (bs := [newline])]
    rfl
  rw [hend rfl, afterLines_headerLines (s := clearResultFlags s) hfits, hlen]
  rfl

end Sys2Proof.Machine
end

section
/-! PROOFS. `WALK` without a tree, over a single leaf, and over a tree with an internal root whose bits are followed to
the last symbol or to their end (R201 to R205). -/

namespace Sys2Proof.Machine

variable {s t u : State} {root pos : LinkTree} {l r : HTree} {b : Bool} {bits : List Bool} {k : Nat}

/-! ### No tree and a single leaf -/

theorem canWalk_of (hropen : s.rd.ropen = true) (hwopen : s.wr.wopen = true) (hwcnt : s.wr.wcnt = 0#3) :
    s.canWalk = true := by simp [State.canWalk, hropen, canWriteBytes_of hwopen hwcnt]

theorem not_canWalk (h : s.rd.ropen = false ∨ s.wr.wopen = false ∨ s.wr.wcnt ≠ 0#3) : ¬s.canWalk = true := by
  rcases h with h | h
  · simp [State.canWalk, h]
  · simp [State.canWalk, not_canWriteBytes h]

theorem walkBody_none (hcan : s.canWalk = true) (hroot : s.ctr.root = NONE) :
    walkBody s = .ok () ((startWalk s).setResult 0#32) := by
  simp [walkBody, hcan, hroot, startWalk]

/-- The single-leaf loop with no failure ahead writes and counts its copies of the symbol (R204). -/
theorem emitRepeat_ok (k : Nat) (sym : Byte) (h : s.noFailure = true) :
    emitRepeat k sym s = .ok () (((s.setEnv { s.env with
      snk := s.env.snk ++ List.replicate k sym, draws := s.env.draws.drop k }).setWr
      { s.wr with snkCnt := s.wr.snkCnt + BitVec.ofNat 64 k }).setCtr
      { s.ctr with decoded := s.ctr.decoded + BitVec.ofNat 32 k }) := by
  induction k generalizing s with
  | zero => simp [emitRepeat, State.setEnv, State.setWr, State.setCtr]
  | succ k ih =>
    rw [emitRepeat, snkWrite_ok sym (noFailure_access h), Res.andThen_ok, ih (noFailure_drop h 1 List.drop_one.symm)]
    simp [State.setEnv, State.setWr, State.setCtr, BitVec.add_assoc, ← BitVec.ofNat_add, Nat.add_comm,
      List.replicate_succ]

theorem walkBody_leaf {sym : Byte} (hcan : s.canWalk = true) (h : treeAt s.tab.node (.leaf sym) s.ctr.root = true) :
    walkBody s = (emitRepeat s.ctr.osize.toNat sym (startWalk s)).andThen fun _ u => .ok () (reportDecoded u) := by
  obtain ⟨n, hn, hk, rfl⟩ := treeAt_leaf.1 h
  rcases walkBody_cases hcan with ⟨hnone, -⟩ | ⟨f, herror, -⟩ | ⟨m, hm, ⟨-, hloop⟩ | ⟨hinternal, -⟩⟩
  · exact absurd hnone (readNode_ok.1 hn).1
  · exact nomatch herror.symm.trans hn
  · obtain rfl := Except.ok.inj (hn.symm.trans hm)
    exact hloop
  · obtain rfl := Except.ok.inj (hn.symm.trans hm)
    exact nomatch hk.symm.trans hinternal

/-- Settles O33: without a tree, and over a single leaf, no bit is read. -/
theorem walkWithoutTreeOrWithOneLeaf : Obligations.WalkWithoutTreeOrWithOneLeaf := by
  refine fun s herr => ⟨fun h => issue_raised herr (if_neg (not_canWalk h)), fun hropen hwopen hwcnt => ?_⟩
  have hcan : (clearResultFlags s).canWalk = true := canWalk_of hropen hwopen hwcnt
  refine ⟨fun hroot => issue_ok herr (walkBody_none hcan hroot) ?_, fun sym hleaf hn => ?_⟩
  · rw [startWalk, clearResultFlags_ctr, hroot]
    rfl
  · have hloop := emitRepeat_ok (s := startWalk (clearResultFlags s)) s.ctr.osize.toNat sym hn
    refine issue_ok herr ((walkBody_leaf hcan hleaf).trans (congrArg (Res.andThen · _) hloop)) ?_
    simp [reportDecoded, startWalk, State.setResult, State.setReg, State.setCtr, State.setEnv, State.setWr,
      clearResultFlags]

/-! ### The bits of a tree -/

/-- From no symbol on, as many have been counted as bytes were written. -/
theorem Emitted.decoded_eq {out tail : List Byte} (h : Emitted s out tail t) (h0 : s.ctr.decoded = 0#32) :
    t.ctr.decoded = BitVec.ofNat 32 out.length := by
  have hdec := h.decoded
  rw [h0, BitVec.toNat_ofNat, Nat.zero_mod, Nat.zero_add] at hdec
  rw [← hdec, BitVec.ofNat_toNat, BitVec.setWidth_eq]

/-- The loop of `WALK` has ended as a decode says, from the state it was entered in: the symbols emitted, the bits left,
`EOS` if they ran out, and otherwise all symbols decoded with the walk back at the root (R201, R205). -/
structure WalkedTo (s : State) (d : List Byte × List Bool × Bool) (t : State) : Prop where
  emitted : Emitted s d.1 [] t
  left : t.readableBits = d.2.1
  reg : t.reg = { s.reg with eos := s.reg.eos || d.2.2 }
  complete : d.2.2 = false → t.ctr.cur = t.ctr.root ∧ t.ctr.decoded = t.ctr.osize

theorem WalkedTo.after {out : List Byte} {d : List Byte × List Bool × Bool} (h : Advanced s out t)
    (h' : WalkedTo t d u) : WalkedTo s (out ++ d.1, d.2) u where
  emitted := h.toEmitted.trans h'.emitted
  left := h'.left
  reg := by rw [h'.reg, h.reg]
  complete := h'.complete

/-- With `osize` symbols decoded the loop ends (R201). -/
theorem walkLoop_complete (h : WalkingLinks root pos bits s) (hge : s.ctr.osize.toNat ≤ s.ctr.decoded.toNat)
    (hcur : s.ctr.cur = s.ctr.root) :
    walkLoop (k + 1) s = .ok () s ∧ WalkedTo s ([], bits, false) s := by
  refine ⟨?_, .nil rfl rfl rfl rfl h.fits, h.readable, by simp, fun _ => ⟨hcur, ?_⟩⟩
  · exact if_neg (Nat.not_lt.2 hge)
  · exact BitVec.eq_of_toNat_eq (le_antisymm h.fits hge)

/-- With the bits at their end the loop ends, and only `EOS` says so (R205). -/
theorem walkLoop_bitsOut (h : WalkingLinks root pos [] s) (hlt : s.ctr.decoded < s.ctr.osize) :
    walkLoop (k + 1) s = .ok () (setEos s.useDraw) ∧ WalkedTo s ([], [], true) (setEos s.useDraw) := by
  obtain ⟨h0, hleft⟩ := readableBits_nil_iff.1 h.readable
  refine ⟨?_, .nil rfl rfl rfl rfl h.fits, h.readable, by simp [setEos, State.useDraw], fun h => nomatch h⟩
  rw [walkLoop, if_pos hlt, readBit_eos h0 (not_fails_of_noFailure h.noFailure) hleft]
  rfl

/-- A step that has counted a symbol is back at the root (R202). -/
theorem walkStep_cur (h : walkStep b s = .ok () t) (hd : t.ctr.decoded ≠ s.ctr.decoded) : t.ctr.cur = t.ctr.root := by
  rcases walkStep_cases b s with ⟨f, hr⟩ | ⟨n, -, ⟨-, hr⟩ | ⟨m, -, ⟨-, hr⟩ | ⟨-, hr⟩⟩⟩ <;> rw [hr] at h
  · cases h
  · cases h
  · cases h
    exact absurd rfl hd
  · rcases snkWrite_cases m.symbol (s.setCtr { s.ctr with cur := if b then n.right else n.left }) with
      ⟨-, hw⟩ | ⟨-, hw⟩ <;> rw [hw] at h <;> cases h
    rfl

/-- The loop of `WALK` over a tree ends as the decode of its bits says (R201, R202, R205). -/
theorem walkLoop_decodes {l₀ r₀ : HTree} (bits : List Bool) (hk : bits.length < k)
    (h : WalkingLinks (HTree.node l₀ r₀).toLinks (HTree.node l r).toLinks bits s)
    (hcur : s.ctr.osize.toNat ≤ s.ctr.decoded.toNat → s.ctr.cur = s.ctr.root) :
    ∃ t, walkLoop k s = .ok () t ∧ WalkedTo s
      ((HTree.node l₀ r₀).decode bits (.node l r) (s.ctr.osize.toNat - s.ctr.decoded.toNat)) t := by
  induction bits generalizing s l r k with
  | nil =>
    obtain ⟨k, rfl⟩ := Nat.exists_eq_succ_of_ne_zero (Nat.ne_zero_of_lt hk)
    rcases Nat.lt_or_ge s.ctr.decoded.toNat s.ctr.osize.toNat with hlt | hge
    · obtain ⟨n, hn⟩ := Nat.exists_eq_succ_of_ne_zero (Nat.sub_ne_zero_of_lt hlt)
      rw [hn]
      exact ⟨_, walkLoop_bitsOut h hlt⟩
    · rw [Nat.sub_eq_zero_of_le hge]
      exact ⟨_, walkLoop_complete h hge (hcur hge)⟩
  | cons b bits ih =>
    obtain ⟨k, rfl⟩ := Nat.exists_eq_succ_of_ne_zero (Nat.ne_zero_of_lt hk)
    have hk : bits.length < k := Nat.lt_of_succ_lt_succ hk
    rcases Nat.lt_or_ge s.ctr.decoded.toNat s.ctr.osize.toNat with hlt | hge
    · obtain ⟨t, hturn, hwalk, hread, hctr⟩ := walkLoop_turn (k := k) h hlt
      have hn : s.ctr.osize.toNat - s.ctr.decoded.toNat = s.ctr.osize.toNat - (s.ctr.decoded.toNat + 1) + 1 := by omega
      have hchild : (if b then r.toLinks else l.toLinks) = (if b then r else l).toLinks := by cases b <;> rfl
      rw [hn, hturn]
      simp only [HTree.decode]
      cases hc : (if b then r else l) with
      | leaf sym =>
        rw [hc] at hchild
        obtain ⟨v, hstep, hwalk', hemit⟩ := walkStep_leaf hwalk (hctr ▸ hlt) hchild
        have hdec := hemit.decoded
        have hos := hemit.osize
        rw [List.length_singleton, hctr] at hdec
        rw [hctr] at hos
        obtain ⟨w, hw, hdone⟩ := ih hk hwalk' fun _ => walkStep_cur hstep fun heq => by
          rw [heq, hctr] at hdec
          omega
        rw [hstep]
        rw [hos, hdec] at hdone
        exact ⟨w, hw, .after (hread.trans hemit) hdone⟩
      | node l' r' =>
        rw [hc] at hchild
        obtain ⟨v, hstep, hwalk', hmove, hdec, hos⟩ := walkStep_node hwalk hchild
        rw [hctr] at hdec hos
        obtain ⟨w, hw, hdone⟩ := ih hk (l := l') (r := r') hwalk' fun hge => by
          rw [hdec, hos] at hge
          omega
        rw [hstep]
        rw [hos, hdec, hn] at hdone
        exact ⟨w, hw, .after (hread.trans hmove) hdone⟩
    · rw [Nat.sub_eq_zero_of_le hge]
      exact ⟨_, walkLoop_complete h hge (hcur hge)⟩

/-- `WALK` over a tree with an internal root decodes the reader's bits (R201). -/
theorem walkBody_decodes (hropen : s.rd.ropen = true) (hwopen : s.wr.wopen = true) (hwcnt : s.wr.wcnt = 0#3)
    (herr : s.reg.err = false) (hn : s.noFailure = true) (h : treeAt s.tab.node (.node l r) s.ctr.root = true) :
    ∃ t, walkBody s = .ok () (reportDecoded t) ∧ WalkedTo (startWalk s)
      ((HTree.node l r).decode s.readableBits (.node l r) s.ctr.osize.toNat) t := by
  rw [← linksAt_toLinks] at h
  obtain ⟨t, hloop, hwalked⟩ := walkLoop_decodes (k := s.bitsLeft + 1) s.readableBits
    (Nat.lt_succ_of_le (length_readableBits s).le)
    (show WalkingLinks _ _ _ (startWalk s) from ⟨⟨herr, hropen, hn, rfl⟩, Nat.zero_le _, h, h⟩) fun _ => rfl
  refine ⟨t, ?_, hwalked⟩
  rw [walkBody_links (canWalk_of hropen hwopen hwcnt) h, hloop]
  rfl

/-- Settles O34: the loop ends as the decode of the reader's bits says. -/
theorem walkDecodesTheBits : Obligations.WalkDecodesTheBits := by
  intro s l r herr hropen hwopen hwcnt hn htree d
  obtain ⟨t, hbody, hwalked⟩ := walkBody_decodes (s := clearResultFlags s) hropen hwopen hwcnt herr hn htree
  have hrun : exec .walk s = .next (reportDecoded t) := issue_ok herr hbody
  obtain ⟨-, -, -, -, hctr⟩ := exec_walk_frame hrun
  have hcount : t.ctr.decoded = BitVec.ofNat 32 d.1.length := hwalked.emitted.decoded_eq rfl
  refine ⟨_, hrun, hwalked.emitted.snk.trans (List.append_nil _), hcount, rfl, hwalked.left, ?_, ?_, ?_,
    hwalked.emitted.count, fun hd => ?_⟩
  · exact congrArg Regs.eos hwalked.reg
  · exact (congrArg Regs.err hwalked.reg).trans herr
  · exact (congrArg Regs.errcode hwalked.reg :)
  · obtain ⟨hcur, hdec⟩ := hwalked.complete hd
    exact ⟨hcur.trans (congrArg Counters.root hctr :), hdec.trans (congrArg Counters.osize hctr :)⟩

end Sys2Proof.Machine
end

section
/-! PROOFS. No part of a composite looks at `EOS` or clears it (R36, R206): begun with `EOS` seen before, it ends as it
does otherwise, with `EOS` seen. -/

namespace Sys2Proof.Machine

variable {α β : Type}

/-! ### Pieces that do not look at `EOS` -/

/-- The state with `EOS` set if it has been seen before. -/
def State.seenEos (e : Bool) (s : State) : State := s.setReg { s.reg with eos := s.reg.eos || e }

/-- Another state where a piece ends or raises. -/
def Res.mapState (f : State → State) : Res α → Res α
  | .ok a s => .ok a (f s)
  | .raised e s => .raised e (f s)
  | .stop f => .stop f

/-- A piece does not look at `EOS` and does not clear it. -/
def EosBlind (p : State → Res α) : Prop := ∀ e s, p (s.seenEos e) = (p s).mapState (·.seenEos e)

/-- A change of the state that neither looks at `EOS` nor clears it. -/
def EosFree (f : State → State) : Prop := ∀ e s, f (s.seenEos e) = (f s).seenEos e

theorem EosBlind.andThen {p : State → Res α} {k : α → State → Res β} (hp : EosBlind p) (hk : ∀ a, EosBlind (k a)) :
    EosBlind fun s => (p s).andThen k := by
  intro e s
  simp only [hp e s]
  cases p s with
  | ok a t => exact hk a e t
  | raised c t => rfl
  | stop f => rfl

theorem EosBlind.ok {f : State → State} (a : α) (hf : EosFree f) : EosBlind fun s => .ok a (f s) :=
  fun e s => congrArg (Res.ok a) (hf e s)

theorem EosBlind.raised {f : State → State} (c : ErrCode) (hf : EosFree f) :
    EosBlind fun s => (.raised c (f s) : Res α) := fun e s => congrArg (Res.raised c) (hf e s)

theorem EosBlind.ite {c : State → Prop} [∀ s, Decidable (c s)] {p q : State → Res α}
    (hc : ∀ e s, c (s.seenEos e) ↔ c s) (hp : EosBlind p) (hq : EosBlind q) :
    EosBlind fun s => if c s then p s else q s := by
  intro e s
  by_cases h : c s
  · simp only [if_pos h, if_pos ((hc e s).2 h), hp e s]
  · simp only [if_neg h, if_neg (mt (hc e s).1 h), hq e s]

/-- A computation that does not look at `EOS`, and what is done with its value. -/
theorem EosBlind.lift {x : State → Except Fault α} {k : α → State → Res β} (hx : ∀ e s, x (s.seenEos e) = x s)
    (hk : ∀ a, EosBlind (k a)) : EosBlind fun s => (Res.lift (x s) s).andThen k := by
  intro e s
  simp only [hx e s]
  cases x s with
  | ok a => exact hk a e s
  | error f => rfl

@[simp] theorem seenEos_tab (e : Bool) (s : State) : (s.seenEos e).tab = s.tab := rfl
@[simp] theorem seenEos_ctr (e : Bool) (s : State) : (s.seenEos e).ctr = s.ctr := rfl
@[simp] theorem seenEos_pq (e : Bool) (s : State) : (s.seenEos e).pq = s.pq := rfl
@[simp] theorem seenEos_par (e : Bool) (s : State) : (s.seenEos e).par = s.par := rfl

theorem setEos_eosFree : EosFree setEos := fun _ _ => rfl

/-! ### Streams and bits -/

theorem srcRead_eosBlind : EosBlind srcRead := by
  intro e s
  rcases srcRead_cases s with ⟨b, hb, hf, hr⟩ | ⟨hn, hf, hr⟩ | ⟨hf, hr⟩ <;> rw [hr]
  · exact srcRead_byte (s := s.seenEos e) hf hb
  · exact srcRead_eos (s := s.seenEos e) hf hn
  · exact srcRead_fails (s := s.seenEos e) hf

theorem snkWrite_eosBlind (b : Byte) : EosBlind (snkWrite b) := by
  intro e s
  rcases snkWrite_cases b s with ⟨hf, hr⟩ | ⟨hf, hr⟩ <;> rw [hr]
  · exact snkWrite_ok (s := s.seenEos e) b hf
  · exact snkWrite_fails (s := s.seenEos e) b hf

theorem acquire_eosBlind : EosBlind acquire :=
  .ite (fun _ _ => .rfl) (.raised _ fun _ _ => rfl) (.ok _ fun _ _ => rfl)

theorem readBit_eosBlind : EosBlind readBit := by
  refine .ite (fun _ _ => .rfl) (srcRead_eosBlind.andThen fun r => ?_) fun _ _ => rfl
  cases r with
  | none => exact .ok none fun _ _ => rfl
  | some b => exact fun _ _ => rfl

theorem writeBit_eosBlind (b : Bool) : EosBlind (writeBit b) :=
  .ite (fun _ _ => .rfl) (fun e s => snkWrite_eosBlind _ e (s.setWr { s.wr with wbuf := 0#8, wcnt := 0#3 }))
    (.ok _ fun _ _ => rfl)

theorem flushBits_eosBlind : EosBlind flushBits :=
  .ite (fun _ _ => .rfl) (.ok _ fun _ _ => rfl)
    fun e s => snkWrite_eosBlind _ e (s.setWr { s.wr with wbuf := 0#8, wcnt := 0#3 })

theorem emit_eosBlind (bytes : List Byte) : EosBlind (emit bytes) := by
  induction bytes with
  | nil => exact .ok _ fun _ _ => rfl
  | cons b bytes ih => exact (snkWrite_eosBlind b).andThen fun _ => ih

theorem writeBits_eosBlind (bits : List Bool) : EosBlind (writeBits bits) := by
  induction bits with
  | nil => exact .ok _ fun _ _ => rfl
  | cons b bits ih => exact (writeBit_eosBlind b).andThen fun _ => ih

theorem ropenBody_eosBlind : EosBlind ropenBody :=
  .ite (fun _ _ => .rfl) (.raised _ fun _ _ => rfl) (acquire_eosBlind.andThen fun _ => .ok _ fun _ _ => rfl)

theorem rcloseBody_eosBlind : EosBlind rcloseBody :=
  .ite (fun _ _ => .rfl) (.ok _ fun _ _ => rfl) (.raised _ fun _ _ => rfl)

theorem wopenBody_eosBlind : EosBlind wopenBody :=
  .ite (fun _ _ => .rfl) (.raised _ fun _ _ => rfl) (acquire_eosBlind.andThen fun _ => .ok _ fun _ _ => rfl)

theorem wcloseBody_eosBlind : EosBlind wcloseBody := by
  refine .ite (fun _ _ => .rfl) (fun e s => ?_) (.raised _ fun _ _ => rfl)
  simp only [flushBits_eosBlind e s]
  cases flushBits s <;> rfl

/-! ### The tree builder -/

/-- A computation of a state does not look at `EOS` and does not clear it. -/
def BuildsEosBlind (x : State → Except Fault State) : Prop := ∀ e s, x (s.seenEos e) = (x s).map (·.seenEos e)

theorem BuildsEosBlind.bind {x y : State → Except Fault State} (hx : BuildsEosBlind x) (hy : BuildsEosBlind y) :
    BuildsEosBlind fun s => x s >>= y := by
  intro e s
  simp only [hx e s]
  cases x s with
  | ok t => exact hy e t
  | error f => rfl

theorem BuildsEosBlind.lift {x : State → Except Fault α} {k : α → State → Except Fault State}
    (hx : ∀ e s, x (s.seenEos e) = x s) (hk : ∀ a, BuildsEosBlind (k a)) : BuildsEosBlind fun s => x s >>= (k · s) := by
  intro e s
  simp only [hx e s]
  cases x s with
  | ok a => exact hk a e s
  | error f => rfl

theorem BuildsEosBlind.ite {c : State → Prop} [∀ s, Decidable (c s)] {x y : State → Except Fault State}
    (hc : ∀ e s, c (s.seenEos e) ↔ c s) (hx : BuildsEosBlind x) (hy : BuildsEosBlind y) :
    BuildsEosBlind fun s => if c s then x s else y s := by
  intro e s
  by_cases h : c s
  · simp only [if_pos h, if_pos ((hc e s).2 h), hx e s]
  · simp only [if_neg h, if_neg (mt (hc e s).1 h), hy e s]

theorem pqInsert_eosBlind (id : NodeId) : BuildsEosBlind (pqInsert id) := by
  intro e s
  simp only [pqInsert, seenEos_tab, seenEos_ctr, seenEos_pq, seenEos_par]
  cases s.par.tie with
  | ref =>
    dsimp only
    cases siftUp s.tab.node s.ctr.hsize.toNat s.ctr.hsize.toNat (s.tab.heap.write s.ctr.hsize.toNat id) <;> rfl
  | other k =>
    dsimp only
    cases otherInsert k (s.pq.hist ++ [.inserted id ((s.tab.node.read id.toNat).map (·.weight))])
      (s.tab.heap.write s.ctr.hsize.toNat id) s.ctr.hsize.toNat <;> rfl

theorem pqPop_eosBlind (e : Bool) (s : State) :
    pqPop (s.seenEos e) = (pqPop s).map (Prod.map id (·.seenEos e)) := by
  unfold pqPop
  by_cases hi : s.pq.intact
  · rw [if_pos hi, if_pos (show (s.seenEos e).pq.intact = true from hi)]
    simp only [seenEos_tab, seenEos_ctr, seenEos_pq, seenEos_par]
    cases s.par.tie with
    | ref => dsimp only; cases refDeleteMin s.tab.node s.tab.heap s.ctr.hsize.toNat <;> rfl
    | other k => dsimp only; cases otherDeleteMin k s.pq.hist s.tab.node s.tab.heap s.ctr.hsize.toNat <;> rfl
  · rw [if_neg hi, if_neg (show ¬ (s.seenEos e).pq.intact = true from hi)]
    rfl

/-- A pop, and what is done with the popped id. -/
theorem BuildsEosBlind.pop {k : NodeId → State → Except Fault State} (hk : ∀ m, BuildsEosBlind (k m)) :
    BuildsEosBlind fun s => pqPop s >>= fun r => k r.1 r.2 := by
  intro e s
  simp only [pqPop_eosBlind e s]
  cases pqPop s with
  | ok r => exact hk r.1 e r.2
  | error f => rfl

theorem allocNode_eosBlind (n : Node) : BuildsEosBlind (allocNode n) := by
  intro e s
  refine BuildsEosBlind.bind (y := fun t => .ok (t.setCtr { t.ctr with nnodes := s.ctr.nnodes + 1#10 }))
    (pqInsert_eosBlind (s.ctr.nnodes.setWidth 9)) ?_ e
    (s.setTab { s.tab with node := s.tab.node.write s.ctr.nnodes.toNat n })
  exact fun _ _ => rfl

theorem addLeaves_eosBlind (es : List (Nat × Count)) : BuildsEosBlind (addLeaves es) := by
  induction es with
  | nil => exact fun _ _ => rfl
  | cons d es ih => exact (allocNode_eosBlind _).bind ih

/-- What a merge does with the two popped ids. -/
theorem mergeOf_eosBlind (a b : NodeId) : BuildsEosBlind fun u =>
    nodeWeight u.tab.node a >>= fun wa => nodeWeight u.tab.node b >>= fun wb => allocNode (internalOf wa wb a b) u :=
  .lift (x := fun s => nodeWeight s.tab.node a) (fun _ _ => rfl) fun _ =>
    .lift (x := fun s => nodeWeight s.tab.node b) (fun _ _ => rfl) fun _ => allocNode_eosBlind _

theorem mergeOnce_eosBlind : BuildsEosBlind mergeOnce := by
  have hpop := BuildsEosBlind.pop fun a => BuildsEosBlind.pop (mergeOf_eosBlind a)
  exact hpop

theorem mergeAll_eosBlind (turns : Nat) : BuildsEosBlind (mergeAll turns) := by
  induction turns with
  | zero => exact fun _ _ => rfl
  | succ k ih => exact .ite (fun _ _ => .rfl) (fun _ _ => rfl) (mergeOnce_eosBlind.bind ih)

theorem buildTree_eosBlind : BuildsEosBlind buildTree := by
  refine .lift (x := fun s => symbolsPresent s.tab.freq) (fun _ _ => rfl) fun pairs => ?_
  refine .bind (fun e s => addLeaves_eosBlind pairs e (clearTree s)) ?_
  refine .ite (fun _ _ => .rfl) (fun _ _ => rfl) ((mergeAll_eosBlind _).bind ?_)
  exact .pop (k := fun r v => .ok ((v.setCtr { v.ctr with root := r }).setResult (r.setWidth 32))) fun _ _ _ => rfl

theorem buildtreeBody_eosBlind : EosBlind buildtreeBody := by
  intro e s
  rw [buildtreeBody, buildtreeBody, buildTree_eosBlind e s]
  cases buildTree s <;> rfl

/-- A read of a record, and what is done with the record. -/
theorem EosBlind.readNode {i : State → NodeId} {k : Node → State → Res β} (hi : ∀ e s, i (s.seenEos e) = i s)
    (hk : ∀ n, EosBlind (k n)) : EosBlind fun s => (Res.lift (readNode s.tab.node (i s)) s).andThen k :=
  .lift (fun e s => by rw [hi]; rfl) hk

theorem follow_eosBlind {edges : Nat} {path : Code} (id : NodeId) (h : EosBlind (visit edges id path)) :
    EosBlind (follow edges id path) := .ite (fun _ _ => .rfl) (.raised _ fun _ _ => rfl) h

theorem visit_eosBlind (edges : Nat) (id : NodeId) (path : Code) : EosBlind (visit edges id path) := by
  intro e s
  cases hn : Machine.readNode s.tab.node id with
  | error f =>
    unfold visit
    rw [seenEos_tab, hn]
    rfl
  | ok n =>
    cases hk : n.kind with
    | leaf =>
      rw [visit_leaf hn hk, visit_leaf (s := s.seenEos e) hn hk]
      rfl
    | internal =>
      cases edges with
      | zero =>
        rw [visit_too_deep hn hk, visit_too_deep (s := s.seenEos e) hn hk]
        rfl
      | succ k =>
        rw [visit_internal hn hk, visit_internal (s := s.seenEos e) hn hk]
        exact (follow_eosBlind _ (visit_eosBlind k _ _)).andThen (fun _ => follow_eosBlind _ (visit_eosBlind k _ _)) e s

/-- What `BUILDCODES` does once the code table is cleared. -/
theorem codesOfTree_eosBlind : EosBlind fun s : State =>
    if s.ctr.root = NONE then .ok () s
    else (Res.lift (Machine.readNode s.tab.node s.ctr.root) s).andThen fun n t => match n.kind with
      | .leaf => .ok () (t.setCode n.symbol [false])
      | .internal => visit Config.maxDepth t.ctr.root [] t := by
  refine .ite (fun _ _ => .rfl) (.ok _ fun _ _ => rfl) ?_
  refine .readNode (i := fun s => s.ctr.root) (fun _ _ => rfl) fun n => ?_
  cases n.kind with
  | leaf => exact .ok _ fun _ _ => rfl
  | internal => exact fun e s => visit_eosBlind _ _ [] e s

theorem buildcodesBody_eosBlind : EosBlind buildcodesBody := fun e s =>
  codesOfTree_eosBlind e (s.setTab { s.tab with code := Memory.fill Config.symbolCount [] })

/-! ### Decode -/

theorem processLine_eosBlind (line : List Byte) : EosBlind (processLine line) := by
  intro e s
  rw [processLine_eq_outcome, processLine_eq_outcome]
  change (lineMeaning s.par.maxCount line).outcome _ = _
  cases lineMeaning s.par.maxCount line <;> rfl

theorem headerLoop_eosBlind (k : Nat) (line : List Byte) : EosBlind (headerLoop k line) := by
  induction k generalizing line with
  | zero => exact fun _ _ => rfl
  | succ k ih =>
    refine srcRead_eosBlind.andThen fun r => ?_
    cases r with
    | none =>
      refine .andThen (fun e s => processLine_eosBlind line e (setEos s)) fun done => ?_
      exact .ite (fun _ _ => .rfl) (.ok _ fun _ _ => rfl) (.raised _ fun _ _ => rfl)
    | some b =>
      refine .ite (fun _ _ => .rfl) ((processLine_eosBlind line).andThen fun done => ?_) (ih _)
      exact .ite (fun _ _ => .rfl) (.ok _ fun _ _ => rfl) (ih _)

theorem parsehdrBody_eosBlind : EosBlind parsehdrBody :=
  .ite (fun _ _ => .rfl) (fun e s => headerLoop_eosBlind _ [] e (clearHeader s)) (.raised _ fun _ _ => rfl)

theorem emitRepeat_eosBlind (k : Nat) (b : Byte) : EosBlind (emitRepeat k b) := by
  induction k with
  | zero => exact .ok _ fun _ _ => rfl
  | succ k ih =>
    refine (snkWrite_eosBlind b).andThen fun _ e s => ?_
    exact ih e (s.setCtr { s.ctr with decoded := s.ctr.decoded + 1#32 })

/-- What a walk step does on the link it moves to. -/
theorem walkTo_eosBlind (next : NodeId) : EosBlind fun t : State =>
    if next = NONE then .raised .illegalState t
    else (Res.lift (readNode t.tab.node next) t).andThen fun m t => match m.kind with
      | .internal => .ok () t
      | .leaf => (snkWrite m.symbol t).andThen fun _ u =>
          .ok () (u.setCtr { u.ctr with cur := u.ctr.root, decoded := u.ctr.decoded + 1#32 }) := by
  refine .ite (fun _ _ => .rfl) (.raised _ fun _ _ => rfl) (.readNode (i := fun _ => next) (fun _ _ => rfl) fun m => ?_)
  cases m.kind with
  | internal => exact .ok _ fun _ _ => rfl
  | leaf => exact (snkWrite_eosBlind _).andThen fun _ => .ok _ fun _ _ => rfl

theorem walkStep_eosBlind (b : Bool) : EosBlind (walkStep b) :=
  .readNode (i := fun s => s.ctr.cur) (fun _ _ => rfl) fun n e s =>
    walkTo_eosBlind (if b then n.right else n.left) e (s.setCtr { s.ctr with cur := if b then n.right else n.left })

theorem walkLoop_eosBlind (k : Nat) : EosBlind (walkLoop k) := by
  induction k with
  | zero => exact fun _ _ => rfl
  | succ k ih =>
    refine .ite (fun _ _ => .rfl) (readBit_eosBlind.andThen fun r => ?_) (.ok _ fun _ _ => rfl)
    cases r with
    | none => exact .ok _ setEos_eosFree
    | some b => exact (walkStep_eosBlind b).andThen fun _ => ih

/-- What `WALK` does once `decoded` and `cur` are set. -/
theorem walkFromRoot_eosBlind : EosBlind fun s : State =>
    if s.ctr.root = NONE then .ok () (s.setResult 0#32)
    else (Res.lift (readNode s.tab.node s.ctr.root) s).andThen fun n t =>
      (match n.kind with
        | .leaf => emitRepeat t.ctr.osize.toNat n.symbol t
        | .internal => walkLoop (t.bitsLeft + 1) t).andThen fun _ u => .ok () (reportDecoded u) := by
  refine .ite (fun _ _ => .rfl) (.ok _ fun _ _ => rfl) ?_
  refine .readNode (i := fun s => s.ctr.root) (fun _ _ => rfl) fun n => ?_
  cases n.kind with
  | leaf => exact .andThen (fun e s => emitRepeat_eosBlind _ _ e s) fun _ => .ok _ fun _ _ => rfl
  | internal => exact .andThen (fun e s => walkLoop_eosBlind _ e s) fun _ => .ok _ fun _ _ => rfl

theorem walkBody_eosBlind : EosBlind walkBody :=
  .ite (fun _ _ => .rfl)
    (fun e s => walkFromRoot_eosBlind e (s.setCtr { s.ctr with decoded := 0#32, cur := s.ctr.root }))
    (.raised _ fun _ _ => rfl)

/-! ### Compress -/

theorem countByte_eosBlind (b : Byte) : EosBlind (countByte b) :=
  .ite (fun _ _ => .rfl) (.raised _ fun _ _ => rfl) (.lift (fun _ _ => rfl) fun _ => .ok _ fun _ _ => rfl)

theorem countLoop_eosBlind (k : Nat) : EosBlind (countLoop k) := by
  induction k with
  | zero => exact fun _ _ => rfl
  | succ k ih =>
    refine srcRead_eosBlind.andThen fun r => ?_
    cases r with
    | none => exact .ok _ setEos_eosFree
    | some b => exact (countByte_eosBlind b).andThen fun _ => ih

theorem countfreqBody_eosBlind : EosBlind countfreqBody := by
  refine .ite (fun _ _ => .rfl) ?_ (.raised _ fun _ _ => rfl)
  refine .andThen (fun e s => countLoop_eosBlind _ e (clearCounts s)) fun _ => ?_
  exact .lift (fun _ _ => rfl) fun _ => .ok _ fun _ _ => rfl

theorem wrhdrBody_eosBlind : EosBlind wrhdrBody :=
  .ite (fun _ _ => .rfl) (.lift (fun _ _ => rfl) fun _ e s => emit_eosBlind _ e (s.setNsym _))
    (.raised _ fun _ _ => rfl)

theorem encodeByte_eosBlind (b : Byte) : EosBlind (encodeByte b) :=
  .lift (fun _ _ => rfl) fun c => .ite (fun _ _ => .rfl) (.raised _ fun _ _ => rfl) (writeBits_eosBlind c)

theorem encodeLoop_eosBlind (k i : Nat) : EosBlind (encodeLoop k i) := by
  induction k generalizing i with
  | zero => exact .ok _ fun _ _ => rfl
  | succ k ih => exact .lift (fun _ _ => rfl) fun b => (encodeByte_eosBlind b).andThen fun _ => ih _

theorem encodeBody_eosBlind : EosBlind encodeBody :=
  .ite (fun _ _ => .rfl) (.andThen (fun e s => encodeLoop_eosBlind _ 0 e s) fun _ => flushBits_eosBlind)
    (.raised _ fun _ _ => rfl)

end Sys2Proof.Machine
end

section
/-! PROOFS. Composites and their parts (R206, R233): issued one by one the parts start with `EOS` clear, inside a
composite they start with what the parts before have seen, which no part looks at. -/

namespace Sys2Proof.Machine

variable {s t u v : State} {i : Instr} {is before after : List Instr} {p : State → Res Unit}
  {ps : List (State → Res Unit)} {e : Bool}

/-! ### The parts -/

/-- No error is recorded and `EMPTY` is clear, as the prelude leaves it. -/
def Quiet (r : Regs) : Prop := r.err = false ∧ r.empty = false

/-- A piece of pseudocode is the rule of an operation, does not look at `EOS`, and neither records an error by itself
nor sets `EMPTY`. -/
structure PartOf (i : Instr) (p : State → Res Unit) : Prop where
  exec : ∀ s, exec i s = issue p s
  blind : EosBlind p
  quiet : ∀ {s : State}, Quiet s.reg → (p s).Leaves (Quiet ·.reg)

theorem ropen_partOf : PartOf .ropen ropenBody :=
  ⟨fun _ => rfl, ropenBody_eosBlind, ropenBody_regs (Q := Quiet)⟩

theorem rclose_partOf : PartOf .rclose rcloseBody :=
  ⟨fun _ => rfl, rcloseBody_eosBlind, rcloseBody_regs (Q := Quiet)⟩

theorem wopen_partOf : PartOf .wopen wopenBody :=
  ⟨fun _ => rfl, wopenBody_eosBlind, wopenBody_regs (Q := Quiet)⟩

theorem wclose_partOf : PartOf .wclose wcloseBody :=
  ⟨fun _ => rfl, wcloseBody_eosBlind, wcloseBody_regs (Q := Quiet)⟩

theorem buildtree_partOf : PartOf .buildtree buildtreeBody :=
  ⟨fun _ => rfl, buildtreeBody_eosBlind, buildtreeBody_regs (Q := Quiet) fun _ _ => id⟩

theorem buildcodes_partOf : PartOf .buildcodes buildcodesBody :=
  ⟨fun _ => rfl, buildcodesBody_eosBlind, buildcodesBody_regs (Q := Quiet)⟩

theorem parsehdr_partOf : PartOf .parsehdr parsehdrBody :=
  ⟨fun _ => rfl, parsehdrBody_eosBlind, parsehdrBody_regs (Q := Quiet) fun _ => id⟩

theorem walk_partOf : PartOf .walk walkBody :=
  ⟨fun _ => rfl, walkBody_eosBlind, walkBody_regs (Q := Quiet) (fun _ _ => id) fun _ => id⟩

theorem countfreq_partOf : PartOf .countfreq countfreqBody :=
  ⟨fun _ => rfl, countfreqBody_eosBlind, countfreqBody_regs (Q := Quiet) fun _ => id⟩

theorem wrhdr_partOf : PartOf .wrhdr wrhdrBody :=
  ⟨fun _ => rfl, wrhdrBody_eosBlind, wrhdrBody_regs (Q := Quiet)⟩

theorem encode_partOf : PartOf .encode encodeBody :=
  ⟨fun _ => rfl, encodeBody_eosBlind, encodeBody_regs (Q := Quiet)⟩

theorem decompressParts_partOf :
    List.Forall₂ PartOf [.ropen, .wopen, .parsehdr, .buildtree, .walk, .wclose, .rclose] decompressParts :=
  .cons ropen_partOf (.cons wopen_partOf (.cons parsehdr_partOf (.cons buildtree_partOf (.cons walk_partOf
    (.cons wclose_partOf (.cons rclose_partOf .nil))))))

theorem compressParts_partOf : List.Forall₂ PartOf
    [.ropen, .countfreq, .rclose, .buildtree, .buildcodes, .wopen, .wrhdr, .encode, .wclose] compressParts :=
  .cons ropen_partOf (.cons countfreq_partOf (.cons rclose_partOf (.cons buildtree_partOf (.cons buildcodes_partOf
    (.cons wopen_partOf (.cons wrhdr_partOf (.cons encode_partOf (.cons wclose_partOf .nil))))))))

/-- A part issued that left no error ran without one, and none was pending. -/
theorem PartOf.ran (hp : PartOf i p) (h : Machine.exec i s = .next t) (ht : t.reg.err = false) :
    s.reg.err = false ∧ p (clearResultFlags s) = .ok () t := by
  rw [hp.exec] at h
  rcases issue_next h with ⟨hs, rfl⟩ | ⟨hs, u, hu, rfl⟩ | ⟨-, c, u, -, rfl⟩
  · simp [hs] at ht
  · exact ⟨hs, hu⟩
  · exact nomatch ht

theorem PartOf.empty_of_ran (hp : PartOf i p) (h : Machine.exec i s = .next t) (ht : t.reg.err = false) :
    t.reg.empty = false := by
  obtain ⟨hs, hrun⟩ := hp.ran h ht
  have hquiet := hp.quiet (s := clearResultFlags s) ⟨hs, rfl⟩
  rw [hrun] at hquiet
  exact hquiet.2

/-- A part issued with no error pending that left one raised it. -/
theorem PartOf.raised (hp : PartOf i p) (hs : s.reg.err = false) (h : Machine.exec i s = .next t)
    (ht : t.reg.err = true) : ∃ c u, p (clearResultFlags s) = .raised c u ∧ t = raiseError c u := by
  rw [hp.exec] at h
  rcases issue_next h with ⟨hs', -⟩ | ⟨-, u, hu, rfl⟩ | ⟨-, c, u, hu, ht⟩
  · simp [hs] at hs'
  · have hquiet := hp.quiet (s := clearResultFlags s) ⟨hs, rfl⟩
    rw [hu] at hquiet
    simp [hquiet.1] at ht
  · exact ⟨c, u, hu, ht⟩

/-- With `EMPTY` clear, what is cleared for the next part is `EOS`. -/
theorem seenEos_of_empty (h : s.reg.empty = false) (e : Bool) :
    s.seenEos e = (clearResultFlags s).seenEos (s.reg.eos || e) := by
  have hreg : { s.reg with eos := s.reg.eos || e } =
      { s.reg with eos := false || (s.reg.eos || e), empty := false } := by
    rw [Bool.false_or, ← h]
  exact congrArg s.setReg hreg

/-- A part that ends inside a composite ends as it does issued alone, `EOS` being kept for the next part. -/
theorem PartOf.runParts_cons (hp : PartOf i p) (h : Machine.exec i s = .next t) (ht : t.reg.err = false) (e : Bool) :
    runParts (p :: ps) ((clearResultFlags s).seenEos e) =
      runParts ps ((clearResultFlags t).seenEos (t.reg.eos || e)) := by
  rw [Machine.runParts_cons, hp.blind e, (hp.ran h ht).2, ← seenEos_of_empty (hp.empty_of_ran h ht)]
  rfl

/-! ### Parts issued one by one, and run inside a composite -/

/-- Operations issued one after another, with whether any of them set `EOS`. -/
inductive Issued : List Instr → State → Bool → State → Prop
  | nil (s : State) : Issued [] s false s
  | cons {i : Instr} {is : List Instr} {s t u : State} {e : Bool} (h : exec i s = .next t) (rest : Issued is t e u) :
    Issued (i :: is) s (t.reg.eos || e) u

theorem issued_of_execAll (h : execAll is s = .next u) : ∃ e, Issued is s e u := by
  induction is generalizing s with
  | nil =>
    obtain rfl := Host.Outcome.next.inj h
    exact ⟨_, .nil s⟩
  | cons i is ih =>
    cases hi : exec i s with
    | next t =>
      rw [execAll, hi] at h
      obtain ⟨e, he⟩ := ih h
      exact ⟨_, .cons hi he⟩
    | fault r => simp [execAll, hi] at h
    | refused r => simp [execAll, hi] at h

/-- Parts issued one by one that end without an error run inside a composite as they ran. -/
theorem Issued.runParts_append {qs : List (State → Res Unit)} (hr : Issued is s e u)
    (hps : List.Forall₂ PartOf is ps) (hu : u.reg.err = false) (e₀ : Bool) : s.reg.err = false ∧
    runParts (ps ++ qs) ((clearResultFlags s).seenEos e₀) = runParts qs ((clearResultFlags u).seenEos (e₀ || e)) := by
  induction hr generalizing ps e₀ with
  | nil s =>
    cases hps
    exact ⟨hu, by rw [Bool.or_false]; rfl⟩
  | @cons i is s t u e h rest ih =>
    cases hps with
    | @cons _ p _ ps hp hps =>
    obtain ⟨ht, hrun⟩ := ih hps hu (t.reg.eos || e₀)
    refine ⟨(hp.ran h ht).1, ?_⟩
    rw [List.cons_append, hp.runParts_cons h ht, hrun]
    congr 2
    rw [Bool.or_comm t.reg.eos, Bool.or_assoc]

/-! ### The composites -/

theorem idle_iff : s.idle = true ↔ s.reg.err = false ∧ s.rd.ropen = false ∧ s.wr.wopen = false := by
  simp [State.idle, and_assoc]

theorem composite_ok (hs : s.idle = true) (h : runParts ps s = .ok () t) : composite ps s = .ok () t := by
  rcases composite_cases ps s with ⟨hheld, -⟩ | ⟨-, -, ⟨t', ht, hc⟩ | ⟨c, t', u, ht, -, -⟩ | ⟨f, ht, -⟩⟩
  · simp [idle_iff.1 hs] at hheld
  · exact hc.trans (ht.symm.trans h)
  · exact nomatch ht.symm.trans h
  · exact nomatch ht.symm.trans h

/-- A part of a composite that raises ends it with that error, both streams released and nothing else changed but by the
closing flush (R206). -/
theorem composite_raised {c : ErrCode} (hs : s.idle = true) (h : runParts ps s = .raised c t) :
    ∃ u, composite ps s = .raised c u ∧ u.rd.ropen = false ∧ u.wr.wopen = false ∧ u.tab = t.tab ∧ u.ctr = t.ctr ∧
      u.reg = t.reg ∧ t.env.snk <+: u.env.snk := by
  rcases composite_cases ps s with ⟨hheld, -⟩ | ⟨-, -, ⟨t', ht, -⟩ | ⟨c', t', u, ht, hu, hc⟩ | ⟨f, ht, -⟩⟩
  · simp [idle_iff.1 hs] at hheld
  · exact nomatch ht.symm.trans h
  · obtain ⟨rfl, rfl⟩ := (Res.raised.injEq ..).mp (ht.symm.trans h)
    obtain ⟨u', hu', hropen, hwopen, htab, hctr, hreg, -⟩ := releaseHeld_ok t'
    obtain rfl := Except.ok.inj (hu.symm.trans hu')
    exact ⟨u, hc, hropen, hwopen, htab, hctr, hreg, (releaseHeld_evolves .refl hu).host_frame.1⟩
  · exact nomatch ht.symm.trans h

/-- A composite whose parts, issued one by one, end without an error ends as they do, with `EOS` set if one of them
set it. -/
theorem composite_of_issued (hs : s.idle = true) (hr : Issued is s e u) (hps : List.Forall₂ PartOf is ps)
    (hu : u.reg.err = false) (hempty : u.reg.empty = false) :
    issue (composite ps) s = .next { u with reg := { u.reg with eos := e } } := by
  obtain ⟨herr, hrun⟩ := hr.runParts_append (qs := []) hps hu false
  rw [List.append_nil] at hrun
  refine issue_ok herr (composite_ok hs hrun) ?_
  have hreg : { u.reg with eos := false || (false || e), empty := false } = { u.reg with eos := e } := by
    rw [Bool.false_or, Bool.false_or, ← hempty]
  exact congrArg u.setReg hreg

/-- Outside its list an operation issued without an error leaves `EOS` clear (R36). -/
theorem eos_of_exec (h : exec i s = .next t) (hs : s.reg.err = false) (hi : i ∉ Instr.nop :: .sreset :: eosWriters) :
    t.reg.eos = false := by
  simp only [List.mem_cons, not_or] at hi
  obtain ⟨hnop, hsreset, heos⟩ := hi
  obtain ⟨-, -, -, hflags⟩ := onlyListedOperationsWriteResultAndFlags i s t h hsreset
  exact Bool.eq_false_iff.2 (mt (hflags hs hnop).1 heos)

/-- Settles O36: no part looks at what the parts before it have seen of the end of `SRC`. -/
theorem compositesAreTheirParts : Obligations.CompositesAreTheirParts := by
  refine ⟨fun s t₁ t₂ t₃ t₄ t₅ t₆ t₇ hs h₁ h₂ h₃ h₄ h₅ h₆ h₇ herr => ?_,
    fun s t₁ t₂ t₃ t₄ t₅ t₆ t₇ t₈ t₉ hs h₁ h₂ h₃ h₄ h₅ h₆ h₇ h₈ h₉ herr => ?_⟩
  · have e₆ := (rclose_partOf.ran h₇ herr).1
    have e₅ := (wclose_partOf.ran h₆ e₆).1
    have e₄ := (walk_partOf.ran h₅ e₅).1
    have e₃ := (buildtree_partOf.ran h₄ e₄).1
    have e₂ := (parsehdr_partOf.ran h₃ e₃).1
    have e₁ := (wopen_partOf.ran h₂ e₂).1
    have e₀ := (ropen_partOf.ran h₁ e₁).1
    have hrun := composite_of_issued hs (.cons h₁ (.cons h₂ (.cons h₃ (.cons h₄ (.cons h₅ (.cons h₆ (.cons h₇
      (.nil t₇)))))))) decompressParts_partOf herr (rclose_partOf.empty_of_ran h₇ herr)
    simp only [eos_of_exec h₁ e₀ (by decide), eos_of_exec h₂ e₁ (by decide), eos_of_exec h₄ e₃ (by decide),
      eos_of_exec h₆ e₅ (by decide), eos_of_exec h₇ e₆ (by decide), Bool.or_false, Bool.false_or] at hrun
    exact hrun
  · have e₈ := (wclose_partOf.ran h₉ herr).1
    have e₇ := (encode_partOf.ran h₈ e₈).1
    have e₆ := (wrhdr_partOf.ran h₇ e₇).1
    have e₅ := (wopen_partOf.ran h₆ e₆).1
    have e₄ := (buildcodes_partOf.ran h₅ e₅).1
    have e₃ := (buildtree_partOf.ran h₄ e₄).1
    have e₂ := (rclose_partOf.ran h₃ e₃).1
    have e₁ := (countfreq_partOf.ran h₂ e₂).1
    have e₀ := (ropen_partOf.ran h₁ e₁).1
    have hrun := composite_of_issued hs (.cons h₁ (.cons h₂ (.cons h₃ (.cons h₄ (.cons h₅ (.cons h₆ (.cons h₇ (.cons h₈
      (.cons h₉ (.nil t₉)))))))))) compressParts_partOf herr (wclose_partOf.empty_of_ran h₉ herr)
    simp only [eos_of_exec h₁ e₀ (by decide), eos_of_exec h₃ e₂ (by decide), eos_of_exec h₄ e₃ (by decide),
      eos_of_exec h₅ e₄ (by decide), eos_of_exec h₆ e₅ (by decide), eos_of_exec h₇ e₆ (by decide),
      eos_of_exec h₈ e₇ (by decide), eos_of_exec h₉ e₈ (by decide), Bool.or_false, Bool.false_or] at hrun
    exact hrun

/-! ### Where the streams are released -/

theorem rcloseBody_ok (h : rcloseBody s = .ok () t) : t.rd.ropen = false ∧ t.wr = s.wr := by
  unfold rcloseBody at h
  split at h
  · obtain ⟨-, rfl⟩ := (Res.ok.injEq ..).mp h
    exact ⟨rfl, rfl⟩
  · exact nomatch h

theorem wcloseBody_ok (h : wcloseBody s = .ok () t) : t.wr.wopen = false ∧ t.rd = s.rd := by
  rcases wcloseBody_cases s with ⟨-, hr⟩ | ⟨-, u, hw, hrd, -, -, -, -, -, hr | hr⟩
  · exact nomatch hr.symm.trans h
  · obtain ⟨-, rfl⟩ := (Res.ok.injEq ..).mp (hr.symm.trans h)
    exact ⟨hw, hrd⟩
  · exact nomatch hr.symm.trans h

theorem runParts_cons_ok (h : runParts (p :: ps) s = .ok () t) : ∃ u, p s = .ok () u ∧ runParts ps u = .ok () t := by
  rw [runParts_cons] at h
  cases hp : p s with
  | ok a u => exact ⟨u, rfl, by rwa [hp] at h⟩
  | raised c u => simp [hp] at h
  | stop f => simp [hp] at h

theorem decompressParts_free (h : runParts decompressParts s = .ok () t) : t.rd.ropen = false ∧ t.wr.wopen = false := by
  obtain ⟨u₁, -, h⟩ := runParts_cons_ok h
  obtain ⟨u₂, -, h⟩ := runParts_cons_ok h
  obtain ⟨u₃, -, h⟩ := runParts_cons_ok h
  obtain ⟨u₄, -, h⟩ := runParts_cons_ok h
  obtain ⟨u₅, -, h⟩ := runParts_cons_ok h
  obtain ⟨u₆, h₆, h⟩ := runParts_cons_ok h
  obtain ⟨u₇, h₇, h⟩ := runParts_cons_ok h
  obtain ⟨-, rfl⟩ := (Res.ok.injEq ..).mp h
  obtain ⟨hropen, hwr⟩ := rcloseBody_ok h₇
  exact ⟨hropen, hwr ▸ (wcloseBody_ok h₆).1⟩

/-- The parts of `COMPRESS` after `RCLOSE` do not take the source again. -/
theorem compressTail_free (hs : s.rd.ropen = false) :
    (runParts [buildtreeBody, buildcodesBody, wopenBody, wrhdrBody, encodeBody, wcloseBody] s).Leaves
      (·.rd.ropen = false) := by
  refine runParts_leaves (fun part hpart u hu => ?_) hs
  simp only [List.mem_cons, List.not_mem_nil, or_false] at hpart
  rcases hpart with rfl | rfl | rfl | rfl | rfl | rfl
  · exact buildtreeBody_leaves fun v hv => hv.frame.rd ▸ hu
  · exact buildcodesBody_preserves (fun _ _ => id) hu
  · exact wopenBody_preserves (fun _ _ _ _ => id) (fun _ _ => id) hu
  · exact wrhdrBody_preserves (fun _ _ _ _ => id) (fun _ _ => id) (fun _ _ => id) hu
  · exact encodeBody_preserves (fun _ _ _ _ => id) (fun _ _ _ => id) hu
  · exact wcloseBody_preserves (fun _ _ _ _ => id) (fun _ _ => id) hu

theorem compressParts_free (h : runParts compressParts s = .ok () t) : t.rd.ropen = false ∧ t.wr.wopen = false := by
  obtain ⟨u₁, -, h⟩ := runParts_cons_ok h
  obtain ⟨u₂, -, h⟩ := runParts_cons_ok h
  obtain ⟨u₃, h₃, h⟩ := runParts_cons_ok h
  have hropen := compressTail_free (rcloseBody_ok h₃).1
  rw [h] at hropen
  obtain ⟨u₄, -, h⟩ := runParts_cons_ok h
  obtain ⟨u₅, -, h⟩ := runParts_cons_ok h
  obtain ⟨u₆, -, h⟩ := runParts_cons_ok h
  obtain ⟨u₇, -, h⟩ := runParts_cons_ok h
  obtain ⟨u₈, -, h⟩ := runParts_cons_ok h
  obtain ⟨u₉, h₉, h⟩ := runParts_cons_ok h
  obtain ⟨-, rfl⟩ := (Res.ok.injEq ..).mp h
  exact ⟨hropen, (wcloseBody_ok h₉).1⟩

theorem composite_held (hs : s.idle = false) (herr : s.reg.err = false) :
    composite ps (clearResultFlags s) = .raised .illegalState (clearResultFlags s) := by
  refine if_pos ?_
  simpa [State.idle, herr, or_iff_not_imp_left] using hs

/-- A composite whose parts free both streams when they end frees them whatever happens, if they were free (R206). -/
theorem composite_frees (hps : ∀ {u v}, runParts ps u = .ok () v → v.rd.ropen = false ∧ v.wr.wopen = false)
    (herr : s.reg.err = false) (h : issue (composite ps) s = .next t) :
    (s.idle = true → t.rd.ropen = false ∧ t.wr.wopen = false) ∧
    (s.idle = false → t = raiseError .illegalState (clearResultFlags s)) := by
  rw [issue_run herr] at h
  refine ⟨fun hs => ?_, fun hs => ?_⟩
  · rcases composite_cases ps (clearResultFlags s) with ⟨hheld, -⟩ |
      ⟨-, -, ⟨u, hu, hc⟩ | ⟨c, u, v, -, hv, hc⟩ | ⟨f, -, hc⟩⟩
    · simp [idle_iff.1 hs] at hheld
    · rw [hc] at h
      exact Host.Outcome.next.inj h ▸ hps hu
    · obtain ⟨v', hv', hropen, hwopen, -⟩ := releaseHeld_ok u
      obtain rfl := Except.ok.inj (hv.symm.trans hv')
      rw [hc] at h
      exact Host.Outcome.next.inj h ▸ ⟨hropen, hwopen⟩
    · simp [hc] at h
  · rw [composite_held hs herr] at h
    exact (Host.Outcome.next.inj h).symm

/-! ### The first part that raises -/

/-- With the parts before it run without an error, a part that raises ends the composite with its error (R206). -/
theorem composite_of_raised (hs : s.idle = true) (hps : List.Forall₂ PartOf (before ++ i :: after) ps)
    (hb : execAll before s = .next u) (hu : u.reg.err = false) (hi : exec i u = .next v) (hv : v.reg.err = true) :
    ∃ t, issue (composite ps) s = .next t ∧ t.reg.err = true ∧ t.reg.errcode = v.reg.errcode ∧
      t.reg.result = v.reg.result ∧ t.tab = v.tab ∧ t.ctr = v.ctr ∧ t.rd.ropen = false ∧ t.wr.wopen = false ∧
      v.env.snk.isPrefixOf t.env.snk = true := by
  obtain ⟨e, hissued⟩ := issued_of_execAll hb
  obtain ⟨ps₁, ps₂, hps₁, hps₂, rfl⟩ : ∃ ps₁ ps₂, List.Forall₂ PartOf before ps₁ ∧
      List.Forall₂ PartOf (i :: after) ps₂ ∧ ps = ps₁ ++ ps₂ :=
    ⟨_, _, (List.forall₂_take_append _ _ _ hps.flip).flip, (List.forall₂_drop_append _ _ _ hps.flip).flip,
      (List.take_append_drop ..).symm⟩
  cases hps₂ with
  | @cons _ p _ ps₂ hp _ =>
  obtain ⟨herr, hrun⟩ := hissued.runParts_append (qs := p :: ps₂) hps₁ hu false
  obtain ⟨c, w, hw, rfl⟩ := hp.raised hu hi hv
  rw [runParts_cons, hp.blind, hw] at hrun
  change runParts _ (clearResultFlags s) = .raised c (w.seenEos (false || e)) at hrun
  obtain ⟨t, ht, hropen, hwopen, htab, hctr, hreg, hsnk⟩ := composite_raised (s := clearResultFlags s) hs hrun
  refine ⟨raiseError c t, issue_raised herr ht, rfl, rfl, ?_, htab, hctr, hropen, hwopen, ?_⟩
  · exact (congrArg Regs.result hreg :)
  · exact List.isPrefixOf_iff_prefix.2 hsnk

/-- Settles O43: where the parts end both streams are free, and where one raises what is held is released after it. -/
theorem compositesReleaseTheStreams : Obligations.CompositesReleaseTheStreams := by
  refine ⟨fun s t herr i hi h => ?_, fun s u v whole i before after hs hwhole hb hu hi hv => ?_⟩
  · simp only [List.mem_cons, List.not_mem_nil, or_false] at hi
    rcases hi with rfl | rfl
    · exact composite_frees decompressParts_free herr h
    · exact composite_frees compressParts_free herr h
  · rcases hwhole with ⟨rfl, hparts⟩ | ⟨rfl, hparts⟩
    · exact composite_of_raised hs (hparts ▸ decompressParts_partOf) hb hu hi hv
    · exact composite_of_raised hs (hparts ▸ compressParts_partOf) hb hu hi hv

end Sys2Proof.Machine
end

section
/-! PROOFS. The parts of `COMPRESS` with no failure ahead: what `COUNTFREQ` keeps and counts, what `WRHDR` and `ENCODE`
write (R230 to R232). -/

namespace Sys2Proof.Machine

variable {s t : State} {k i n : Nat} {b : Byte} {bytes done rest : List Byte} {inbuf : Memory Byte}

/-! ### `COUNTFREQ` -/

/-- Writing an entry of a table made by a function of the index changes the function there. -/
theorem Memory.write_map_range' {α : Type} (f : Nat → α) (v : α) {a n i : Nat} (hlo : a ≤ i) (hhi : i < a + n) :
    Memory.write ((List.range' a n).map fun k => (k, f k)) i v =
      (List.range' a n).map fun k => (k, if k = i then v else f k) := by
  induction n generalizing a with
  | zero => omega
  | succ n ih =>
    rw [List.range'_succ, List.map_cons, List.map_cons, Memory.write, if_neg (by omega)]
    rcases Nat.eq_or_lt_of_le hlo with rfl | hlt
    · rw [if_pos rfl, if_pos rfl]
      refine congrArg _ (List.map_congr_left fun k hk => ?_)
      rw [if_neg (by have := (List.mem_range'_1.1 hk).1; omega)]
    · rw [if_neg (by omega), if_neg (by omega), ih (by omega) (by omega)]

theorem read_countsOf (bytes : List Byte) (h : i < 256) :
    (countsOf bytes).read i = some (BitVec.ofNat 32 (bytes.countP fun b => decide (b.toNat = i))) :=
  (Memory.read_map_range _ _ i).trans (if_pos h)

theorem countsOf_filled (bytes : List Byte) : (countsOf bytes).filled 256 = true :=
  (Memory.filled_iff ..).2 fun _ hi => ⟨_, read_countsOf bytes hi⟩

/-- One more byte raises the count of its symbol (R230). -/
theorem countsOf_concat (bytes : List Byte) (b : Byte) :
    (countsOf bytes).write b.toNat (BitVec.ofNat 32 (bytes.countP fun c => decide (c.toNat = b.toNat)) + 1#32) =
      countsOf (bytes ++ [b]) := by
  unfold countsOf
  rw [List.range_eq_range', Memory.write_map_range' _ _ (Nat.zero_le _) (by simpa [Config.symbolCount] using b.isLt)]
  refine List.map_congr_left fun sym _ => ?_
  by_cases h : sym = b.toNat
  · subst h
    simp [BitVec.ofNat_add]
  · simp [h, Ne.symm h]

theorem bufferHolds_concat (h : bufferHolds inbuf bytes) (b : Byte) :
    bufferHolds (inbuf.write bytes.length b) (bytes ++ [b]) := by
  intro i hi
  rw [List.length_append, List.length_singleton] at hi
  rw [Memory.read_write]
  by_cases heq : i = bytes.length
  · simp [heq]
  · rw [if_neg heq, List.getElem?_append_left (by omega)]
    exact h i (by omega)

/-- The block in the middle of `COUNTFREQ`, some bytes having been kept and counted. -/
def State.counted (s : State) (done : List Byte) (inbuf : Memory Byte) : State :=
  ((s.takeBytes done.length).setCtr { s.ctr with inlen := BitVec.ofNat 32 done.length }).setTab
    { s.tab with freq := countsOf done, inbuf := inbuf }

theorem countByte_ok {f : Count} (hroom : s.ctr.inlen.toNat ≠ s.par.inbufCap)
    (hread : s.tab.freq.read b.toNat = some f) : countByte b s = .ok () ((s.setTab { s.tab with
      inbuf := s.tab.inbuf.write s.ctr.inlen.toNat b
      freq := s.tab.freq.write b.toNat (f + 1#32) }).setCtr { s.ctr with inlen := s.ctr.inlen + 1#32 }) := by
  rw [countByte, if_neg hroom, readEntry_ok.2 hread]
  rfl

theorem countByte_counted (hroom : done.length < s.par.inbufCap) (hwf : s.par.wf = true) :
    countByte b ((s.counted done inbuf).takeByte) =
      .ok () (s.counted (done ++ [b]) (inbuf.write done.length b)) := by
  have hcap := inbufCap_lt hwf
  have hlen : (BitVec.ofNat 32 done.length).toNat = done.length := by
    rw [BitVec.toNat_ofNat]
    omega
  refine (countByte_ok (s := (s.counted done inbuf).takeByte) (show _ ≠ s.par.inbufCap from ?_)
    (read_countsOf done b.isLt)).trans (congrArg _ (State.eq_of_groups rfl rfl ?_ ?_ rfl rfl rfl ?_))
  · exact hlen.trans_ne hroom.ne
  · simp [State.counted, State.takeByte, hlen, ← countsOf_concat]
  · simp [State.counted, State.takeByte, BitVec.ofNat_add]
  · simp [State.counted, State.takeByte, State.takeBytes, Nat.add_assoc]

theorem counted_srcLeft (h : s.srcLeft = done ++ rest) : (s.counted done inbuf).srcLeft = rest := takeBytes_srcLeft h

theorem counted_accessFails (hn : s.noFailure = true) : (s.counted done inbuf).accessFails = false :=
  noFailure_access (noFailure_drop (t := s.counted done inbuf) hn done.length rfl)

theorem countLoop_byte (hleft : s.srcLeft = b :: rest) (hf : s.accessFails = false) :
    countLoop (k + 1) s = (countByte b s.takeByte).andThen fun _ u => countLoop k u := by
  rw [countLoop, srcRead_byte hf (srcLeft_cons hleft).1, Res.andThen_ok]
  rfl

theorem countLoop_end (hleft : s.srcLeft = []) (hf : s.accessFails = false) :
    countLoop (k + 1) s = .ok () (setEos s.useDraw) := by
  rw [countLoop, srcRead_eos hf ((srcLeft_nil_iff s).1 hleft), Res.andThen_ok]

/-- The loop of `COUNTFREQ` keeps and counts the bytes left when there is room for them (R230). -/
theorem countLoop_counts (hwf : s.par.wf = true) (hn : s.noFailure = true) (hbuf : bufferHolds inbuf done)
    (hleft : s.srcLeft = done ++ bytes) (hroom : (done ++ bytes).length ≤ s.par.inbufCap) (hk : bytes.length < k) :
    ∃ inbuf', bufferHolds inbuf' (done ++ bytes) ∧
      countLoop k (s.counted done inbuf) = .ok () (setEos (s.counted (done ++ bytes) inbuf').useDraw) := by
  induction bytes generalizing done inbuf k with
  | nil =>
    obtain ⟨k, rfl⟩ := Nat.exists_eq_succ_of_ne_zero (Nat.ne_zero_of_lt hk)
    rw [List.append_nil]
    exact ⟨inbuf, hbuf, countLoop_end (counted_srcLeft hleft) (counted_accessFails hn)⟩
  | cons b bytes ih =>
    obtain ⟨k, rfl⟩ := Nat.exists_eq_succ_of_ne_zero (Nat.ne_zero_of_lt hk)
    rw [List.append_cons] at hleft hroom ⊢
    obtain ⟨inbuf', hbuf', hloop⟩ := ih (bufferHolds_concat hbuf b) hleft hroom (Nat.lt_of_succ_lt_succ hk)
    refine ⟨inbuf', hbuf', ?_⟩
    have hlt : done.length < s.par.inbufCap := by
      simp only [List.length_append, List.length_singleton] at hroom
      omega
    rw [countLoop_byte (counted_srcLeft (hleft.trans (List.append_assoc ..))) (counted_accessFails hn),
      countByte_counted hlt hwf]
    exact hloop

theorem countfreqBody_of_loop {pairs : List (Nat × Count)} (hcan : s.canReadBytes = true)
    (hloop : countLoop (s.srcLeft.length + 1) (clearCounts s) = .ok () t)
    (hpairs : symbolsPresent t.tab.freq = .ok pairs) :
    countfreqBody s = .ok () ((t.setCtr { t.ctr with osize := t.ctr.inlen }).setNsym pairs.length) := by
  rw [countfreqBody, if_pos hcan, hloop, Res.andThen_ok, hpairs]
  rfl

/-- `COUNTFREQ` on an input that fits the buffer keeps and counts all of it (R230). -/
theorem exec_countfreq_counts (herr : s.reg.err = false) (hropen : s.rd.ropen = true) (hrcnt : s.rd.rcnt = 0#4)
    (hn : s.noFailure = true) (hwf : s.par.wf = true) (hroom : s.srcLeft.length ≤ s.par.inbufCap) :
    ∃ t, exec .countfreq s = .next t ∧ bufferHolds t.tab.inbuf s.srcLeft ∧
      t = { s with
            ctr := { s.ctr with
              inlen := BitVec.ofNat 32 s.srcLeft.length, osize := BitVec.ofNat 32 s.srcLeft.length
              nsym := BitVec.ofNat 32 (presentPairs (countsOf s.srcLeft)).length }
            tab := { s.tab with freq := countsOf s.srcLeft, inbuf := t.tab.inbuf }
            reg := { s.reg with eos := true, empty := false }
            env := { s.env with srcPos := s.env.srcPos + s.srcLeft.length
                                draws := s.env.draws.drop (s.srcLeft.length + 1) } } := by
  obtain ⟨inbuf, hbuf, hloop⟩ := countLoop_counts (s := clearResultFlags s) (done := []) (inbuf := s.tab.inbuf)
    (bytes := s.srcLeft) hwf hn (fun _ h => absurd h (Nat.not_lt_zero _)) rfl hroom (Nat.lt_succ_self _)
  have hbody := countfreqBody_of_loop (s := clearResultFlags s) (canReadBytes_of hropen hrcnt) hloop
    (symbolsPresent_of_filled (countsOf_filled s.srcLeft))
  refine ⟨_, issue_ok herr hbody, hbuf, ?_⟩
  simp [State.counted, State.takeBytes, setEos, State.useDraw, State.setNsym, clearResultFlags, State.setCtr,
    State.setTab, State.setReg, State.setEnv]

/-! ### `WRHDR` -/

/-- `WRHDR` on a byte boundary of an unfailing sink appends the header (R231). -/
theorem exec_wrhdr_emits (herr : s.reg.err = false) (hwopen : s.wr.wopen = true) (hwcnt : s.wr.wcnt = 0#3)
    (hn : s.noFailure = true) (hfilled : s.tab.freq.filled 256 = true) :
    let header := headerText s.ctr.osize.toNat (presentPairs s.tab.freq)
    exec .wrhdr s = .next { clearResultFlags s with
      ctr := { s.ctr with nsym := BitVec.ofNat 32 (presentPairs s.tab.freq).length }
      wr := { s.wr with snkCnt := s.wr.snkCnt + BitVec.ofNat 64 header.length }
      env := { s.env with snk := s.env.snk ++ header, draws := s.env.draws.drop header.length } } := by
  intro header
  have hbody : wrhdrBody (clearResultFlags s) =
      emit header ((clearResultFlags s).setNsym (presentPairs s.tab.freq).length) := by
    rw [wrhdrBody, if_pos (canWriteBytes_of (s := clearResultFlags s) hwopen hwcnt), clearResultFlags_tab,
      symbolsPresent_of_filled hfilled]
    rfl
  exact issue_ok herr (hbody.trans (emit_ok header hn))

/-! ### `ENCODE` -/

/-- Bits written one after another: `SNK` and the bit buffer hold together what they would if the bits were still to
come (R137). -/
theorem writeBits_writing (bits : List Bool) (h : Writing s) :
    ∃ t, writeBits bits s = .ok () t ∧ Writing t ∧ ∀ more, t.env.snk ++ packBits (t.pendingWrite ++ more) =
      s.env.snk ++ packBits (s.pendingWrite ++ (bits ++ more)) := by
  induction bits generalizing s with
  | nil => exact ⟨s, rfl, h, fun _ => rfl⟩
  | cons b bits ih =>
    obtain ⟨t, ht, hw, hpack⟩ := writeBit_writing b h
    obtain ⟨u, hu, hw', hpack'⟩ := ih hw
    refine ⟨u, ?_, hw', fun more => (hpack' more).trans (hpack _)⟩
    rw [writeBits, ht, Res.andThen_ok, hu]

theorem encodeByte_writing {c : Code} (hc : s.tab.code.read b.toNat = some c) (hne : c ≠ []) (h : Writing s) :
    ∃ t, encodeByte b s = .ok () t ∧ (Writing t ∧ t.tab = s.tab) ∧ ∀ more,
      t.env.snk ++ packBits (t.pendingWrite ++ more) = s.env.snk ++ packBits (s.pendingWrite ++ (c ++ more)) := by
  obtain ⟨t, ht, hw, hpack⟩ := writeBits_writing c h
  have hbyte : encodeByte b s = .ok () t := by
    rw [encodeByte, readEntry_ok.2 hc, Res.lift_ok, Res.andThen_ok, if_neg hne, ht]
  have htab := encodeByte_preserves (P := (·.tab = s.tab)) (fun _ _ _ _ => id) (fun _ _ _ => id) b rfl
  rw [hbyte] at htab
  exact ⟨t, hbyte, ⟨hw, htab⟩, hpack⟩

/-- The loop of `ENCODE` writes the codes of the bytes of `INBUF` in order (R232). -/
theorem encodeLoop_writing (codeOf : Byte → Code) (bytes : List Byte) (h : Writing s)
    (hbuf : ∀ j, j < bytes.length → s.tab.inbuf.read (i + j) = bytes[j]?)
    (hcode : ∀ b ∈ bytes, s.tab.code.read b.toNat = some (codeOf b) ∧ codeOf b ≠ []) :
    ∃ t, encodeLoop bytes.length i s = .ok () t ∧ Writing t ∧ ∀ more,
      t.env.snk ++ packBits (t.pendingWrite ++ more) =
        s.env.snk ++ packBits (s.pendingWrite ++ (bytes.flatMap codeOf ++ more)) := by
  induction bytes generalizing s i with
  | nil => exact ⟨s, rfl, h, fun _ => rfl⟩
  | cons b bytes ih =>
    obtain ⟨hread, hne⟩ := hcode b List.mem_cons_self
    obtain ⟨t, ht, ⟨hw, htab⟩, hpack⟩ := encodeByte_writing hread hne h
    have hrest : ∀ j, j < bytes.length → t.tab.inbuf.read (i + 1 + j) = bytes[j]? := fun j hj => by
      have := hbuf (j + 1) (Nat.succ_lt_succ hj)
      rwa [htab, Nat.add_assoc, Nat.add_comm 1]
    obtain ⟨u, hu, hw', hpack'⟩ := ih hw hrest fun c hc => htab ▸ hcode c (List.mem_cons_of_mem b hc)
    have hfirst : s.tab.inbuf.read i = some b := hbuf 0 (Nat.succ_pos _)
    refine ⟨u, ?_, hw', fun more => ?_⟩
    · rw [List.length_cons, encodeLoop, readEntry_ok.2 hfirst, Res.lift_ok, Res.andThen_ok]
      simp only [ht, Res.andThen_ok, hu]
    · rw [hpack', hpack, List.flatMap_cons, List.append_assoc]

theorem flushBits_wcnt (h : flushBits s = .ok () t) : t.wr.wcnt = 0#3 := by
  rcases flushBits_cases s with ⟨h0, hr⟩ | ⟨-, hr⟩
  · obtain ⟨-, rfl⟩ := (Res.ok.injEq ..).mp (hr.symm.trans h)
    exact h0
  · have hleaves := snkWrite_preserves (P := (·.wr.wcnt = 0#3)) (fun _ _ _ _ => id) (fun _ _ => id)
      (s.wr.wbuf <<< (8 - s.wr.wcnt.toNat)) (s := s.setWr { s.wr with wbuf := 0#8, wcnt := 0#3 }) rfl
    rw [← hr, h] at hleaves
    exact hleaves

/-- `ENCODE` with no failure ahead appends to what is buffered the codes of the input bytes, and flushes (R232). -/
theorem exec_encode_emits (codeOf : Byte → Code) (herr : s.reg.err = false) (hwopen : s.wr.wopen = true)
    (hn : s.noFailure = true) (hlen : bytes.length = s.ctr.inlen.toNat) (hbuf : bufferHolds s.tab.inbuf bytes)
    (hcode : ∀ b ∈ bytes, s.tab.code.read b.toNat = some (codeOf b) ∧ codeOf b ≠ []) :
    ∃ t, exec .encode s = .next t ∧ t.reg.err = false ∧ t.wr.wcnt = 0#3 ∧
      t.env.snk = s.env.snk ++ packBits (s.pendingWrite ++ bytes.flatMap codeOf) := by
  obtain ⟨t, ht, hw, hpack⟩ := encodeLoop_writing (s := clearResultFlags s) (i := 0) codeOf bytes ⟨herr, hwopen, hn⟩
    (fun j hj => (Nat.zero_add j).symm ▸ hbuf j hj) hcode
  obtain ⟨u, hu, hsnk⟩ := flushBits_writing hw
  have hbody : encodeBody (clearResultFlags s) = .ok () u := by
    rw [encodeBody, if_pos (show (clearResultFlags s).wr.wopen = true from hwopen), clearResultFlags_ctr, ← hlen, ht,
      Res.andThen_ok, hu]
  have hpack := hpack []
  rw [List.append_nil, List.append_nil] at hpack
  have hreg := flushBits_regs (Q := (·.err = false)) hw.noError
  rw [hu] at hreg
  exact ⟨u, issue_ok herr hbody, hreg, flushBits_wcnt hu, hsnk.trans hpack⟩

end Sys2Proof.Machine
end

section
/-! PROOFS. The codes of the symbols of a byte string, from its counts to the tree and back from the bits to the bytes
(R101, R180 to R187, R202), and the counts as a header carries them (R94). -/

namespace Sys2Proof.Machine

variable {s t u : State} {bytes : List Byte} {b sym : Byte} {c path : Code} {bits : List Bool} {n i : Nat}
  {codeOf : Byte → Code} {freq freq' : Memory Count}

/-! ### Decoding codes -/

/-- A decode from a tree just reached: a leaf is emitted, from an internal node the next bit leads on (R202). -/
def HTree.arrive (root : HTree) (cur : HTree) (bits : List Bool) (n : Nat) : List Byte × List Bool × Bool :=
  match cur with
  | .leaf sym => let rest := root.decode bits root n; (sym :: rest.1, rest.2)
  | .node l r => root.decode bits (.node l r) (n + 1)

theorem HTree.decode_step (root l r : HTree) (b : Bool) (bits : List Bool) (n : Nat) :
    root.decode (b :: bits) (.node l r) (n + 1) = root.arrive (if b then r else l) bits n := by
  simp only [HTree.decode]
  cases (if b then r else l) <;> rfl

/-- A leaf below an internal node is below one of its links. -/
theorem HTree.mem_paths_child {l r : HTree} (h : (sym, path ++ c) ∈ (HTree.node l r).paths path) :
    ∃ b c', c = b :: c' ∧ (sym, path ++ [b] ++ c') ∈ (if b then r else l).paths (path ++ [b]) := by
  have below : ∀ (b : Bool) (x : HTree), (sym, path ++ c) ∈ x.paths (path ++ [b]) →
      ∃ c', c = b :: c' ∧ (sym, path ++ [b] ++ c') ∈ x.paths (path ++ [b]) := by
    intro b x hx
    obtain ⟨c', hc'⟩ := HTree.prefix_of_mem_paths hx
    have hc' : path ++ [b] ++ c' = path ++ c := hc'
    refine ⟨c', ?_, hc' ▸ hx⟩
    rw [List.append_assoc] at hc'
    exact (List.append_cancel_left hc').symm
  rcases List.mem_append.1 h with h | h
  · exact ⟨false, below false l h⟩
  · exact ⟨true, below true r h⟩

/-- The bits of a path lead to its leaf (R101, R202). -/
theorem HTree.arrive_path (root : HTree) {cur : HTree} (h : (sym, path ++ c) ∈ cur.paths path) :
    root.arrive cur (c ++ bits) n = root.arrive (.leaf sym) bits n := by
  induction cur generalizing path c with
  | leaf sym' =>
    obtain ⟨rfl, hc⟩ := Prod.mk.inj (List.mem_singleton.1 h)
    rw [List.append_cancel_left (hc.trans (List.append_nil _).symm), List.nil_append]
  | node l r ihl ihr =>
    obtain ⟨b, c', rfl, hchild⟩ := HTree.mem_paths_child h
    refine (HTree.decode_step root l r b (c' ++ bits) n).trans ?_
    cases b with
    | false => exact ihl hchild
    | true => exact ihr hchild

/-- The codes of a byte string, one after another, decode to it and leave what follows them. -/
theorem HTree.decode_flatMap {l r : HTree} (h : ∀ b ∈ bytes, (b, codeOf b) ∈ (HTree.node l r).paths []) :
    (HTree.node l r).decode (bytes.flatMap codeOf ++ bits) (.node l r) bytes.length = (bytes, bits, false) := by
  induction bytes with
  | nil => cases bits <;> rfl
  | cons b bytes ih =>
    have hfirst := HTree.arrive_path (.node l r) (path := []) (bits := bytes.flatMap codeOf ++ bits) (n := bytes.length)
      (h b List.mem_cons_self)
    rw [List.flatMap_cons, List.append_assoc]
    refine hfirst.trans ?_
    rw [HTree.arrive, ih fun c hc => h c (List.mem_cons_of_mem b hc)]

/-! ### The counts of a byte string -/

theorem toNat_count (h : bytes.length < 2 ^ 32) (p : Byte → Bool) :
    (BitVec.ofNat 32 (bytes.countP p)).toNat = bytes.countP p := by
  have := List.countP_le_length (p := p) (l := bytes)
  rw [BitVec.toNat_ofNat]
  omega

/-- The symbols present in the counts of a byte string are its bytes. -/
theorem mem_presentPairs_countsOf (h : bytes.length < 2 ^ 32) (hb : b ∈ bytes) :
    ∃ e ∈ presentPairs (countsOf bytes), BitVec.ofNat 8 e.1 = b := by
  refine ⟨⟨b.toNat, _⟩, mem_presentPairs.2 ⟨b.isLt, read_countsOf bytes b.isLt, fun h0 => ?_⟩, by simp⟩
  have hcount := toNat_count h fun c => decide (c.toNat = b.toNat)
  rw [show BitVec.ofNat 32 _ = 0#32 from h0] at hcount
  exact List.countP_eq_zero.1 hcount.symm b hb (decide_eq_true rfl)

theorem count_le_of_mem_presentPairs {e : Nat × Count} (h : bytes.length < 2 ^ 32)
    (he : e ∈ presentPairs (countsOf bytes)) : e.1 ≤ 255 ∧ e.2.toNat ≤ bytes.length := by
  obtain ⟨hsym, hread, -⟩ := mem_presentPairs.1 he
  refine ⟨Nat.le_of_lt_succ hsym, ?_⟩
  rw [← Option.some.inj ((read_countsOf bytes hsym).symm.trans hread), toNat_count h]
  exact List.countP_le_length

theorem presentPairs_congr (h : ∀ i, i < 256 → freq'.read i = freq.read i) : presentPairs freq' = presentPairs freq :=
  List.filterMap_congr fun sym hsym => by rw [h sym (List.mem_range.1 hsym)]

/-- The pairs present, written over a cleared table, are the table again (R94, R200). -/
theorem read_writeAll_presentPairs (hfilled : freq.filled 256 = true) (hi : i < 256) :
    (writeAll (Memory.fill 256 0#32) (presentPairs freq)).read i = freq.read i := by
  obtain ⟨f, hf⟩ := (Memory.filled_iff ..).1 hfilled i hi
  rw [hf]
  by_cases h0 : f = 0#32
  · rw [read_writeAll_of_notMem, Memory.read_fill, if_pos hi, h0]
    intro hmem
    obtain ⟨e, he, rfl⟩ := List.mem_map.1 hmem
    obtain ⟨-, hread, hne⟩ := mem_presentPairs.1 he
    exact hne ((Option.some.inj (hread.symm.trans hf)).trans h0)
  · exact read_writeAll_of_mem _ (presentPairs_nodup freq) (mem_presentPairs.2 ⟨hi, hf, h0⟩)

/-! ### The codes a tree gives a byte string -/

/-- The records at a root are no tree, of no bytes, or a tree in which each byte has the code given. -/
def TreeCodes (bytes : List Byte) (codeOf : Byte → Code) (node : Memory Node) (root : NodeId) : Prop :=
  (bytes = [] ∧ root = NONE) ∨ ∃ x, treeAt node x root = true ∧ ∀ b ∈ bytes, (b, codeOf b) ∈ x.codes

/-- The code a table holds for a symbol, none where nothing has been written. -/
def codeIn (code : Memory Code) (b : Byte) : Code := (code.read b.toNat).getD []

/-- A table that holds the codes of a tree holds one for each leaf. -/
theorem HoldsCodes.codeIn_mem {code : Memory Code} {x : HTree} (h : HoldsCodes code x) (hb : b ∈ x.leaves) :
    (b, codeIn code b) ∈ x.codes ∧ code.read b.toNat = some (codeIn code b) ∧ codeIn code b ≠ [] := by
  rw [← HTree.codes_map_fst] at hb
  obtain ⟨e, he, rfl⟩ := List.mem_map.1 hb
  have hread := h.mem e he
  have hcode : codeIn code e.1 = e.2 := by rw [codeIn, hread, Option.getD_some]
  rw [hcode]
  exact ⟨he, hread, HTree.ne_nil_of_mem_codes he⟩

theorem treeAt_ne_none {x : HTree} {node : Memory Node} {id : NodeId} (h : treeAt node x id = true) : id ≠ NONE := by
  cases x with
  | leaf sym =>
    obtain ⟨n, hn, -⟩ := treeAt_leaf.1 h
    exact (readNode_ok.1 hn).1
  | node l r =>
    obtain ⟨n, hn, -⟩ := treeAt_node.1 h
    exact (readNode_ok.1 hn).1

/-- Two trees built alike give the same codes (R189). -/
theorem TreeCodes.congr {pairs : List (Nat × Count)} (hbuilt : Built s pairs t) (hsame : SameTree t u)
    (h : TreeCodes bytes codeOf t.tab.node t.ctr.root) : TreeCodes bytes codeOf u.tab.node u.ctr.root := by
  obtain ⟨-, hroot, hrecords⟩ := hsame
  rw [← hroot]
  rcases h with h | ⟨x, hx, hcodes⟩
  · exact .inl h
  · have hne : pairs ≠ [] := fun h0 => treeAt_ne_none hx (hbuilt.none h0).1
    obtain ⟨hlast, hnodes, -⟩ := hbuilt.tree hne
    have hlt : t.ctr.root.toNat < t.ctr.nnodes.toNat := by
      have := List.length_pos_iff.2 hne
      omega
    exact .inr ⟨x, hbuilt.records.treeAt_congr (fun i hi => (hrecords i hi).symm) hlt hx, hcodes⟩

/-- `BUILDTREE` and `BUILDCODES` over the counts of a byte string give each of its bytes the code of its leaf (R180 to
R187). -/
theorem exec_buildtree_buildcodes_countsOf (hlen : bytes.length < 2 ^ 32) (herr : s.reg.err = false)
    (hfreq : s.tab.freq = countsOf bytes) :
    ∃ t u codeOf, exec .buildtree s = .next t ∧ Built (clearResultFlags s) (presentPairs (countsOf bytes)) t ∧
      exec .buildcodes t = .next u ∧ u.reg.err = false ∧ TreeCodes bytes codeOf t.tab.node t.ctr.root ∧
      ∀ b ∈ bytes, u.tab.code.read b.toNat = some (codeOf b) ∧ codeOf b ≠ [] := by
  obtain ⟨t, ht, hbuilt⟩ := exec_buildtree_of_filled herr (hfreq ▸ countsOf_filled bytes)
  rw [hfreq] at hbuilt
  have herrt := hbuilt.err.trans herr
  by_cases hne : presentPairs (countsOf bytes) = []
  · have hnil : bytes = [] := List.eq_nil_iff_forall_not_mem.2 fun b hb => by
      obtain ⟨e, he, -⟩ := mem_presentPairs_countsOf hlen hb
      simp [hne] at he
    have hroot := (hbuilt.none hne).1
    refine ⟨t, clearCodes (clearResultFlags t), fun _ => [], ht, hbuilt,
      issue_ok herrt (buildcodesBody_none (s := clearResultFlags t) hroot), herrt, .inl ⟨hnil, hroot⟩, ?_⟩
    simp [hnil]
  · obtain ⟨-, -, x, hx, hmerges⟩ := hbuilt.tree hne
    have hfreq' : (clearResultFlags s).tab.freq = countsOf bytes := hfreq
    rw [hfreq'] at hmerges
    have hdepth : x.depth ≤ 255 := by
      have hlt := x.depth_lt_length_leaves
      have hle := length_presentPairs_le (countsOf bytes)
      rw [hmerges.length_leaves] at hlt
      omega
    have hleaf : ∀ b ∈ bytes, b ∈ x.leaves := fun b hb => by
      obtain ⟨e, he, rfl⟩ := mem_presentPairs_countsOf hlen hb
      exact hmerges.leaves_present.mem_iff.2 (List.mem_map_of_mem he)
    have hcodes := fun b hb =>
      (holdsCodes_assignCodes (clearResultFlags t) hmerges.leaves_nodup).codeIn_mem (hleaf b hb)
    exact ⟨t, (clearCodes (clearResultFlags t)).assignCodes x.codes, _, ht, hbuilt,
      issue_ok herrt (buildcodesBody_tree (s := clearResultFlags t) hx hdepth), herrt,
      .inr ⟨x, hx, fun b hb => (hcodes b hb).1⟩, fun b hb => (hcodes b hb).2⟩

end Sys2Proof.Machine
end

section
/-! PROOFS. The round trip (R208): `COMPRESS` is followed part by part to the header and the payload it writes, and
`DECOMPRESS` of those to the bytes; the two trees are the same because the counts and the tie-break are. -/

namespace Sys2Proof.Machine

variable {s t u : State} {bytes : List Byte} {codeOf : Byte → Code}

/-! ### `COMPRESS` -/

/-- What `COMPRESS` writes: the header of the size and the counts, and the packed codes of the bytes (R94, R100). -/
def artifactOf (bytes : List Byte) (codeOf : Byte → Code) : List Byte :=
  headerText bytes.length (presentPairs (countsOf bytes)) ++ packBits (bytes.flatMap codeOf)

/-- The input has been kept and counted, nothing has been written, and no failure is ahead. -/
structure InputKept (s : State) (bytes : List Byte) (t : State) : Prop where
  noError : t.reg.err = false
  wr : t.wr = s.wr
  freq : t.tab.freq = countsOf bytes
  inbuf : bufferHolds t.tab.inbuf bytes
  inlen : t.ctr.inlen.toNat = bytes.length
  osize : t.ctr.osize.toNat = bytes.length
  noFailure : t.noFailure = true
  snk : t.env.snk = s.env.snk

/-- `ROPEN`, `COUNTFREQ` and `RCLOSE` keep the input. -/
theorem exec_keep_input (hs : s.idle = true) (hn : s.noFailure = true) (hwf : s.par.wf = true)
    (hroom : s.srcLeft.length ≤ s.par.inbufCap) :
    ∃ t₁ t₂ t₃, exec .ropen s = .next t₁ ∧ exec .countfreq t₁ = .next t₂ ∧ exec .rclose t₂ = .next t₃ ∧
      InputKept s s.srcLeft t₃ ∧ t₃.par = s.par := by
  obtain ⟨herr, hropen, -⟩ := idle_iff.1 hs
  have hlen : (BitVec.ofNat 32 s.srcLeft.length).toNat = s.srcLeft.length := by
    have := inbufCap_lt hwf
    rw [BitVec.toNat_ofNat]
    omega
  have h₁ : exec .ropen s = .next _ :=
    issue_ok herr (ropenBody_acquires (s := clearResultFlags s) hropen (not_fails_of_noFailure hn))
  have hn₁ := noFailure_drop (t := (clearResultFlags s).useDraw) hn 1 List.drop_one.symm
  obtain ⟨t₂, h₂, hbuf, ht₂⟩ := exec_countfreq_counts
    (s := (clearResultFlags s).useDraw.setRd ⟨0#8, 0#4, true⟩) herr rfl rfl hn₁ hwf hroom
  have herr₂ : t₂.reg.err = false := ht₂ ▸ herr
  have h₃ : exec .rclose t₂ = .next _ :=
    issue_ok herr₂ (rcloseBody_releases (s := clearResultFlags t₂) (by rw [ht₂]; rfl))
  refine ⟨_, t₂, _, h₁, h₂, h₃, ⟨herr₂, ?_, ?_, hbuf, ?_, ?_, ?_, ?_⟩, ?_⟩
  · exact (congrArg State.wr ht₂ :)
  · exact (congrArg (·.tab.freq) ht₂ :)
  · exact (congrArg (·.ctr.inlen.toNat) ht₂).trans hlen
  · exact (congrArg (·.ctr.osize.toNat) ht₂).trans hlen
  · exact noFailure_drop hn₁ _ (congrArg (·.env.draws) ht₂ :)
  · exact (congrArg (·.env.snk) ht₂ :)
  · exact (congrArg State.par ht₂ :)

theorem InputKept.buildtree {pairs : List (Nat × Count)} (h : InputKept s bytes t)
    (hbuilt : Built (clearResultFlags t) pairs u) : InputKept s bytes u := by
  obtain ⟨-, hwr, -, henv, hfreq, -, hinbuf, hinlen, hosize, -⟩ := hbuilt.frame
  refine ⟨hbuilt.err.trans h.noError, hwr.trans h.wr, hfreq.trans h.freq, ?_, ?_, ?_, ?_, ?_⟩
  · rw [hinbuf]; exact h.inbuf
  · rw [hinlen]; exact h.inlen
  · rw [hosize]; exact h.osize
  · exact noFailure_drop h.noFailure 0 (congrArg Env.draws henv :)
  · exact (congrArg Env.snk henv).trans h.snk

theorem InputKept.buildcodes (h : InputKept s bytes t) (hr : exec .buildcodes t = .next u) (herr : u.reg.err = false) :
    InputKept s bytes u := by
  obtain ⟨-, hwr, henv, hctr, -, htab⟩ := exec_buildcodes_frame hr
  refine ⟨herr, hwr.trans h.wr, (congrArg Tables.freq htab :).trans h.freq, ?_, ?_, ?_, ?_, ?_⟩
  · exact (congrArg Tables.inbuf htab :) ▸ h.inbuf
  · rw [hctr]; exact h.inlen
  · rw [hctr]; exact h.osize
  · exact noFailure_drop h.noFailure 0 (congrArg Env.draws henv :)
  · exact (congrArg Env.snk henv).trans h.snk

/-- `WOPEN` and `WRHDR` write the header, with no bit buffered and what `ENCODE` reads as it was. -/
theorem exec_write_header (h : InputKept s bytes t) (hwopen : s.wr.wopen = false) :
    ∃ t₁ t₂, exec .wopen t = .next t₁ ∧ exec .wrhdr t₁ = .next t₂ ∧ t₂.reg.err = false ∧ t₂.wr.wopen = true ∧
      t₂.pendingWrite = [] ∧ t₂.noFailure = true ∧ t₂.tab = t.tab ∧ t₂.ctr.inlen = t.ctr.inlen ∧
      t₂.env.snk = s.env.snk ++ headerText bytes.length (presentPairs (countsOf bytes)) := by
  have h₁ : exec .wopen t = .next _ := issue_ok h.noError
    (wopenBody_acquires (s := clearResultFlags t) (h.wr ▸ hwopen) (not_fails_of_noFailure h.noFailure))
  have hn₁ := noFailure_drop (t := (clearResultFlags t).useDraw) h.noFailure 1 List.drop_one.symm
  have h₂ := exec_wrhdr_emits (s := (clearResultFlags t).useDraw.setWr ⟨0#8, 0#3, true, 0#64⟩) h.noError rfl rfl hn₁
    (show t.tab.freq.filled 256 = true from h.freq ▸ countsOf_filled bytes)
  refine ⟨_, _, h₁, h₂, h.noError, rfl, rfl, noFailure_drop hn₁ _ rfl, rfl, rfl, ?_⟩
  rw [← h.snk, ← h.freq, ← h.osize]
  rfl

/-- `WOPEN`, `WRHDR`, `ENCODE` and `WCLOSE` write the artifact when each byte kept has a code. -/
theorem exec_write_artifact (h : InputKept s bytes t) (hwopen : s.wr.wopen = false)
    (hcode : ∀ b ∈ bytes, t.tab.code.read b.toNat = some (codeOf b) ∧ codeOf b ≠ []) :
    ∃ t₁ t₂ t₃ t₄, exec .wopen t = .next t₁ ∧ exec .wrhdr t₁ = .next t₂ ∧ exec .encode t₂ = .next t₃ ∧
      exec .wclose t₃ = .next t₄ ∧ t₄.reg.err = false ∧ t₄.env.snk = s.env.snk ++ artifactOf bytes codeOf := by
  obtain ⟨t₁, t₂, h₁, h₂, herr₂, hwopen₂, hpending, hn₂, htab, hinlen, hsnk₂⟩ := exec_write_header h hwopen
  obtain ⟨t₃, h₃, herr₃, hwcnt₃, hsnk₃⟩ := exec_encode_emits codeOf herr₂ hwopen₂ hn₂ (hinlen ▸ h.inlen.symm)
    (htab ▸ h.inbuf) (htab ▸ hcode)
  have hwopen₃ : t₃.wr.wopen = true := (exec_encode_frame h₃).1.trans hwopen₂
  have h₄ : exec .wclose t₃ = .next _ := issue_ok herr₃
    (wcloseBody_of_flushed (s := clearResultFlags t₃) hwopen₃ (flushBits_boundary hwcnt₃))
  refine ⟨t₁, t₂, t₃, _, h₁, h₂, h₃, h₄, herr₃, hsnk₃.trans ?_⟩
  rw [hpending, hsnk₂, List.nil_append, List.append_assoc, artifactOf]

/-- `COMPRESS` completes and writes the artifact of the codes that a `BUILDTREE` over the counts gives (R233). -/
theorem exec_compress_artifact (hs : s.idle = true) (hn : s.noFailure = true) (hwf : s.par.wf = true)
    (hroom : s.srcLeft.length ≤ s.par.inbufCap) :
    ∃ t codeOf before after, exec .compress s = .next t ∧ t.reg.err = false ∧
      t.env.snk = s.env.snk ++ artifactOf s.srcLeft codeOf ∧
      before.reg.err = false ∧ before.par = s.par ∧ before.tab.freq = countsOf s.srcLeft ∧
      exec .buildtree before = .next after ∧
      Built (clearResultFlags before) (presentPairs (countsOf s.srcLeft)) after ∧
      TreeCodes s.srcLeft codeOf after.tab.node after.ctr.root := by
  obtain ⟨-, -, hwopen⟩ := idle_iff.1 hs
  have hlen : s.srcLeft.length < 2 ^ 32 := hroom.trans_lt (inbufCap_lt hwf)
  obtain ⟨t₁, t₂, t₃, h₁, h₂, h₃, hkept, hpar⟩ := exec_keep_input hs hn hwf hroom
  obtain ⟨t₄, t₅, codeOf, h₄, hbuilt, h₅, herr₅, htree, hcode⟩ :=
    exec_buildtree_buildcodes_countsOf hlen hkept.noError hkept.freq
  obtain ⟨t₆, t₇, t₈, t₉, h₆, h₇, h₈, h₉, herr₉, hsnk⟩ :=
    exec_write_artifact ((hkept.buildtree hbuilt).buildcodes h₅ herr₅) hwopen hcode
  obtain ⟨-, hcompress⟩ := compositesAreTheirParts
  exact ⟨_, codeOf, t₃, t₄, hcompress s t₁ t₂ t₃ t₄ t₅ t₆ t₇ t₈ t₉ hs h₁ h₂ h₃ h₄ h₅ h₆ h₇ h₈ h₉ herr₉, herr₉, hsnk,
    hkept.noError, hpar, hkept.freq, h₄, hbuilt, htree⟩

end Sys2Proof.Machine
end

section
/-! PROOFS. The round trip's second half (R208): `DECOMPRESS` reads the counts back, builds the tree `COMPRESS` built,
and decodes the payload to the bytes. -/

namespace Sys2Proof.Machine

variable {s t u : State} {bytes : List Byte} {codeOf : Byte → Code} {pad : List Bool} {sym : Byte}

/-! ### `WALK` -/

/-- `WALK` without a tree, for no bytes, emits none (R203). -/
theorem exec_walk_of_none (herr : s.reg.err = false) (hropen : s.rd.ropen = true) (hwopen : s.wr.wopen = true)
    (hwcnt : s.wr.wcnt = 0#3) (hroot : s.ctr.root = NONE) (hosize : s.ctr.osize = 0#32) :
    ∃ t, exec .walk s = .next t ∧ t.env.snk = s.env.snk ++ [] ∧ t.ctr.decoded = s.ctr.osize ∧ t.reg.err = false := by
  obtain ⟨-, hwalk⟩ := walkWithoutTreeOrWithOneLeaf s herr
  obtain ⟨hnone, -⟩ := hwalk hropen hwopen hwcnt
  exact ⟨_, hnone hroot, (List.append_nil _).symm, hosize.symm, herr⟩

section Walk
variable (herr : s.reg.err = false) (hropen : s.rd.ropen = true) (hwopen : s.wr.wopen = true)
  (hwcnt : s.wr.wcnt = 0#3) (hn : s.noFailure = true) (hosize : s.ctr.osize.toNat = bytes.length)
include herr hropen hwopen hwcnt hn hosize

/-- `WALK` over a single leaf repeats its symbol, the only byte there is (R204). -/
theorem exec_walk_of_leaf (htree : treeAt s.tab.node (.leaf sym) s.ctr.root = true)
    (hcodes : ∀ b ∈ bytes, (b, codeOf b) ∈ (HTree.leaf sym).codes) :
    ∃ t, exec .walk s = .next t ∧ t.env.snk = s.env.snk ++ bytes ∧ t.ctr.decoded = s.ctr.osize ∧ t.reg.err = false := by
  obtain ⟨-, hwalk⟩ := walkWithoutTreeOrWithOneLeaf s herr
  obtain ⟨-, hleaf⟩ := hwalk hropen hwopen hwcnt
  have hbytes : bytes = List.replicate s.ctr.osize.toNat sym := by
    rw [hosize]
    exact List.eq_replicate_of_mem fun b hb => (Prod.mk.inj (List.mem_singleton.1 (hcodes b hb))).1
  refine ⟨_, hleaf sym htree hn, ?_, rfl, herr⟩
  rw [hbytes]

/-- `WALK` over a tree decodes the codes to the bytes (R202). -/
theorem exec_walk_of_node {l r : HTree} (htree : treeAt s.tab.node (.node l r) s.ctr.root = true)
    (hcodes : ∀ b ∈ bytes, (b, codeOf b) ∈ (HTree.node l r).codes)
    (hbits : s.readableBits = bytes.flatMap codeOf ++ pad) :
    ∃ t, exec .walk s = .next t ∧ t.env.snk = s.env.snk ++ bytes ∧ t.ctr.decoded = s.ctr.osize ∧ t.reg.err = false := by
  obtain ⟨t, ht, hsnk, -, -, -, -, herr', -, -, hend⟩ := walkDecodesTheBits s l r herr hropen hwopen hwcnt hn htree
  have hdecode := HTree.decode_flatMap (bits := pad) hcodes
  rw [hbits, hosize, hdecode] at hsnk hend
  exact ⟨t, ht, hsnk, (hend rfl).2, herr'⟩

/-- `WALK` over the tree that has the codes emits the bytes encoded with them. -/
theorem exec_walk_treeCodes (htree : TreeCodes bytes codeOf s.tab.node s.ctr.root)
    (hbits : s.readableBits = bytes.flatMap codeOf ++ pad) :
    ∃ t, exec .walk s = .next t ∧ t.env.snk = s.env.snk ++ bytes ∧ t.ctr.decoded = s.ctr.osize ∧ t.reg.err = false := by
  rcases htree with ⟨rfl, hroot⟩ | ⟨x, hx, hcodes⟩
  · exact exec_walk_of_none herr hropen hwopen hwcnt hroot (BitVec.eq_of_toNat_eq hosize)
  · cases x with
    | leaf sym => exact exec_walk_of_leaf herr hropen hwopen hwcnt hn hosize hx hcodes
    | node l r => exact exec_walk_of_node herr hropen hwopen hwcnt hn hosize hx hcodes hbits

end Walk

/-! ### `DECOMPRESS` -/

/-- The header of an artifact has been read, both streams are held, and the payload is next. -/
structure HeaderRead (u : State) (bytes : List Byte) (codeOf : Byte → Code) (t : State) : Prop where
  noError : t.reg.err = false
  ropen : t.rd.ropen = true
  wopen : t.wr.wopen = true
  wcnt : t.wr.wcnt = 0#3
  noFailure : t.noFailure = true
  osize : t.ctr.osize.toNat = bytes.length
  readable : ∃ pad, t.readableBits = bytes.flatMap codeOf ++ pad
  snk : t.env.snk = u.env.snk

theorem maxCount_lt_two_pow {p : Config.Params} (h : p.wf = true) : p.maxCount < 2 ^ 32 := by
  obtain ⟨-, hcnt, -⟩ := (Config.Params.wf_iff p).1 h
  have hpow : 2 ^ p.cntW ≤ 2 ^ 32 := Nat.pow_le_pow_right Nat.two_pos hcnt
  exact ((p.le_maxCount_iff _).1 le_rfl).trans_le hpow

/-- `ROPEN` and `WOPEN` hold both streams of an idle block. -/
theorem exec_hold_streams (hu : u.idle = true) (hn : u.noFailure = true) :
    ∃ t₁ t₂, exec .ropen u = .next t₁ ∧ exec .wopen t₁ = .next t₂ ∧ t₂.reg.err = false ∧ t₂.rd = ⟨0#8, 0#4, true⟩ ∧
      t₂.wr = ⟨0#8, 0#3, true, 0#64⟩ ∧ t₂.noFailure = true ∧ t₂.par = u.par ∧ t₂.srcLeft = u.srcLeft ∧
      t₂.env.snk = u.env.snk := by
  obtain ⟨herr, hropen, hwopen⟩ := idle_iff.1 hu
  have h₁ := issue_ok herr (ropenBody_acquires (s := clearResultFlags u) hropen (not_fails_of_noFailure hn))
  have hn₁ := noFailure_drop (t := (clearResultFlags u).useDraw.setRd ⟨0#8, 0#4, true⟩) hn 1 List.drop_one.symm
  have h₂ := issue_ok (s := (clearResultFlags u).useDraw.setRd ⟨0#8, 0#4, true⟩) herr
    (wopenBody_acquires (s := clearResultFlags ((clearResultFlags u).useDraw.setRd ⟨0#8, 0#4, true⟩)) hwopen
      (not_fails_of_noFailure hn₁))
  exact ⟨_, _, h₁, h₂, herr, rfl, rfl, noFailure_drop hn₁ 1 List.drop_one.symm, rfl, rfl, rfl⟩

theorem readableBits_of_boundary (h : s.rd.rcnt = 0#4) : s.readableBits = s.srcLeft.flatMap byteBits := by
  rw [State.readableBits, pendingRead_of_rcnt_eq_zero h, List.nil_append]

/-- `ROPEN`, `WOPEN` and `PARSEHDR` read the header of an artifact (R200). -/
theorem exec_read_header (hu : u.idle = true) (hn : u.noFailure = true) (hwf : u.par.wf = true)
    (hfits : bytes.length ≤ u.par.maxCount) (hleft : u.srcLeft = artifactOf bytes codeOf) :
    ∃ t₁ t₂ t₃, exec .ropen u = .next t₁ ∧ exec .wopen t₁ = .next t₂ ∧ exec .parsehdr t₂ = .next t₃ ∧
      HeaderRead u bytes codeOf t₃ ∧ t₃.par = u.par ∧
      ∀ i, i < 256 → t₃.tab.freq.read i = (countsOf bytes).read i := by
  have hmax : 256 ≤ u.par.maxCount := Config.Params.symbolCount_le_maxCount hwf
  have hlen : bytes.length < 2 ^ 32 := hfits.trans_lt (maxCount_lt_two_pow hwf)
  obtain ⟨t₁, t₂, h₁, h₂, herr, hrd, hwr, hn₂, hpar, hleft₂, hsnk⟩ := exec_hold_streams hu hn
  rw [hleft, artifactOf] at hleft₂
  have hbits := (readableBits_of_boundary (s := t₂.takeBytes _) (congrArg Reader.rcnt hrd :)).trans
    ((congrArg (List.flatMap byteBits) (takeBytes_srcLeft hleft₂)).trans (flatMap_byteBits_packBits _))
  have h₃ := parsehdrReadsAnEmittedHeader t₂ _ _ _ herr (by rw [hrd]) (by rw [hrd]) hn₂ (hpar ▸ hwf) (hpar ▸ hfits)
    (hpar ▸ (length_presentPairs_le _).trans hmax) (fun e he => ?_) hleft₂
  · refine ⟨t₁, t₂, _, h₁, h₂, h₃, ⟨herr, ?_, ?_, ?_, noFailure_drop hn₂ _ rfl, ?_, ⟨_, hbits⟩, hsnk⟩, hpar,
      fun i hi => read_writeAll_presentPairs (countsOf_filled bytes) hi⟩
    · exact (congrArg Reader.ropen hrd :)
    · exact (congrArg Writer.wopen hwr :)
    · exact (congrArg Writer.wcnt hwr :)
    · exact (BitVec.toNat_ofNat ..).trans (Nat.mod_eq_of_lt hlen)
  · obtain ⟨hsym, hcount⟩ := count_le_of_mem_presentPairs hlen he
    exact ⟨hsym, hpar ▸ hcount.trans hfits⟩

/-- `WCLOSE` and `RCLOSE` with no bit buffered only release the streams. -/
theorem exec_release_streams (herr : s.reg.err = false) (hropen : s.rd.ropen = true) (hwopen : s.wr.wopen = true)
    (hwcnt : s.wr.wcnt = 0#3) : ∃ t₁ t₂, exec .wclose s = .next t₁ ∧ exec .rclose t₁ = .next t₂ ∧
      t₂.reg.err = false ∧ t₂.ctr = s.ctr ∧ t₂.env = s.env := by
  have h₁ := issue_ok herr (wcloseBody_of_flushed (s := clearResultFlags s) hwopen (flushBits_boundary hwcnt))
  have h₂ := issue_ok (s := releaseSink (clearResultFlags s)) herr
    (rcloseBody_releases (s := clearResultFlags (releaseSink (clearResultFlags s))) hropen)
  exact ⟨_, _, h₁, h₂, herr, rfl, rfl⟩

/-- `BUILDTREE` and `WALK` after the header emit the bytes, when the tree has the codes of the payload. -/
theorem exec_decode_payload (h : HeaderRead u bytes codeOf t) (hfilled : t.tab.freq.filled 256 = true)
    (htree : ∀ v, exec .buildtree t = .next v → TreeCodes bytes codeOf v.tab.node v.ctr.root) :
    ∃ t₁ t₂, exec .buildtree t = .next t₁ ∧ exec .walk t₁ = .next t₂ ∧ t₂.reg.err = false ∧ t₂.rd.ropen = true ∧
      t₂.wr.wopen = true ∧ t₂.wr.wcnt = 0#3 ∧ t₂.env.snk = u.env.snk ++ bytes ∧
      t₂.ctr.decoded.toNat = bytes.length ∧ t₂.ctr.osize.toNat = bytes.length := by
  obtain ⟨t₁, h₁, hbuilt⟩ := exec_buildtree_of_filled h.noError hfilled
  obtain ⟨hrd, hwr, -, henv, -, -, -, -, hosize, -⟩ := hbuilt.frame
  obtain ⟨pad, hbits⟩ := h.readable
  have hbits₁ : t₁.readableBits = bytes.flatMap codeOf ++ pad := by
    rw [← hbits, State.readableBits, State.pendingRead, State.srcLeft, hrd, henv]
    rfl
  have hosize₁ : t₁.ctr.osize.toNat = bytes.length := (congrArg BitVec.toNat hosize).trans h.osize
  have hn₁ : t₁.noFailure = true := noFailure_drop h.noFailure 0 (congrArg Env.draws henv :)
  obtain ⟨t₂, h₂, hsnk, hdecoded, herr⟩ := exec_walk_treeCodes (hbuilt.err.trans h.noError)
    ((congrArg Reader.ropen hrd).trans h.ropen) ((congrArg Writer.wopen hwr).trans h.wopen)
    ((congrArg Writer.wcnt hwr).trans h.wcnt) hn₁ hosize₁ (htree t₁ h₁) hbits₁
  obtain ⟨-, -, hropen₂, hwr₂, hctr₂⟩ := exec_walk_frame h₂
  have hwr₁ : { t₂.wr with snkCnt := t₁.wr.snkCnt } = t.wr := hwr₂.trans hwr
  have hosize₂ : t₂.ctr.osize.toNat = bytes.length := (congrArg (·.osize.toNat) hctr₂ :).trans hosize₁
  refine ⟨t₁, t₂, h₁, h₂, herr, hropen₂.trans ((congrArg Reader.ropen hrd).trans h.ropen),
    (congrArg Writer.wopen hwr₁ :).trans h.wopen, (congrArg Writer.wcnt hwr₁ :).trans h.wcnt, ?_, ?_, hosize₂⟩
  · rw [hsnk, henv]
    exact congrArg (· ++ bytes) h.snk
  · rw [hdecoded, hosize₁]

/-- `DECOMPRESS` of an artifact emits the bytes, when a `BUILDTREE` over their counts gives the tree of its codes
(R206). -/
theorem exec_decompress_artifact (hu : u.idle = true) (hn : u.noFailure = true) (hwf : u.par.wf = true)
    (hfits : bytes.length ≤ u.par.maxCount) (hleft : u.srcLeft = artifactOf bytes codeOf)
    (htree : ∀ t v, t.reg.err = false → t.par = u.par →
      (∀ i, i < 256 → t.tab.freq.read i = (countsOf bytes).read i) → exec .buildtree t = .next v →
      TreeCodes bytes codeOf v.tab.node v.ctr.root) :
    ∃ v, exec .decompress u = .next v ∧ v.env.snk = u.env.snk ++ bytes ∧ v.ctr.decoded.toNat = bytes.length ∧
      v.ctr.osize.toNat = bytes.length ∧ v.reg.err = false := by
  obtain ⟨t₁, t₂, t₃, h₁, h₂, h₃, hread, hpar, hfreq⟩ := exec_read_header hu hn hwf hfits hleft
  have hfilled : t₃.tab.freq.filled 256 = true :=
    (Memory.filled_iff ..).2 fun i hi => ⟨_, (hfreq i hi).trans (read_countsOf bytes hi)⟩
  obtain ⟨t₄, t₅, h₄, h₅, herr, hropen, hwopen, hwcnt, hsnk, hdecoded, hosize⟩ :=
    exec_decode_payload hread hfilled fun v => htree t₃ v hread.noError hpar hfreq
  obtain ⟨t₆, t₇, h₆, h₇, herr₇, hctr, henv⟩ := exec_release_streams herr hropen hwopen hwcnt
  obtain ⟨hdecompress, -⟩ := compositesAreTheirParts
  refine ⟨_, hdecompress u t₁ t₂ t₃ t₄ t₅ t₆ t₇ hu h₁ h₂ h₃ h₄ h₅ h₆ h₇ herr₇, ?_, ?_, ?_, herr₇⟩
  · exact (congrArg Env.snk henv).trans hsnk
  · exact (congrArg (·.decoded.toNat) hctr).trans hdecoded
  · exact (congrArg (·.osize.toNat) hctr).trans hosize

/-- Settles O42: the counts of the header are those of the input, so under the same tie-break the tree is the one whose
codes the payload is made of. -/
theorem decompressUndoesCompress : Obligations.DecompressUndoesCompress := by
  intro s u bytes hs hns hwfs hleft hroom hu hnu hwfu htie hfits
  subst hleft
  obtain ⟨t, codeOf, before, after, ht, herr, hsnk, herrb, hparb, hfreqb, hbuild, hbuilt, htree⟩ :=
    exec_compress_artifact hs hns hwfs hroom
  refine ⟨t, _, ht, herr, hsnk, fun hartifact => exec_decompress_artifact hu hnu hwfu hfits hartifact
    fun t' v herr' hpar hfreq hv => htree.congr hbuilt ?_⟩
  refine buildtreeIsDeterministic before t' after v herrb herr' ?_ (fun i hi => ?_) hbuild hv
  · rw [hparb, hpar, htie]
  · rw [hfreqb, hfreq i hi]

end Sys2Proof.Machine
end

section
/-! PROOFS. `COUNTFREQ` on an input longer than the buffer, and the statements about `COUNTFREQ` and `WRHDR` (R230,
R231). -/

namespace Sys2Proof.Machine

variable {s : State} {k : Nat} {b : Byte} {bytes done rest : List Byte} {inbuf : Memory Byte}

/-! ### `COUNTFREQ` -/

/-- Bytes there is room for are kept and counted, and the loop goes on (R230). -/
theorem countLoop_counted (hwf : s.par.wf = true) (hn : s.noFailure = true) (hbuf : bufferHolds inbuf done)
    (hleft : s.srcLeft = done ++ (bytes ++ rest)) (hroom : (done ++ bytes).length ≤ s.par.inbufCap) :
    ∃ inbuf', bufferHolds inbuf' (done ++ bytes) ∧
      countLoop (bytes.length + k) (s.counted done inbuf) = countLoop k (s.counted (done ++ bytes) inbuf') := by
  induction bytes generalizing done inbuf with
  | nil => exact ⟨inbuf, by rwa [List.append_nil], by rw [List.length_nil, Nat.zero_add, List.append_nil]⟩
  | cons b bytes ih =>
    have hlt : done.length < s.par.inbufCap := by
      rw [List.length_append, List.length_cons] at hroom
      omega
    have hmove : done ++ b :: bytes = done ++ [b] ++ bytes := List.append_cons ..
    rw [hmove] at hroom ⊢
    obtain ⟨inbuf', hbuf', hloop⟩ := ih (bufferHolds_concat hbuf b) (hleft.trans (List.append_cons ..)) hroom
    refine ⟨inbuf', hbuf', ?_⟩
    rw [List.length_cons, Nat.add_right_comm, countLoop_byte (counted_srcLeft hleft) (counted_accessFails hn),
      countByte_counted hlt hwf, Res.andThen_ok, hloop]

theorem countByte_full (h : s.ctr.inlen.toNat = s.par.inbufCap) : countByte b s = .raised .illegalState s := if_pos h

/-- With the buffer full one more byte is consumed and refused (R230). -/
theorem countLoop_full (hwf : s.par.wf = true) (hn : s.noFailure = true) (hleft : s.srcLeft = done ++ b :: rest)
    (hfull : done.length = s.par.inbufCap) :
    countLoop (k + 1) (s.counted done inbuf) = .raised .illegalState (s.counted done inbuf).takeByte := by
  have hinlen : (BitVec.ofNat 32 done.length).toNat = s.par.inbufCap := by
    have hcap := inbufCap_lt hwf
    rw [BitVec.toNat_ofNat]
    omega
  rw [countLoop_byte (counted_srcLeft hleft) (counted_accessFails hn),
    countByte_full (s := (s.counted done inbuf).takeByte) hinlen, Res.andThen_raised]

/-- A longer input is what there is room for, one byte more and the rest. -/
theorem srcLeft_split (h : s.par.inbufCap < s.srcLeft.length) :
    ∃ kept b rest, s.srcLeft = kept ++ b :: rest ∧ kept.length = s.par.inbufCap := by
  obtain ⟨b, rest, hrest⟩ := List.exists_cons_of_length_pos (l := s.srcLeft.drop s.par.inbufCap)
    (by rw [List.length_drop]; omega)
  exact ⟨s.srcLeft.take s.par.inbufCap, b, rest, by rw [← hrest, List.take_append_drop], List.length_take_of_le h.le⟩

/-- The loop of `COUNTFREQ` on a longer input keeps and counts what there is room for (R230). -/
theorem countLoop_overflows (hwf : s.par.wf = true) (hn : s.noFailure = true) (hleft : s.srcLeft = bytes ++ b :: rest)
    (hfull : bytes.length = s.par.inbufCap) : ∃ inbuf, bufferHolds inbuf bytes ∧
      countLoop (s.srcLeft.length + 1) (clearCounts s) = .raised .illegalState (s.counted bytes inbuf).takeByte := by
  obtain ⟨inbuf, hbuf, hloop⟩ := countLoop_counted (k := rest.length + 1 + 1) (done := []) (inbuf := s.tab.inbuf) hwf hn
    (fun _ h => absurd h (Nat.not_lt_zero _)) hleft hfull.le
  refine ⟨inbuf, hbuf, ?_⟩
  rw [hleft, List.length_append]
  exact hloop.trans (countLoop_full hwf hn hleft hfull)

theorem countfreqBody_of_raised {e : ErrCode} {t : State} (hcan : s.canReadBytes = true)
    (hloop : countLoop (s.srcLeft.length + 1) (clearCounts s) = .raised e t) : countfreqBody s = .raised e t := by
  rw [countfreqBody, if_pos hcan, hloop, Res.andThen_raised]

/-- Settles O38: the loop goes through the bytes there is room for, and then meets the end of the source or one byte
too many. -/
theorem countfreqKeepsAndCountsTheInput : Obligations.CountfreqKeepsAndCountsTheInput := by
  refine fun s herr => ⟨fun h => issue_raised herr (if_neg (not_canReadBytes h)), fun hropen hrcnt hn hwf =>
    ⟨fun hroom => exec_countfreq_counts herr hropen hrcnt hn hwf hroom, fun hover => ?_⟩⟩
  obtain ⟨kept, b, rest, hleft, hfull⟩ := srcLeft_split hover
  obtain ⟨inbuf, hbuf, hloop⟩ := countLoop_overflows (s := clearResultFlags s) hwf hn hleft hfull
  have hexec : exec .countfreq s = .next (raiseError .illegalState _) :=
    issue_raised herr (countfreqBody_of_raised (canReadBytes_of hropen hrcnt) hloop)
  rw [hleft, ← hfull, List.take_left]
  refine ⟨_, hexec, hbuf, congrArg (raiseError _) (State.eq_of_groups rfl rfl rfl rfl rfl rfl rfl ?_)⟩
  simp [State.takeByte, State.counted, State.takeBytes]

/-! ### `WRHDR` -/

/-- Settles O39: on a byte boundary of a held sink the header is emitted. -/
theorem wrhdrEmitsTheHeader : Obligations.WrhdrEmitsTheHeader := fun _ herr =>
  ⟨fun h => issue_raised herr (if_neg (not_canWriteBytes h)), exec_wrhdr_emits herr⟩

end Sys2Proof.Machine
end

section
/-! PROOFS. What `ENCODE` writes, with the exact state it leaves (R137, R140, R232): the bits written are whole bytes in
`SNK` and the bits still buffered. -/

namespace Sys2Proof.Machine

variable {s t : State} {b : Byte} {i k : Nat} {bits : List Bool} {c : Code} {bytes before rest : List Byte}
  {codeOf : Byte → Code}

/-! ### Bits written -/

theorem packBits_flatMap_byteBits (bytes : List Byte) (bits : List Bool) :
    packBits (bytes.flatMap byteBits ++ bits) = bytes ++ packBits bits := by
  induction bytes with
  | nil => rfl
  | cons b bytes ih =>
    have hbyte : byteOfBits (byteBits b) = b := (byteOfBits_lowBits b le_rfl).trans (BitVec.shiftLeft_zero b)
    have hlen : (byteBits b).length = 8 := length_lowBits b 8
    rw [List.flatMap_cons, List.append_assoc, packBits_append _ hlen, ih, hbyte, List.cons_append]

theorem length_flatMap_byteBits (bytes : List Byte) : (bytes.flatMap byteBits).length = 8 * bytes.length := by
  induction bytes with
  | nil => rfl
  | cons b bytes ih =>
    have hlen : (byteBits b).length = 8 := length_lowBits b 8
    rw [List.flatMap_cons, List.length_append, ih, hlen, List.length_cons]
    omega

/-- The state after bytes went to `SNK`, with the bit buffer given (R62, R137). -/
def State.putBytes (s : State) (bytes : List Byte) (wbuf : Byte) (wcnt : BitVec 3) : State :=
  (s.setEnv { s.env with snk := s.env.snk ++ bytes, draws := s.env.draws.drop bytes.length }).setWr
    { s.wr with wbuf := wbuf, wcnt := wcnt, snkCnt := s.wr.snkCnt + BitVec.ofNat 64 bytes.length }

theorem putBytes_nil (s : State) : s.putBytes [] s.wr.wbuf s.wr.wcnt = s := by
  simp [State.putBytes, State.setEnv, State.setWr]

theorem putBits_pendingWrite (s : State) (b : Byte) : (s.putBits b).pendingWrite = [] := rfl

theorem putBytes_putBits (s : State) (bytes : List Byte) (w : Byte) (n : BitVec 3) (b : Byte) :
    (s.putBytes bytes w n).putBits b = s.putBytes (bytes ++ [b]) 0#8 0#3 := by
  simp [State.putBytes, State.putBits, State.setEnv, State.setWr, BitVec.add_assoc, BitVec.ofNat_add]

/-- A bit string has been written, the bits buffered in `s` being the first of it: its whole bytes are in `SNK` and the
rest is buffered. -/
def Written (s : State) (bits : List Bool) (t : State) : Prop :=
  ∃ bytes wbuf wcnt, t = s.putBytes bytes wbuf wcnt ∧ bits = bytes.flatMap byteBits ++ t.pendingWrite

theorem Written.start (s : State) : Written s s.pendingWrite s := ⟨[], _, _, (putBytes_nil s).symm, rfl⟩

theorem Written.tab (h : Written s bits t) : t.tab = s.tab := by
  obtain ⟨bytes, wbuf, wcnt, rfl, -⟩ := h
  rfl

theorem Written.noFailure (h : Written s bits t) (hn : s.noFailure = true) : t.noFailure = true := by
  obtain ⟨bytes, wbuf, wcnt, rfl, -⟩ := h
  exact noFailure_drop hn bytes.length rfl

/-- One more bit is buffered, or completes a byte (R137). -/
theorem Written.writeBit (h : Written s bits t) (hn : s.noFailure = true) (b : Bool) :
    ∃ u, Machine.writeBit b t = .ok () u ∧ Written s (bits ++ [b]) u := by
  have hd := not_fails_of_noFailure (h.noFailure hn)
  obtain ⟨bytes, wbuf, wcnt, ht, rfl⟩ := h
  by_cases h7 : t.wr.wcnt = 7#3
  · refine ⟨_, writeBit_eighth h7 (snkWrite_putBits _ hd), bytes ++ [byteOfBits (t.pendingWrite ++ [b])], 0#8, 0#3,
      ?_, ?_⟩
    · rw [ht, putBytes_putBits]
    · have hlen : (t.pendingWrite ++ [b]).length = 8 := by simp [length_pendingWrite, h7]
      have hbyte := byteBits_byteOfBits hlen.le
      rw [hlen, Nat.sub_self, List.replicate_zero, List.append_nil] at hbyte
      rw [putBits_pendingWrite, List.append_nil, List.flatMap_append, List.flatMap_singleton, hbyte, List.append_assoc]
  · refine ⟨_, writeBit_buffers b h7, bytes, shiftInBit t.wr.wbuf b, t.wr.wcnt + 1#3, ?_, ?_⟩
    · rw [ht]; rfl
    · exact (List.append_assoc ..).trans (congrArg _ (pendingWrite_buffers b h7 rfl rfl).symm)

theorem Written.writeBits (h : Written s bits t) (hn : s.noFailure = true) (more : List Bool) :
    ∃ u, Machine.writeBits more t = .ok () u ∧ Written s (bits ++ more) u := by
  induction more generalizing bits t with
  | nil => exact ⟨t, rfl, by rwa [List.append_nil]⟩
  | cons b more ih =>
    obtain ⟨u, hu, hwritten⟩ := h.writeBit hn b
    obtain ⟨v, hv, hwritten⟩ := ih hwritten
    exact ⟨v, by rw [Machine.writeBits, hu, Res.andThen_ok, hv], by rwa [List.append_cons]⟩

/-- A flush writes what is buffered, so that all of the bits are in `SNK`, packed (R140). -/
theorem Written.flushBits (h : Written s bits t) (hn : s.noFailure = true) :
    ∃ wbuf, Machine.flushBits t = .ok () (s.putBytes (packBits bits) wbuf 0#3) := by
  have hd := not_fails_of_noFailure (h.noFailure hn)
  have hlen := length_pendingWrite t
  obtain ⟨bytes, wbuf, wcnt, ht, rfl⟩ := h
  rw [packBits_flatMap_byteBits]
  by_cases h0 : t.wr.wcnt = 0#3
  · have hwcnt : wcnt = 0#3 := by rw [ht] at h0; exact h0
    refine ⟨wbuf, (flushBits_boundary h0).trans (congrArg _ ?_)⟩
    rw [h0] at hlen
    rw [List.eq_nil_of_length_eq_zero hlen, packBits, List.append_nil, ht, hwcnt]
  · have hne : t.pendingWrite ≠ [] := fun hnil => h0 (BitVec.eq_of_toNat_eq (by rw [← hlen, hnil]; rfl))
    refine ⟨0#8, (flushBits_writes h0 hd).trans (congrArg _ ?_)⟩
    rw [packBits_part hne (by rw [hlen]; omega), ← putBytes_putBits s bytes wbuf wcnt, ← ht]

/-- The whole bytes of the bits written, and the bits left over. -/
theorem Written.whole (h : Written s bits t) : ∃ wbuf wcnt,
    t = s.putBytes (packBits (bits.take (8 * (bits.length / 8)))) wbuf wcnt ∧
      (packBits (bits.take (8 * (bits.length / 8)))).length = bits.length / 8 ∧
      t.pendingWrite = bits.drop (8 * (bits.length / 8)) := by
  have hlt : t.pendingWrite.length < 8 := (length_pendingWrite t).trans_lt t.wr.wcnt.isLt
  obtain ⟨bytes, wbuf, wcnt, ht, hbits⟩ := h
  have hbytes := length_flatMap_byteBits bytes
  have hwhole : bits.length / 8 = bytes.length := by
    rw [hbits, List.length_append, hbytes]
    omega
  have hpack : packBits (bits.take (8 * (bits.length / 8))) = bytes := by
    rw [hwhole, ← hbytes, hbits, List.take_left, ← List.append_nil (bytes.flatMap byteBits), packBits_flatMap_byteBits,
      packBits, List.append_nil]
  rw [hpack]
  refine ⟨wbuf, wcnt, ht, hwhole.symm, ?_⟩
  rw [hwhole, ← hbytes]
  conv_rhs => rw [hbits]
  rw [List.drop_left]

/-! ### `ENCODE` -/

theorem encodeByte_code (hc : s.tab.code.read b.toNat = some c) (hne : c ≠ []) : encodeByte b s = writeBits c s := by
  rw [encodeByte, readEntry_ok.2 hc, Res.lift_ok, Res.andThen_ok, if_neg hne]

theorem encodeByte_noCode (h : s.tab.code.read b.toNat = some []) : encodeByte b s = .raised .illegalState s := by
  rw [encodeByte, readEntry_ok.2 h, Res.lift_ok, Res.andThen_ok, if_pos rfl]

theorem encodeLoop_byte (h : s.tab.inbuf.read i = some b) :
    encodeLoop (k + 1) i s = (encodeByte b s).andThen fun _ t => encodeLoop k (i + 1) t := by
  rw [encodeLoop, readEntry_ok.2 h, Res.lift_ok, Res.andThen_ok]

/-- `INBUF` holds a byte string from a position on. -/
def HoldsFrom (inbuf : Memory Byte) (i : Nat) (bytes : List Byte) : Prop :=
  ∀ j, j < bytes.length → inbuf.read (i + j) = bytes[j]?

theorem HoldsFrom.of_bufferHolds {inbuf : Memory Byte} (h : bufferHolds inbuf bytes) : HoldsFrom inbuf 0 bytes :=
  fun j hj => (congrArg inbuf.read (Nat.zero_add j)).trans (h j hj)

theorem HoldsFrom.cons {inbuf : Memory Byte} (h : HoldsFrom inbuf i (b :: bytes)) :
    inbuf.read i = some b ∧ HoldsFrom inbuf (i + 1) bytes := by
  refine ⟨h 0 (Nat.succ_pos _), fun j hj => ?_⟩
  rw [Nat.add_right_comm]
  exact h (j + 1) (Nat.succ_lt_succ hj)

/-- Each of the bytes has the code given. -/
def HaveCodes (code : Memory Code) (codeOf : Byte → Code) (bytes : List Byte) : Prop :=
  ∀ b ∈ bytes, code.read b.toNat = some (codeOf b) ∧ codeOf b ≠ []

/-- The loop of `ENCODE` writes the codes of the bytes that have one and goes on with the others (R232). -/
theorem Written.encodeLoop (h : Written s bits t) (hn : s.noFailure = true)
    (hbuf : HoldsFrom s.tab.inbuf i (before ++ rest)) (hcode : HaveCodes s.tab.code codeOf before) :
    ∃ u j, Machine.encodeLoop (before.length + k) i t = Machine.encodeLoop k j u ∧
      Written s (bits ++ before.flatMap codeOf) u ∧ HoldsFrom s.tab.inbuf j rest := by
  induction before generalizing bits t i with
  | nil =>
    refine ⟨t, i, ?_, ?_, hbuf⟩
    · rw [List.length_nil, Nat.zero_add]
    · rwa [List.flatMap_nil, List.append_nil]
  | cons b before ih =>
    obtain ⟨hread, hbuf⟩ := HoldsFrom.cons hbuf
    obtain ⟨⟨hb, hne⟩, hcode⟩ := List.forall_mem_cons.1 hcode
    obtain ⟨u, hu, hwritten⟩ := h.writeBits hn (codeOf b)
    obtain ⟨v, j, hv, hwritten, hrest⟩ := ih hwritten hbuf hcode
    rw [← h.tab] at hread hb
    refine ⟨v, j, ?_, ?_, hrest⟩
    · rw [List.length_cons, Nat.add_right_comm, encodeLoop_byte hread, encodeByte_code hb hne, hu, Res.andThen_ok, hv]
    · rwa [List.flatMap_cons, ← List.append_assoc]

/-- A byte without a code is refused with the codes of the bytes before it written (R232). -/
theorem Written.encodeLoop_noCode (h : Written s bits t) (hn : s.noFailure = true)
    (hbuf : HoldsFrom s.tab.inbuf i (before ++ b :: rest)) (hcode : HaveCodes s.tab.code codeOf before)
    (hb : s.tab.code.read b.toNat = some []) :
    ∃ u, Machine.encodeLoop (before ++ b :: rest).length i t = .raised .illegalState u ∧
      Written s (bits ++ before.flatMap codeOf) u := by
  obtain ⟨u, j, hu, hwritten, hrest⟩ := h.encodeLoop (k := rest.length + 1) hn hbuf hcode
  obtain ⟨hread, -⟩ := hrest.cons
  rw [← hwritten.tab] at hread hb
  refine ⟨u, ?_, hwritten⟩
  rw [List.length_append, List.length_cons, hu, encodeLoop_byte hread, encodeByte_noCode hb, Res.andThen_raised]

theorem encodeBody_free (h : s.wr.wopen = false) : encodeBody s = .raised .illegalState s := by simp [encodeBody, h]

theorem encodeBody_held (h : s.wr.wopen = true) (hlen : bytes.length = s.ctr.inlen.toNat) :
    encodeBody s = (encodeLoop bytes.length 0 s).andThen fun _ t => flushBits t := by
  rw [encodeBody, if_pos h, hlen]

section Encode
variable (herr : s.reg.err = false) (hwopen : s.wr.wopen = true) (hlen : bytes.length = s.ctr.inlen.toNat)
  (hbuf : bufferHolds s.tab.inbuf bytes)
include herr hwopen hlen hbuf

/-- `ENCODE` of bytes that all have a code appends the bits buffered and the codes, packed (R232). -/
theorem exec_encode_packs (hn : s.noFailure = true) (hcode : HaveCodes s.tab.code codeOf bytes) :
    ∃ wbuf, exec .encode s =
      .next ((clearResultFlags s).putBytes (packBits (s.pendingWrite ++ bytes.flatMap codeOf)) wbuf 0#3) := by
  obtain ⟨t, j, ht, hwritten, -⟩ := (Written.start (clearResultFlags s)).encodeLoop (k := 0) (rest := []) hn
    (by rw [List.append_nil]; exact .of_bufferHolds hbuf) hcode
  obtain ⟨wbuf, hflush⟩ := hwritten.flushBits hn
  refine ⟨wbuf, issue_ok herr ?_⟩
  rw [encodeBody_held (s := clearResultFlags s) hwopen hlen, ← Nat.add_zero bytes.length, ht, encodeLoop,
    Res.andThen_ok, hflush]
  rfl

/-- `ENCODE` refuses a first byte without a code with nothing done (R232). -/
theorem exec_encode_first_noCode (hbytes : bytes = b :: rest) (hb : s.tab.code.read b.toNat = some []) :
    exec .encode s = .next (raiseError .illegalState (clearResultFlags s)) := by
  subst hbytes
  obtain ⟨hread, -⟩ := (HoldsFrom.of_bufferHolds hbuf).cons
  refine issue_raised herr ?_
  rw [encodeBody_held (s := clearResultFlags s) hwopen hlen, List.length_cons,
    encodeLoop_byte (s := clearResultFlags s) hread, encodeByte_noCode (s := clearResultFlags s) hb, Res.andThen_raised,
    Res.andThen_raised]

/-- `ENCODE` refuses a byte without a code with the codes of the bytes before it written and not flushed (R232). -/
theorem exec_encode_noCode (hn : s.noFailure = true) (hbytes : bytes = before ++ b :: rest)
    (hcode : HaveCodes s.tab.code codeOf before) (hb : s.tab.code.read b.toNat = some []) :
    ∃ t, exec .encode s = .next (raiseError .illegalState t) ∧
      Written (clearResultFlags s) (s.pendingWrite ++ before.flatMap codeOf) t := by
  subst hbytes
  obtain ⟨t, ht, hwritten⟩ := (Written.start (clearResultFlags s)).encodeLoop_noCode hn (.of_bufferHolds hbuf) hcode hb
  refine ⟨t, issue_raised herr ?_, hwritten⟩
  rw [encodeBody_held (s := clearResultFlags s) hwopen hlen, ht, Res.andThen_raised]

end Encode

/-- Settles O40: the bits written are followed through the loop, to the flush or to the byte without a code. -/
theorem encodeEmitsThePayload : Obligations.EncodeEmitsThePayload := by
  refine ⟨fun s herr hwopen => issue_raised herr (encodeBody_free (s := clearResultFlags s) hwopen),
    fun s bytes herr hwopen hn hlen hbuf => ⟨fun codeOf hcode => ?packed,
      fun b rest hbytes hb => exec_encode_first_noCode herr hwopen hlen hbuf hbytes hb,
      fun codeOf before rest b hbytes hcode hb => ?refused⟩⟩
  case packed =>
    obtain ⟨wbuf, ht⟩ := exec_encode_packs herr hwopen hlen hbuf hn hcode
    exact ⟨_, ht, rfl, rfl, rfl, hwopen, rfl⟩
  case refused =>
    obtain ⟨t, ht, hwritten⟩ := exec_encode_noCode herr hwopen hlen hbuf hn hbytes hcode hb
    obtain ⟨wbuf, wcnt, rfl, hwhole, hpending⟩ := hwritten.whole
    rw [State.putBytes, hwhole] at ht hpending
    exact ⟨⟨wbuf, wcnt, s.wr.wopen, _⟩, hwopen, rfl, hpending, ht⟩

end Sys2Proof.Machine
end

section
/-! PROOFS. The empty input (R235): `COMPRESS` writes a header without pairs and nothing after it, and `DECOMPRESS` of
that header writes nothing. -/

namespace Sys2Proof.Machine

variable {s t u : State}

theorem presentPairs_countsOf_nil : presentPairs (countsOf []) = [] :=
  List.eq_nil_iff_forall_not_mem.2 fun _ he => by
    obtain ⟨hsym, hread, hne⟩ := mem_presentPairs.1 he
    exact hne (Option.some.inj (hread.symm.trans (read_countsOf [] hsym)))

/-! ### `COMPRESS` -/

/-- `BUILDTREE` over the counts of no bytes gives no tree (R183). -/
theorem exec_buildtree_empty (herr : s.reg.err = false)
    (hfreq : ∀ i, i < 256 → s.tab.freq.read i = (countsOf []).read i) :
    ∃ t, exec .buildtree s = .next t ∧ Built (clearResultFlags s) [] t ∧ t.ctr.root = NONE ∧
      t.reg.result = 0x000001FF#32 := by
  have hfilled : s.tab.freq.filled 256 = true :=
    (Memory.filled_iff ..).2 fun i hi => ⟨_, (hfreq i hi).trans (read_countsOf [] hi)⟩
  obtain ⟨t, ht, hbuilt⟩ := exec_buildtree_of_filled herr hfilled
  rw [presentPairs_congr hfreq, presentPairs_countsOf_nil] at hbuilt
  obtain ⟨hroot, -⟩ := hbuilt.none rfl
  refine ⟨t, ht, hbuilt, hroot, ?_⟩
  rw [hbuilt.reg, hroot]
  rfl

/-- `ENCODE` of no bytes on a byte boundary writes nothing (R232). -/
theorem exec_encode_nothing (herr : s.reg.err = false) (hwopen : s.wr.wopen = true) (hwcnt : s.wr.wcnt = 0#3)
    (hinlen : s.ctr.inlen.toNat = 0) : exec .encode s = .next (clearResultFlags s) := by
  refine issue_ok herr ?_
  rw [encodeBody_held (s := clearResultFlags s) (bytes := []) hwopen hinlen.symm]
  exact flushBits_boundary hwcnt

theorem exec_wclose_boundary (herr : s.reg.err = false) (hwopen : s.wr.wopen = true) (hwcnt : s.wr.wcnt = 0#3) :
    exec .wclose s = .next (releaseSink (clearResultFlags s)) :=
  issue_ok herr (wcloseBody_of_flushed (s := clearResultFlags s) hwopen (flushBits_boundary hwcnt))

/-- `WOPEN`, `WRHDR`, `ENCODE` and `WCLOSE` write the header of no bytes (R231). -/
theorem exec_write_empty (h : InputKept s [] t) (hwopen : s.wr.wopen = false) :
    ∃ t₁ t₂ t₃ t₄, exec .wopen t = .next t₁ ∧ exec .wrhdr t₁ = .next t₂ ∧ exec .encode t₂ = .next t₃ ∧
      exec .wclose t₃ = .next t₄ ∧ t₄.env.snk = s.env.snk ++ headerText 0 [] ∧ t₄.wr.snkCnt = 37#64 ∧
      t₄.reg.err = false ∧ t₄.reg.result = t.reg.result ∧ t₄.tab = t.tab ∧
      { t₄.ctr with nsym := t.ctr.nsym } = t.ctr := by
  have h₁ : exec .wopen t = .next _ := issue_ok h.noError
    (wopenBody_acquires (s := clearResultFlags t) (h.wr ▸ hwopen) (not_fails_of_noFailure h.noFailure))
  have hn₁ := noFailure_drop (t := (clearResultFlags t).useDraw) h.noFailure 1 List.drop_one.symm
  have h₂ := exec_wrhdr_emits (s := (clearResultFlags t).useDraw.setWr ⟨0#8, 0#3, true, 0#64⟩) h.noError rfl rfl hn₁
    (show t.tab.freq.filled 256 = true from h.freq ▸ countsOf_filled [])
  have hheader : headerText t.ctr.osize.toNat (presentPairs t.tab.freq) = headerText 0 [] := by
    rw [h.osize, h.freq, presentPairs_countsOf_nil, List.length_nil]
  refine ⟨_, _, _, _, h₁, h₂, exec_encode_nothing h.noError rfl rfl h.inlen,
    exec_wclose_boundary h.noError rfl rfl, ?_, ?_, h.noError, rfl, rfl, rfl⟩
  · exact congrArg₂ (· ++ ·) h.snk hheader
  · have hcount : 0#64 + BitVec.ofNat 64 (headerText 0 []).length = 37#64 := by decide
    rwa [← hheader] at hcount

/-- `COMPRESS` of no bytes writes the header alone (R235). -/
theorem exec_compress_empty (hs : s.idle = true) (hn : s.noFailure = true) (hwf : s.par.wf = true)
    (hleft : s.srcLeft = []) :
    ∃ t, exec .compress s = .next t ∧ t.env.snk = s.env.snk ++ headerText 0 [] ∧ t.ctr.root = NONE ∧
      t.tab.freq = Memory.fill 256 0#32 ∧ t.tab.code = Memory.fill 256 [] ∧ t.ctr.osize = 0#32 ∧
      t.wr.snkCnt = 37#64 ∧ t.reg.err = false ∧ t.reg.result = 0x000001FF#32 := by
  obtain ⟨-, -, hwopen⟩ := idle_iff.1 hs
  obtain ⟨t₁, t₂, t₃, h₁, h₂, h₃, hkept, -⟩ := exec_keep_input hs hn hwf (hleft ▸ Nat.zero_le _)
  rw [hleft] at hkept
  obtain ⟨t₄, h₄, hbuilt, hroot, hresult⟩ := exec_buildtree_empty hkept.noError fun _ _ => by rw [hkept.freq]
  have hkept₄ := hkept.buildtree hbuilt
  have h₅ : exec .buildcodes t₄ = .next (clearCodes (clearResultFlags t₄)) :=
    issue_ok hkept₄.noError (buildcodesBody_none (s := clearResultFlags t₄) hroot)
  obtain ⟨t₆, t₇, t₈, t₉, h₆, h₇, h₈, h₉, hsnk, hcnt, herr, hresult₉, htab, hctr⟩ :=
    exec_write_empty (hkept₄.buildcodes h₅ hkept₄.noError) hwopen
  obtain ⟨-, hcompress⟩ := compositesAreTheirParts
  refine ⟨_, hcompress s t₁ t₂ t₃ t₄ _ t₆ t₇ t₈ t₉ hs h₁ h₂ h₃ h₄ h₅ h₆ h₇ h₈ h₉ herr, hsnk, ?_, ?_, ?_, ?_, hcnt, herr,
    hresult₉.trans hresult⟩
  · exact (congrArg Counters.root hctr).trans hroot
  · exact (congrArg Tables.freq htab).trans hkept₄.freq
  · exact congrArg Tables.code htab
  · exact (congrArg Counters.osize hctr).trans (BitVec.eq_of_toNat_eq hkept₄.osize)

/-! ### `DECOMPRESS` -/

/-- `BUILDTREE` and `WALK` after the header of no bytes emit none (R203). -/
theorem exec_decode_empty {codeOf : Byte → Code} (h : HeaderRead u [] codeOf t)
    (hfreq : ∀ i, i < 256 → t.tab.freq.read i = (countsOf []).read i) :
    ∃ t₁ t₂, exec .buildtree t = .next t₁ ∧ exec .walk t₁ = .next t₂ ∧ t₂.reg.err = false ∧ t₂.rd.ropen = true ∧
      t₂.wr.wopen = true ∧ t₂.wr.wcnt = 0#3 ∧ t₂.env.snk = u.env.snk ∧ t₂.ctr.decoded = 0#32 ∧
      t₂.ctr.osize = 0#32 ∧ t₂.reg.result = 0#32 := by
  obtain ⟨t₁, h₁, hbuilt, hroot, -⟩ := exec_buildtree_empty h.noError hfreq
  have herr := hbuilt.err.trans h.noError
  have hropen := (congrArg Reader.ropen hbuilt.frame.rd).trans h.ropen
  have hwopen := (congrArg Writer.wopen hbuilt.frame.wr).trans h.wopen
  have hwcnt := (congrArg Writer.wcnt hbuilt.frame.wr).trans h.wcnt
  obtain ⟨-, hwalk⟩ := walkWithoutTreeOrWithOneLeaf t₁ herr
  obtain ⟨hnone, -⟩ := hwalk hropen hwopen hwcnt
  exact ⟨t₁, _, h₁, hnone hroot, herr, hropen, hwopen, hwcnt, (congrArg Env.snk hbuilt.frame.env).trans h.snk, rfl,
    hbuilt.frame.osize.trans (BitVec.eq_of_toNat_eq h.osize), rfl⟩

/-- An operation that does not write `RESULT` leaves it (R35). -/
theorem result_of_exec {i : Instr} (h : exec i s = .next t) (hi : i ∉ .sreset :: resultWriters) :
    t.reg.result = s.reg.result := by
  obtain ⟨hsreset, hno⟩ := not_or.1 (mt List.mem_cons.2 hi)
  obtain ⟨-, -, hresult, -⟩ := onlyListedOperationsWriteResultAndFlags i s t h hsreset
  exact hresult hno

/-- `DECOMPRESS` of the header of no bytes writes nothing (R235). -/
theorem exec_decompress_empty (hs : s.idle = true) (hn : s.noFailure = true) (hwf : s.par.wf = true)
    (hleft : s.srcLeft = headerText 0 []) :
    ∃ t, exec .decompress s = .next t ∧ t.env.snk = s.env.snk ∧ t.ctr.decoded = 0#32 ∧ t.ctr.osize = 0#32 ∧
      t.reg.err = false ∧ t.reg.result = 0#32 := by
  have hartifact : s.srcLeft = artifactOf [] fun _ => [] := by
    rw [hleft, artifactOf, presentPairs_countsOf_nil]
    rfl
  obtain ⟨t₁, t₂, t₃, h₁, h₂, h₃, hread, -, hfreq⟩ := exec_read_header hs hn hwf (Nat.zero_le _) hartifact
  obtain ⟨t₄, t₅, h₄, h₅, herr, hropen, hwopen, hwcnt, hsnk, hdecoded, hosize, hresult⟩ := exec_decode_empty hread hfreq
  obtain ⟨t₆, t₇, h₆, h₇, herr₇, hctr, henv⟩ := exec_release_streams herr hropen hwopen hwcnt
  have hresult₇ := (result_of_exec h₇ (by decide)).trans (result_of_exec h₆ (by decide))
  obtain ⟨hdecompress, -⟩ := compositesAreTheirParts
  refine ⟨_, hdecompress s t₁ t₂ t₃ t₄ t₅ t₆ t₇ hs h₁ h₂ h₃ h₄ h₅ h₆ h₇ herr₇, ?_, ?_, ?_, herr₇,
    hresult₇.trans hresult⟩
  · exact (congrArg Env.snk henv).trans hsnk
  · exact (congrArg Counters.decoded hctr).trans hdecoded
  · exact (congrArg Counters.osize hctr).trans hosize

/-- Settles O41: with no bytes there are no counts, no tree and no payload. -/
theorem emptyInputRoundTrips : Obligations.EmptyInputRoundTrips := fun _ hs hn hwf =>
  ⟨exec_compress_empty hs hn hwf, exec_decompress_empty hs hn hwf⟩

end Sys2Proof.Machine
end

section
/-! PROOFS. The issue of a command (R90, R254, R290): a step without an event, one that issues a word that decodes, what
an error pending drops, and the operations the prelude's check does not hold back (R250 to R252). -/

namespace Sys2Proof.Machine

variable {s : State} {w : CmdWord} {i : Instr}

/-! ### The step -/

/-- With no event left the block waits (R290). -/
theorem step_waits (h : s.env.script = []) : step s = .next s := by rw [step, h]

/-- A word that decodes to an operation runs it with `CMD` holding the code (R35, R254). -/
theorem runCommand_decoded (h : decode w = .ok i) :
    runCommand w s = mapNext (·.setCmd 0#8) (exec i (s.setCmd (cmdOp w))) := by rw [runCommand, h]

/-- Settles O3: either form issues the word, and a word that decodes runs its operation. -/
theorem stepRunsTheDecodedCommand : Obligations.StepRunsTheDecodedCommand := by
  refine ⟨fun s w v rest i hd => ⟨fun hs => ?_, fun hs hw => ?_⟩, fun _ => step_waits⟩
  · exact (step_issues (v := v) (.inl hs)).trans (runCommand_decoded hd)
  · exact (step_issues (.inr ⟨hs, hw⟩)).trans (runCommand_decoded hd)

/-! ### An error pending -/

/-- Every operation but `NOP`, `CLRERR` and `SRESET` is the prelude and then pseudocode of its own, `ARG` having been
written first where it takes an operand (R253, R254). -/
theorem exec_eq_issue (hnop : i ≠ .nop) (hclrerr : i ≠ .clrerr) (hsreset : i ≠ .sreset) :
    ∃ body, ∀ s, exec i s = issue body (s.setArg ((operand? i).getD s.reg.arg)) := by
  cases i
  case nop => exact absurd rfl hnop
  case clrerr => exact absurd rfl hclrerr
  case sreset => exact absurd rfl hsreset
  all_goals exact ⟨_, fun _ => rfl⟩

/-- Settles O5: the prelude drops what is issued, after `ARG` is written. -/
theorem pendingErrorDropsOperations : Obligations.PendingErrorDropsOperations := by
  intro i s herr hnop hclrerr hsreset
  obtain ⟨body, hissue⟩ := exec_eq_issue hnop hclrerr hsreset
  exact (hissue s).trans (issue_dropped herr)

/-! ### `NOP`, `CLRERR` and `SRESET` -/

/-- Settles O6: the three have no check for a pending error, so each next state is the one its rule writes out. -/
theorem systemOperationsDoAsRuled : Obligations.SystemOperationsDoAsRuled :=
  ⟨rfl, rfl, rfl, fun _ => ⟨rfl, rfl, rfl⟩⟩

end Sys2Proof.Machine
end

section
/-! PROOFS. The errors a piece of pseudocode can raise (R260, column "raised by"): an access to a stream or its
acquisition raises `IoFailure` and nothing else, reading a table raises nothing, so the errors of an operation are
those its own pseudocode names and those of the pieces it runs. -/

namespace Sys2Proof.Machine

variable {α β : Type} {s t : State} {es : List ErrCode}

/-- A piece of pseudocode that raises no error outside a list. -/
def Res.RaisesOnly (es : List ErrCode) : Res α → Prop
  | .ok _ _ => True
  | .raised e _ => e ∈ es
  | .stop _ => True

theorem Res.RaisesOnly.of_raised {r : Res α} {e : ErrCode} (hr : r.RaisesOnly es) (h : r = .raised e t) : e ∈ es := by
  rwa [h] at hr

theorem Res.RaisesOnly.andThen {r : Res α} {k : α → State → Res β} (hr : r.RaisesOnly es)
    (hk : ∀ a t, (k a t).RaisesOnly es) : (r.andThen k).RaisesOnly es := by
  cases r with
  | ok a t => exact hk a t
  | raised e t => exact hr
  | stop f => trivial

/-- What is computed from the tables raises nothing. -/
theorem Res.RaisesOnly.lift_andThen {r : Except Fault α} {k : α → State → Res β}
    (hk : ∀ a t, (k a t).RaisesOnly es) : ((Res.lift r s).andThen k).RaisesOnly es := by
  cases r with
  | ok a => exact hk a s
  | error f => trivial

/-! ### Streams and bits -/

section
variable (hio : .ioFailure ∈ es)
include hio

theorem srcRead_raises : (srcRead s).RaisesOnly es := by
  rcases srcRead_cases s with ⟨_, -, -, hr⟩ | ⟨-, -, hr⟩ | ⟨-, hr⟩ <;> rw [hr]
  exacts [trivial, trivial, hio]

theorem snkWrite_raises (b : Byte) : (snkWrite b s).RaisesOnly es := by
  rcases snkWrite_cases b s with ⟨-, hr⟩ | ⟨-, hr⟩ <;> rw [hr]
  exacts [trivial, hio]

theorem acquire_raises : (acquire s).RaisesOnly es := by
  rcases acquire_cases s with ⟨-, hr⟩ | ⟨-, hr⟩ <;> rw [hr]
  exacts [trivial, hio]

theorem readBit_raises : (readBit s).RaisesOnly es := by
  rcases readBit_cases s with ⟨-, hr⟩ | ⟨-, -, _, -, hr⟩ | ⟨-, -, -, hr⟩ | ⟨-, -, hr⟩ <;> rw [hr]
  exacts [trivial, trivial, trivial, hio]

theorem writeBit_raises (b : Bool) : (writeBit b s).RaisesOnly es := by
  rcases writeBit_cases b s with ⟨-, hr⟩ | ⟨-, hr⟩ <;> rw [hr]
  exacts [trivial, snkWrite_raises hio _]

theorem flushBits_raises : (flushBits s).RaisesOnly es := by
  rcases flushBits_cases s with ⟨-, hr⟩ | ⟨-, hr⟩ <;> rw [hr]
  exacts [trivial, snkWrite_raises hio _]

theorem emit_raises (bytes : List Byte) : (emit bytes s).RaisesOnly es := by
  induction bytes generalizing s with
  | nil => trivial
  | cons b bytes ih => exact (snkWrite_raises hio b).andThen fun _ _ => ih

theorem writeBits_raises (bits : List Bool) : (writeBits bits s).RaisesOnly es := by
  induction bits generalizing s with
  | nil => trivial
  | cons b bits ih => exact (writeBit_raises hio b).andThen fun _ _ => ih

theorem readBytes_raises (k : Nat) (v : HostWord) : (readBytes k v s).RaisesOnly es := by
  induction k generalizing v s with
  | zero => trivial
  | succ k ih =>
    refine (srcRead_raises hio).andThen fun r t => ?_
    cases r with
    | none => trivial
    | some b => exact ih _

theorem emitRepeat_raises (k : Nat) (b : Byte) : (emitRepeat k b s).RaisesOnly es := by
  induction k generalizing s with
  | zero => trivial
  | succ k ih => exact (snkWrite_raises hio b).andThen fun _ _ => ih

end

/-! ### Operations that need a stream held or free -/

theorem rcloseBody_raises (hst : .illegalState ∈ es) : (rcloseBody s).RaisesOnly es := by
  unfold rcloseBody
  split
  exacts [trivial, hst]

section
variable (hio : .ioFailure ∈ es) (hst : .illegalState ∈ es)
include hio hst

theorem ropenBody_raises : (ropenBody s).RaisesOnly es := by
  unfold ropenBody
  split
  exacts [hst, (acquire_raises hio).andThen fun _ _ => trivial]

theorem wopenBody_raises : (wopenBody s).RaisesOnly es := by
  unfold wopenBody
  split
  exacts [hst, (acquire_raises hio).andThen fun _ _ => trivial]

theorem wcloseBody_raises : (wcloseBody s).RaisesOnly es := by
  rcases wcloseBody_cases s with ⟨-, hr⟩ | ⟨-, _, -, -, -, -, -, -, -, hr | hr⟩ <;> rw [hr]
  exacts [hst, trivial, hio]

theorem rdbitBody_raises : (rdbitBody s).RaisesOnly es := by
  unfold rdbitBody
  split
  · refine (readBit_raises hio).andThen fun r _ => ?_
    cases r <;> trivial
  · exact hst

theorem rdbyteBody_raises : (rdbyteBody s).RaisesOnly es := by
  unfold rdbyteBody
  split
  · refine (srcRead_raises hio).andThen fun r _ => ?_
    cases r <;> trivial
  · exact hst

theorem rdintBody_raises : (rdintBody s).RaisesOnly es := by
  unfold rdintBody
  split
  · refine (readBytes_raises hio 4 _).andThen fun r _ => ?_
    cases r <;> trivial
  · exact hst

theorem wrbitBody_raises (harg : .invalidArgument ∈ es) : (wrbitBody s).RaisesOnly es := by
  unfold wrbitBody
  split
  · split
    exacts [writeBit_raises hio _, harg]
  · exact hst

theorem wrbyteBody_raises (harg : .invalidArgument ∈ es) : (wrbyteBody s).RaisesOnly es := by
  unfold wrbyteBody
  split
  · split
    exacts [snkWrite_raises hio _, harg]
  · exact hst

theorem wrintBody_raises : (wrintBody s).RaisesOnly es := by
  unfold wrintBody
  split
  exacts [emit_raises hio _, hst]

theorem flushBody_raises : (flushBody s).RaisesOnly es := by
  unfold flushBody
  split
  exacts [flushBits_raises hio, hst]

end

/-! ### The queue and the tree -/

theorem pqinsBody_raises (harg : .invalidArgument ∈ es) (hst : .illegalState ∈ es) : (pqinsBody s).RaisesOnly es := by
  unfold pqinsBody
  split
  · exact hst
  · split
    exacts [.lift_andThen fun _ _ => trivial, harg]

theorem pqdelminBody_raises : (pqdelminBody s).RaisesOnly es := by
  unfold pqdelminBody
  split
  exacts [trivial, .lift_andThen fun _ _ => trivial]

theorem buildtreeBody_raises : (buildtreeBody s).RaisesOnly es := .lift_andThen fun _ _ => trivial

theorem visit_raises (hst : .illegalState ∈ es) (edges : Nat) (id : NodeId) (path : Code) :
    (visit edges id path s).RaisesOnly es := by
  induction edges generalizing id path s with
  | zero =>
    unfold visit
    refine .lift_andThen fun n _ => ?_
    cases n.kind
    exacts [hst, trivial]
  | succ k ih =>
    unfold visit
    refine .lift_andThen fun n _ => ?_
    cases n.kind
    case leaf => trivial
    case internal =>
      dsimp only
      split
      · exact hst
      · refine (ih _ _).andThen fun _ _ => ?_
        split
        exacts [hst, ih _ _]

theorem buildcodesBody_raises (hst : .illegalState ∈ es) : (buildcodesBody s).RaisesOnly es := by
  unfold buildcodesBody
  dsimp only
  split
  · trivial
  · refine .lift_andThen fun n _ => ?_
    cases n.kind
    exacts [visit_raises hst _ _ _, trivial]

/-! ### `PARSEHDR` -/

theorem processLine_raises (hparse : .parseError ∈ es) (line : List Byte) : (processLine line s).RaisesOnly es := by
  unfold processLine
  split
  · trivial
  · trivial
  · split
    exacts [trivial, hparse]
  · split
    exacts [trivial, hparse]
  · split
    exacts [trivial, hparse]

section
variable (hio : .ioFailure ∈ es) (hhdr : .malformedHeader ∈ es) (hparse : .parseError ∈ es)
include hio hhdr hparse

theorem headerLoop_raises (k : Nat) (line : List Byte) : (headerLoop k line s).RaisesOnly es := by
  induction k generalizing line s with
  | zero => trivial
  | succ k ih =>
    refine (srcRead_raises hio).andThen fun r t => ?_
    cases r with
    | none =>
      refine (processLine_raises hparse line).andThen fun done u => ?_
      cases done
      exacts [hhdr, trivial]
    | some b =>
      dsimp only
      split
      · refine (processLine_raises hparse line).andThen fun done u => ?_
        cases done
        exacts [ih _, trivial]
      · exact ih _

theorem parsehdrBody_raises (hst : .illegalState ∈ es) : (parsehdrBody s).RaisesOnly es := by
  unfold parsehdrBody
  split
  exacts [headerLoop_raises hio hhdr hparse _ _, hst]

end

/-! ### `WALK` and the compress operations -/

theorem countByte_raises (hst : .illegalState ∈ es) (b : Byte) : (countByte b s).RaisesOnly es := by
  unfold countByte
  split
  exacts [hst, .lift_andThen fun _ _ => trivial]

section
variable (hio : .ioFailure ∈ es) (hst : .illegalState ∈ es)
include hio hst

theorem walkStep_raises (b : Bool) : (walkStep b s).RaisesOnly es := by
  rcases walkStep_cases b s with ⟨_, hr⟩ | ⟨_, -, ⟨-, hr⟩ | ⟨m, -, ⟨-, hr⟩ | ⟨-, hr⟩⟩⟩ <;> rw [hr]
  exacts [trivial, hst, trivial, (snkWrite_raises hio m.symbol).andThen fun _ _ => trivial]

theorem walkLoop_raises (k : Nat) : (walkLoop k s).RaisesOnly es := by
  induction k generalizing s with
  | zero => trivial
  | succ k ih =>
    unfold walkLoop
    split
    · refine (readBit_raises hio).andThen fun r _ => ?_
      cases r with
      | none => trivial
      | some b => exact (walkStep_raises hio hst b).andThen fun _ _ => ih
    · trivial

theorem walkBody_raises : (walkBody s).RaisesOnly es := by
  unfold walkBody
  split
  case isFalse => exact hst
  case isTrue =>
    dsimp only
    split
    · trivial
    · refine .lift_andThen fun n _ => ?_
      refine Res.RaisesOnly.andThen ?_ fun _ _ => trivial
      cases n.kind
      exacts [walkLoop_raises hio hst _, emitRepeat_raises hio _ _]

theorem countLoop_raises (k : Nat) : (countLoop k s).RaisesOnly es := by
  induction k generalizing s with
  | zero => trivial
  | succ k ih =>
    refine (srcRead_raises hio).andThen fun r _ => ?_
    cases r with
    | none => trivial
    | some b => exact (countByte_raises hst b).andThen fun _ _ => ih

theorem countfreqBody_raises : (countfreqBody s).RaisesOnly es := by
  unfold countfreqBody
  split
  exacts [(countLoop_raises hio hst _).andThen fun _ _ => .lift_andThen fun _ _ => trivial, hst]

theorem wrhdrBody_raises : (wrhdrBody s).RaisesOnly es := by
  unfold wrhdrBody
  split
  exacts [.lift_andThen fun _ _ => emit_raises hio _, hst]

theorem encodeByte_raises (b : Byte) : (encodeByte b s).RaisesOnly es := by
  refine .lift_andThen fun code _ => ?_
  split
  exacts [hst, writeBits_raises hio code]

theorem encodeLoop_raises (k i : Nat) : (encodeLoop k i s).RaisesOnly es := by
  induction k generalizing i s with
  | zero => trivial
  | succ k ih => exact .lift_andThen fun b _ => (encodeByte_raises hio hst b).andThen fun _ _ => ih _

theorem encodeBody_raises : (encodeBody s).RaisesOnly es := by
  unfold encodeBody
  split
  exacts [(encodeLoop_raises hio hst _ _).andThen fun _ _ => flushBits_raises hio, hst]

end

/-! ### Composites -/

theorem runParts_raises {parts : List (State → Res Unit)} (hp : ∀ part ∈ parts, ∀ u, (part u).RaisesOnly es) :
    (runParts parts s).RaisesOnly es := by
  induction parts generalizing s with
  | nil => trivial
  | cons part parts ih =>
    exact (hp part List.mem_cons_self s).andThen fun _ _ => ih fun q hq => hp q (List.mem_cons_of_mem _ hq)

/-- A composite raises what its parts raise, the error of a closing flush not being recorded, and `IllegalState` where
a stream is held (R206). -/
theorem composite_raises {parts : List (State → Res Unit)} (hst : .illegalState ∈ es)
    (hp : ∀ part ∈ parts, ∀ u, (part u).RaisesOnly es) : (composite parts s).RaisesOnly es := by
  have hrun : (runParts parts s).RaisesOnly es := runParts_raises hp
  rcases composite_cases parts s with ⟨-, hc⟩ | ⟨-, -, ⟨t, -, hc⟩ | ⟨e, t, u, ht, -, hc⟩ | ⟨f, -, hc⟩⟩ <;> rw [hc]
  · exact hst
  · trivial
  · rwa [ht] at hrun
  · trivial

section
variable (hio : .ioFailure ∈ es) (hst : .illegalState ∈ es)
include hio hst

theorem decompressBody_raises (hhdr : .malformedHeader ∈ es) (hparse : .parseError ∈ es) :
    (decompressBody s).RaisesOnly es := by
  refine composite_raises hst fun part hpart u => ?_
  simp only [decompressParts, List.mem_cons, List.not_mem_nil, or_false] at hpart
  rcases hpart with rfl | rfl | rfl | rfl | rfl | rfl | rfl
  exacts [ropenBody_raises hio hst, wopenBody_raises hio hst, parsehdrBody_raises hio hhdr hparse hst,
    buildtreeBody_raises, walkBody_raises hio hst, wcloseBody_raises hio hst, rcloseBody_raises hst]

theorem compressBody_raises : (compressBody s).RaisesOnly es := by
  refine composite_raises hst fun part hpart u => ?_
  simp only [compressParts, List.mem_cons, List.not_mem_nil, or_false] at hpart
  rcases hpart with rfl | rfl | rfl | rfl | rfl | rfl | rfl | rfl | rfl
  exacts [ropenBody_raises hio hst, countfreqBody_raises hio hst, rcloseBody_raises hst, buildtreeBody_raises,
    buildcodesBody_raises hst, wopenBody_raises hio hst, wrhdrBody_raises hio hst, encodeBody_raises hio hst,
    wcloseBody_raises hio hst]

end

/-! ### Operations -/

/-- No error is pending. -/
def NoError (r : Regs) : Prop := r.err = false

/-- An operation that began with no error pending and leaves one has raised it, its pseudocode not writing the error
state itself (R269). -/
theorem issue_erred {body : State → Res Unit} (herr : s.reg.err = false)
    (hregs : ∀ {u : State}, NoError u.reg → (body u).Leaves (NoError ·.reg)) (hr : issue body s = .next t)
    (ht : t.reg.err = true) : ∃ e u, body (clearResultFlags s) = .raised e u ∧ t = raiseError e u := by
  rcases issue_next hr with ⟨hs, -⟩ | ⟨-, u, hu, rfl⟩ | ⟨-, hraised⟩
  · exact absurd (herr.symm.trans hs) Bool.false_ne_true
  · have hleaves : (body (clearResultFlags s)).Leaves (NoError ·.reg) := hregs herr
    rw [hu] at hleaves
    exact absurd (hleaves.symm.trans ht) Bool.false_ne_true
  · exact hraised

/-- An operation that begins with no error pending records only what its pseudocode raises (R260, R269). -/
theorem issue_records {body : State → Res Unit} (herr : s.reg.err = false)
    (hregs : ∀ {u : State}, NoError u.reg → (body u).Leaves (NoError ·.reg)) (hbody : ∀ {u}, (body u).RaisesOnly es)
    (hr : issue body s = .next t) (ht : t.reg.err = true) : ∃ e ∈ es, t.reg.errcode = e.code := by
  obtain ⟨e, u, hraised, rfl⟩ := issue_erred herr hregs hr ht
  exact ⟨e, hbody.of_raised hraised, rfl⟩

/-- Settles O47: the pseudocode of an operation does not write the error state itself and raises only the errors of its
row; the operations without pseudocode record none. -/
theorem operationsRaiseOnlyTheirErrors : Obligations.OperationsRaiseOnlyTheirErrors := by
  intro i s t herr hr ht
  have hresult : IgnoresResult NoError := fun _ _ => id
  have heos : IgnoresEos NoError := fun _ => id
  have hempty : IgnoresEmpty NoError := fun _ => id
  cases i with
  | nop => exact absurd (herr.symm.trans (Host.Outcome.next.inj hr ▸ ht)) Bool.false_ne_true
  | clrerr => exact absurd (Host.Outcome.next.inj hr ▸ ht : (acknowledge _).reg.err = true) Bool.false_ne_true
  | sreset => exact absurd (Host.Outcome.next.inj hr ▸ ht : (softReset _).reg.err = true) Bool.false_ne_true
  | ropen => exact issue_records herr ropenBody_regs (ropenBody_raises (by decide) (by decide)) hr ht
  | rclose => exact issue_records herr rcloseBody_regs (rcloseBody_raises (by decide)) hr ht
  | rdbit => exact issue_records herr (rdbitBody_regs hresult heos) (rdbitBody_raises (by decide) (by decide)) hr ht
  | rdbyte =>
    exact issue_records herr (rdbyteBody_regs hresult heos) (rdbyteBody_raises (by decide) (by decide)) hr ht
  | rdint => exact issue_records herr (rdintBody_regs hresult heos) (rdintBody_raises (by decide) (by decide)) hr ht
  | wopen => exact issue_records herr wopenBody_regs (wopenBody_raises (by decide) (by decide)) hr ht
  | wclose => exact issue_records herr wcloseBody_regs (wcloseBody_raises (by decide) (by decide)) hr ht
  | wrbit arg =>
    refine issue_records (s := s.setArg arg) herr wrbitBody_regs (wrbitBody_raises ?_ ?_ ?_) hr ht <;> simp [raisable]
  | wrbyte arg =>
    refine issue_records (s := s.setArg arg) herr wrbyteBody_regs (wrbyteBody_raises ?_ ?_ ?_) hr ht <;> simp [raisable]
  | wrint arg =>
    refine issue_records (s := s.setArg arg) herr wrintBody_regs (wrintBody_raises ?_ ?_) hr ht <;> simp [raisable]
  | flush => exact issue_records herr flushBody_regs (flushBody_raises (by decide) (by decide)) hr ht
  | pqclr => exact issue_records (body := pqclrBody) herr id trivial hr ht
  | pqins arg =>
    refine issue_records (s := s.setArg arg) herr pqinsBody_regs (pqinsBody_raises ?_ ?_) hr ht <;> simp [raisable]
  | pqdelmin => exact issue_records herr (pqdelminBody_regs hresult hempty) pqdelminBody_raises hr ht
  | pqsize => exact issue_records (body := pqsizeBody) herr id trivial hr ht
  | pqempty => exact issue_records (body := pqemptyBody) herr id trivial hr ht
  | buildtree => exact issue_records herr (buildtreeBody_regs hresult) buildtreeBody_raises hr ht
  | buildcodes => exact issue_records herr buildcodesBody_regs (buildcodesBody_raises (by decide)) hr ht
  | parsehdr =>
    exact issue_records herr (parsehdrBody_regs heos)
      (parsehdrBody_raises (by decide) (by decide) (by decide) (by decide)) hr ht
  | walk => exact issue_records herr (walkBody_regs hresult heos) (walkBody_raises (by decide) (by decide)) hr ht
  | decompress =>
    exact issue_records herr (decompressBody_regs hresult heos)
      (decompressBody_raises (by decide) (by decide) (by decide) (by decide)) hr ht
  | countfreq =>
    exact issue_records herr (countfreqBody_regs heos) (countfreqBody_raises (by decide) (by decide)) hr ht
  | wrhdr => exact issue_records herr wrhdrBody_regs (wrhdrBody_raises (by decide) (by decide)) hr ht
  | encode => exact issue_records herr encodeBody_regs (encodeBody_raises (by decide) (by decide)) hr ht
  | compress =>
    exact issue_records herr (compressBody_regs hresult heos) (compressBody_raises (by decide) (by decide)) hr ht

end Sys2Proof.Machine
end

section
/-! PROOFS. A `DECOMPRESS` that fails on the header (R206, R262): only `PARSEHDR` raises the two header errors. It
writes neither the sink nor the decoded count, and `WOPEN` has emptied the bit buffer, so the closing flush writes
nothing. -/

namespace Sys2Proof.Machine

variable {s t : State} {e : ErrCode}

/-- What the parts of `DECOMPRESS` up to the header leave: the payload not begun, no bit pending. -/
structure PayloadUnbegun (s t : State) : Prop where
  snk     : t.env.snk = s.env.snk
  decoded : t.ctr.decoded = s.ctr.decoded
  result  : t.reg.result = s.reg.result
  wcnt    : t.wr.wcnt = 0#3

theorem runParts_cons_raised {p : State → Res Unit} {ps : List (State → Res Unit)}
    (h : runParts (p :: ps) s = .raised e t) :
    p s = .raised e t ∨ ∃ u, p s = .ok () u ∧ runParts ps u = .raised e t := by
  rw [runParts_cons] at h
  cases hp : p s with
  | ok a u => exact .inr ⟨u, rfl, by rwa [hp] at h⟩
  | raised e' u => exact .inl (by rwa [hp] at h)
  | stop f => simp [hp] at h

theorem ropenBody_ok (h : ropenBody s = .ok () t) :
    t = s.useDraw.setRd { rbuf := 0#8, rcnt := 0#4, ropen := true } := by
  unfold ropenBody at h
  split at h
  · exact nomatch h
  · rcases acquire_cases s with ⟨-, hr⟩ | ⟨-, hr⟩ <;> rw [hr] at h
    · exact ((Res.ok.injEq ..).mp h).2.symm
    · exact nomatch h

theorem wopenBody_ok (h : wopenBody s = .ok () t) :
    t = s.useDraw.setWr { wbuf := 0#8, wcnt := 0#3, wopen := true, snkCnt := 0#64 } := by
  unfold wopenBody at h
  split at h
  · exact nomatch h
  · rcases acquire_cases s with ⟨-, hr⟩ | ⟨-, hr⟩ <;> rw [hr] at h
    · exact ((Res.ok.injEq ..).mp h).2.symm
    · exact nomatch h

theorem Res.Leaves.and {α : Type} {r : Res α} {P Q : State → Prop} (hp : r.Leaves P) (hq : r.Leaves Q) :
    r.Leaves fun t => P t ∧ Q t := by
  cases r with
  | ok a t => exact ⟨hp, hq⟩
  | raised e t => exact ⟨hp, hq⟩
  | stop f => trivial

theorem parsehdrBody_payloadUnbegun (h : PayloadUnbegun s t) : (parsehdrBody t).Leaves (PayloadUnbegun s) := by
  have hparts : (parsehdrBody t).Leaves fun u =>
      u.env.snk = s.env.snk ∧ u.ctr.decoded = s.ctr.decoded ∧ u.wr.wcnt = 0#3 :=
    parsehdrBody_preserves (fun _ _ _ _ => id) (fun _ _ => id) (fun _ _ _ _ => id) ⟨h.snk, h.decoded, h.wcnt⟩
  have hresult : (parsehdrBody t).Leaves (·.reg.result = s.reg.result) :=
    parsehdrBody_regs (Q := fun r => r.result = s.reg.result) (fun _ => id) h.result
  exact (hparts.and hresult).mono fun _ ⟨⟨hsnk, hdecoded, hwcnt⟩, hresult⟩ => ⟨hsnk, hdecoded, hresult, hwcnt⟩

/-- An error of `DECOMPRESS` that is neither a stream's nor a precondition's is raised by `PARSEHDR` (R262). -/
theorem decompressParts_header_error (he : e ∉ [.ioFailure, .illegalState])
    (h : runParts decompressParts s = .raised e t) : PayloadUnbegun s t := by
  obtain h₁ | ⟨u₁, h₁, h⟩ := runParts_cons_raised h
  · exact absurd ((ropenBody_raises (by decide) (by decide)).of_raised h₁) he
  obtain h₂ | ⟨u₂, h₂, h⟩ := runParts_cons_raised h
  · exact absurd ((wopenBody_raises (by decide) (by decide)).of_raised h₂) he
  have hunbegun : PayloadUnbegun s u₂ := by
    rw [wopenBody_ok h₂, ropenBody_ok h₁]
    exact ⟨rfl, rfl, rfl, rfl⟩
  obtain h₃ | ⟨u₃, -, h⟩ := runParts_cons_raised h
  · have hleaves := parsehdrBody_payloadUnbegun hunbegun
    rwa [h₃] at hleaves
  · refine absurd (Res.RaisesOnly.of_raised (runParts_raises fun part hpart u => ?_) h) he
    simp only [List.mem_cons, List.not_mem_nil, or_false] at hpart
    rcases hpart with rfl | rfl | rfl | rfl
    exacts [buildtreeBody_raises, walkBody_raises (by decide) (by decide), wcloseBody_raises (by decide) (by decide),
      rcloseBody_raises (by decide)]

/-- The two header errors are no stream's and no precondition's (R260). -/
theorem not_mem_of_header_code (h : e.code = 2#4 ∨ e.code = 3#4) : e ∉ [.ioFailure, .illegalState] := by
  revert h
  cases e <;> decide

/-- A composite that was free to start raises what a part raised, and then releases what is held (R206). -/
theorem composite_raised_by_part {parts : List (State → Res Unit)} (hs : s.idle = true)
    (h : composite parts s = .raised e t) : ∃ u, runParts parts s = .raised e u ∧ releaseHeld u = .ok t := by
  rcases composite_cases parts s with ⟨hheld, -⟩ | ⟨-, -, ⟨v, -, hc⟩ | ⟨c, u, v, hu, hv, hc⟩ | ⟨f, -, hc⟩⟩
  · simp [idle_iff.1 hs] at hheld
  · exact nomatch hc.symm.trans h
  · obtain ⟨rfl, rfl⟩ := (Res.raised.injEq ..).mp (hc.symm.trans h)
    exact ⟨u, hu, hv⟩
  · exact nomatch hc.symm.trans h

/-- The releases of a composite leave what `WCLOSE` does, if it does not depend on the bit reader (R206). -/
theorem releaseHeld_preserves {P : State → Prop} (hrd : IgnoresReader P) (hclose : (wcloseBody s).Leaves P) (h : P s)
    (hr : releaseHeld s = .ok t) : P t := by
  have source : ∀ u, P u → (if u.rd.ropen then settled (rcloseBody u) else pure u) = .ok t → P t := by
    intro u hu hr
    split at hr
    · exact (rcloseBody_preserves hrd hu).settled hr
    · exact except_pure_ok.1 hr ▸ hu
  unfold releaseHeld at hr
  split at hr
  · obtain ⟨u, hu, hr⟩ := except_bind_ok.1 hr
    exact source u (hclose.settled hu) hr
  · exact source s h hr

/-- With no bit pending the closing flush of `WCLOSE` writes nothing (R136, R140). -/
theorem wcloseBody_env (hwcnt : s.wr.wcnt = 0#3) : (wcloseBody s).Leaves (·.env = s.env) := by
  cases hwopen : s.wr.wopen with
  | false => rw [wcloseBody_free hwopen]; rfl
  | true => rw [wcloseBody_of_flushed hwopen (flushBits_boundary hwcnt)]; rfl

/-- Settles O37: the error recorded is the one `PARSEHDR` raised, and what is held is released after it. -/
theorem headerErrorsAbortBeforePayload : Obligations.HeaderErrorsAbortBeforePayload := by
  intro s t hs hr hcode ht
  have herr := (idle_iff.1 hs).1
  obtain ⟨hropen, hwopen⟩ := (composite_frees decompressParts_free herr hr).1 hs
  obtain ⟨e, v, hraised, rfl⟩ : ∃ e v, decompressBody (clearResultFlags s) = .raised e v ∧ t = raiseError e v :=
    issue_erred herr (decompressBody_regs (fun _ _ => id) fun _ => id) hr ht
  obtain ⟨u, hu, hv⟩ := composite_raised_by_part (s := clearResultFlags s) hs hraised
  obtain ⟨hsnk, hdecoded, hresult, hwcnt⟩ := decompressParts_header_error (not_mem_of_header_code hcode) hu
  obtain ⟨v', hv', -, -, -, hctr, hreg, -⟩ := releaseHeld_ok u
  obtain rfl := Except.ok.inj (hv.symm.trans hv')
  have henv : v.env = u.env := releaseHeld_preserves (fun _ _ => id) (wcloseBody_env hwcnt) rfl hv
  refine ⟨?_, ?_, ?_, hropen, hwopen⟩
  · exact (congrArg Env.snk henv).trans hsnk
  · exact (congrArg Counters.decoded hctr).trans hdecoded
  · exact (congrArg Regs.result hreg).trans hresult

end Sys2Proof.Machine
end

section
/-! PROOFS. Every operation ends (R302): a stream access never stops the machine, a table read stops it at an unwritten
entry or at `NONE`, and the three loops with a bound run over a source that each turn shortens, so none meets its
bound. -/

namespace Sys2Proof.Machine

variable {α β : Type} {s t : State} {F : Fault → Prop}

/-! ### Where a piece of pseudocode stops -/

/-- A piece of pseudocode that stops the machine only by a fault of some kind. -/
def Res.StopsOnly (F : Fault → Prop) : Res α → Prop
  | .ok _ _ => True
  | .raised _ _ => True
  | .stop f => F f

theorem Res.StopsOnly.andThen {r : Res α} {k : α → State → Res β} (hr : r.StopsOnly F)
    (hk : ∀ a t, r = .ok a t → (k a t).StopsOnly F) : (r.andThen k).StopsOnly F := by
  cases r with
  | ok a t => exact hk a t rfl
  | raised e t => trivial
  | stop f => exact hr

/-- What is computed from the tables, and what is done with it. -/
theorem Res.StopsOnly.lift_andThen {x : Except Fault α} {k : α → State → Res β} (hx : ∀ f, x = .error f → F f)
    (hk : ∀ a, x = .ok a → (k a s).StopsOnly F) : ((Res.lift x s).andThen k).StopsOnly F := by
  cases x with
  | ok a => exact hk a rfl
  | error f => exact hx f rfl

/-! ### Streams and bits never stop the machine -/

theorem srcRead_stopsOnly : (srcRead s).StopsOnly F := by
  rcases srcRead_cases s with ⟨_, -, -, hr⟩ | ⟨-, -, hr⟩ | ⟨-, hr⟩ <;> rw [hr] <;> trivial

theorem snkWrite_stopsOnly (b : Byte) : (snkWrite b s).StopsOnly F := by
  rcases snkWrite_cases b s with ⟨-, hr⟩ | ⟨-, hr⟩ <;> rw [hr] <;> trivial

theorem acquire_stopsOnly : (acquire s).StopsOnly F := by
  rcases acquire_cases s with ⟨-, hr⟩ | ⟨-, hr⟩ <;> rw [hr] <;> trivial

theorem readBit_stopsOnly : (readBit s).StopsOnly F := by
  rcases readBit_cases s with ⟨-, hr⟩ | ⟨-, -, _, -, hr⟩ | ⟨-, -, -, hr⟩ | ⟨-, -, hr⟩ <;> rw [hr] <;> trivial

theorem writeBit_stopsOnly (b : Bool) : (writeBit b s).StopsOnly F := by
  rcases writeBit_cases b s with ⟨-, hr⟩ | ⟨-, hr⟩ <;> rw [hr]
  exacts [trivial, snkWrite_stopsOnly _]

theorem flushBits_stopsOnly : (flushBits s).StopsOnly F := by
  rcases flushBits_cases s with ⟨-, hr⟩ | ⟨-, hr⟩ <;> rw [hr]
  exacts [trivial, snkWrite_stopsOnly _]

theorem emit_stopsOnly (bytes : List Byte) : (emit bytes s).StopsOnly F := by
  induction bytes generalizing s with
  | nil => trivial
  | cons b bytes ih => exact (snkWrite_stopsOnly b).andThen fun _ _ _ => ih

theorem writeBits_stopsOnly (bits : List Bool) : (writeBits bits s).StopsOnly F := by
  induction bits generalizing s with
  | nil => trivial
  | cons b bits ih => exact (writeBit_stopsOnly b).andThen fun _ _ _ => ih

theorem readBytes_stopsOnly (k : Nat) (v : HostWord) : (readBytes k v s).StopsOnly F := by
  induction k generalizing v s with
  | zero => trivial
  | succ k ih =>
    refine srcRead_stopsOnly.andThen fun r t _ => ?_
    cases r with
    | none => trivial
    | some b => exact ih _

theorem emitRepeat_stopsOnly (k : Nat) (b : Byte) : (emitRepeat k b s).StopsOnly F := by
  induction k generalizing s with
  | zero => trivial
  | succ k ih => exact (snkWrite_stopsOnly b).andThen fun _ _ _ => ih

theorem ropenBody_stopsOnly : (ropenBody s).StopsOnly F := by
  unfold ropenBody
  split
  exacts [trivial, acquire_stopsOnly.andThen fun _ _ _ => trivial]

theorem rcloseBody_stopsOnly : (rcloseBody s).StopsOnly F := by
  unfold rcloseBody
  split <;> trivial

theorem rdbitBody_stopsOnly : (rdbitBody s).StopsOnly F := by
  unfold rdbitBody
  split
  · exact readBit_stopsOnly.andThen fun r _ _ => by cases r <;> trivial
  · trivial

theorem rdbyteBody_stopsOnly : (rdbyteBody s).StopsOnly F := by
  unfold rdbyteBody
  split
  · exact srcRead_stopsOnly.andThen fun r _ _ => by cases r <;> trivial
  · trivial

theorem rdintBody_stopsOnly : (rdintBody s).StopsOnly F := by
  unfold rdintBody
  split
  · exact (readBytes_stopsOnly 4 0#32).andThen fun r _ _ => by cases r <;> trivial
  · trivial

theorem wopenBody_stopsOnly : (wopenBody s).StopsOnly F := by
  unfold wopenBody
  split
  exacts [trivial, acquire_stopsOnly.andThen fun _ _ _ => trivial]

theorem wcloseBody_stopsOnly : (wcloseBody s).StopsOnly F := by
  rcases wcloseBody_cases s with ⟨-, hr⟩ | ⟨-, t, -, -, -, -, -, -, -, hr | hr⟩ <;> rw [hr] <;> trivial

theorem wrbitBody_stopsOnly : (wrbitBody s).StopsOnly F := by
  unfold wrbitBody
  split
  · split
    exacts [writeBit_stopsOnly _, trivial]
  · trivial

theorem wrbyteBody_stopsOnly : (wrbyteBody s).StopsOnly F := by
  unfold wrbyteBody
  split
  · split
    exacts [snkWrite_stopsOnly _, trivial]
  · trivial

theorem wrintBody_stopsOnly : (wrintBody s).StopsOnly F := by
  unfold wrintBody
  split
  exacts [emit_stopsOnly _, trivial]

theorem flushBody_stopsOnly : (flushBody s).StopsOnly F := by
  unfold flushBody
  split
  exacts [flushBits_stopsOnly, trivial]

theorem processLine_stopsOnly (line : List Byte) : (processLine line s).StopsOnly F := by
  rw [processLine_eq_outcome]
  cases lineMeaning s.par.maxCount line <;> trivial

/-! ### What is computed from the tables meets no bound -/

/-- A computation over the tables that meets no loop's bound. -/
def MeetsNoBound (x : Except Fault α) : Prop := ∀ f, x = .error f → f ≠ .loopBound

theorem MeetsNoBound.ok (a : α) : MeetsNoBound (.ok a) := fun _ h => nomatch h

theorem MeetsNoBound.bind {x : Except Fault α} {k : α → Except Fault β} (hx : MeetsNoBound x)
    (hk : ∀ a, MeetsNoBound (k a)) : MeetsNoBound (x >>= k) := by
  cases x with
  | ok a => exact hk a
  | error f => exact fun g h => hx g (by cases h; rfl)

theorem readEntry_meetsNoBound (sp : Space) (m : Memory α) (i : Nat) : MeetsNoBound (readEntry sp m i) := by
  rintro f hf rfl
  exact nomatch (readEntry_error.1 hf).2

theorem readNode_meetsNoBound (node : Memory Node) (id : NodeId) : MeetsNoBound (readNode node id) := by
  unfold readNode
  split
  · rintro _ ⟨⟩
    exact (nomatch ·)
  · exact readEntry_meetsNoBound _ _ _

theorem nodeWeight_meetsNoBound (node : Memory Node) (id : NodeId) : MeetsNoBound (nodeWeight node id) :=
  (readNode_meetsNoBound node id).bind fun _ => .ok _

section Queue
variable {node : Memory Node} {n p : Nat}

theorem slotWeight_meetsNoBound (heap : Memory NodeId) (i : Nat) : MeetsNoBound (slotWeight node heap i) :=
  (readEntry_meetsNoBound _ _ _).bind fun _ => nodeWeight_meetsNoBound _ _

theorem swapSlots_meetsNoBound (heap : Memory NodeId) (p q : Nat) : MeetsNoBound (swapSlots heap p q) :=
  (readEntry_meetsNoBound _ _ _).bind fun _ => (readEntry_meetsNoBound _ _ _).bind fun _ => .ok _

theorem siftUp_meetsNoBound (k p : Nat) (heap : Memory NodeId) : MeetsNoBound (siftUp node k p heap) := by
  induction k generalizing p heap with
  | zero => exact .ok _
  | succ k ih =>
    unfold siftUp
    split
    · exact .ok _
    · refine (slotWeight_meetsNoBound _ _).bind fun wp => (slotWeight_meetsNoBound _ _).bind fun wq => ?_
      split
      exacts [(swapSlots_meetsNoBound _ _ _).bind fun _ => ih _ _, .ok _]

theorem lighterOf_meetsNoBound (heap : Memory NodeId) (c t : Nat) : MeetsNoBound (lighterOf node heap n c t) := by
  unfold lighterOf
  split
  · exact (slotWeight_meetsNoBound _ _).bind fun _ => (slotWeight_meetsNoBound _ _).bind fun _ => .ok _
  · exact .ok _

theorem siftDown_meetsNoBound (k p : Nat) (heap : Memory NodeId) : MeetsNoBound (siftDown node n k p heap) := by
  induction k generalizing p heap with
  | zero => exact .ok _
  | succ k ih =>
    refine (lighterOf_meetsNoBound _ _ _).bind fun t => (lighterOf_meetsNoBound _ _ _).bind fun t' => ?_
    split
    exacts [.ok _, (swapSlots_meetsNoBound _ _ _).bind fun _ => ih _ _]

theorem refDeleteMin_meetsNoBound (heap : Memory NodeId) : MeetsNoBound (refDeleteMin node heap n) := by
  refine (readEntry_meetsNoBound _ _ _).bind fun m => ?_
  split
  · exact .ok _
  · exact (readEntry_meetsNoBound _ _ _).bind fun _ => (siftDown_meetsNoBound _ _ _).bind fun _ => .ok _

theorem queuedWeights_meetsNoBound (heap : Memory NodeId) (n : Nat) : MeetsNoBound (queuedWeights node heap n) := by
  induction n with
  | zero => exact .ok _
  | succ n ih => exact ih.bind fun _ => (slotWeight_meetsNoBound _ _).bind fun _ => .ok _

theorem slotIds_meetsNoBound (heap : Memory NodeId) (n : Nat) : MeetsNoBound (slotIds heap n) := by
  induction n with
  | zero => exact .ok _
  | succ n ih => exact ih.bind fun _ => (readEntry_meetsNoBound _ _ _).bind fun _ => .ok _

theorem rearrange_meetsNoBound (k : Nat) (hist : List Config.PqEvent) (heap : Memory NodeId) (n : Nat) :
    MeetsNoBound (rearrange k hist heap n) :=
  (slotIds_meetsNoBound heap n).bind fun _ => .ok _

theorem otherDeleteMin_meetsNoBound (k : Nat) (hist : List Config.PqEvent) (heap : Memory NodeId) :
    MeetsNoBound (otherDeleteMin k hist node heap n) :=
  (queuedWeights_meetsNoBound heap n).bind fun _ => (readEntry_meetsNoBound _ _ _).bind fun _ =>
    (readEntry_meetsNoBound _ _ _).bind fun _ => (rearrange_meetsNoBound _ _ _ _).bind fun _ => .ok _

end Queue

theorem pqInsert_meetsNoBound (id : NodeId) (s : State) : MeetsNoBound (pqInsert id s) := by
  unfold pqInsert
  cases s.par.tie
  exacts [(siftUp_meetsNoBound _ _ _).bind fun _ => .ok _, (rearrange_meetsNoBound _ _ _ _).bind fun _ => .ok _]

theorem pqPop_meetsNoBound (s : State) : MeetsNoBound (pqPop s) := by
  unfold pqPop
  split
  · cases s.par.tie
    exacts [(refDeleteMin_meetsNoBound _).bind fun _ => .ok _, (otherDeleteMin_meetsNoBound _ _ _).bind fun _ => .ok _]
  · rintro _ ⟨⟩
    exact (nomatch ·)

theorem allocNode_meetsNoBound (n : Node) (s : State) : MeetsNoBound (allocNode n s) :=
  (pqInsert_meetsNoBound _ _).bind fun _ => .ok _

theorem addLeaves_meetsNoBound (es : List (Nat × Count)) (s : State) : MeetsNoBound (addLeaves es s) := by
  induction es generalizing s with
  | nil => exact .ok _
  | cons e es ih => exact (allocNode_meetsNoBound _ _).bind fun _ => ih _

theorem mergeOnce_meetsNoBound (s : State) : MeetsNoBound (mergeOnce s) :=
  (pqPop_meetsNoBound _).bind fun _ => (pqPop_meetsNoBound _).bind fun _ =>
    (nodeWeight_meetsNoBound _ _).bind fun _ => (nodeWeight_meetsNoBound _ _).bind fun _ => allocNode_meetsNoBound _ _

theorem mergeAll_meetsNoBound (turns : Nat) (s : State) : MeetsNoBound (mergeAll turns s) := by
  induction turns generalizing s with
  | zero => exact .ok _
  | succ turns ih =>
    unfold mergeAll
    split
    exacts [.ok _, (mergeOnce_meetsNoBound _).bind fun _ => ih _]

theorem symbolsPresent_meetsNoBound (freq : Memory Count) : MeetsNoBound (symbolsPresent freq) := by
  unfold symbolsPresent
  induction List.range Config.symbolCount with
  | nil => exact .ok _
  | cons sym syms ih => exact (readEntry_meetsNoBound _ _ _).bind fun _ => ih.bind fun _ => .ok _

theorem buildTree_meetsNoBound (s : State) : MeetsNoBound (buildTree s) := by
  refine (symbolsPresent_meetsNoBound _).bind fun pairs => (addLeaves_meetsNoBound _ _).bind fun t => ?_
  split
  · exact .ok _
  · exact (mergeAll_meetsNoBound _ _).bind fun _ => (pqPop_meetsNoBound _).bind fun _ => .ok _

/-! ### The queue and the tree -/

/-- A piece of pseudocode that does not stop the machine at a loop's bound. -/
abbrev Res.Ends (r : Res α) : Prop := r.StopsOnly (· ≠ .loopBound)

theorem pqinsBody_ends (s : State) : (pqinsBody s).Ends := by
  unfold pqinsBody
  split
  · trivial
  · split
    exacts [.lift_andThen (pqInsert_meetsNoBound _ _) fun _ _ => trivial, trivial]

theorem pqdelminBody_ends (s : State) : (pqdelminBody s).Ends := by
  unfold pqdelminBody
  split
  exacts [trivial, .lift_andThen (pqPop_meetsNoBound _) fun _ _ => trivial]

theorem buildtreeBody_ends (s : State) : (buildtreeBody s).Ends :=
  .lift_andThen (buildTree_meetsNoBound s) fun _ _ => trivial

theorem visit_ends (edges : Nat) (id : NodeId) (path : Code) (s : State) : (visit edges id path s).Ends := by
  induction edges generalizing id path s with
  | zero =>
    unfold visit
    refine .lift_andThen (readNode_meetsNoBound _ _) fun n _ => ?_
    cases n.kind <;> trivial
  | succ k ih =>
    unfold visit
    refine .lift_andThen (readNode_meetsNoBound _ _) fun n _ => ?_
    cases n.kind
    case leaf => trivial
    case internal =>
      dsimp only
      split
      · trivial
      · refine (ih _ _ _).andThen fun _ _ _ => ?_
        split
        exacts [trivial, ih _ _ _]

theorem buildcodesBody_ends (s : State) : (buildcodesBody s).Ends := by
  unfold buildcodesBody
  dsimp only
  split
  · trivial
  · refine .lift_andThen (readNode_meetsNoBound _ _) fun n _ => ?_
    cases n.kind
    exacts [visit_ends _ _ _ _, trivial]

/-! ### The loops over the source -/

/-- A byte taken is one of those left. -/
theorem srcRead_srcLeft {b : Byte} (h : srcRead s = .ok (some b) t) : s.srcLeft = b :: t.srcLeft := by
  rcases srcRead_cases s with ⟨c, hc, -, hr⟩ | ⟨-, -, hr⟩ | ⟨-, hr⟩
  · obtain ⟨hb, rfl⟩ := (Res.ok.injEq ..).mp (hr.symm.trans h)
    obtain ⟨hlt, hget⟩ := List.getElem?_eq_some_iff.1 hc
    rw [← Option.some.inj hb, ← hget]
    exact List.drop_eq_getElem_cons hlt
  · exact nomatch hr.symm.trans h
  · exact nomatch hr.symm.trans h

theorem srcLeft_of_env (h : t.env = s.env) : t.srcLeft = s.srcLeft := by rw [State.srcLeft, State.srcLeft, h]

theorem processLine_env {line : List Byte} {done : Bool} (h : processLine line s = .ok done t) : t.env = s.env := by
  have hleaves := processLine_preserves (P := (·.env = s.env)) (fun _ _ _ _ => id) line rfl
  rwa [h] at hleaves

theorem headerLoop_ends {k : Nat} (line : List Byte) (hk : s.srcLeft.length < k) : (headerLoop k line s).Ends := by
  induction k generalizing line s with
  | zero => exact absurd hk (Nat.not_lt_zero _)
  | succ k ih =>
    refine srcRead_stopsOnly.andThen fun r t hread => ?_
    cases r with
    | none => exact (processLine_stopsOnly line).andThen fun done _ _ => by cases done <;> trivial
    | some b =>
      rw [srcRead_srcLeft hread, List.length_cons, Nat.succ_lt_succ_iff] at hk
      dsimp only
      split
      · refine (processLine_stopsOnly line).andThen fun done u hline => ?_
        cases done
        · exact ih [] (srcLeft_of_env (processLine_env hline) ▸ hk)
        · trivial
      · exact ih _ hk

theorem parsehdrBody_ends (s : State) : (parsehdrBody s).Ends := by
  unfold parsehdrBody
  split
  exacts [headerLoop_ends [] (Nat.lt_succ_self _), trivial]

theorem walkStep_ends (b : Bool) (s : State) : (walkStep b s).Ends := by
  refine .lift_andThen (readNode_meetsNoBound _ _) fun n _ => ?_
  dsimp only
  generalize (if b = true then n.right else n.left) = next
  split
  · trivial
  · refine .lift_andThen (readNode_meetsNoBound _ _) fun m _ => ?_
    cases m.kind
    exacts [trivial, (snkWrite_stopsOnly _).andThen fun _ _ _ => trivial]

/-- The walk step takes no bit. -/
theorem walkStep_bitsLeft {b : Bool} (h : walkStep b s = .ok () t) : t.bitsLeft = s.bitsLeft := by
  have hleaves := walkStep_preserves (P := (·.bitsLeft = s.bitsLeft)) (fun _ _ _ _ => id) (fun _ _ => id)
    (fun _ _ _ => id) b rfl
  rwa [h] at hleaves

theorem walkLoop_ends {k : Nat} (hk : s.bitsLeft < k) : (walkLoop k s).Ends := by
  induction k generalizing s with
  | zero => exact absurd hk (Nat.not_lt_zero _)
  | succ k ih =>
    unfold walkLoop
    split
    · refine readBit_stopsOnly.andThen fun r t hread => ?_
      cases r with
      | none => trivial
      | some b =>
        have hleft := readBit_bitsLeft hread
        exact (walkStep_ends b t).andThen fun _ u hstep => ih (walkStep_bitsLeft hstep ▸ by omega)
    · trivial

theorem walkBody_ends (s : State) : (walkBody s).Ends := by
  cases hcan : s.canWalk with
  | false => simp [walkBody, hcan, Res.StopsOnly]
  | true =>
    rcases walkBody_cases hcan with ⟨-, hr⟩ | ⟨f, hf, hr⟩ | ⟨n, -, ⟨-, hr⟩ | ⟨-, hr⟩⟩ <;> rw [hr]
    · trivial
    · exact readNode_meetsNoBound _ _ f hf
    · exact (emitRepeat_stopsOnly _ _).andThen fun _ _ _ => trivial
    · exact (walkLoop_ends (s := startWalk s) (Nat.lt_succ_self _)).andThen fun _ _ _ => trivial

/-! ### Compress -/

theorem countByte_ends (b : Byte) (s : State) : (countByte b s).Ends := by
  unfold countByte
  split
  exacts [trivial, .lift_andThen (readEntry_meetsNoBound _ _ _) fun _ _ => trivial]

theorem countByte_env {b : Byte} (h : countByte b s = .ok () t) : t.env = s.env := by
  have hleaves := countByte_preserves (P := (·.env = s.env)) (fun _ _ _ _ => id) b rfl
  rwa [h] at hleaves

theorem countLoop_ends {k : Nat} (hk : s.srcLeft.length < k) : (countLoop k s).Ends := by
  induction k generalizing s with
  | zero => exact absurd hk (Nat.not_lt_zero _)
  | succ k ih =>
    refine srcRead_stopsOnly.andThen fun r t hread => ?_
    cases r with
    | none => trivial
    | some b =>
      rw [srcRead_srcLeft hread, List.length_cons, Nat.succ_lt_succ_iff] at hk
      exact (countByte_ends b t).andThen fun _ u hcount => ih (srcLeft_of_env (countByte_env hcount) ▸ hk)

theorem countfreqBody_ends (s : State) : (countfreqBody s).Ends := by
  unfold countfreqBody
  split
  · exact (countLoop_ends (Nat.lt_succ_self _)).andThen fun _ _ _ =>
      .lift_andThen (symbolsPresent_meetsNoBound _) fun _ _ => trivial
  · trivial

theorem wrhdrBody_ends (s : State) : (wrhdrBody s).Ends := by
  unfold wrhdrBody
  split
  exacts [.lift_andThen (symbolsPresent_meetsNoBound _) fun _ _ => emit_stopsOnly _, trivial]

theorem encodeByte_ends (b : Byte) (s : State) : (encodeByte b s).Ends := by
  refine .lift_andThen (readEntry_meetsNoBound _ _ _) fun code _ => ?_
  split
  exacts [trivial, writeBits_stopsOnly code]

theorem encodeLoop_ends (k i : Nat) (s : State) : (encodeLoop k i s).Ends := by
  induction k generalizing i s with
  | zero => trivial
  | succ k ih =>
    exact .lift_andThen (readEntry_meetsNoBound _ _ _) fun b _ => (encodeByte_ends b s).andThen fun _ _ _ => ih _ _

theorem encodeBody_ends (s : State) : (encodeBody s).Ends := by
  unfold encodeBody
  split
  exacts [(encodeLoop_ends _ _ _).andThen fun _ _ _ => flushBits_stopsOnly, trivial]

/-! ### Composites -/

theorem runParts_stopsOnly {ps : List (State → Res Unit)} (hps : ∀ p ∈ ps, ∀ u, (p u).StopsOnly F) (s : State) :
    (runParts ps s).StopsOnly F := by
  induction ps generalizing s with
  | nil => trivial
  | cons p ps ih =>
    exact (hps p List.mem_cons_self s).andThen fun _ t _ => ih (fun q hq => hps q (List.mem_cons_of_mem p hq)) t

/-- A composite stops the machine only where a part does: its releases never do (R206). -/
theorem composite_stopsOnly {ps : List (State → Res Unit)} (h : (runParts ps s).StopsOnly F) :
    (composite ps s).StopsOnly F := by
  rcases composite_cases ps s with ⟨-, hc⟩ | ⟨-, -, ⟨t, -, hc⟩ | ⟨e, t, u, -, -, hc⟩ | ⟨f, hf, hc⟩⟩ <;> rw [hc]
  · trivial
  · trivial
  · trivial
  · rwa [hf] at h

theorem decompressBody_ends (s : State) : (decompressBody s).Ends := by
  refine composite_stopsOnly (runParts_stopsOnly (fun p hp u => ?_) s)
  simp only [decompressParts, List.mem_cons, List.not_mem_nil, or_false] at hp
  rcases hp with rfl | rfl | rfl | rfl | rfl | rfl | rfl
  exacts [ropenBody_stopsOnly, wopenBody_stopsOnly, parsehdrBody_ends u, buildtreeBody_ends u, walkBody_ends u,
    wcloseBody_stopsOnly, rcloseBody_stopsOnly]

theorem compressBody_ends (s : State) : (compressBody s).Ends := by
  refine composite_stopsOnly (runParts_stopsOnly (fun p hp u => ?_) s)
  simp only [compressParts, List.mem_cons, List.not_mem_nil, or_false] at hp
  rcases hp with rfl | rfl | rfl | rfl | rfl | rfl | rfl | rfl | rfl
  exacts [ropenBody_stopsOnly, countfreqBody_ends u, rcloseBody_stopsOnly, buildtreeBody_ends u, buildcodesBody_ends u,
    wopenBody_stopsOnly, wrhdrBody_ends u, encodeBody_ends u, wcloseBody_stopsOnly]

/-! ### Operations -/

/-- An issued operation meets no bound that its pseudocode does not meet. -/
theorem issue_ends {body : State → Res Unit} (hb : ∀ u, (body u).Ends) (s : State) :
    issue body s ≠ .fault .loopBound := by
  unfold issue
  split
  · exact (nomatch ·)
  · have hends := hb (clearResultFlags s)
    cases hr : body (clearResultFlags s) with
    | ok u t => exact (nomatch ·)
    | raised e t => exact (nomatch ·)
    | stop f =>
      rw [hr] at hends
      exact fun h => hends (Host.Outcome.fault.inj h)

/-- Settles O46: of each operation the pieces are followed; the three loops with a bound use up a byte or a bit in each
turn, and begin with one turn more than are left. -/
theorem everyOperationEnds : Obligations.EveryOperationEnds := by
  intro i
  cases i with
  | nop | clrerr | sreset => exact fun _ => (nomatch ·)
  | ropen => exact issue_ends fun _ => ropenBody_stopsOnly
  | rclose => exact issue_ends fun _ => rcloseBody_stopsOnly
  | rdbit => exact issue_ends fun _ => rdbitBody_stopsOnly
  | rdbyte => exact issue_ends fun _ => rdbyteBody_stopsOnly
  | rdint => exact issue_ends fun _ => rdintBody_stopsOnly
  | wopen => exact issue_ends fun _ => wopenBody_stopsOnly
  | wclose => exact issue_ends fun _ => wcloseBody_stopsOnly
  | wrbit arg => exact fun s => issue_ends (fun _ => wrbitBody_stopsOnly) (s.setArg arg)
  | wrbyte arg => exact fun s => issue_ends (fun _ => wrbyteBody_stopsOnly) (s.setArg arg)
  | wrint arg => exact fun s => issue_ends (fun _ => wrintBody_stopsOnly) (s.setArg arg)
  | flush => exact issue_ends fun _ => flushBody_stopsOnly
  | pqclr => exact issue_ends (body := pqclrBody) fun _ => trivial
  | pqins arg => exact fun s => issue_ends pqinsBody_ends (s.setArg arg)
  | pqdelmin => exact issue_ends pqdelminBody_ends
  | pqsize => exact issue_ends (body := pqsizeBody) fun _ => trivial
  | pqempty => exact issue_ends (body := pqemptyBody) fun _ => trivial
  | buildtree => exact issue_ends buildtreeBody_ends
  | buildcodes => exact issue_ends buildcodesBody_ends
  | parsehdr => exact issue_ends parsehdrBody_ends
  | walk => exact issue_ends walkBody_ends
  | decompress => exact issue_ends decompressBody_ends
  | countfreq => exact issue_ends countfreqBody_ends
  | wrhdr => exact issue_ends wrhdrBody_ends
  | encode => exact issue_ends encodeBody_ends
  | compress => exact issue_ends compressBody_ends

end Sys2Proof.Machine
end

section
/-! PROOFS. The words of the spec's scripts (spec/95_test_vectors.md section 3), and hard reset as the host's event
(R40, R290). -/

namespace Sys2Proof.Machine

variable {s : State} {rest : List HostEvent}

/-- Settles O2: `op` picks the row of R91, and `arg` reaches only the operations that take it. -/
theorem wordsOfTheScriptsDecode : Obligations.WordsOfTheScriptsDecode :=
  ⟨rfl, rfl, rfl, rfl, rfl, rfl, rfl, rfl, rfl⟩

/-- A hard reset is no command: the step resets the block (R290). -/
theorem step_hardReset (h : s.env.script = .hardReset :: rest) : step s = .next (hardReset (s.popScript rest)) := by
  rw [step, h]
  rfl

/-- Settles O7: the registers are those `SRESET` leaves, and the tables list no entry. -/
theorem hardResetLeavesTablesUnspecified : Obligations.HardResetLeavesTablesUnspecified :=
  fun _ _ hs => ⟨_, step_hardReset hs, rfl, rfl, fun i =>
    ⟨Memory.read_nil i, Memory.read_nil i, Memory.read_nil i, Memory.read_nil i, Memory.read_nil i⟩⟩

end Sys2Proof.Machine
end

section
/-! PROOFS. `COMPRESS` never stops the machine (R233, R292): each table entry it reads it has written before, so of the
faults only a loop's bound is left, which no operation meets. -/

namespace Sys2Proof.Machine

variable {α β : Type} {s t : State} {P Q : State → Prop} {F : Fault → Prop}

/-! ### Pieces that stop at no unwritten entry -/

/-- A piece of pseudocode that, when it ends, leaves a property, and that nothing but a loop's bound can stop. -/
def Res.Yields (P : State → Prop) : Res α → Prop
  | .ok _ t => P t
  | .raised _ _ => True
  | .stop f => f = .loopBound

theorem Res.Yields.andThen {r : Res α} {k : α → State → Res β} (hr : r.Yields P) (hk : ∀ a t, P t → (k a t).Yields Q) :
    (r.andThen k).Yields Q := by
  cases r with
  | ok a t => exact hk a t hr
  | raised e t => trivial
  | stop f => exact hr

theorem Res.Leaves.yields {r : Res α} (hleaves : r.Leaves P) (hstops : r.StopsOnly (· = .loopBound)) : r.Yields P := by
  cases r with
  | ok a t => exact hleaves
  | raised e t => trivial
  | stop f => exact hstops

theorem Res.StopsOnly.yields {r : Res α} (h : r.StopsOnly (· = .loopBound)) : r.Yields fun _ => True := by
  cases r with
  | ok a t => trivial
  | raised e t => trivial
  | stop f => exact h

theorem Res.Yields.stopsOnly {r : Res α} (h : r.Yields P) : r.StopsOnly (· = .loopBound) := by
  cases r with
  | ok a t => trivial
  | raised e t => trivial
  | stop f => exact h

/-! ### `COUNTFREQ` -/

/-- Every entry of `FREQ` is written, and of `INBUF` every byte below `inlen`. -/
def InputWritten (s : State) : Prop := s.tab.freq.filled 256 = true ∧ s.tab.inbuf.filled s.ctr.inlen.toNat = true

theorem filled_fill (n : Nat) (v : α) : (Memory.fill n v).filled n = true :=
  (Memory.filled_iff _ _).2 fun _ hi => ⟨v, (Memory.read_fill _ _ _).trans (if_pos hi)⟩

theorem InputWritten.clearCounts (s : State) : InputWritten (clearCounts s) := ⟨filled_fill 256 0#32, rfl⟩

/-- An entry more is written. -/
theorem filled_write_next {m : Memory α} {n k : Nat} (v : α) (h : m.filled n = true) (hk : k ≤ n + 1) :
    (m.write n v).filled k = true := by
  refine (Memory.filled_iff _ _).2 fun i hi => ?_
  rw [Memory.read_write]
  split
  · exact ⟨v, rfl⟩
  · exact (Memory.filled_iff m n).1 h i (by omega)

theorem countByte_yields (b : Byte) (h : InputWritten s) : (countByte b s).Yields InputWritten := by
  obtain ⟨hfreq, hinbuf⟩ := h
  unfold countByte
  split
  · trivial
  · obtain ⟨f, hf⟩ := (Memory.filled_iff _ _).1 hfreq b.toNat b.isLt
    rw [readEntry_ok.2 hf]
    refine ⟨Memory.filled_write _ hfreq, filled_write_next b hinbuf ?_⟩
    rw [State.setCtr_ctr, BitVec.toNat_add]
    exact Nat.mod_le _ _

theorem countLoop_yields (k : Nat) (h : InputWritten s) : (countLoop k s).Yields InputWritten := by
  induction k generalizing s with
  | zero => rfl
  | succ k ih =>
    have hread : (srcRead s).Leaves InputWritten := srcRead_preserves (fun _ _ _ _ => id) h
    refine (hread.yields srcRead_stopsOnly).andThen fun r t ht => ?_
    cases r with
    | none => exact ht
    | some b => exact (countByte_yields b ht).andThen fun _ _ => ih

/-- `COUNTFREQ` writes every entry it reads, and all the bytes it keeps (R230). -/
theorem countfreqBody_yields (s : State) : (countfreqBody s).Yields InputWritten := by
  unfold countfreqBody
  split
  · refine (countLoop_yields _ (.clearCounts s)).andThen fun _ t ht => ?_
    rw [symbolsPresent_of_filled ht.1]
    exact ht
  · trivial

/-! ### `BUILDTREE` and `BUILDCODES` -/

theorem buildtreeBody_built (h : s.tab.freq.filled 256 = true) :
    ∃ t, buildtreeBody s = .ok () t ∧ Built s (presentPairs s.tab.freq) t := by
  obtain ⟨t, ht, hbuilt⟩ := buildTree_built (symbolsPresent_of_filled h)
  exact ⟨t, by rw [buildtreeBody, ht]; rfl, hbuilt⟩

/-- With the input written, the root is `NONE` or that of a tree within the depth bound of `BUILDCODES`. -/
def InputTreed (s : State) : Prop :=
  InputWritten s ∧ (s.ctr.root = NONE ∨ ∃ x, treeAt s.tab.node x s.ctr.root = true ∧ x.depth ≤ 255)

theorem buildtreeBody_yields (h : InputWritten s) : (buildtreeBody s).Yields InputTreed := by
  obtain ⟨t, ht, hbuilt⟩ := buildtreeBody_built h.1
  rw [ht]
  refine ⟨by rwa [InputWritten, hbuilt.frame.freq, hbuilt.frame.inbuf, hbuilt.frame.inlen], ?_⟩
  by_cases hne : presentPairs s.tab.freq = []
  · exact .inl (hbuilt.none hne).1
  · obtain ⟨-, -, x, hx, hmerges⟩ := hbuilt.tree hne
    have hlt := x.depth_lt_length_leaves
    have hle := length_presentPairs_le s.tab.freq
    rw [hmerges.length_leaves] at hlt
    exact .inr ⟨x, hx, by omega⟩

/-- The entries that the parts after `BUILDCODES` read are written. -/
def InputEncodable (s : State) : Prop := InputWritten s ∧ s.tab.code.filled 256 = true

theorem filled_writeAll {m : Memory α} {n : Nat} (es : List (Nat × α)) (h : m.filled n = true) :
    (writeAll m es).filled n = true := by
  induction es generalizing m with
  | nil => exact h
  | cons e es ih => exact ih (Memory.filled_write e.2 h)

/-- `BUILDCODES` writes every entry of `CODE` (R185). -/
theorem buildcodesBody_yields (h : InputTreed s) : (buildcodesBody s).Yields InputEncodable := by
  obtain ⟨hwritten, hroot | ⟨x, hx, hdepth⟩⟩ := h
  · rw [buildcodesBody_none hroot]
    exact ⟨hwritten, filled_fill 256 []⟩
  · rw [buildcodesBody_tree hx hdepth]
    exact ⟨hwritten, filled_writeAll _ (filled_fill 256 [])⟩

/-! ### `WRHDR` and `ENCODE` -/

theorem wrhdrBody_stopsOnly (h : s.tab.freq.filled 256 = true) : (wrhdrBody s).StopsOnly F := by
  unfold wrhdrBody
  rw [symbolsPresent_of_filled h]
  split
  exacts [emit_stopsOnly _, trivial]

theorem encodeByte_stopsOnly (b : Byte) (h : s.tab.code.filled 256 = true) : (encodeByte b s).StopsOnly F := by
  obtain ⟨code, hcode⟩ := (Memory.filled_iff _ _).1 h b.toNat b.isLt
  unfold encodeByte
  rw [readEntry_ok.2 hcode, Res.lift_ok, Res.andThen_ok]
  split
  exacts [trivial, writeBits_stopsOnly code]

theorem encodeByte_tab {b : Byte} (h : encodeByte b s = .ok () t) : t.tab = s.tab := by
  have hleaves := encodeByte_preserves (P := (·.tab = s.tab)) (fun _ _ _ _ => id) (fun _ _ _ => id) b rfl
  rwa [h] at hleaves

theorem encodeLoop_stopsOnly {k i : Nat} (hcode : s.tab.code.filled 256 = true)
    (hinbuf : s.tab.inbuf.filled (i + k) = true) : (encodeLoop k i s).StopsOnly F := by
  induction k generalizing i s with
  | zero => trivial
  | succ k ih =>
    obtain ⟨b, hb⟩ := (Memory.filled_iff _ _).1 hinbuf i (by omega)
    rw [encodeLoop_byte hb]
    refine (encodeByte_stopsOnly b hcode).andThen fun _ t ht => ?_
    have htab := encodeByte_tab ht
    exact ih (htab ▸ hcode) (htab ▸ Nat.add_right_comm i k 1 ▸ hinbuf)

theorem encodeBody_stopsOnly (h : InputEncodable s) : (encodeBody s).StopsOnly F := by
  obtain ⟨⟨-, hinbuf⟩, hcode⟩ := h
  unfold encodeBody
  split
  · exact (encodeLoop_stopsOnly hcode ((Nat.zero_add s.ctr.inlen.toNat).symm ▸ hinbuf)).andThen
      fun _ _ _ => flushBits_stopsOnly
  · trivial

/-! ### `COMPRESS` -/

/-- The parts of `COMPRESS`, in order, read no entry that is not written (R233). -/
theorem compressParts_stopsOnly (s : State) : (runParts compressParts s).StopsOnly (· = .loopBound) := by
  refine ropenBody_stopsOnly.andThen fun _ s₁ _ => Res.Yields.stopsOnly (P := fun _ => True) ?_
  refine (countfreqBody_yields s₁).andThen fun _ s₂ counted => ?_
  have released : (rcloseBody s₂).Leaves InputWritten := rcloseBody_preserves (fun _ _ => id) counted
  refine (released.yields rcloseBody_stopsOnly).andThen fun _ s₃ written => ?_
  refine (buildtreeBody_yields written).andThen fun _ s₄ treed => ?_
  refine (buildcodesBody_yields treed).andThen fun _ s₅ coded => ?_
  have held : (wopenBody s₅).Leaves InputEncodable := wopenBody_preserves (fun _ _ _ _ => id) (fun _ _ => id) coded
  refine (held.yields wopenBody_stopsOnly).andThen fun _ s₆ coded => ?_
  have headed : (wrhdrBody s₆).Leaves InputEncodable :=
    wrhdrBody_preserves (fun _ _ _ _ => id) (fun _ _ => id) (fun _ _ => id) coded
  refine (headed.yields (wrhdrBody_stopsOnly coded.1.1)).andThen fun _ s₇ coded => ?_
  refine (encodeBody_stopsOnly coded).yields.andThen fun _ s₈ _ => ?_
  exact wcloseBody_stopsOnly.yields.andThen fun _ _ _ => trivial

/-- Settles O45: of the faults the parts could stop at only a loop's bound is left, and `COMPRESS` meets none. -/
theorem compressAlwaysCompletes : Obligations.CompressAlwaysCompletes := by
  intro s hs _
  have herr := (idle_iff.1 hs).1
  have hends := compressBody_ends (clearResultFlags s)
  have hstops : (compressBody (clearResultFlags s)).StopsOnly (· = .loopBound) :=
    composite_stopsOnly (compressParts_stopsOnly _)
  cases hr : compressBody (clearResultFlags s) with
  | ok u t => exact ⟨t, issue_ok herr hr⟩
  | raised e t => exact ⟨_, issue_raised herr hr⟩
  | stop f =>
    rw [hr] at hends hstops
    exact absurd hstops hends

end Sys2Proof.Machine
end

section
/-! PROOFS. `DECOMPRESS` depends on nothing but `SRC`, the parameters and the environment's choices (R292): two runs are
followed side by side. Each part makes the same of what the parts before it have made the same, and reads nothing else:
`PARSEHDR` clears `FREQ` before it writes it, `BUILDTREE` reads `FREQ` only, `WALK` only the records below `nnodes`. -/

namespace Sys2Proof.Machine

variable {α β : Type} {snk₁ snk₂ : List Byte} {s₁ s₂ t₁ t₂ : State}

/-! ### Two pieces of pseudocode side by side -/

/-- Two pieces end alike: both with the same value, or raising the same error, the states they leave being related, or
both at a loop's bound. -/
inductive Res.Matches (R E : State → State → Prop) : Res α → Res α → Prop
  | ok (a : α) {t₁ t₂ : State} (h : R t₁ t₂) : Matches R E (.ok a t₁) (.ok a t₂)
  | raised (e : ErrCode) {t₁ t₂ : State} (h : E t₁ t₂) : Matches R E (.raised e t₁) (.raised e t₂)
  | bound : Matches R E (.stop .loopBound) (.stop .loopBound)

section Matches
variable {R S E E' : State → State → Prop}

theorem Res.Matches.andThen {x y : Res α} {f g : α → State → Res β} (hx : Res.Matches R E x y)
    (hf : ∀ a t₁ t₂, R t₁ t₂ → Res.Matches S E (f a t₁) (g a t₂)) : Res.Matches S E (x.andThen f) (y.andThen g) := by
  cases hx with
  | ok a h => exact hf a _ _ h
  | raised e h => exact .raised e h
  | bound => exact .bound

theorem Res.Matches.mono {x y : Res α} (hx : Res.Matches R E x y) (hE : ∀ t₁ t₂, E t₁ t₂ → E' t₁ t₂) :
    Res.Matches R E' x y := by
  cases hx with
  | ok a h => exact .ok a h
  | raised e h => exact .raised e (hE _ _ h)
  | bound => exact .bound

end Matches

/-! ### What two runs have in common -/

/-- What a run shows whatever its end: the bytes it has appended to what its sink held, the error and `EOS`. -/
structure SameReport (snk₁ snk₂ : List Byte) (s₁ s₂ : State) : Prop where
  appended : ∃ out, s₁.env.snk = snk₁ ++ out ∧ s₂.env.snk = snk₂ ++ out
  err : s₂.reg.err = s₁.reg.err
  errcode : s₂.reg.errcode = s₁.reg.errcode
  eos : s₂.reg.eos = s₁.reg.eos

/-- The parameters, the source and the environment's coming choices are the same. -/
structure SameInput (snk₁ snk₂ : List Byte) (s₁ s₂ : State) : Prop extends SameReport snk₁ snk₂ s₁ s₂ where
  par : s₂.par = s₁.par
  src : s₂.env.src = s₁.env.src
  srcPos : s₂.env.srcPos = s₁.env.srcPos
  draws : s₂.env.draws = s₁.env.draws
  freeCtr : s₂.env.freeCtr = s₁.env.freeCtr

/-- What of the state the parts of `DECOMPRESS` build and the streams leave alone. -/
structure Contents where
  tab    : Tables
  ctr    : Counters
  result : HostWord

def State.contents (s : State) : Contents := ⟨s.tab, s.ctr, s.reg.result⟩

/-- With both streams held, the bit buffers are the same too, and the contents stand in a relation. -/
structure Paired (snk₁ snk₂ : List Byte) (D : Contents → Contents → Prop) (s₁ s₂ : State) : Prop
    extends SameInput snk₁ snk₂ s₁ s₂ where
  rd : s₂.rd = s₁.rd
  wr : s₂.wr = s₁.wr
  contents : D s₁.contents s₂.contents

/-- No relation. -/
def Unrelated (_ _ : Contents) : Prop := True

/-- Two pieces of pseudocode that lead from paired states to paired states. -/
abbrev Res.Pairs (snk₁ snk₂ : List Byte) (D : Contents → Contents → Prop) (x y : Res α) : Prop :=
  Res.Matches (Paired snk₁ snk₂ D) (Paired snk₁ snk₂ Unrelated) x y

section Streams
variable {D D' : Contents → Contents → Prop}

theorem Paired.mono (h : Paired snk₁ snk₂ D s₁ s₂) (hD : D' s₁.contents s₂.contents) : Paired snk₁ snk₂ D' s₁ s₂ :=
  { h with contents := hD }

theorem Paired.raised (e : ErrCode) (h : Paired snk₁ snk₂ D s₁ s₂) :
    Res.Pairs snk₁ snk₂ D' (.raised e s₁ : Res α) (.raised e s₂) := .raised e (h.mono trivial)

theorem Paired.setCtr {x y : Counters} (h : Paired snk₁ snk₂ D s₁ s₂)
    (hD : D' ⟨s₁.tab, x, s₁.reg.result⟩ ⟨s₂.tab, y, s₂.reg.result⟩) :
    Paired snk₁ snk₂ D' (s₁.setCtr x) (s₂.setCtr y) := { h with contents := hD }

theorem Paired.setTab {x y : Tables} (h : Paired snk₁ snk₂ D s₁ s₂)
    (hD : D' ⟨x, s₁.ctr, s₁.reg.result⟩ ⟨y, s₂.ctr, s₂.reg.result⟩) :
    Paired snk₁ snk₂ D' (s₁.setTab x) (s₂.setTab y) := { h with contents := hD }

theorem Paired.setResult {v w : HostWord} (h : Paired snk₁ snk₂ D s₁ s₂)
    (hD : D' ⟨s₁.tab, s₁.ctr, v⟩ ⟨s₂.tab, s₂.ctr, w⟩) :
    Paired snk₁ snk₂ D' (s₁.setResult v) (s₂.setResult w) := { h with contents := hD }

theorem Paired.setEos (h : Paired snk₁ snk₂ D s₁ s₂) : Paired snk₁ snk₂ D (setEos s₁) (setEos s₂) :=
  { h with eos := rfl }

/-! ### Streams and bits -/

theorem SameInput.accessFails (h : SameInput snk₁ snk₂ s₁ s₂) : s₂.accessFails = s₁.accessFails := by
  rw [State.accessFails, State.accessFails, h.draws]

theorem SameInput.srcLeft (h : SameInput snk₁ snk₂ s₁ s₂) : s₂.srcLeft = s₁.srcLeft := by
  rw [State.srcLeft, State.srcLeft, h.src, h.srcPos]

theorem srcRead_pairs (h : Paired snk₁ snk₂ D s₁ s₂) : Res.Pairs snk₁ snk₂ D (srcRead s₁) (srcRead s₂) := by
  have hdraws := congrArg List.tail h.draws
  have hbyte : s₂.env.src[s₂.env.srcPos]? = s₁.env.src[s₁.env.srcPos]? := by rw [h.src, h.srcPos]
  rcases srcRead_cases s₁ with ⟨b, hb, hf, hr⟩ | ⟨hb, hf, hr⟩ | ⟨hf, hr⟩ <;> rw [hr]
  · rw [srcRead_byte (h.accessFails.trans hf) (hbyte.trans hb)]
    exact .ok _ { h with srcPos := congrArg (· + 1) h.srcPos, draws := hdraws }
  · rw [srcRead_eos (h.accessFails.trans hf) (hbyte.trans hb)]
    exact .ok _ { h with draws := hdraws }
  · rw [srcRead_fails (h.accessFails.trans hf), h.src, h.freeCtr]
    exact .raised _ { h with srcPos := rfl, draws := hdraws, freeCtr := rfl, contents := trivial }

theorem snkWrite_pairs (b : Byte) (h : Paired snk₁ snk₂ D s₁ s₂) :
    Res.Pairs snk₁ snk₂ D (snkWrite b s₁) (snkWrite b s₂) := by
  have hdraws := congrArg List.tail h.draws
  have happended : ∀ bytes, ∃ out, s₁.env.snk ++ bytes = snk₁ ++ out ∧ s₂.env.snk ++ bytes = snk₂ ++ out := by
    obtain ⟨out, h₁, h₂⟩ := h.appended
    exact fun bytes => ⟨out ++ bytes, by rw [h₁, List.append_assoc], by rw [h₂, List.append_assoc]⟩
  rcases snkWrite_cases b s₁ with ⟨hf, hr⟩ | ⟨hf, hr⟩ <;> rw [hr]
  · rw [snkWrite_ok b (h.accessFails.trans hf), h.wr]
    exact .ok _ { h with appended := happended [b], draws := hdraws, wr := rfl }
  · rw [snkWrite_fails b (h.accessFails.trans hf), h.freeCtr]
    exact .raised _ { h with appended := happended _, draws := hdraws, freeCtr := rfl, contents := trivial }

theorem deliverBit_pairs (h : Paired snk₁ snk₂ D s₁ s₂) : Res.Pairs snk₁ snk₂ D (deliverBit s₁) (deliverBit s₂) := by
  unfold deliverBit
  rw [h.rd]
  exact .ok _ { h with rd := rfl }

theorem readBit_pairs (h : Paired snk₁ snk₂ D s₁ s₂) : Res.Pairs snk₁ snk₂ D (readBit s₁) (readBit s₂) := by
  unfold readBit
  rw [h.rd]
  split
  · refine (srcRead_pairs h).andThen fun r t₁ t₂ ht => ?_
    cases r with
    | none => exact .ok _ ht
    | some b =>
      rw [ht.rd]
      exact deliverBit_pairs { ht with rd := rfl }
  · exact deliverBit_pairs h

theorem flushBits_pairs (h : Paired snk₁ snk₂ D s₁ s₂) : Res.Pairs snk₁ snk₂ D (flushBits s₁) (flushBits s₂) := by
  unfold flushBits
  rw [h.wr]
  split
  · exact .ok _ h
  · exact snkWrite_pairs _ { h with wr := rfl }

/-! ### The releases -/

theorem Paired.releaseSink (h : Paired snk₁ snk₂ D s₁ s₂) : Paired snk₁ snk₂ D (releaseSink s₁) (releaseSink s₂) :=
  { h with wr := congrArg (fun w : Writer => { w with wopen := false }) h.wr }

theorem wcloseBody_pairs (h : Paired snk₁ snk₂ D s₁ s₂) : Res.Pairs snk₁ snk₂ D (wcloseBody s₁) (wcloseBody s₂) := by
  unfold wcloseBody
  rw [h.wr]
  split
  · have hflush := flushBits_pairs h
    generalize flushBits s₁ = x, flushBits s₂ = y at hflush
    cases hflush with
    | ok a ht => exact .ok _ ht.releaseSink
    | raised e ht => exact .raised e ht.releaseSink
    | bound => exact .bound
  · exact h.raised _

theorem rcloseBody_pairs (h : Paired snk₁ snk₂ D s₁ s₂) : Res.Pairs snk₁ snk₂ D (rcloseBody s₁) (rcloseBody s₂) := by
  unfold rcloseBody
  rw [h.rd]
  split
  · exact .ok _ { h with rd := rfl }
  · exact h.raised _

/-- The releases that follow an error end in states that show the same. -/
def Released (snk₁ snk₂ : List Byte) (t₁ t₂ : State) : Prop :=
  Follows (SameReport snk₁ snk₂) (releaseHeld t₁) (releaseHeld t₂)

theorem settled_follows {x y : Res Unit} (h : Res.Pairs snk₁ snk₂ D x y) :
    Follows (Paired snk₁ snk₂ Unrelated) (settled x) (settled y) := by
  cases h with
  | ok a h => exact .ok (h.mono trivial)
  | raised e h => exact .ok h
  | bound => exact fun _ h => nomatch h

theorem Paired.released (h : Paired snk₁ snk₂ D s₁ s₂) : Released snk₁ snk₂ s₁ s₂ := by
  have source : ∀ {u₁ u₂}, Paired snk₁ snk₂ Unrelated u₁ u₂ → Follows (SameReport snk₁ snk₂)
      (if u₁.rd.ropen then settled (rcloseBody u₁) else pure u₁)
      (if u₂.rd.ropen then settled (rcloseBody u₂) else pure u₂) := by
    intro u₁ u₂ hu
    rw [hu.rd]
    split
    · intro t₁ ht₁
      obtain ⟨t₂, ht₂, ht⟩ := settled_follows (rcloseBody_pairs hu) t₁ ht₁
      exact ⟨t₂, ht₂, ht.toSameReport⟩
    · exact .ok hu.toSameReport
  unfold Released releaseHeld
  rw [h.wr]
  split
  · exact (settled_follows (wcloseBody_pairs h)).bind fun _ _ hu => source hu
  · exact source (h.mono trivial)

end Streams

/-- Where the sink is not held the releases write neither the environment nor a host register (R206). -/
theorem releaseHeld_of_closed {s t : State} (hw : s.wr.wopen = false) (h : releaseHeld s = .ok t) :
    t.env = s.env ∧ t.reg = s.reg :=
  releaseHeld_preserves (P := fun t => t.env = s.env ∧ t.reg = s.reg) (fun _ _ => id)
    (by rw [wcloseBody_free hw]; exact ⟨rfl, rfl⟩) ⟨rfl, rfl⟩ h

theorem SameReport.released (h : SameReport snk₁ snk₂ s₁ s₂) (hw₁ : s₁.wr.wopen = false) (hw₂ : s₂.wr.wopen = false) :
    Released snk₁ snk₂ s₁ s₂ := by
  intro t₁ ht₁
  obtain ⟨t₂, ht₂, -⟩ := releaseHeld_ok s₂
  obtain ⟨henv₁, hreg₁⟩ := releaseHeld_of_closed hw₁ ht₁
  obtain ⟨henv₂, hreg₂⟩ := releaseHeld_of_closed hw₂ ht₂
  obtain ⟨happended, herr, hcode, heos⟩ := h
  exact ⟨t₂, ht₂, by rwa [henv₁, henv₂], by rwa [hreg₁, hreg₂], by rwa [hreg₁, hreg₂], by rwa [hreg₁, hreg₂]⟩

/-! ### `ROPEN` and `WOPEN` -/

/-- The source is held and the sink is not. -/
structure SourceHeld (snk₁ snk₂ : List Byte) (s₁ s₂ : State) : Prop extends SameInput snk₁ snk₂ s₁ s₂ where
  rd : s₂.rd = s₁.rd
  free₁ : s₁.wr.wopen = false
  free₂ : s₂.wr.wopen = false

theorem ropenBody_matches (h : SameInput snk₁ snk₂ s₁ s₂) (hs₁ : s₁.idle = true) (hs₂ : s₂.idle = true) :
    Res.Matches (SourceHeld snk₁ snk₂) (Released snk₁ snk₂) (ropenBody s₁) (ropenBody s₂) := by
  obtain ⟨-, hr₁, hw₁⟩ := idle_iff.1 hs₁
  obtain ⟨-, hr₂, hw₂⟩ := idle_iff.1 hs₂
  have hdraws := congrArg List.tail h.draws
  have input : SameInput snk₁ snk₂ s₁.useDraw s₂.useDraw := { h with draws := hdraws }
  by_cases hd : s₁.env.draws.head? = some true
  · rw [ropenBody_fails hr₁ hd, ropenBody_fails hr₂ (h.draws ▸ hd)]
    exact .raised _ (input.toSameReport.released hw₁ hw₂)
  · rw [ropenBody_acquires hr₁ hd, ropenBody_acquires hr₂ (h.draws ▸ hd)]
    exact .ok _ { input with rd := rfl, free₁ := hw₁, free₂ := hw₂ }

theorem wopenBody_matches (h : SourceHeld snk₁ snk₂ s₁ s₂) :
    Res.Matches (Paired snk₁ snk₂ Unrelated) (Released snk₁ snk₂) (wopenBody s₁) (wopenBody s₂) := by
  have hdraws := congrArg List.tail h.draws
  have held : SourceHeld snk₁ snk₂ s₁.useDraw s₂.useDraw := { h with draws := hdraws }
  by_cases hd : s₁.env.draws.head? = some true
  · rw [wopenBody_fails h.free₁ hd, wopenBody_fails h.free₂ (h.draws ▸ hd)]
    exact .raised _ (held.toSameReport.released h.free₁ h.free₂)
  · rw [wopenBody_acquires h.free₁ hd, wopenBody_acquires h.free₂ (h.draws ▸ hd)]
    exact .ok _ { held with wr := rfl, contents := trivial }

/-! ### `PARSEHDR` -/

/-- The header read is the same, and every entry of `FREQ` is written. -/
structure SameHeader (c₁ c₂ : Contents) : Prop where
  freq : c₂.tab.freq = c₁.tab.freq
  filled : c₁.tab.freq.filled 256 = true
  osize : c₂.ctr.osize = c₁.ctr.osize
  nsym : c₂.ctr.nsym = c₁.ctr.nsym

theorem LineMeaning.applyTo_paired (x : LineMeaning) (h : Paired snk₁ snk₂ SameHeader s₁ s₂) :
    Paired snk₁ snk₂ SameHeader (x.applyTo s₁) (x.applyTo s₂) := by
  cases x with
  | size v => exact h.setCtr { h.contents with osize := rfl }
  | symbols v => exact h.setCtr { h.contents with nsym := rfl }
  | count sym f =>
    exact h.setTab { h.contents with
      freq := congrArg (·.write sym (BitVec.ofNat 32 f)) h.contents.freq
      filled := Memory.filled_write _ h.contents.filled }
  | nothing => exact h
  | sentinel => exact h
  | bad => exact h

theorem processLine_pairs (line : List Byte) (h : Paired snk₁ snk₂ SameHeader s₁ s₂) :
    Res.Pairs snk₁ snk₂ SameHeader (processLine line s₁) (processLine line s₂) := by
  rw [processLine_eq_outcome, processLine_eq_outcome, h.par]
  cases lineMeaning s₁.par.maxCount line with
  | sentinel => exact .ok _ h
  | bad => exact h.raised _
  | nothing => exact .ok _ h
  | size v => exact .ok _ (LineMeaning.applyTo_paired (.size v) h)
  | symbols v => exact .ok _ (LineMeaning.applyTo_paired (.symbols v) h)
  | count sym f => exact .ok _ (LineMeaning.applyTo_paired (.count sym f) h)

theorem headerLoop_pairs (k : Nat) (line : List Byte) (h : Paired snk₁ snk₂ SameHeader s₁ s₂) :
    Res.Pairs snk₁ snk₂ SameHeader (headerLoop k line s₁) (headerLoop k line s₂) := by
  induction k generalizing line s₁ s₂ with
  | zero => exact .bound
  | succ k ih =>
    refine (srcRead_pairs h).andThen fun r t₁ t₂ ht => ?_
    cases r with
    | none =>
      refine (processLine_pairs line ht.setEos).andThen fun done u₁ u₂ hu => ?_
      cases done
      exacts [hu.raised _, .ok _ hu]
    | some b =>
      dsimp only
      split
      · refine (processLine_pairs line ht).andThen fun done u₁ u₂ hu => ?_
        cases done
        exacts [ih [] hu, .ok _ hu]
      · exact ih _ ht

theorem parsehdrBody_pairs {D : Contents → Contents → Prop} (h : Paired snk₁ snk₂ D s₁ s₂) :
    Res.Pairs snk₁ snk₂ SameHeader (parsehdrBody s₁) (parsehdrBody s₂) := by
  unfold parsehdrBody State.canReadBytes
  rw [h.rd, h.srcLeft]
  split
  · exact headerLoop_pairs _ [] { h with
      contents := { freq := rfl, filled := filled_fill 256 0#32, osize := rfl, nsym := rfl } }
  · exact h.raised _

/-! ### `BUILDTREE` -/

/-- A link to no record, or to one below `m`. -/
def LinkBelow (m : Nat) (id : NodeId) : Prop := id = NONE ∨ id.toNat < m

/-- The trees built are the same: the root, and every record below `nnodes`, each of which is written and links to none
beyond. -/
structure SameBuild (c₁ c₂ : Contents) : Prop extends SameHeader c₁ c₂ where
  nnodes : c₂.ctr.nnodes = c₁.ctr.nnodes
  root : c₂.ctr.root = c₁.ctr.root
  result : c₂.result = c₁.result
  records : SameRecords c₁.ctr.nnodes.toNat c₁.tab.node c₂.tab.node
  rooted : LinkBelow c₁.ctr.nnodes.toNat c₁.ctr.root
  closed : ∀ id : NodeId, id.toNat < c₁.ctr.nnodes.toNat → ∃ n, readNode c₁.tab.node id = .ok n ∧
    LinkBelow c₁.ctr.nnodes.toNat n.left ∧ LinkBelow c₁.ctr.nnodes.toNat n.right

/-- A record made by `BUILDTREE` links to none but earlier ones (R182 to R184). -/
theorem Records.links_below {pairs : List (Nat × Count)} {m : Nat} {node : Memory Node} {id : NodeId}
    (h : Records pairs m node) (hm : m ≤ Config.nodeCap) (hid : id.toNat < m) :
    ∃ n, readNode node id = .ok n ∧ LinkBelow m n.left ∧ LinkBelow m n.right := by
  have hne : id ≠ NONE := by
    rintro rfl
    exact absurd (hid.trans_le hm) (by decide)
  rcases Nat.lt_or_ge id.toNat pairs.length with hi | hi
  · obtain ⟨e, -, he⟩ := h.leaf _ hi hid
    exact ⟨_, readNode_ok.2 ⟨hne, he⟩, .inl rfl, .inl rfl⟩
  · obtain ⟨n, -, -, hn, -, -, hl, hr, -⟩ := h.internal _ hi hid
    exact ⟨n, readNode_ok.2 ⟨hne, hn⟩, .inr (hl.trans hid), .inr (hr.trans hid)⟩

theorem Built.nnodes_le {s t : State} (h : Built s (presentPairs s.tab.freq) t) :
    t.ctr.nnodes.toNat ≤ Config.nodeCap := by
  by_cases hne : presentPairs s.tab.freq = []
  · rw [(h.none hne).2]
    exact Nat.zero_le _
  · have hle := length_presentPairs_le s.tab.freq
    rw [(h.tree hne).2.1, Config.nodeCap]
    omega

theorem Built.root_below {s t : State} (h : Built s (presentPairs s.tab.freq) t) :
    LinkBelow t.ctr.nnodes.toNat t.ctr.root := by
  by_cases hne : presentPairs s.tab.freq = []
  · exact .inl (h.none hne).1
  · have hpos := List.length_pos_iff.2 hne
    obtain ⟨hroot, hnodes, -⟩ := h.tree hne
    exact .inr (by omega)

/-- What a `BUILDTREE` leaves of the blocks it began in. -/
theorem Paired.built {D D' : Contents → Contents → Prop} {pairs₁ pairs₂ : List (Nat × Count)}
    (h : Paired snk₁ snk₂ D s₁ s₂) (built₁ : Built s₁ pairs₁ t₁) (built₂ : Built s₂ pairs₂ t₂)
    (hD : D' t₁.contents t₂.contents) : Paired snk₁ snk₂ D' t₁ t₂ where
  appended := by rw [built₁.frame.env, built₂.frame.env]; exact h.appended
  err := by rw [built₁.reg, built₂.reg]; exact h.err
  errcode := by rw [built₁.reg, built₂.reg]; exact h.errcode
  eos := by rw [built₁.reg, built₂.reg]; exact h.eos
  par := by rw [built₁.frame.par, built₂.frame.par]; exact h.par
  src := by rw [built₁.frame.env, built₂.frame.env]; exact h.src
  srcPos := by rw [built₁.frame.env, built₂.frame.env]; exact h.srcPos
  draws := by rw [built₁.frame.env, built₂.frame.env]; exact h.draws
  freeCtr := by rw [built₁.frame.env, built₂.frame.env]; exact h.freeCtr
  rd := by rw [built₁.frame.rd, built₂.frame.rd]; exact h.rd
  wr := by rw [built₁.frame.wr, built₂.frame.wr]; exact h.wr
  contents := hD

theorem buildtreeBody_pairs (h : Paired snk₁ snk₂ SameHeader s₁ s₂) :
    Res.Pairs snk₁ snk₂ SameBuild (buildtreeBody s₁) (buildtreeBody s₂) := by
  have hfreq : s₂.tab.freq = s₁.tab.freq := h.contents.freq
  have hfilled : s₁.tab.freq.filled 256 = true := h.contents.filled
  obtain ⟨t₁, ht₁, built₁⟩ := buildTree_built (symbolsPresent_of_filled hfilled)
  obtain ⟨t₂, ht₂, built₂⟩ := buildTree_built (s := s₂) (symbolsPresent_of_filled (hfreq ▸ hfilled))
  obtain ⟨t, ht, hnodes, hroot, hrecords⟩ :=
    buildTree_sameTree (s₂ := s₂) (by rw [h.par]) (fun i _ => by rw [hfreq]) t₁ ht₁
  obtain rfl := Except.ok.inj (ht₂.symm.trans ht)
  rw [buildtreeBody, buildtreeBody, ht₁, ht₂]
  exact .ok () (h.built built₁ built₂ {
    freq := built₂.frame.freq.trans (hfreq.trans built₁.frame.freq.symm)
    filled := (congrArg (·.filled 256) built₁.frame.freq).trans hfilled
    osize := built₂.frame.osize.trans (h.contents.osize.trans built₁.frame.osize.symm)
    nsym := built₂.frame.nsym.trans (h.contents.nsym.trans built₁.frame.nsym.symm)
    nnodes := hnodes.symm
    root := hroot.symm
    result := by rw [State.contents, State.contents, built₁.reg, built₂.reg, hroot]
    records := fun i hi => (hrecords i hi).symm
    rooted := built₁.root_below
    closed := fun _ => built₁.records.links_below built₁.nnodes_le })

/-! ### `WALK` -/

/-- The symbols decoded and the place of the walk are the same too. -/
structure SameDecoded (c₁ c₂ : Contents) : Prop extends SameBuild c₁ c₂ where
  decoded : c₂.ctr.decoded = c₁.ctr.decoded
  cur : c₂.ctr.cur = c₁.ctr.cur

/-- Inside the walk the root and the walk's place name records. -/
structure SameWalk (c₁ c₂ : Contents) : Prop extends SameDecoded c₁ c₂ where
  rootBelow : c₁.ctr.root.toNat < c₁.ctr.nnodes.toNat
  curBelow : c₁.ctr.cur.toNat < c₁.ctr.nnodes.toNat

theorem emitRepeat_pairs (k : Nat) (b : Byte) (h : Paired snk₁ snk₂ SameDecoded s₁ s₂) :
    Res.Pairs snk₁ snk₂ SameDecoded (emitRepeat k b s₁) (emitRepeat k b s₂) := by
  induction k generalizing s₁ s₂ with
  | zero => exact .ok _ h
  | succ k ih =>
    refine (snkWrite_pairs b h).andThen fun _ t₁ t₂ ht => ih (ht.setCtr ?_)
    exact { ht.contents with decoded := congrArg (· + 1#32) ht.contents.decoded }

/-- A record that the walk reads is the same in both. -/
theorem SameBuild.readNode {id : NodeId} (h : SameBuild s₁.contents s₂.contents)
    (hid : id.toNat < s₁.ctr.nnodes.toNat) :
    ∃ n, readNode s₁.tab.node id = .ok n ∧ readNode s₂.tab.node id = .ok n ∧
      LinkBelow s₁.ctr.nnodes.toNat n.left ∧ LinkBelow s₁.ctr.nnodes.toNat n.right := by
  obtain ⟨n, hn, hlinks⟩ := h.closed id hid
  exact ⟨n, hn, (h.records.readNode hid).trans hn, hlinks⟩

theorem walkStep_pairs (b : Bool) (h : Paired snk₁ snk₂ SameWalk s₁ s₂) :
    Res.Pairs snk₁ snk₂ SameWalk (walkStep b s₁) (walkStep b s₂) := by
  have hwalk := h.contents
  have hcur : s₂.ctr.cur = s₁.ctr.cur := hwalk.cur
  obtain ⟨n, hn₁, hn₂, hleft, hright⟩ := hwalk.readNode (id := s₁.ctr.cur) hwalk.curBelow
  have hnext : LinkBelow s₁.ctr.nnodes.toNat (if b then n.right else n.left) := by
    cases b
    exacts [hleft, hright]
  unfold walkStep
  rw [hcur, hn₁, hn₂]
  dsimp only [Res.lift_ok, Res.andThen_ok]
  generalize (if b = true then n.right else n.left) = next at hnext
  split
  · exact .raised _ (h.setCtr trivial)
  · next hne =>
    have hbelow := hnext.resolve_left hne
    have moved : Paired snk₁ snk₂ SameWalk (s₁.setCtr { s₁.ctr with cur := next })
        (s₂.setCtr { s₂.ctr with cur := next }) := h.setCtr { hwalk with cur := rfl, curBelow := hbelow }
    obtain ⟨m, hm₁, hm₂, -⟩ := hwalk.readNode hbelow
    rw [State.setCtr_tab, State.setCtr_tab, hm₁, hm₂]
    dsimp only [Res.lift_ok, Res.andThen_ok]
    cases m.kind with
    | internal => exact .ok () moved
    | leaf =>
      refine (snkWrite_pairs m.symbol moved).andThen fun _ t₁ t₂ ht => .ok () (ht.setCtr ?_)
      exact { ht.contents with
        decoded := congrArg (· + 1#32) ht.contents.decoded
        cur := ht.contents.root
        curBelow := ht.contents.rootBelow }

theorem walkLoop_pairs (k : Nat) (h : Paired snk₁ snk₂ SameWalk s₁ s₂) :
    Res.Pairs snk₁ snk₂ SameWalk (walkLoop k s₁) (walkLoop k s₂) := by
  induction k generalizing s₁ s₂ with
  | zero => exact .bound
  | succ k ih =>
    have hdecoded : s₂.ctr.decoded = s₁.ctr.decoded := h.contents.decoded
    have hosize : s₂.ctr.osize = s₁.ctr.osize := h.contents.osize
    unfold walkLoop
    rw [hdecoded, hosize]
    split
    · refine (readBit_pairs h).andThen fun r t₁ t₂ ht => ?_
      cases r with
      | none => exact .ok () ht.setEos
      | some b => exact (walkStep_pairs b ht).andThen fun _ _ _ hu => ih hu
    · exact .ok () h

theorem Paired.reportDecoded (h : Paired snk₁ snk₂ SameDecoded s₁ s₂) :
    Paired snk₁ snk₂ SameDecoded (reportDecoded s₁) (reportDecoded s₂) :=
  h.setResult { h.contents with result := h.contents.decoded }

theorem walkBody_internal {s : State} {n : Node} (hcan : s.canWalk = true) (hn : readNode s.tab.node s.ctr.root = .ok n)
    (hk : n.kind = .internal) :
    walkBody s = (walkLoop (s.bitsLeft + 1) (startWalk s)).andThen fun _ u => .ok () (reportDecoded u) :=
  walkBody_links (l := .unexplored) (r := .unexplored) hcan (linksAt_node.2 ⟨n, hn, hk, rfl, rfl⟩)

theorem walkBody_pairs (h : Paired snk₁ snk₂ SameBuild s₁ s₂) :
    Res.Pairs snk₁ snk₂ SameDecoded (walkBody s₁) (walkBody s₂) := by
  have hbuild := h.contents
  have hroot : s₂.ctr.root = s₁.ctr.root := hbuild.root
  have hosize : s₂.ctr.osize = s₁.ctr.osize := hbuild.osize
  have hcan : s₂.canWalk = s₁.canWalk := by rw [State.canWalk, State.canWriteBytes, h.rd, h.wr]; rfl
  have hbits : s₂.bitsLeft = s₁.bitsLeft := by rw [State.bitsLeft, State.bitsLeft, h.rd, h.srcLeft]
  have started : Paired snk₁ snk₂ SameDecoded (startWalk s₁) (startWalk s₂) :=
    h.setCtr { hbuild with decoded := rfl, cur := hroot }
  by_cases hcan₁ : s₁.canWalk = true
  case neg =>
    rw [walkBody, walkBody, if_neg hcan₁, if_neg (hcan ▸ hcan₁)]
    exact h.raised _
  have hcan₂ := hcan.trans hcan₁
  rcases hbuild.rooted with hnone | hbelow
  · rw [walkBody_none hcan₁ hnone, walkBody_none hcan₂ (hroot.trans hnone)]
    exact .ok () (started.setResult { started.contents with result := rfl })
  · obtain ⟨n, hn₁, hn₂, -⟩ := hbuild.readNode (id := s₁.ctr.root) hbelow
    rw [← hroot] at hn₂
    cases hk : n.kind with
    | leaf =>
      rw [walkBody_leaf hcan₁ (treeAt_leaf.2 ⟨n, hn₁, hk, rfl⟩), walkBody_leaf hcan₂ (treeAt_leaf.2 ⟨n, hn₂, hk, rfl⟩),
        hosize]
      exact (emitRepeat_pairs _ _ started).andThen fun _ _ _ ht => .ok () ht.reportDecoded
    | internal =>
      rw [walkBody_internal hcan₁ hn₁ hk, walkBody_internal hcan₂ hn₂ hk, hbits]
      have walking : Paired snk₁ snk₂ SameWalk (startWalk s₁) (startWalk s₂) :=
        started.mono { started.contents with rootBelow := hbelow, curBelow := hbelow }
      exact (walkLoop_pairs _ walking).andThen fun _ _ _ ht =>
        .ok () (ht.mono ht.contents.toSameDecoded).reportDecoded

/-! ### `DECOMPRESS` -/

/-- The parts of `DECOMPRESS`, from two free blocks with the same input (R206). -/
theorem decompressParts_matches (h : SameInput snk₁ snk₂ s₁ s₂) (hs₁ : s₁.idle = true) (hs₂ : s₂.idle = true) :
    Res.Matches (Paired snk₁ snk₂ SameDecoded) (Released snk₁ snk₂) (runParts decompressParts s₁)
      (runParts decompressParts s₂) := by
  refine (ropenBody_matches h hs₁ hs₂).andThen fun _ _ _ held => ?_
  refine (wopenBody_matches held).andThen fun _ _ _ paired => ?_
  refine Res.Matches.mono ?_ fun _ _ => Paired.released (D := Unrelated)
  refine (parsehdrBody_pairs paired).andThen fun _ _ _ parsed => ?_
  refine (buildtreeBody_pairs parsed).andThen fun _ _ _ built => ?_
  refine (walkBody_pairs built).andThen fun _ _ _ walked => ?_
  refine (wcloseBody_pairs walked).andThen fun _ _ _ closed => ?_
  exact (rcloseBody_pairs closed).andThen fun _ _ _ freed => .ok () freed

theorem composite_releases {ps : List (State → Res Unit)} {s t u : State} {e : ErrCode} (hs : s.idle = true)
    (h : runParts ps s = .raised e t) (hu : releaseHeld t = .ok u) : composite ps s = .raised e u := by
  obtain ⟨-, hr, hw⟩ := idle_iff.1 hs
  simp [composite, hr, hw, h, hu]

theorem composite_stops {ps : List (State → Res Unit)} {s : State} {f : Fault} (hs : s.idle = true)
    (h : runParts ps s = .stop f) : composite ps s = .stop f := by
  obtain ⟨-, hr, hw⟩ := idle_iff.1 hs
  simp [composite, hr, hw, h]

/-- Composites of parts that end alike end alike, their releases included (R206). -/
theorem composite_matches {ps : List (State → Res Unit)} {R : State → State → Prop} (hs₁ : s₁.idle = true)
    (hs₂ : s₂.idle = true) (h : Res.Matches R (Released snk₁ snk₂) (runParts ps s₁) (runParts ps s₂)) :
    Res.Matches R (SameReport snk₁ snk₂) (composite ps s₁) (composite ps s₂) := by
  generalize h₁ : runParts ps s₁ = x, h₂ : runParts ps s₂ = y at h
  cases h with
  | ok a ht =>
    rw [composite_ok hs₁ h₁, composite_ok hs₂ h₂]
    exact .ok () ht
  | raised e ht =>
    obtain ⟨u₁, hu₁, -⟩ := releaseHeld_ok _
    obtain ⟨u₂, hu₂, hu⟩ := ht u₁ hu₁
    rw [composite_releases hs₁ h₁ hu₁, composite_releases hs₂ h₂ hu₂]
    exact .raised e hu
  | bound =>
    rw [composite_stops hs₁ h₁, composite_stops hs₂ h₂]
    exact .bound

/-- Settles O44: the parts are followed side by side; neither run meets a loop's bound, so both complete. -/
theorem decompressIgnoresEarlierState : Obligations.DecompressIgnoresEarlierState := by
  intro s₁ s₂ hs₁ hs₂ hpar hsrc hpos hdraws hfree hcode
  have herr₁ := (idle_iff.1 hs₁).1
  have herr₂ := (idle_iff.1 hs₂).1
  have input : SameInput s₁.env.snk s₂.env.snk (clearResultFlags s₁) (clearResultFlags s₂) :=
    { appended := ⟨[], (List.append_nil _).symm, (List.append_nil _).symm⟩
      err := herr₂.trans herr₁.symm
      errcode := hcode.symm
      eos := rfl
      par := hpar.symm
      src := hsrc.symm
      srcPos := hpos.symm
      draws := hdraws.symm
      freeCtr := hfree.symm }
  have hends := decompressBody_ends (clearResultFlags s₁)
  have hmatches := composite_matches (s₁ := clearResultFlags s₁) (s₂ := clearResultFlags s₂) hs₁ hs₂
    (decompressParts_matches input hs₁ hs₂)
  generalize h₁ : composite decompressParts (clearResultFlags s₁) = x,
    h₂ : composite decompressParts (clearResultFlags s₂) = y at hmatches
  rw [decompressBody, h₁] at hends
  cases hmatches with
  | ok a ht =>
    obtain ⟨out, hout₁, hout₂⟩ := ht.appended
    have hsame := ht.contents
    exact ⟨_, _, out, issue_ok herr₁ h₁, issue_ok herr₂ h₂, hout₁, hout₂, ht.err.symm, ht.errcode.symm, ht.eos.symm,
      fun _ => ⟨hsame.osize.symm, hsame.nsym.symm, hsame.freq.symm, hsame.nnodes.symm, hsame.root.symm,
        fun i hi => (hsame.records i hi).symm, hsame.cur.symm, hsame.decoded.symm, hsame.result.symm,
        congrArg Writer.snkCnt ht.wr.symm⟩⟩
  | raised e ht =>
    obtain ⟨out, hout₁, hout₂⟩ := ht.appended
    exact ⟨_, _, out, issue_raised herr₁ h₁, issue_raised herr₂ h₂, hout₁, hout₂, rfl, rfl, ht.eos.symm, (nomatch ·)⟩
  | bound => exact absurd rfl hends

end Sys2Proof.Machine
end
